-- ==== Sys2Proof/Word.lean ====
section
/-! DEFINITION. Word.lean: the words of SHN-CORE. Three widths exist (spec 10_state.md, 20_memory.md R40):
bytes of the input and of the header blob, `W` = 32-bit cells of the history, the mean store and the coefficient
file, and 16-bit cells of the output frame. A bit string is a list of bits, the first bit of the stream first. -/

namespace Sys2Proof

/-- A byte of the input `IN` or of `BLOB` (R40). -/
abbrev Byte := BitVec 8

/-- A `W` = 32-bit two's-complement cell (R183): history, mean store, coefficient file, accumulators.
PRESUMED width (decision D3; log 17). -/
abbrev Cell := BitVec 32

/-- A 16-bit signed cell of `OUT` (R34). -/
abbrev Sample := BitVec 16

/-- A string of bits in stream order (R41). -/
abbrev Bits := List Bool

/-- One addressed store of `W`-bit cells, as a list of (index, cell) pairs in one canonical form:
indices strictly rising. An index that is not listed holds no value (log 9). -/
abbrev Memory := List (Nat × Cell)

end Sys2Proof
end

