-- ==== Sys2Proof/Config.lean ====
section
/-! DEFINITION. Config.lean: what an implementation of SHN-CORE fixes and the spec leaves OPEN
(00_scope.md R6 rows `NMEAN_MAX`, `NWRAP_MAX`; 92_eei_decisions.md D17; 93_implementation_defined.md U11).
These are free values: the constant below has no body, so no proof can see which implementation it is
(log 11). The open function `cap_next` reads the state of the core and stands in Machine/Capacity.lean.
The parameters that the spec gives a value stand in Machine/Params.lean. -/

namespace Sys2Proof.Config

/-- The capacities of an implementation (D17) and whether it can provide a storage of a given size
(60_exceptions.md R201, row 18 AllocFail). `none` stands for an infinite capacity. -/
structure Limits where
  /-- `NWRAP_MAX`: capacity of the wrap region and of the coefficient file (R15, R105). -/
  nwrapMax : Option Nat
  /-- `NMEAN_MAX`: capacity of the mean store (R16, R106). -/
  nmeanMax : Option Nat
  /-- R105: can the histories of `channels` channels of `blocksize + nwrap` cells be stored. -/
  histStorage : (channels blocksize nwrap : Nat) → Bool
  /-- R106: can the mean stores of `channels` channels of `entries` cells be stored. -/
  meanStorage : (channels entries : Nat) → Bool
  /-- R123: can a pending buffer of `cap` bytes be held. -/
  pendingStorage : (cap : Nat) → Bool
  deriving Inhabited

/-- The limits of an implementation whose storage is unbounded: the reading D17 allows a model. -/
def Limits.unbounded : Limits where
  nwrapMax := none
  nmeanMax := none
  histStorage _ _ _ := true
  meanStorage _ _ := true
  pendingStorage _ := true

/-- The limits of THE implementation: a free value (no body). Every statement of the model holds for every
value of it (log 11). -/
opaque limits : Limits

end Sys2Proof.Config
end

