-- ==== Sys2Proof/Syntax.lean ====
section
/-! DEFINITION. Syntax.lean: the instructions of SHN-CORE, one constructor per row of spec/opcode_table.json, and
the operand fields an encoder writes after the opcode.

A command of the stream is a function code followed by operand fields (30_encoding.md R62). The operand fields have
no fixed place, width or number: how many there are and how each is coded depends on the state and on the fields
before it (R73), and the rules read them one by one while the command executes, so that a command may end in an
error with only some of them read (60_exceptions.md R204, R208). They are therefore no arguments of the
constructors: each meaning reads its fields from the stream at the bit cursor, as the rules do (DESIGN CHOICE, log 4).
An opcode is the string of bits that the row's `match` and `mask` fix. -/

namespace Sys2Proof

/-- The rows of the opcode table (30_encoding.md R61, R63, R64, R72). -/
inductive Instr
  /-- Function code 0: order-0 prediction, bias `coffset` (44_audio_commands.md R165). -/
  | diff0
  /-- Function code 1: order-1 prediction (R167). -/
  | diff1
  /-- Function code 2: order-2 prediction (R168). -/
  | diff2
  /-- Function code 3: order-3 prediction (R169). -/
  | diff3
  /-- Function code 4: end of the stream (43_interpreter_control.md R148). -/
  | quit
  /-- Function code 5: a new, not larger block size (R147). -/
  | blocksize
  /-- Function code 6: a new `bitshift` (R146). -/
  | bitshift
  /-- Function code 7: quantized linear prediction (R171). -/
  | qlpc
  /-- Function code 8: a block of zeros (R164). -/
  | zero
  /-- Function code 9: bytes to skip (R145). -/
  | verbatim
  /-- The illegal function codes 10 and 11, `0011x`; the bit `x` is the row's field (R72, R142). -/
  | illegal10or11
  /-- The illegal function codes from 12 on, `000...`; the rest of the code is the row's field (R72, R142). -/
  | illegal12up
  /-- The stream header; its opcode is the magic (R61, 41_header.md R100 to R112). -/
  | header
  deriving DecidableEq, Repr

/-- An adaptive operand as an encoder writes it (R71 `A(h)`): the value, and the `k` the encoder chose, which the
stream carries only when `version ≠ 0` (R75 `@k=`, R76). -/
structure Adaptive where
  k : Nat
  value : Nat
  deriving DecidableEq, Repr

/-- The operand fields of format CD (R69): DIFF0, DIFF1, DIFF2, DIFF3. -/
structure DiffFields where
  energy : Adaptive
  residuals : List Int
  deriving DecidableEq, Repr

/-- The operand fields of format CQ (R70): QLPC. The order's value is the number of coefficients. -/
structure QlpcFields where
  energy : Adaptive
  orderK : Nat
  coefs : List Int
  residuals : List Int
  deriving DecidableEq, Repr

/-- Fields 2 to 9, 11 and 12 of the header (R61); field 1 is the opcode and field 10 is constant. Fields 5 to 9 are
written only when `version > 0`. A blob entry is the value of a `U(8)` code, of which the low 8 bits are kept. -/
structure HeaderFields where
  version : Byte
  formatType : Adaptive
  channelCount : Adaptive
  blocksize : Adaptive
  maxLpcOrder : Adaptive
  nmean : Adaptive
  skipCount : Adaptive
  skipped : List Byte
  blob : List Nat
  deriving DecidableEq, Repr

end Sys2Proof
end

