-- ==== Sys2Proof/Machine/Params.lean ====
section
/-! DEFINITION. Machine/Params.lean: the parameters of 00_scope.md R6 to which the spec gives a value, under the
spec's names. Those that R6 marks as general knowledge, and wants as an argument of the model, are the fields of `General`;
the others are constants. A value that is a decision of the spec says so (PRESUMED), with its log entry. -/

namespace Sys2Proof.Config

/-- `FNSIZE`: Rice parameter of a command id. -/
abbrev fnSize : Nat := 2
/-- `ENERGYSIZE`: hint of the `residual_size` field. -/
abbrev energySize : Nat := 3
/-- `BITSHIFTSIZE`: Rice parameter of the BITSHIFT operand. -/
abbrev bitshiftSize : Nat := 2
/-- `LPCQSIZE`: hint of the QLPC order field. -/
abbrev lpcqSize : Nat := 2
/-- `LPCQUANT`: Rice parameter of a QLPC coefficient, and the QLPC quantization shift. -/
abbrev lpcQuant : Nat := 5
/-- `VERBATIM_BYTE_SIZE`: Rice parameter of one verbatim byte. -/
abbrev verbatimByteSize : Nat := 8
/-- `ADAPT_KSIZE`: Rice parameter of the `k` that precedes an adaptive value when `version ≠ 0`. -/
abbrev adaptKSize : Nat := 2
/-- `MAX_CHANNELS`. -/
abbrev maxChannels : Nat := 8
/-- `MAX_BLOCKSIZE`. -/
abbrev maxBlocksize : Nat := 65535
/-- `DEFAULT_BLOCKSIZE`: held when the header carries none. PRESUMED as the version-0 value (D31; log 35). -/
abbrev defaultBlocksize : Nat := 256
/-- `NWRAP_MIN`. -/
abbrev nwrapMin : Nat := 3
/-- `HEADER_BLOB_MIN`. -/
abbrev headerBlobMin : Nat := 44
/-- `HEADER_BLOB_LIM`, exclusive (90_conflicts.md C1). -/
abbrev headerBlobLim : Nat := 16384
/-- `MEAN_INIT`. -/
abbrev meanInit : Cell := 0
/-- `CAP_INIT`, in bytes. -/
abbrev capInit : Nat := 1024
/-- `MIN_CMD_BITS` = `3 + 2`. -/
abbrev minCmdBits : Nat := 5
/-- `SR_K_BIAS`: added to `k` by `read_signed`. The spec's value, on which it doubts its source (D9; log 19). -/
abbrev srKBias : Int := 0
/-- `ENERGY_ADAPTIVE`: `residual_size` is read adaptively. The spec's value, doubted by it (D10; log 20). -/
abbrev energyAdaptive : Bool := true
/-- `ORDER_ADAPTIVE`: the QLPC order is read adaptively. The spec's value, doubted by it (D10; log 20). -/
abbrev orderAdaptive : Bool := true
/-- The largest legal `bitshift` (R17, R146; decision D18; log 25). -/
abbrev maxBitshift : Nat := 31

/-! ## The parameters that are an argument -/

/-- The parameters that R6 marks "from general knowledge, not in source": "a named parameter the model should take as an
argument". The codings, the decoder, the encoder and the rules that use one take it from here. -/
structure General where
  /-- `VERBATIM_CKSIZE_SIZE`: Rice parameter of a verbatim byte count (D5). -/
  verbatimCkSize : Nat
  /-- `TYPESIZE`: hint of `internal_format_type`, which counts at version 0 only (D6). -/
  typeSize : Nat
  /-- `CHANSIZE`: hint of `channel_count`, which counts at version 0 only (D6). -/
  chanSize : Nat
  /-- `LPCQOFFSET_V2`: `lpcqoffset` when `version > 1` (D7). -/
  lpcqOffsetV2 : Nat
  /-- `TYPE_S16HL`: the number of the one supported format type (D8). -/
  typeS16HL : Nat
  /-- `FN_ID` (30_encoding.md R63): the commands in the order of their numbers, from 0 on (D2). -/
  fnId : List Instr
  deriving DecidableEq, Repr

/-- R63: the ten commands. -/
def commands : List Instr :=
  [.diff0, .diff1, .diff2, .diff3, .qlpc, .zero, .verbatim, .bitshift, .blocksize, .quit]

/-- R63: `FN_ID` gives each of the ten commands one of the numbers 0 to 9. -/
def General.legal (g : General) : Bool := decide (g.fnId.Perm commands)

/-- The values of SHN-CORE (R6, R63). PRESUMED (D2, log 14; D5 and D6, log 15; D7 and D8, log 16). -/
def general : General where
  verbatimCkSize := 5
  typeSize := 4
  chanSize := 0
  lpcqOffsetV2 := 16
  typeS16HL := 3
  fnId := [.diff0, .diff1, .diff2, .diff3, .quit, .blocksize, .bitshift, .qlpc, .zero, .verbatim]

end Sys2Proof.Config
end

