-- ==== Sys2Proof/WellFormed.lean ====
section
/-! DEFINITION. WellFormed.lean: which operand fields an encoder may write (30_encoding.md R61, R69 to R72). Every term
of `Instr` is well-formed: a row has no operand of its own. The checks below are the spec's own bounds on operand
values, and the counts that R69, R70 and R61 fix. -/

namespace Sys2Proof

/-- Every row of the table is an instruction the encoding can name. -/
def Instr.wf : Instr → Bool
  | .diff0 => true
  | .diff1 => true
  | .diff2 => true
  | .diff3 => true
  | .quit => true
  | .blocksize => true
  | .bitshift => true
  | .qlpc => true
  | .zero => true
  | .verbatim => true
  | .illegal10or11 => true
  | .illegal12up => true
  | .header => true

/-- The `residual_size` that an energy field gives at a version (44_audio_commands.md R161, R162). -/
def residualSizeOf (version : Byte) (energy : Nat) : Int :=
  if version = 0 then (energy : Int) - 1 else energy

/-- Format CD for a block of `blocksize` samples (R69): one residual a sample, and a Rice parameter that is not
negative (R72). -/
def DiffFields.wf (version : Byte) (blocksize : Nat) (f : DiffFields) : Bool :=
  f.residuals.length == blocksize && decide (0 ≤ residualSizeOf version f.energy.value + Config.srKBias)

/-- Format CQ (R70): as CD, and an order of at most `nwrap` (R72). -/
def QlpcFields.wf (version : Byte) (blocksize nwrap : Nat) (f : QlpcFields) : Bool :=
  f.residuals.length == blocksize && decide (0 ≤ residualSizeOf version f.energy.value + Config.srKBias)
    && decide (f.coefs.length ≤ nwrap)

/-- The operand of BITSHIFT (R66, R72). -/
def shiftWf (shift : Nat) : Bool := decide (shift ≤ Config.maxBitshift)

/-- The operand of BLOCKSIZE (R67, R72), `current` being the block size before the command. -/
def newBlocksizeWf (current : Nat) (size : Adaptive) : Bool :=
  decide (0 < size.value) && decide (size.value ≤ current) && decide (size.value ≤ Config.maxBlocksize)

/-- The header's parameter fields (R61 fields 4 to 9; 41_header.md R102, R103). -/
def HeaderFields.parametersWf (f : HeaderFields) : Bool :=
  decide (0 < f.channelCount.value) && decide (f.channelCount.value ≤ Config.maxChannels)
    && (f.version == 0 ||
        (decide (0 < f.blocksize.value) && decide (f.blocksize.value ≤ Config.maxBlocksize)
          && f.skipped.length == f.skipCount.value))

/-- The header's fields (R61; 41_header.md R102, R103, R106, R108), but for what its blob must hold. -/
def HeaderFields.wf (g : Config.General) (f : HeaderFields) : Bool :=
  f.parametersWf && f.formatType.value == g.typeS16HL
    && decide (Config.headerBlobMin ≤ f.blob.length) && decide (f.blob.length < Config.headerBlobLim)

/-- R104: the wrap length a header gives. -/
def HeaderFields.nwrap (f : HeaderFields) : Nat := max Config.nwrapMin (if f.version = 0 then 0 else f.maxLpcOrder.value)

/-- R103, R16: the `nmean` a header gives. -/
def HeaderFields.nmeanValue (f : HeaderFields) : Int := if f.version = 0 then -1 else f.nmean.value

/-- R103, R14: the block size a header gives. -/
def HeaderFields.blocksizeValue (f : HeaderFields) : Nat :=
  if f.version = 0 then Config.defaultBlocksize else f.blocksize.value

end Sys2Proof
end

