-- ==== Sys2Proof/Decode.lean ====
section
/-! DEFINITION. Decode.lean: bits and bytes of the stream (20_memory.md R41), the codings of a field as functions on
bit strings (30_encoding.md R71, 40_bit_cursor_rice.md R80, R85), the opcode table and the decoder (R63, R64), and
after them the encoder (R61 to R71). -/

namespace Sys2Proof

/-! ## Bits of the stream -/

/-- R41: which bit of a byte (bit 0 the least significant) is the stream's bit `p mod 8 = t`: the most significant
bit comes first. PRESUMED (decision D1, parameter `BIT_ORDER = msb_first`; log 13). -/
def bitOfByte (t : Nat) : Nat := 7 - t

/-- The eight bits of a byte in stream order. -/
def byteBits (b : Byte) : Bits := (List.range 8).map fun t => b.getLsbD (bitOfByte t)

/-- The bits of a byte sequence in stream order (R41). -/
def bitsOf (bytes : List Byte) : Bits := bytes.flatMap byteBits

/-- The loop of R80: `n` bits from the front of a bit string, most significant first, on top of the value `v`; the
value and the bits left, or nothing when fewer than `n` bits are there. -/
def takeBits : Nat → Nat → Bits → Option (Nat × Bits)
  | 0, v, bs => some (v, bs)
  | _ + 1, _, [] => none
  | n + 1, v, b :: bs => takeBits n (2 * v + b.toNat) bs

/-- The loop of R85: counts the zeros before the first one bit, on top of the count `q`; the count and the bits after
that one bit, or nothing when the string ends inside the run of zeros. -/
def takeUnary : Nat → Bits → Option (Nat × Bits)
  | _, [] => none
  | q, true :: bs => some (q, bs)
  | q, false :: bs => takeUnary (q + 1) bs

/-- `U(k)` at the front of a bit string (R71, R85): the value and the bits left. -/
def takeUnsigned (k : Nat) (bs : Bits) : Option (Nat × Bits) :=
  match takeUnary 0 bs with
  | none => none
  | some (q, bs) =>
    match takeBits k 0 bs with
    | none => none
    | some (r, bs) => some (q * 2 ^ k + r, bs)

/-- R86: the fold of an unsigned value to a signed one. -/
def unzigzag (u : Nat) : Int := if u % 2 = 0 then (u / 2 : Nat) else -((u + 1) / 2 : Nat)

/-! ## The opcode table and the decoder -/

/-- R48, R100: the magic, `"ajkg"`. -/
def magic : List Byte := [0x61, 0x6A, 0x6B, 0x67]

/-- R63: the number of a command (`FN_ID`); a row that is no command has none. -/
def Instr.fnNumber (g : Config.General) (i : Instr) : Option Nat := g.fnId.idxOf? i

/-- R63, R64, R72: the instruction a function code selects. -/
def Instr.ofFnNumber (g : Config.General) (n : Nat) : Instr :=
  match g.fnId[n]? with
  | some i => i
  | none => if n < 12 then .illegal10or11 else .illegal12up

/-- `RAW(n)` (R71): the low `n` bits of a value, most significant first. -/
def encRaw : Nat → Nat → Bits
  | 0, _ => []
  | n + 1, v => v.testBit n :: encRaw n v

/-- `U(k)` (R71, R89): `q` zeros, a one, then `k` bits. -/
def encU (k v : Nat) : Bits := List.replicate (v / 2 ^ k) false ++ true :: encRaw k (v % 2 ^ k)

/-- R64: the rows of the command table, each with the bits its `match` and `mask` fix, first bit first: for a command the
pattern `U(2)` gives its number (R63), then the illegal numbers 10 and 11, and those from 12 on. (Laws/Codec.lean writes the
rows out for the numbers of R63.) -/
def opcodeRows (g : Config.General) : List (Bits × Instr) :=
  (g.fnId.zipIdx.map fun p => (encU Config.fnSize p.2, p.1)) ++
    [([false, false, true, true], .illegal10or11), ([false, false, false], .illegal12up)]

/-- Why a bit string is no instruction. -/
inductive Reject
  /-- The string ends inside the opcode: the read that needs the missing bit is an Overread (R80, R100). -/
  | truncated
  /-- The stream does not begin with the magic (R100). -/
  | badMagic
  deriving DecidableEq, Repr

/-- R64: the command at a command boundary and the number of bits of its opcode. -/
def decodeCommand (g : Config.General) (bs : Bits) : Except Reject (Instr × Nat) :=
  match (opcodeRows g).find? fun row => row.1.isPrefixOf bs with
  | some row => .ok (row.2, row.1.length)
  | none => .error .truncated

/-- R100: compares the string, byte by byte, with the bytes still expected. -/
def matchMagic : List Byte → Bits → Except Reject Unit
  | [], _ => .ok ()
  | b :: expected, bs =>
    match takeBits 8 0 bs with
    | none => .error .truncated
    | some (v, bs) => if v = b.toNat then matchMagic expected bs else .error .badMagic

/-- R100: the header's opcode at the start of a stream. -/
def decodeHeader (bs : Bits) : Except Reject (Instr × Nat) :=
  match matchMagic magic bs with
  | .ok _ => .ok (.header, 32)
  | .error r => .error r

/-- The decoder: the instruction at the cursor, and how many bits its opcode has. Before the header is parsed the only
instruction is the header, afterwards the commands (42_call_and_input_buffer.md R126). -/
def decode (g : Config.General) (headerParsed : Bool) (bs : Bits) : Except Reject (Instr × Nat) :=
  if headerParsed then decodeCommand g bs else decodeHeader bs

/-! ## The encoder -/

/-- R86, R89: the unsigned value of a signed one. -/
def zigzag (r : Int) : Nat := if 0 ≤ r then (2 * r).toNat else (-2 * r - 1).toNat

/-- `S(k)` (R71, R86). -/
def encS (k : Int) (r : Int) : Bits := encU (k + Config.srKBias).toNat (zigzag r)

/-- `A(h)` (R71, R87, R89). -/
def encA (version : Byte) (hint : Nat) (f : Adaptive) : Bits :=
  if version = 0 then encU hint f.value else encU Config.adaptKSize f.k ++ encU f.k f.value

/-- The function code of a command (R62, R63): the code of its number. -/
def encFn (g : Config.General) (i : Instr) : Bits := encU Config.fnSize ((i.fnNumber g).getD 0)

/-- The opcode of an instruction: the fixed bits of its row. -/
def encode (g : Config.General) : Instr → Bits
  | .diff0 => encFn g .diff0
  | .diff1 => encFn g .diff1
  | .diff2 => encFn g .diff2
  | .diff3 => encFn g .diff3
  | .quit => encFn g .quit
  | .blocksize => encFn g .blocksize
  | .bitshift => encFn g .bitshift
  | .qlpc => encFn g .qlpc
  | .zero => encFn g .zero
  | .verbatim => encFn g .verbatim
  | .illegal10or11 => [false, false, true, true]
  | .illegal12up => [false, false, false]
  | .header => bitsOf magic

/-- The energy field (R69; `ENERGY_ADAPTIVE`, decision D10). -/
def encEnergy (version : Byte) (f : Adaptive) : Bits :=
  if Config.energyAdaptive then encA version Config.energySize f else encU Config.energySize f.value

/-- The order field (R70; `ORDER_ADAPTIVE`, decision D10). -/
def encOrder (version : Byte) (f : Adaptive) : Bits :=
  if Config.orderAdaptive then encA version Config.lpcqSize f else encU Config.lpcqSize f.value

/-- The residuals of a block, each `S(residual_size)` (R69, R70). -/
def encResiduals (version : Byte) (energy : Nat) (residuals : List Int) : Bits :=
  residuals.flatMap (encS (residualSizeOf version energy))

/-- The operand fields of format CD (R69). -/
def encDiff (version : Byte) (f : DiffFields) : Bits :=
  encEnergy version f.energy ++ encResiduals version f.energy.value f.residuals

/-- The operand fields of format CQ (R70). -/
def encQlpc (version : Byte) (f : QlpcFields) : Bits :=
  encEnergy version f.energy ++ encOrder version ⟨f.orderK, f.coefs.length⟩
    ++ f.coefs.flatMap (encS Config.lpcQuant) ++ encResiduals version f.energy.value f.residuals

/-- The operand field of format CS (R66). -/
def encShift (shift : Nat) : Bits := encU Config.bitshiftSize shift

/-- The operand field of format CB (R67), `current` being the block size before the command. The hint is
`log2floor(current)`: PRESUMED (decision D24; log 30). -/
def encBlocksize (version : Byte) (current : Nat) (size : Adaptive) : Bits := encA version current.log2 size

/-- The operand fields of format CV (R68); a byte is the value of a `U(8)` code. -/
def encVerbatim (g : Config.General) (bytes : List Nat) : Bits :=
  encU g.verbatimCkSize bytes.length ++ bytes.flatMap (encU Config.verbatimByteSize)

/-- Fields 2 to 9 of the header (R61). The hint of fields 5 to 8 is immaterial. -/
def encHeaderParameters (g : Config.General) (f : HeaderFields) : Bits :=
  encRaw 8 f.version.toNat ++ encA f.version g.typeSize f.formatType
    ++ encA f.version g.chanSize f.channelCount
    ++ (if f.version = 0 then []
        else encA f.version 0 f.blocksize ++ encA f.version 0 f.maxLpcOrder ++ encA f.version 0 f.nmean
          ++ encA f.version 0 f.skipCount ++ bitsOf f.skipped)

/-- Fields 2 to 12 of the header (R61); field 10 is the function code of VERBATIM. -/
def encHeader (g : Config.General) (f : HeaderFields) : Bits :=
  encHeaderParameters g f ++ encFn g .verbatim ++ encVerbatim g f.blob

/-! ## Words of the opcode table -/

/-- Up to eight bits as a byte, the first one most significant, short strings filled with zeros. -/
def packByte (bs : Bits) : Byte := BitVec.ofNat 8 ((List.range 8).foldl (fun v t => 2 * v + (bs.getD t false).toNat) 0)

/-- Bits as bytes (R41), the last byte padded with zeros. -/
def packBits : Bits → List Byte
  | [] => []
  | a :: b :: c :: d :: e :: f :: g :: h :: rest => packByte [a, b, c, d, e, f, g, h] :: packBits rest
  | short => [packByte short]

/-- The bits of a word of spec/opcode_table.json in stream order (log 6): a command's word is the 5-bit window `w[4:0]`,
`w[4]` first; the header's word is the first 32 bits, bit 31 first. Zero bits follow (64 of them, so that every byte the
core may look at for an opcode is there). -/
def tableWordBits (nbits w : Nat) : Bits :=
  (if nbits ≤ 8 then encRaw 5 w else encRaw nbits w) ++ List.replicate 64 false

/-- The bytes that hold a word of the opcode table and the zeros after it. -/
def tableWordBytes (nbits w : Nat) : List Byte := packBits (tableWordBits nbits w)

/-- The instruction that the decoder reads from a word of the opcode table: a command where the word is a 5-bit window,
the header where it is longer. -/
def decodeTableWord (nbits w : Nat) : Option Instr :=
  match decode Config.general (decide (nbits ≤ 8)) (bitsOf (tableWordBytes nbits w)) with
  | .ok (i, _) => some i
  | .error _ => none

end Sys2Proof
end

