-- ==== Sys2Proof/Machine/Arith.lean ====
section
/-! DEFINITION. Machine/Arith.lean: the operators of 00_scope.md R7 and the arithmetic laws of 44_audio_commands.md
R183, R184. Values are integers; a result that is stored in a cell is computed exactly and then narrowed. -/

namespace Sys2Proof.Machine

/-- `wrap32(v)`, as the cell that holds it (R7, R183; decision D3, log 17). -/
def wrap32 (v : Int) : Cell := BitVec.ofInt 32 v

/-- `tdiv(a, b)`: the quotient truncated toward zero (R7, R184; decision D4, log 18). -/
def tdiv (a b : Int) : Int := Int.tdiv a b

/-- `asr(v, n)` = `floor(v / 2^n)` (R7, R184; decision D4, log 18). -/
def asr (v : Int) (n : Nat) : Int := v / (2 ^ n : Nat)

/-- `shl32(v, n)` = `wrap32(v · 2^n)` (R7, R184). -/
def shl32 (v : Int) (n : Nat) : Cell := wrap32 (v * (2 ^ n : Nat))

/-- `clip16(v)` as an integer (R7, R191). -/
def clip16 (v : Int) : Int := if v < -32768 then -32768 else if 32767 < v then 32767 else v

/-- A clipped value as an output cell (R190). -/
def toSample (v : Int) : Sample := BitVec.ofInt 16 (clip16 v)

/-- `log2floor(n)` (R7). -/
def log2floor (n : Nat) : Nat := n.log2

/-- The little-endian value of bytes, the least significant first: `le16`, `le32` (R7, R42). -/
def leBytes : List Byte → Nat
  | [] => 0
  | b :: bs => b.toNat + 256 * leBytes bs

end Sys2Proof.Machine
end

