-- ==== Sys2Proof/Machine/State.lean ====
section
/-! DEFINITION. Machine/State.lean: the state of one instance of SHN-CORE (10_state.md), the causes of an error
(60_exceptions.md R201), the requests and results of the transaction interface (42_call_and_input_buffer.md R120),
and the state after stream open (10_state.md R36, 70_reset_and_hazards.md R230). -/

namespace Sys2Proof.Machine

/-- The error causes of R201, in the order of their numbers. -/
inductive Cause
  | badMagic
  | badChannelCount
  | badHeaderBlocksize
  | unknownAudioType
  | missingHeaderVerbatim
  | badHeaderBlobSize
  | badRiffTag
  | badWaveTag
  | fmtChunkTooShort
  | notPcm
  | badBitsPerSample
  | blobOverrun
  | unknownCommand
  | overread
  | blocksizeIncrease
  | badBlocksize
  | lpcOrderTooLarge
  | allocFail
  | badBitshift
  | negativeRiceParameter
  deriving DecidableEq, Repr

/-- The kinds of R202. -/
inductive Kind
  | fatal
  | unsupported
  | invalidArgument
  | resource
  deriving DecidableEq, Repr

/-- The end of a decode pass that did not raise (R126, R140). -/
inductive PassOutcome
  | noFrame
  | frame
  deriving DecidableEq, Repr

/-- The result of a decode call (R120). -/
inductive CallResult
  | needMoreInput (consumed : Nat)
  | noFrame (consumed : Nat)
  | postQuit (consumed : Nat)
  | frame (consumed blocksize channels : Nat) (out : List Sample)
  | error (cause : Cause)
  deriving DecidableEq, Repr

/-- What the host asks of the core (R10, R120, R230, R231). The queue of requests is the model's own (log 2, 38). -/
inductive Request
  /-- A decode call with its chunk; an empty chunk is a flush (R122). -/
  | decode (chunk : List Byte)
  /-- The host closes the stream and opens a new one (R231). -/
  | streamOpen
  deriving DecidableEq, Repr

/-- Where the core stands in a decode call. The model's own: its step is finer than a call (log 1). -/
inductive Control
  /-- Between calls (R213). -/
  | idle
  /-- In a decode pass, at a command boundary or before the header (R125, R126). -/
  | pass
  /-- The pass body has ended; the bookkeeping of R127 and the result of R128 are due. -/
  | finish (outcome : PassOutcome)
  deriving DecidableEq, Repr

/-- How the machine can stop for good. No rule of the spec stops it; both reasons are safe (log 9, log 10). -/
inductive Fault
  /-- A read of a cell that holds no value: never written since its allocation (R31, R28; 93_implementation_defined.md
  U6: "reading one is a model bug, fault it"). Raised by the reads of the history, the mean store and the coefficient
  file. Safe. -/
  | unwrittenCell
  /-- An access to a cell outside what the header allocated (R31, R32, R28; R47: no rule can form such an index). Raised
  by the reads and writes of the history, the mean store and the coefficient file. Safe. -/
  | noSuchCell
  deriving DecidableEq, Repr

/-- How the machine can refuse an instruction. -/
inductive Refusal
  /-- The instruction has no meaning in this model. Raised by no arm: every instruction has one. Safe. -/
  | notModelled (mnemonic : String)
  deriving DecidableEq, Repr

/-- One instance of SHN-CORE. -/
structure State where
  /-- R11. -/
  version : BitVec 8
  /-- R12. -/
  internalFormatType : Nat
  /-- R13. -/
  channels : Nat
  /-- R14. -/
  blocksize : Nat
  /-- R15. -/
  nwrap : Nat
  /-- R16: -1 until set. -/
  nmean : Int
  /-- R17. -/
  bitshift : Nat
  /-- R18. -/
  lpcqoffset : Nat
  /-- R19. -/
  sampleRate : BitVec 32
  /-- R19. -/
  bitsPerSample : BitVec 16
  /-- R20. -/
  headerParsed : Bool
  /-- R21. -/
  quitReceived : Bool
  /-- R22: the sticky error cause. -/
  fault : Option Cause
  /-- R24: the bit cursor. -/
  pos : Nat
  /-- R25. -/
  bitResumeOffset : Nat
  /-- R26. -/
  currentChannel : Nat
  /-- R27: the function code just read. -/
  cmd : Nat
  /-- R27: Rice parameter of the residuals. -/
  residualSize : Int
  /-- R27: offset correction. -/
  coffset : Cell
  /-- R27: prediction order. -/
  order : Nat
  /-- R27: quantization shift. -/
  shift : Nat
  /-- R27: initial value of every per-sample sum. -/
  initSum : Cell
  /-- R27: per-sample accumulator. -/
  sum : Cell
  /-- R27: byte count of a VERBATIM command. -/
  len : Nat
  /-- R28: the coefficient file, by `j`. -/
  coef : Memory
  /-- R29: `IN`, the unconsumed input. -/
  pending : List Byte
  /-- R30. -/
  cap : Nat
  /-- R31: `B0`, the block size the histories are allocated for. -/
  histBlocksize : Nat
  /-- R31: `HIST[c]`, by the physical slot `i + nwrap` of logical index `i` (R46). -/
  hist : List Memory
  /-- R32: `MEAN[c]`, by `i`. -/
  mean : List Memory
  /-- R33: `BLOB`. -/
  blob : List Byte
  /-- R34: `OUT`, between its assembly and the call's result. -/
  out : List Sample
  /-- R120, R123: how many bytes of its chunk the running call has taken. -/
  accepted : Nat
  /-- Where the core stands in a call (log 1). -/
  control : Control
  /-- What the host has asked for and the core has not begun (log 2). -/
  requests : List Request
  /-- The results of the calls that have ended, the oldest first (log 2). -/
  results : List CallResult
  deriving DecidableEq, Repr

/-- The state after stream open (R36, R230). The spec leaves `version`, `internalFormatType`, `nwrap`, `sampleRate`,
`bitsPerSample` (log 7) and `pos`, `out`, `accepted` and the working registers (log 8) unspecified there: their zeros
are DESIGN CHOICE. `channels`, `blocksize`, `bitshift` and `fault` are the spec's decisions D30, D31, D18 and D13. -/
def State.reset : State where
  version := 0
  internalFormatType := 0
  channels := 0
  blocksize := Config.defaultBlocksize
  nwrap := 0
  nmean := -1
  bitshift := 0
  lpcqoffset := 0
  sampleRate := 0
  bitsPerSample := 0
  headerParsed := false
  quitReceived := false
  fault := none
  pos := 0
  bitResumeOffset := 0
  currentChannel := 0
  cmd := 0
  residualSize := 0
  coffset := 0
  order := 0
  shift := 0
  initSum := 0
  sum := 0
  len := 0
  coef := []
  pending := []
  cap := Config.capInit
  histBlocksize := 0
  hist := []
  mean := []
  blob := []
  out := []
  accepted := 0
  control := .idle
  requests := []
  results := []

end Sys2Proof.Machine
end

