-- ==== Sys2Proof/Machine/Capacity.lean ====
section
/-! DEFINITION. Machine/Capacity.lean: the open function `cap_next` (42_call_and_input_buffer.md R130; decision D16), and
the limits, this function and the general-knowledge parameters together, as the one argument through which the header pass
reads what an implementation fixes. -/

namespace Sys2Proof.Config

/-- `cap_next : state -> positive integer` (R130). OPEN in the spec: a free value (log 12). Its argument is the state of the
core alone, `State.core` (Machine/Ops.lean). -/
opaque capNext : Machine.State → Nat

/-- Everything an implementation fixes. -/
structure Impl where
  limits : Limits
  capNext : Machine.State → Nat
  general : General

/-- THE implementation: the free values (log 11, log 12) and the values of R6. -/
def impl : Impl := ⟨limits, capNext, general⟩

/-- The implementation with no limit and no growth: the default of D16 and the reading D17 allows. Tests run it; the
machine does not. -/
def Impl.unbounded : Impl := ⟨Limits.unbounded, fun s => s.cap, Config.general⟩

end Sys2Proof.Config
end

