-- ==== Sys2Proof/Machine/Memory.lean ====
section
/-! DEFINITION. Machine/Memory.lean: a store of cells (20_memory.md R40, R43, R45). The store is a list of pairs in
canonical form; an index it does not list holds no value (log 9). -/

namespace Sys2Proof

/-- The canonical form: indices strictly rising. (No entry can equal what an unlisted index reads as, since that is no
value.) -/
abbrev Memory.wf (m : Memory) : Prop := (m.map Prod.fst).Pairwise (· < ·)

/-- The cell at an index, if one was written (R45). -/
def Memory.read : Memory → Nat → Option Cell
  | [], _ => none
  | (k, v) :: m, a => if k = a then some v else Memory.read m a

/-- Writes one whole cell (R43, R45). -/
def Memory.write : Memory → Nat → Cell → Memory
  | [], a, v => [(a, v)]
  | (k, w) :: m, a, v =>
    if a < k then (a, v) :: (k, w) :: m
    else if a = k then (a, v) :: m
    else (k, w) :: Memory.write m a v

/-- The cells at `n` indices from `a` on, ascending, if all of them were written. -/
def Memory.readFrom : Memory → Nat → Nat → Option (List Cell)
  | _, _, 0 => some []
  | [], _, _ + 1 => none
  | (k, v) :: m, a, n + 1 =>
    if k < a then Memory.readFrom m a (n + 1)
    else if k = a then (Memory.readFrom m (a + 1) n).map (v :: ·)
    else none

/-- Writes the cells of a list at the indices from `a` on. -/
def Memory.writeFrom (m : Memory) (a : Nat) (vs : List Cell) : Memory :=
  m.filter (fun e => decide (e.1 < a)) ++ (List.range' a vs.length).zip vs
    ++ m.filter (fun e => decide (a + vs.length ≤ e.1))

/-- A store whose cells `0 .. n-1` hold `v` and whose other cells hold no value. -/
def Memory.filled (n : Nat) (v : Cell) : Memory := (List.range n).map fun a => (a, v)

end Sys2Proof
end

