-- ==== Sys2Proof/Machine/Ops.lean ====
section
/-! DEFINITION. Machine/Ops.lean: the operations the meanings are built from: named updates of the state, raising an
error (60_exceptions.md R204 to R206), running a rule, loops over index ranges (00_scope.md R8), and the reads and
writes of the memory spaces (20_memory.md R40, R46, R47). -/

namespace Sys2Proof.Machine

/-! ## Named updates of the state -/

/-- `pos <- pos + n` (R8, R24). -/
def State.advance (s : State) (n : Nat) : State := { s with pos := s.pos + n }

/-- Taking an error (R204): `fault <- Cause`, the call ends with `ERROR(Cause)` and no consumed count, and what was
written before stays. Overread also empties the buffer bookkeeping (R129, R206). -/
def State.raise (s : State) (c : Cause) : State :=
  { s with
    fault := some c
    pending := if c = .overread then [] else s.pending
    bitResumeOffset := if c = .overread then 0 else s.bitResumeOffset
    control := .idle
    results := s.results ++ [.error c] }

/-- The end of a pass body that did not raise (R126, R140). -/
def State.endPass (s : State) (o : PassOutcome) : State := { s with control := .finish o }

/-- The end of a call with a result that is no error (R120). -/
def State.answer (s : State) (r : CallResult) : State := { s with control := .idle, results := s.results ++ [r] }

/-- The state of the core (R10 to R34) without what it is not (R35): the host's side of the model (what it has asked for, what
it was answered, how much of the running call's chunk was taken) and the model's own place in a call are blank. What it holds
does not depend on how the host split the stream into calls, but for the buffer itself (R131). -/
def State.core (s : State) : State := { s with accepted := 0, control := .idle, requests := [], results := [] }

/-- Replaces the history store of channel `c`. -/
def State.setHist (s : State) (c : Nat) (m : Memory) : State := { s with hist := s.hist.set c m }

/-- Replaces the mean store of channel `c`. -/
def State.setMean (s : State) (c : Nat) (m : Memory) : State := { s with mean := s.mean.set c m }

/-! ## Rules as programs -/

/-- Why a rule did not run to its end: it raised an error of the spec, or the machine stops. -/
inductive Stop
  /-- `raise <Cause>` (R8, R204). -/
  | raise (c : Cause)
  /-- The model's own stop. -/
  | stuck (f : Fault)
  deriving DecidableEq, Repr

/-- A rule of the spec: it reads and writes the state in program order (R50) and may stop; what it wrote before it
stopped stays written (R204). -/
abbrev M := EStateM Stop State

/-- `raise <Cause>` (R8). -/
def raise {α : Type} (c : Cause) : M α := throw (.raise c)

/-- The outcome of running a rule: an error of the spec is taken, and the machine goes on (R204). -/
def perform (m : M Unit) (s : State) : Host.Outcome State Fault Refusal :=
  match m s with
  | .ok _ t => .next t
  | .error (.raise c) t => .next (t.raise c)
  | .error (.stuck f) _ => .fault f

/-- `for t in i .. i+n-1 (ascending): body(t)`. -/
def forRange : Nat → Int → (Int → M Unit) → M Unit
  | 0, _, _ => pure ()
  | n + 1, i, body => do
    body i
    forRange n (i + 1) body

/-- `for t in i .. i+n-1 (ascending): acc <- body(t, acc)`. -/
def foldRange {α : Type} : Nat → Int → α → (Int → α → M α) → M α
  | 0, _, acc, _ => pure acc
  | n + 1, i, acc, body => do
    let acc ← body i acc
    foldRange n (i + 1) acc body

/-- The list of the values of `body(i), …, body(i+n-1)`, computed in this order. -/
def collectRange {α : Type} : Nat → Int → (Int → M α) → M (List α)
  | 0, _, _ => pure []
  | n + 1, i, body => do
    let a ← body i
    let rest ← collectRange n (i + 1) body
    pure (a :: rest)

/-! ## The memory spaces -/

/-- R46: the physical slot of logical history index `i`, if the header allocated it (R31: `-nwrap .. B0-1`). -/
def State.histSlot (s : State) (i : Int) : Option Nat :=
  let slot := i + s.nwrap
  if 0 ≤ slot ∧ slot < (s.nwrap + s.histBlocksize : Nat) then some slot.toNat else none

/-- The cell `hist[c][i]`, if it is allocated and holds a value (R31, R46). -/
def State.histCell (s : State) (c : Nat) (i : Int) : Option Cell :=
  match s.hist[c]?, s.histSlot i with
  | some m, some a => m.read a
  | _, _ => none

/-- The cell `mean[c][i]`, if it is allocated and holds a value (R32). -/
def State.meanCell (s : State) (c : Nat) (i : Nat) : Option Cell :=
  match s.mean[c]? with
  | some m => if i < max 1 s.nmean.toNat then m.read i else none
  | none => none

/-- Whether `n` history indices from `i` on are all allocated (R31, R46, R47). -/
def State.histRange (s : State) (i : Int) (n : Nat) : Bool :=
  decide (-(s.nwrap : Int) ≤ i) && decide (i + n ≤ s.histBlocksize)

/-- `MemRead(HIST[c], t)` for `t` in `i .. i+n-1`, ascending (R8, R45). -/
def readHist (c : Nat) (i : Int) (n : Nat) : M (List Cell) := fun s =>
  match s.hist[c]? with
  | none => .error (.stuck .noSuchCell) s
  | some m =>
    if s.histRange i n then
      match m.readFrom (i + s.nwrap).toNat n with
      | some vs => .ok vs s
      | none => .error (.stuck .unwrittenCell) s
    else .error (.stuck .noSuchCell) s

/-- `MemWrite(HIST[c], i+t, vs[t])` for `t` in `0 .. len(vs)-1`, ascending (R8, R45). -/
def writeHist (c : Nat) (i : Int) (vs : List Cell) : M Unit := fun s =>
  match s.hist[c]? with
  | none => .error (.stuck .noSuchCell) s
  | some m =>
    if s.histRange i vs.length then .ok () (s.setHist c (m.writeFrom (i + s.nwrap).toNat vs))
    else .error (.stuck .noSuchCell) s

/-- `MemRead(MEAN[c], i)` (R8, R45). -/
def readMean (c : Nat) (i : Nat) : M Cell := fun s =>
  match s.mean[c]? with
  | some m =>
    if i < max 1 s.nmean.toNat then
      match m.read i with
      | some v => .ok v s
      | none => .error (.stuck .unwrittenCell) s
    else .error (.stuck .noSuchCell) s
  | none => .error (.stuck .noSuchCell) s

/-- `MemWrite(MEAN[c], i, v)` (R8, R45). -/
def writeMean (c : Nat) (i : Nat) (v : Cell) : M Unit := fun s =>
  match s.mean[c]? with
  | some m =>
    if i < max 1 s.nmean.toNat then .ok () (s.setMean c (m.write i v)) else .error (.stuck .noSuchCell) s
  | none => .error (.stuck .noSuchCell) s

/-- Reads the coefficient file, `coef[0 .. nwrap-1]` (R28). -/
def readCoef (j : Nat) : M Cell := fun s =>
  if j < s.nwrap then
    match s.coef.read j with
    | some v => .ok v s
    | none => .error (.stuck .unwrittenCell) s
  else .error (.stuck .noSuchCell) s

/-- Writes the coefficient file (R28). -/
def writeCoef (j : Nat) (v : Cell) : M Unit := fun s =>
  if j < s.nwrap then .ok () { s with coef := s.coef.write j v } else .error (.stuck .noSuchCell) s

end Sys2Proof.Machine
end

