-- ==== Sys2Proof/Machine/Cursor.lean ====
section
/-! DEFINITION. Machine/Cursor.lean: the Bit Cursor (40_bit_cursor_rice.md R80 to R84). The buffer the cursor was given is
`pending`; bit `p` of it is bit `p` of `bitsOf pending` (R41). -/

namespace Sys2Proof.Machine

/-- `N`, the number of bits of the buffer (40_bit_cursor_rice.md). -/
def State.bitLength (s : State) : Nat := 8 * s.pending.length

/-- The bits of the buffer that are not yet read. -/
def State.unread (s : State) : Bits := (bitsOf s.pending).drop s.pos

/-- `read_bits(n)` (R80). On an Overread no bit of this read is consumed (decision D29; log 34). -/
def readBits (n : Nat) : M Nat := fun s =>
  if s.bitLength < s.pos + n then .error (.raise .overread) s
  else
    match takeBits n 0 s.unread with
    | some (v, _) => .ok v (s.advance n)
    | none => .error (.raise .overread) s

/-- `peek_bits(n)` (R81). -/
def peekBits (n : Nat) : M Nat := fun s =>
  match readBits n s with
  | .ok v _ => .ok v s
  | .error e _ => .error e s

/-- `skip_bits(n)` (R82). -/
def skipBits (n : Nat) : M Unit := fun s =>
  if s.bitLength < s.pos + n then .error (.raise .overread) s else .ok () (s.advance n)

/-- `bits_remaining()` (R83). -/
def bitsRemaining : M Nat := fun s => .ok (s.bitLength - s.pos) s

/-- `bits_consumed()` (R84). -/
def bitsConsumed : M Nat := fun s => .ok s.pos s

/-- The loop of R85: reads bits one by one up to and including the first one bit; the number of zeros before it. When the
buffer ends inside the run every bit of it has been read. -/
def readUnary : M Nat := fun s =>
  match takeUnary 0 s.unread with
  | some (q, _) => .ok q (s.advance (q + 1))
  | none => .error (.raise .overread) (s.advance (s.bitLength - s.pos))

end Sys2Proof.Machine
end

