-- ==== Sys2Proof/Machine/Call.lean ====
section
/-! DEFINITION. Machine/Call.lean: the decode call around a pass, and the Input Buffer Manager (42_call_and_input_buffer.md
R120 to R129). -/

namespace Sys2Proof.Machine

/-- R125: the cursor is put at the saved bit offset and the pass begins. -/
def startPass (s : State) : State :=
  match skipBits s.bitResumeOffset { s with pos := 0 } with
  | .ok _ t => { t with control := .pass }
  | .error (.raise c) t => t.raise c
  | .error (.stuck _) t => t

/-- R121 to R125: a decode call with its chunk. The entry checks come first and change nothing (decision D13, log 23); then
the bytes that fit under the cap are appended (R123, decision D14, log 24); then either more input is asked for (R124) or a
pass begins. -/
def beginCall (limits : Config.Limits) (chunk : List Byte) (s : State) : State :=
  match s.fault with
  | some c => s.answer (.error c)
  | none =>
    if s.quitReceived then s.answer (.postQuit chunk.length)
    else if !limits.pendingStorage s.cap then s.raise .allocFail
    else
      let accepted := min chunk.length (s.cap - s.pending.length)
      let s := { s with pending := s.pending ++ chunk.take accepted, accepted := accepted }
      if s.pending.length < s.cap ∧ 0 < chunk.length then s.answer (.needMoreInput accepted) else startPass s

/-- R128, R120: the result of a pass that did not raise. The frame is handed over and does not persist (R34). -/
def resultOf (o : PassOutcome) (s : State) : CallResult :=
  match o with
  | .noFrame => .noFrame s.accepted
  | .frame => .frame s.accepted s.blocksize s.channels s.out

/-- R127, R128: compaction, the resume offset, and the result. -/
def finishPass (o : PassOutcome) (s : State) : State :=
  let n := s.pos / 8
  let t := { s with bitResumeOffset := s.pos % 8 }
  if s.pending.length < n then t.raise .overread
  else { t with pending := s.pending.drop n, out := [] }.answer (resultOf o s)

/-- Serves the host's next request, if there is one; without one the core stays idle (R213; log 3). -/
def serve (limits : Config.Limits) (s : State) : State :=
  match s.requests with
  | [] => s
  | .decode chunk :: rest => beginCall limits chunk { s with requests := rest }
  | .streamOpen :: rest => { State.reset with requests := rest, results := s.results }

end Sys2Proof.Machine
end

