-- ==== Sys2Proof/Machine/Operands.lean ====
section
/-! DEFINITION. Machine/Operands.lean: the operand forms (30_encoding.md R71): the primitives of the Rice/Golomb Codec
(40_bit_cursor_rice.md R85 to R87) and the two operands that several commands share. Parsed values are unbounded
(decision D26; log 32). -/

namespace Sys2Proof.Machine

/-- `read_unsigned(k)`, the coding `U(k)` (R85). A negative `k` raises (decision D19; log 26). -/
def readUnsigned (k : Int) : M Nat :=
  if k < 0 then raise .negativeRiceParameter
  else do
    let q ← readUnary
    let r ← readBits k.toNat
    pure (q * 2 ^ k.toNat + r)

/-- `read_signed(k)`, the coding `S(k)` (R86). `SR_K_BIAS`: decision D9, log 19. -/
def readSigned (k : Int) : M Int := do
  let u ← readUnsigned (k + Config.srKBias)
  pure (unzigzag u)

/-- `read_adaptive_unsigned(k_hint)`, the coding `A(h)` (R87). -/
def readAdaptive (hint : Nat) : M Nat := do
  let s ← get
  if s.version = 0 then readUnsigned hint
  else do
    let k ← readUnsigned Config.adaptKSize
    readUnsigned k

/-- R161: the `energy` field (`ENERGY_ADAPTIVE`: decision D10, log 20). -/
def readEnergy : M Nat :=
  if Config.energyAdaptive then readAdaptive Config.energySize else readUnsigned Config.energySize

/-- R161, and R162: the version-0 adjustment. -/
def readResidualSize : M Unit := do
  let energy ← readEnergy
  modify fun s => { s with residualSize := residualSizeOf s.version energy }

/-- R171: the order field (`ORDER_ADAPTIVE`: decision D10, log 20). -/
def readOrder : M Nat :=
  if Config.orderAdaptive then readAdaptive Config.lpcqSize else readUnsigned Config.lpcqSize

end Sys2Proof.Machine
end

