-- ==== Sys2Proof/Machine/Output.lean ====
section
/-! DEFINITION. Machine/Output.lean: the Output Assembler (45_output.md R190 to R192) and the completion of a frame
(43_interpreter_control.md R143). -/

namespace Sys2Proof.Machine

/-- R190: for sample index `i` ascending, for each channel in order, the clipped value; the blocks of the channels are
given in channel order, each of `n` samples. -/
def interleave : Nat → List (List Cell) → List Sample
  | 0, _ => []
  | n + 1, blocks => (blocks.map fun b => toSample (b.headD 0).toInt) ++ interleave n (blocks.map List.tail)

/-- R190: `OUT[i·channels + c] <- clip16(hist[c][i])`, with `blocksize` and `channels` as they are now. -/
def assembleFrame : M Unit := do
  let s ← get
  let blocks ← collectRange s.channels 0 fun c => readHist c.toNat 0 s.blocksize
  modify fun s => { s with out := interleave s.blocksize blocks }

/-- R143: the frame is assembled, `current_channel` returns to 0 (decision D20; log 27) and the pass ends with `FRAME`. -/
def completeFrame : M Unit := do
  assembleFrame
  modify fun s => ({ s with currentChannel := 0 } : State).endPass .frame

end Sys2Proof.Machine
end

