-- ==== Sys2Proof/Machine/Predictor.lean ====
section
/-! DEFINITION. Machine/Predictor.lean: what the audio commands share (44_audio_commands.md): the steps of R160, the offset
correction R163, the coefficient vectors R166, the decode loop R170 and the post-processing R178 to R181. -/

namespace Sys2Proof.Machine

/-- R178, R163: a sum of cells on top of a start value, each addition narrowed. -/
def sumCells (start : Cell) (cells : List Cell) : Cell :=
  cells.foldl (fun sum v => wrap32 (sum.toInt + v.toInt)) start

/-- R163: `coffset` of channel `c`. "`history[0]`" is entry 0 of the mean history (decision D11; log 22). The bias is a
`W`-bit value like the sum it starts (R183; log 41). -/
def coffsetOf (c : Nat) : M Cell := do
  let s ← get
  if s.nmean = 0 then readMean c 0
  else do
    let bias : Cell := if s.version.toNat < 2 then 0 else wrap32 (s.nmean / 2)
    let means ← collectRange s.nmean.toNat 0 fun i => readMean c i.toNat
    let quotient := tdiv (sumCells bias means).toInt s.nmean
    pure (wrap32 (if 2 ≤ s.version.toNat then asr quotient (min 1 s.bitshift) else quotient))

/-- R163: `coffset <- …`. -/
def computeCoffset (c : Nat) : M Unit := do
  let v ← coffsetOf c
  modify fun s => { s with coffset := v }

/-- R166: the fixed coefficient vectors, `fixed[1]`, `fixed[2]`, `fixed[3]`; order 0 has none. -/
def fixedCoefs : Nat → List Int
  | 1 => [1]
  | 2 => [2, -1]
  | 3 => [3, -3, 1]
  | _ => []

/-- R170: `sum` for one sample: `init_sum`, then for ascending `j` the product `cv[j]·hist[c][i-j-1]`, each addition narrowed.
`recent` holds the samples before this one, the newest first, so that its entry `j` is `hist[c][i-j-1]`. -/
def sumTaps : List Int → List Cell → Cell → Option Cell
  | [], _, sum => some sum
  | _ :: _, [], _ => none
  | a :: cv, h :: recent, sum => sumTaps cv recent (wrap32 (sum.toInt + a * h.toInt))

/-- How far a run of R170 came: the samples decoded, the end or the stop, and the state there. -/
structure PredictRun where
  samples : List Cell
  stop : Option Stop
  state : State

/-- R170: `n` samples from the one after `recent` on. The residual is read after the sum is formed. -/
def predictRun (cv : List Int) (shift : Nat) (initSum : Cell) : Nat → List Cell → State → PredictRun
  | 0, _, s => ⟨[], none, s⟩
  | n + 1, recent, s =>
    match sumTaps cv recent initSum with
    | none => ⟨[], some (.stuck .noSuchCell), s⟩
    | some sum =>
      match readSigned s.residualSize { s with sum := sum } with
      | .error e t => ⟨[], some e, t⟩
      | .ok r t =>
        let x := wrap32 (r + asr sum.toInt shift)
        let run := predictRun cv shift initSum n (x :: recent) t
        ⟨x :: run.samples, run.stop, run.state⟩

/-- R170: `predict(c, order, cv, shift, init_sum)`; the order is the length of `cv`. The taps before the block are the last
`order` cells of the wrap region. Where a residual raises, the samples before it are in the history (R204). -/
def predict (c : Nat) (cv : List Int) (shift : Nat) (initSum : Cell) : M Unit := do
  let s ← get
  let context ← readHist c (-(cv.length : Int)) cv.length
  let run := predictRun cv shift initSum s.blocksize context.reverse s
  set run.state
  writeHist c 0 run.samples
  match run.stop with
  | none => pure ()
  | some e => throw e

/-- R178: the mean of the block's samples, before the shift of R180. -/
def blockMean (c : Nat) : M Int := do
  let s ← get
  let bias : Cell := if s.version.toNat < 2 then 0 else wrap32 (s.blocksize / 2 : Nat)
  let block ← readHist c 0 s.blocksize
  pure (tdiv (sumCells bias block).toInt s.blocksize)

/-- R178: the mean update, only when `nmean > 0`. -/
def updateMean (c : Nat) : M Unit := do
  let s ← get
  if 0 < s.nmean then do
    let m ← blockMean c
    forRange (s.nmean.toNat - 1) 1 fun i => do
      let v ← readMean c i.toNat
      writeMean c (i.toNat - 1) v
    writeMean c (s.nmean.toNat - 1) (if s.version.toNat < 2 then wrap32 m else shl32 m s.bitshift)
  else pure ()

/-- R179: the wrap copy: `hist[c][i] <- hist[c][i + blocksize]` for `i` in `-nwrap .. -1`, ascending. Every source index is
larger than its destination, so no source has been overwritten when it is read. -/
def wrapCopy (c : Nat) : M Unit := do
  let s ← get
  let sources ← readHist c (-(s.nwrap : Int) + s.blocksize) s.nwrap
  writeHist c (-(s.nwrap : Int)) sources

/-- R180: the final left shift of the block. -/
def shiftBlock (c : Nat) : M Unit := do
  let s ← get
  if s.bitshift = 0 then pure ()
  else do
    let block ← readHist c 0 s.blocksize
    writeHist c 0 (block.map fun v => shl32 v.toInt s.bitshift)

/-- R181 and, when the block is complete, R143 (43_interpreter_control.md R140). -/
def advanceChannel : M Unit := do
  modify fun s => { s with currentChannel := s.currentChannel + 1 }
  let s ← get
  if s.currentChannel = s.channels then completeFrame else pure ()

/-- R160, steps 4 to 7. -/
def postProcess (c : Nat) : M Unit := do
  updateMean c
  wrapCopy c
  shiftBlock c
  advanceChannel

/-- R160 for the commands that read `residual_size`; `body c` is step 3. -/
def audioCommand (body : Nat → M Unit) : M Unit := do
  let s ← get
  readResidualSize
  computeCoffset s.currentChannel
  body s.currentChannel
  postProcess s.currentChannel

/-- R160 for ZERO: `residual_size` is not read, `coffset` is computed and unused. -/
def zeroCommand (body : Nat → M Unit) : M Unit := do
  let s ← get
  computeCoffset s.currentChannel
  body s.currentChannel
  postProcess s.currentChannel

end Sys2Proof.Machine
end

