-- ==== Sys2Proof/Machine/Audio.lean ====
section
/-! DEFINITION. Machine/Audio.lean: the meanings of the audio commands (44_audio_commands.md R164 to R172). -/

namespace Sys2Proof.Machine

/-- R165: DIFF0, order 0, bias `coffset`, no coefficients. -/
def diff0Rule : M Unit :=
  audioCommand fun c => do
    let s ← get
    predict c (fixedCoefs 0) 0 s.coffset

/-- R167: DIFF1. -/
def diff1Rule : M Unit := audioCommand fun c => predict c (fixedCoefs 1) 0 0

/-- R168: DIFF2. -/
def diff2Rule : M Unit := audioCommand fun c => predict c (fixedCoefs 2) 0 0

/-- R169: DIFF3. -/
def diff3Rule : M Unit := audioCommand fun c => predict c (fixedCoefs 3) 0 0

/-- R164: ZERO. -/
def zeroRule : M Unit :=
  zeroCommand fun c => do
    let s ← get
    writeHist c 0 (List.replicate s.blocksize 0)

/-- R171: `coef[j] <- wrap32(read_signed(LPCQUANT))` for `j` in `0 .. order-1`. -/
def readCoefs (order : Nat) : M Unit :=
  forRange order 0 fun j => do
    let v ← readSigned Config.lpcQuant
    writeCoef j.toNat (wrap32 v)

/-- R171: adds `d`, the offset or its opposite, to `hist[c][i]` for `n` indices from `first` on, if it is not 0. -/
def offsetHist (c : Nat) (first : Int) (n : Nat) (d : Int) : M Unit :=
  if d = 0 then pure ()
  else do
    let cells ← readHist c first n
    writeHist c first (cells.map fun v => wrap32 (v.toInt + d))

/-- R171, R172: the body of QLPC. -/
def qlpcBody (c : Nat) : M Unit := do
  let order ← readOrder
  modify fun s => { s with order := order }
  let s ← get
  if s.nwrap < order then raise .lpcOrderTooLarge
  else do
    readCoefs order
    modify fun s => { s with shift := Config.lpcQuant }
    offsetHist c (-(order : Int)) order (-s.coffset.toInt)
    modify fun s => { s with initSum := if 0 < order then wrap32 s.lpcqoffset else s.coffset }
    let cv ← collectRange order 0 fun j => readCoef j.toNat
    let t ← get
    predict c (cv.map BitVec.toInt) t.shift t.initSum
    offsetHist c 0 s.blocksize s.coffset.toInt

/-- R171: QLPC. -/
def qlpcRule : M Unit := audioCommand qlpcBody

/-- DIFF0. -/
def execDiff0 (s : State) : Host.Outcome State Fault Refusal := perform diff0Rule s

/-- DIFF1. -/
def execDiff1 (s : State) : Host.Outcome State Fault Refusal := perform diff1Rule s

/-- DIFF2. -/
def execDiff2 (s : State) : Host.Outcome State Fault Refusal := perform diff2Rule s

/-- DIFF3. -/
def execDiff3 (s : State) : Host.Outcome State Fault Refusal := perform diff3Rule s

/-- ZERO. -/
def execZero (s : State) : Host.Outcome State Fault Refusal := perform zeroRule s

/-- QLPC. -/
def execQlpc (s : State) : Host.Outcome State Fault Refusal := perform qlpcRule s

end Sys2Proof.Machine
end

