-- ==== Sys2Proof/Machine/Control.lean ====
section
/-! DEFINITION. Machine/Control.lean: the meanings of the non-audio commands and of the illegal function codes
(43_interpreter_control.md R142, R145 to R149). -/

namespace Sys2Proof.Machine

/-- R145: VERBATIM. -/
def verbatimRule (g : Config.General) : M Unit := do
  let len ← readUnsigned g.verbatimCkSize
  modify fun s => { s with len := len }
  forRange len 0 fun _ => do
    let _ ← readUnsigned Config.verbatimByteSize
    pure ()

/-- R146: BITSHIFT. The bound 31 is decision D18 (log 25). -/
def bitshiftRule : M Unit := do
  let shift ← readUnsigned Config.bitshiftSize
  if Config.maxBitshift < shift then raise .badBitshift
  else modify fun s => { s with bitshift := shift }

/-- R147: BLOCKSIZE. The hint is decision D24 (log 30), the kind of the second error decision D28 (log 28). -/
def blocksizeRule : M Unit := do
  let s ← get
  let b ← readAdaptive (log2floor s.blocksize)
  if s.blocksize < b then raise .blocksizeIncrease
  else if b = 0 ∨ Config.maxBlocksize < b then raise .badBlocksize
  else modify fun s => ({ s with blocksize := b } : State).endPass .noFrame

/-- R148: QUIT. -/
def quitRule : M Unit := modify fun s => ({ s with quitReceived := true } : State).endPass .noFrame

/-- R142: the function codes 10 and 11: the last bit of the code is read, then UnknownCommand. -/
def illegal10or11Rule : M Unit := do
  let x ← readBits 1
  modify fun s => { s with cmd := 10 + x }
  raise .unknownCommand

/-- R142: the function codes from 12 on: the rest of the code is read (an Overread if it never ends), then
UnknownCommand. -/
def illegal12upRule : M Unit := do
  let rest ← readUnsigned Config.fnSize
  modify fun s => { s with cmd := 3 * 2 ^ Config.fnSize + rest }
  raise .unknownCommand

/-- VERBATIM. -/
def execVerbatim (s : State) : Host.Outcome State Fault Refusal := perform (verbatimRule Config.general) s

/-- BITSHIFT. -/
def execBitshift (s : State) : Host.Outcome State Fault Refusal := perform bitshiftRule s

/-- BLOCKSIZE. -/
def execBlocksize (s : State) : Host.Outcome State Fault Refusal := perform blocksizeRule s

/-- QUIT. -/
def execQuit (s : State) : Host.Outcome State Fault Refusal := perform quitRule s

/-- The function codes 10 and 11. -/
def execIllegal10or11 (s : State) : Host.Outcome State Fault Refusal := perform illegal10or11Rule s

/-- The function codes from 12 on. -/
def execIllegal12up (s : State) : Host.Outcome State Fault Refusal := perform illegal12upRule s

end Sys2Proof.Machine
end

