-- ==== Sys2Proof/Machine/Header.lean ====
section
/-! DEFINITION. Machine/Header.lean: the Header Parser (41_header.md R101 to R112), the meaning of HEADER. R100, the magic, is
the opcode (Decode.lean). The header is one straight-line sequence; the first error ends it. -/

namespace Sys2Proof.Machine

/-- R101: no version is rejected (decision D27; log 33). -/
def readVersion : M Unit := do
  let v ← readBits 8
  modify fun s => { s with version := BitVec.ofNat 8 v }

/-- R102, R205: on a bad channel count `channels` is left at 0. -/
def readTypeAndChannels (g : Config.General) : M Unit := do
  let t ← readAdaptive g.typeSize
  modify fun s => { s with internalFormatType := t }
  let n ← readAdaptive g.chanSize
  if n = 0 ∨ Config.maxChannels < n then do
    modify fun s => { s with channels := 0 }
    raise .badChannelCount
  else modify fun s => { s with channels := n }

/-- R103: the block parameters, present only when `version > 0`; answers `max_lpc_order`. -/
def readBlockParameters : M Nat := do
  let s ← get
  if s.version = 0 then pure 0
  else do
    let b ← readAdaptive 0
    if b = 0 ∨ Config.maxBlocksize < b then raise .badHeaderBlocksize
    else do
      modify fun s => { s with blocksize := b }
      let maxLpcOrder ← readAdaptive 0
      let nmean ← readAdaptive 0
      modify fun s => { s with nmean := nmean }
      let skipCount ← readAdaptive 0
      forRange skipCount 0 fun _ => skipBits 8
      pure maxLpcOrder

/-- Whether a value exceeds a capacity that may be infinite (D17). -/
def exceeds (n : Nat) : Option Nat → Bool
  | none => false
  | some limit => decide (limit < n)

/-- R105: the histories, their wrap regions zero and their other cells without a value (R31), and the coefficient file,
without values (R28). Decision D17; log 9, log 11. -/
def allocateHistory (limits : Config.Limits) : M Unit := do
  let s ← get
  if exceeds s.nwrap limits.nwrapMax || !limits.histStorage s.channels s.blocksize s.nwrap then raise .allocFail
  else
    modify fun s =>
      { s with
        histBlocksize := s.blocksize
        hist := List.replicate s.channels (Memory.filled s.nwrap 0)
        coef := [] }

/-- R106: the mean stores and the check of the format type. -/
def allocateMeans (g : Config.General) (limits : Config.Limits) : M Unit := do
  let s ← get
  if exceeds s.nmean.toNat limits.nmeanMax || !limits.meanStorage s.channels (max 1 s.nmean.toNat) then raise .allocFail
  else do
    modify fun s => { s with mean := List.replicate s.channels [] }
    if s.internalFormatType ≠ g.typeS16HL then raise .unknownAudioType
    else
      modify fun s =>
        { s with mean := List.replicate s.channels (Memory.filled (max 1 s.nmean.toNat) Config.meanInit) }

/-- R107. -/
def setLpcqOffset (g : Config.General) : M Unit :=
  modify fun s => if 1 < s.version.toNat then { s with lpcqoffset := g.lpcqOffsetV2 } else s

/-- R108: the mandatory verbatim command; answers `blob_len`. -/
def readBlobLength (g : Config.General) : M Nat := do
  let fn ← readUnsigned Config.fnSize
  if Instr.ofFnNumber g fn ≠ .verbatim then raise .missingHeaderVerbatim
  else do
    let n ← readUnsigned g.verbatimCkSize
    if n < Config.headerBlobMin ∨ Config.headerBlobLim ≤ n then raise .badHeaderBlobSize else pure n

/-- R109: each byte is a `U(8)` code of which the low 8 bits are kept (decision D12; log 21). -/
def readBlob (blobLen : Nat) : M Unit := do
  modify fun s => { s with blob := [] }
  forRange blobLen 0 fun _ => do
    let v ← readUnsigned Config.verbatimByteSize
    modify fun s => { s with blob := s.blob ++ [BitVec.ofNat 8 v] }

/-- R110: `get(n)` at the byte index `p` of the blob (decision D23; log 29). -/
def getBlob (p n : Nat) : M (List Byte) := fun s =>
  if s.blob.length < p + n then .error (.raise .blobOverrun) s else .ok ((s.blob.drop p).take n) s

/-- `"RIFF"` (R110). -/
def tagRiff : List Byte := [0x52, 0x49, 0x46, 0x46]
/-- `"WAVE"` (R110). -/
def tagWave : List Byte := [0x57, 0x41, 0x56, 0x45]
/-- `"fmt "` (R110). -/
def tagFmt : List Byte := [0x66, 0x6D, 0x74, 0x20]

/-- R110: the scan for the `fmt ` sub-chunk from the byte index `p`; answers the index after its tag. A skipped sub-chunk has
no pad byte (decision D23; log 29). Each round goes over eight bytes or more of the blob, so as many rounds as the blob has
bytes never run out before a read overruns the blob. -/
def findFmt : Nat → Nat → M Nat
  | 0, _ => raise .blobOverrun
  | rounds + 1, p => do
    let tag ← getBlob p 4
    if tag = tagFmt then pure (p + 4)
    else do
      let size ← getBlob (p + 4) 4
      let _ ← getBlob (p + 8) (leBytes size)
      findFmt rounds (p + 8 + leBytes size)

/-- R110: the `fmt ` sub-chunk, from the byte index after its tag. -/
def parseFmt (p : Nat) : M Unit := do
  let size ← getBlob p 4
  if leBytes size < 16 then raise .fmtChunkTooShort
  else do
    let code ← getBlob (p + 4) 2
    if leBytes code ≠ 1 then raise .notPcm
    else do
      let _ ← getBlob (p + 6) 2
      let rate ← getBlob (p + 8) 4
      modify fun s => { s with sampleRate := BitVec.ofNat 32 (leBytes rate) }
      let _ ← getBlob (p + 12) 4
      let _ ← getBlob (p + 16) 2
      let bits ← getBlob (p + 18) 2
      if leBytes bits ≠ 16 then raise .badBitsPerSample
      else modify fun s => { s with bitsPerSample := BitVec.ofNat 16 (leBytes bits) }

/-- R110: the WAVE parse of the blob. -/
def parseWave : M Unit := do
  let riff ← getBlob 0 4
  if riff ≠ tagRiff then raise .badRiffTag
  else do
    let _ ← getBlob 4 4
    let wave ← getBlob 8 4
    if wave ≠ tagWave then raise .badWaveTag
    else do
      let s ← get
      let p ← findFmt (s.blob.length + 1) 12
      parseFmt p

/-- R101 to R111, in order. -/
def headerSequence (impl : Config.Impl) : M Unit := do
  readVersion
  readTypeAndChannels impl.general
  let maxLpcOrder ← readBlockParameters
  modify fun s => { s with nwrap := max Config.nwrapMin maxLpcOrder }
  allocateHistory impl.limits
  allocateMeans impl.general impl.limits
  setLpcqOffset impl.general
  let blobLen ← readBlobLength impl.general
  readBlob blobLen
  parseWave
  modify fun s => { s with currentChannel := 0, bitshift := 0, headerParsed := true }

/-- The header pass (42_call_and_input_buffer.md R126): the header sequence, the growth of the cap (R130), a
function of the state of the core alone (R131, R35; log 12), and an end without a frame. -/
def headerPass (impl : Config.Impl) : M Unit := do
  headerSequence impl
  modify fun s => ({ s with cap := max s.cap (impl.capNext s.core) } : State).endPass .noFrame

/-- HEADER. -/
def execHeader (s : State) : Host.Outcome State Fault Refusal := perform (headerPass Config.impl) s

end Sys2Proof.Machine
end

