-- ==== Sys2Proof/Machine/Dispatch.lean ====
section
/-! DEFINITION. Machine/Dispatch.lean: one arm per instruction. -/

namespace Sys2Proof.Machine

def exec (i : Instr) (s : State) : Host.Outcome State Fault Refusal :=
  match i with
  | .diff0 => Sys2Proof.Machine.execDiff0 s
  | .diff1 => Sys2Proof.Machine.execDiff1 s
  | .diff2 => Sys2Proof.Machine.execDiff2 s
  | .diff3 => Sys2Proof.Machine.execDiff3 s
  | .quit => Sys2Proof.Machine.execQuit s
  | .blocksize => Sys2Proof.Machine.execBlocksize s
  | .bitshift => Sys2Proof.Machine.execBitshift s
  | .qlpc => Sys2Proof.Machine.execQlpc s
  | .zero => Sys2Proof.Machine.execZero s
  | .verbatim => Sys2Proof.Machine.execVerbatim s
  | .illegal10or11 => Sys2Proof.Machine.execIllegal10or11 s
  | .illegal12up => Sys2Proof.Machine.execIllegal12up s
  | .header => Sys2Proof.Machine.execHeader s

end Sys2Proof.Machine
end

