-- ==== Sys2Proof/Machine/Fetch.lean ====
section
/-! DEFINITION. Machine/Fetch.lean: the head of the command loop (43_interpreter_control.md R140, R141): the suspension test,
the fetch and the decoding of the next instruction. And placing an instruction for the fetch (log 6). -/

namespace Sys2Proof.Machine

/-- R140: whether the command loop ends without reading a command: the block's channels are all decoded (not reachable), or
fewer than `3 + 2` bits remain. The header has no such test (41_header.md R112). -/
def State.suspends (s : State) : Bool :=
  s.headerParsed && (decide (s.channels ≤ s.currentChannel) || decide (s.bitLength < s.pos + Config.minCmdBits))

/-- The error of a bit string that is no instruction (R80, R100). -/
def Reject.cause : Reject → Cause
  | .truncated => .overread
  | .badMagic => .badMagic

/-- The state in which a decoded instruction executes: its opcode is consumed, and a command's number is in `cmd`
(R140; the illegal rows set it themselves, the header does not). -/
def State.issue (s : State) (g : Config.General) (i : Instr) (n : Nat) : State :=
  { s.advance n with cmd := (i.fnNumber g).getD s.cmd }

/-- R140: the next instruction and the state in which it executes. -/
def fetch (g : Config.General) : M Instr := fun s =>
  match decode g s.headerParsed s.unread with
  | .ok (i, n) => .ok i (s.issue g i n)
  | .error r => .error (.raise (Reject.cause r)) s

/-- A state in which the command loop can run: `s` itself when its header is parsed and a channel is due, else what the
shortest header, that of a one-channel version-0 stream, leaves (41_header.md R101 to R111). -/
def State.ready (s : State) : State :=
  if s.headerParsed ∧ s.currentChannel < s.channels then s
  else
    { s with
      headerParsed := true
      channels := 1
      currentChannel := 0
      nwrap := Config.nwrapMin
      histBlocksize := s.blocksize
      hist := [Memory.filled Config.nwrapMin 0]
      mean := [Memory.filled (max 1 s.nmean.toNat) Config.meanInit] }

/-- `s` in a pass over the bytes of a word of the opcode table, the cursor on its first bit. -/
def State.placeWord (s : State) (nbits w : Nat) : State :=
  let s := if nbits ≤ 8 then s.ready else { s with headerParsed := false }
  { s with
    fault := none
    quitReceived := false
    pending := tableWordBytes nbits w
    pos := 0
    control := .pass }

end Sys2Proof.Machine
end

