-- ==== Sys2Proof/Machine/Step.lean ====
section
/-! DEFINITION. Machine/Step.lean: one step. A decode call is several steps (log 1): one serves the request (R121 to R125),
one executes each instruction of the pass or suspends it (R126, R140), and one does the bookkeeping at its end (R127,
R128). -/

namespace Sys2Proof.Machine

/-- One step of the machine. -/
def step (s : State) : Host.Outcome State Fault Refusal :=
  match s.control with
  | .idle => .next (serve Config.limits s)
  | .finish o => .next (finishPass o s)
  | .pass =>
    if s.suspends then .next (s.endPass .noFrame)
    else
      match fetch Config.general s with
      | .ok i t => exec i t
      | .error (.raise c) t => .next (t.raise c)
      | .error (.stuck f) _ => .fault f

/-- `s` with a word of the opcode table where the next step fetches (log 6). -/
def State.withFetchWord (s : State) (nbits w : Nat) : State := s.placeWord nbits w

end Sys2Proof.Machine
end

