-- ==== Sys2Proof/Machine/Flags.lean ====
section
/-! DEFINITION. Machine/Flags.lean: the flags of SHN-CORE and what they say. There are no condition codes (10_state.md
R23, 44_audio_commands.md R183): the only flags are `header_parsed`, `quit_received` and `fault`, and the phase is a
function of them. The classes of the error causes and what the host may read stand here too. -/

namespace Sys2Proof.Machine

/-- The phases of R23. -/
inductive Phase
  | header
  | run
  | quit
  | failed
  deriving DecidableEq, Repr

/-- R23: the phase as a function of the three flags. -/
def State.phase (s : State) : Phase :=
  if s.fault.isSome then .failed
  else if s.quitReceived then .quit
  else if s.headerParsed then .run
  else .header

/-- R142: the constant classification of the commands; a row that is no command has no class. -/
def isAudio : Instr → Option Bool
  | .diff0 => some true
  | .diff1 => some true
  | .diff2 => some true
  | .diff3 => some true
  | .qlpc => some true
  | .zero => some true
  | .verbatim => some false
  | .bitshift => some false
  | .blocksize => some false
  | .quit => some false
  | .illegal10or11 => none
  | .illegal12up => none
  | .header => none

/-- R201: the number of a cause (decision D21; log 28). -/
def Cause.number : Cause → Nat
  | .badMagic => 1
  | .badChannelCount => 2
  | .badHeaderBlocksize => 3
  | .unknownAudioType => 4
  | .missingHeaderVerbatim => 5
  | .badHeaderBlobSize => 6
  | .badRiffTag => 7
  | .badWaveTag => 8
  | .fmtChunkTooShort => 9
  | .notPcm => 10
  | .badBitsPerSample => 11
  | .blobOverrun => 12
  | .unknownCommand => 13
  | .overread => 14
  | .blocksizeIncrease => 15
  | .badBlocksize => 16
  | .lpcOrderTooLarge => 17
  | .allocFail => 18
  | .badBitshift => 19
  | .negativeRiceParameter => 20

/-- R201, R202: the kind of a cause. -/
def Cause.kind : Cause → Kind
  | .blocksizeIncrease => .unsupported
  | .badBlocksize => .invalidArgument
  | .lpcOrderTooLarge => .invalidArgument
  | .allocFail => .resource
  | .badMagic => .fatal
  | .badChannelCount => .fatal
  | .badHeaderBlocksize => .fatal
  | .unknownAudioType => .fatal
  | .missingHeaderVerbatim => .fatal
  | .badHeaderBlobSize => .fatal
  | .badRiffTag => .fatal
  | .badWaveTag => .fatal
  | .fmtChunkTooShort => .fatal
  | .notPcm => .fatal
  | .badBitsPerSample => .fatal
  | .blobOverrun => .fatal
  | .unknownCommand => .fatal
  | .overread => .fatal
  | .badBitshift => .fatal
  | .negativeRiceParameter => .fatal

/-- R200: whether a result is a genuine error, and not a suspension or a frame. -/
def CallResult.isError : CallResult → Bool
  | .error _ => true
  | .needMoreInput _ => false
  | .noFrame _ => false
  | .postQuit _ => false
  | .frame _ _ _ _ => false

/-- R19, R120: what the host may read of the header, once `header_parsed` is true. -/
def State.headerInfo (s : State) : Option (BitVec 32 × BitVec 16) :=
  if s.headerParsed then some (s.sampleRate, s.bitsPerSample) else none

end Sys2Proof.Machine
end

