-- ==== Sys2Proof/Machine/Reference.lean ====
section
/-! DEFINITION. Machine/Reference.lean: the loops of 44_audio_commands.md and 45_output.md written cell by cell, in the
order of the spec's pseudocode (20_memory.md R50). The machine runs the block operations of Predictor.lean, Output.lean
and Audio.lean, which read and write whole index ranges; statements say that the two agree. Nothing of the machine
calls this file. -/

namespace Sys2Proof.Machine.Reference

/-- `hist[c][i]` (R8). -/
def readCell (c : Nat) (i : Int) : M Cell := do
  let vs ← readHist c i 1
  pure (vs.headD 0)

/-- `hist[c][i] <- v` (R8). -/
def writeCell (c : Nat) (i : Int) (v : Cell) : M Unit := writeHist c i [v]

/-- R170, the inner loop: from tap `j` on. -/
def sumTaps (c : Nat) (i : Int) : List Int → Nat → Cell → M Cell
  | [], _, sum => pure sum
  | a :: cv, j, sum => do
    let h ← readCell c (i - j - 1)
    sumTaps c i cv (j + 1) (wrap32 (sum.toInt + a * h.toInt))

/-- R170, the outer loop. -/
def predict (c : Nat) (cv : List Int) (shift : Nat) (initSum : Cell) : M Unit := do
  let s ← get
  forRange s.blocksize 0 fun i => do
    let sum ← sumTaps c i cv 0 initSum
    modify fun s => { s with sum := sum }
    let s ← get
    let r ← readSigned s.residualSize
    writeCell c i (wrap32 (r + asr sum.toInt shift))

/-- R164. -/
def zeroBlock (c : Nat) : M Unit := do
  let s ← get
  forRange s.blocksize 0 fun i => writeCell c i 0

/-- R178, the sum. -/
def blockMean (c : Nat) : M Int := do
  let s ← get
  let bias : Cell := if s.version.toNat < 2 then 0 else wrap32 (s.blocksize / 2 : Nat)
  let sum ← foldRange s.blocksize 0 bias fun i sum => do
    let h ← readCell c i
    pure (wrap32 (sum.toInt + h.toInt))
  pure (tdiv sum.toInt s.blocksize)

/-- R179. -/
def wrapCopy (c : Nat) : M Unit := do
  let s ← get
  forRange s.nwrap (-(s.nwrap : Int)) fun i => do
    let v ← readCell c (i + s.blocksize)
    writeCell c i v

/-- R180. -/
def shiftBlock (c : Nat) : M Unit := do
  let s ← get
  if s.bitshift = 0 then pure ()
  else
    forRange s.blocksize 0 fun i => do
      let v ← readCell c i
      writeCell c i (shl32 v.toInt s.bitshift)

/-- R190. -/
def assembleFrame : M Unit := do
  let s ← get
  let rows ← collectRange s.blocksize 0 fun i =>
    collectRange s.channels 0 fun c => do
      let v ← readCell c.toNat i
      pure (toSample v.toInt)
  modify fun s => { s with out := rows.flatten }

end Sys2Proof.Machine.Reference
end

