-- ==== Sys2Proof/Safety.lean ====
section
/-! DEFINITION. Safety.lean: what holds of every state a run reaches, what a decoded block is, and when no arithmetic
step overflowed (44_audio_commands.md R183). Statements are written in these terms. -/

namespace Sys2Proof.Machine

/-! ## The invariant -/

/-- Every memory is in canonical form. -/
def State.MemoriesWf (s : State) : Prop :=
  (∀ m ∈ s.hist, m.wf) ∧ (∀ m ∈ s.mean, m.wf) ∧ s.coef.wf

/-- The input buffer (R25, R29, R30; R125: a resume offset points into a byte that was kept). -/
structure State.BufferInv (s : State) : Prop where
  cap_pos : 0 < s.cap
  pending_le : s.pending.length ≤ s.cap
  resume_lt : s.bitResumeOffset < 8
  resume_kept : 0 < s.bitResumeOffset → s.pending ≠ []
  pos_le : s.control ≠ .idle → s.pos ≤ s.bitLength

/-- The flags and the place in the call (R20 to R23, R121). -/
structure State.PhaseInv (s : State) : Prop where
  running : s.control ≠ .idle → s.fault = none
  pass_open : s.control = .pass → s.quitReceived = false
  quit_run : s.quitReceived = true → s.headerParsed = true
  finish_run : ∀ o, s.control = .finish o → s.headerParsed = true

/-- Before the header: the values of R36 that the header builds on. -/
structure State.FreshInv (s : State) : Prop where
  channels : s.channels = 0
  blocksize : s.blocksize = Config.defaultBlocksize
  nmean : s.nmean = -1
  bitshift : s.bitshift = 0
  lpcqoffset : s.lpcqoffset = 0
  currentChannel : s.currentChannel = 0

/-- After the header: the ranges of 10_state.md, and which cells hold a value. -/
structure State.RunInv (s : State) : Prop where
  formatType : s.internalFormatType = Config.general.typeS16HL
  channels_pos : 0 < s.channels
  channels_le : s.channels ≤ Config.maxChannels
  blocksize_pos : 0 < s.blocksize
  blocksize_le : s.blocksize ≤ s.histBlocksize
  histBlocksize_le : s.histBlocksize ≤ Config.maxBlocksize
  nwrap_ge : Config.nwrapMin ≤ s.nwrap
  nmean_v0 : s.version = 0 → s.nmean = -1
  nmean_nonneg : s.version ≠ 0 → 0 ≤ s.nmean
  bitshift_le : s.bitshift ≤ Config.maxBitshift
  lpcqoffset : s.lpcqoffset = if 1 < s.version.toNat then Config.general.lpcqOffsetV2 else 0
  bits : s.bitsPerSample = 16
  blob_ge : Config.headerBlobMin ≤ s.blob.length
  blob_lt : s.blob.length < Config.headerBlobLim
  currentChannel_lt : s.currentChannel < s.channels
  hist_length : s.hist.length = s.channels
  mean_length : s.mean.length = s.channels
  wrap_held : ∀ c < s.channels, ∀ i : Int, -(s.nwrap : Int) ≤ i → i < 0 → (s.histCell c i).isSome = true
  block_held : ∀ c < s.currentChannel, ∀ i : Int, 0 ≤ i → i < s.blocksize → (s.histCell c i).isSome = true
  mean_held : ∀ c < s.channels, ∀ i < max 1 s.nmean.toNat, (s.meanCell c i).isSome = true

/-- The invariant of every reachable state. After an error nothing but the buffer and the canonical forms matters (R204,
R210). -/
structure State.Inv (s : State) : Prop where
  memories : s.MemoriesWf
  buffer : s.BufferInv
  phase : s.PhaseInv
  fresh : s.headerParsed = false → s.fault = none → s.FreshInv
  run : s.headerParsed = true → s.fault = none → s.RunInv
  frame_size : s.control = .finish .frame → s.out.length = s.blocksize * s.channels

/-! ## What a block is -/

/-- R170 on values alone: the samples that residuals give after the samples `recent`, the newest first. -/
def samplesOf (cv : List Int) (shift : Nat) (initSum : Cell) : List Cell → List Int → List Cell
  | _, [] => []
  | recent, r :: residuals =>
    match sumTaps cv recent initSum with
    | none => []
    | some sum =>
      let x := wrap32 (r + asr sum.toInt shift)
      x :: samplesOf cv shift initSum (x :: recent) residuals

/-- R178 on values alone: the mean store after a block. -/
def meanAfter (s : State) (means block : List Cell) : List Cell :=
  let bias : Cell := if s.version.toNat < 2 then 0 else wrap32 (s.blocksize / 2 : Nat)
  let m := tdiv (sumCells bias block).toInt s.blocksize
  means.tail ++ [if s.version.toNat < 2 then wrap32 m else shl32 m s.bitshift]

/-- R163 on values alone: `coffset` from the entries of the mean store, oldest first. -/
def offsetValue (s : State) (means : List Cell) : Cell :=
  if s.nmean = 0 then means.headD 0
  else
    let bias : Cell := if s.version.toNat < 2 then 0 else wrap32 (s.nmean / 2)
    let quotient := tdiv (sumCells bias (means.take s.nmean.toNat)).toInt s.nmean
    wrap32 (if 2 ≤ s.version.toNat then asr quotient (min 1 s.bitshift) else quotient)

/-- Cells `i .. i+n-1` of the history of channel `c`, ascending. -/
def State.histCells (s : State) (c : Nat) (i : Int) (n : Nat) : List (Option Cell) :=
  (List.range n).map fun k : Nat => s.histCell c (i + k)

/-- The entries of the mean store of channel `c`, oldest first. -/
def State.meanCells (s : State) (c : Nat) : List (Option Cell) :=
  (List.range (max 1 s.nmean.toNat)).map fun k => s.meanCell c k

/-- What no command writes but by an error, BITSHIFT, BLOCKSIZE and QUIT: the stream parameters, the flags, the buffer, the
blob and the host's side. -/
structure State.SameStream (s t : State) : Prop where
  version : t.version = s.version
  internalFormatType : t.internalFormatType = s.internalFormatType
  channels : t.channels = s.channels
  blocksize : t.blocksize = s.blocksize
  nwrap : t.nwrap = s.nwrap
  nmean : t.nmean = s.nmean
  bitshift : t.bitshift = s.bitshift
  lpcqoffset : t.lpcqoffset = s.lpcqoffset
  sampleRate : t.sampleRate = s.sampleRate
  bitsPerSample : t.bitsPerSample = s.bitsPerSample
  headerParsed : t.headerParsed = s.headerParsed
  quitReceived : t.quitReceived = s.quitReceived
  fault : t.fault = s.fault
  bitResumeOffset : t.bitResumeOffset = s.bitResumeOffset
  cmd : t.cmd = s.cmd
  len : t.len = s.len
  pending : t.pending = s.pending
  cap : t.cap = s.cap
  histBlocksize : t.histBlocksize = s.histBlocksize
  blob : t.blob = s.blob
  accepted : t.accepted = s.accepted
  requests : t.requests = s.requests
  results : t.results = s.results

/-- Steps 4 to 7 of R160 and R143: from `s` to `t`, the current channel `c` has decoded `block` (before the shift), with the
cells of `wrap` before it. -/
structure AudioDone (s t : State) (wrap block : List Cell) : Prop where
  /-- R180: the block, shifted. -/
  shifted : ∀ i, i < s.blocksize →
    t.histCell s.currentChannel i = (block[i]?).map fun v => shl32 v.toInt s.bitshift
  /-- R179: the last `nwrap` values of "old wrap region followed by the block". -/
  wrapped : ∀ i, i < s.nwrap →
    t.histCell s.currentChannel ((i : Int) - s.nwrap) = (wrap ++ block)[i + s.blocksize]?
  /-- R178. -/
  means : ∀ ms : List Cell, s.meanCells s.currentChannel = ms.map some →
    t.meanCells s.currentChannel = (if 0 < s.nmean then meanAfter s ms block else ms).map some
  /-- Cells past the block keep their values, and so does every other channel. -/
  beyond : ∀ i : Int, s.blocksize ≤ i → t.histCell s.currentChannel i = s.histCell s.currentChannel i
  otherHist : ∀ c, c ≠ s.currentChannel → t.hist[c]? = s.hist[c]?
  otherMean : ∀ c, c ≠ s.currentChannel → t.mean[c]? = s.mean[c]?
  /-- R181: another channel is due. -/
  next : s.currentChannel + 1 < s.channels →
    t.currentChannel = s.currentChannel + 1 ∧ t.control = s.control ∧ t.out = s.out
  /-- R143, R190: the block is complete. -/
  complete : s.currentChannel + 1 = s.channels →
    t.currentChannel = 0 ∧ t.control = .finish .frame ∧ t.out.length = s.blocksize * s.channels ∧
      ∀ i, i < s.blocksize → ∀ c, c < s.channels →
        t.out[i * s.channels + c]? = (t.histCell c i).map fun v => toSample v.toInt
  same : s.SameStream t

/-- R110: a blob that the WAVE parse accepts, with its sample rate: sub-chunks other than `fmt ` may come first, and the
`fmt ` sub-chunk may be followed by anything. -/
def IsWave (blob : List Byte) (rate : BitVec 32) : Prop :=
  ∃ (size : List Byte) (chunks : List (List Byte × List Byte × List Byte))
    (fmtSize channelCount rateBytes byteRate blockAlign rest : List Byte),
    size.length = 4 ∧ fmtSize.length = 4 ∧ channelCount.length = 2 ∧ rateBytes.length = 4 ∧ byteRate.length = 4 ∧
    blockAlign.length = 2 ∧ 16 ≤ leBytes fmtSize ∧ rate = BitVec.ofNat 32 (leBytes rateBytes) ∧
    (∀ k ∈ chunks, k.1.length = 4 ∧ k.1 ≠ tagFmt ∧ k.2.1.length = 4 ∧ k.2.2.length = leBytes k.2.1) ∧
    blob = tagRiff ++ size ++ tagWave ++ chunks.flatMap (fun k => k.1 ++ k.2.1 ++ k.2.2) ++ tagFmt ++ fmtSize
      ++ [1, 0] ++ channelCount ++ rateBytes ++ byteRate ++ blockAlign ++ [16, 0] ++ rest

/-- R105, R106: whether an implementation has the capacity and the storage a header asks for (log 11). -/
def headerFits (limits : Config.Limits) (f : HeaderFields) : Bool :=
  !exceeds f.nwrap limits.nwrapMax && limits.histStorage f.channelCount.value f.blocksizeValue f.nwrap
    && !exceeds f.nmeanValue.toNat limits.nmeanMax
    && limits.meanStorage f.channelCount.value (max 1 f.nmeanValue.toNat)

/-- R101 to R111, R126, R130: from `s` to `t`, the header with the fields `f` has been parsed. -/
structure HeaderDone (impl : Config.Impl) (s t : State) (f : HeaderFields) (rate : BitVec 32) : Prop where
  version : t.version = f.version
  formatType : t.internalFormatType = impl.general.typeS16HL
  channels : t.channels = f.channelCount.value
  blocksize : t.blocksize = f.blocksizeValue
  nwrap : t.nwrap = f.nwrap
  nmean : t.nmean = f.nmeanValue
  lpcqoffset : t.lpcqoffset = if 1 < f.version.toNat then impl.general.lpcqOffsetV2 else 0
  histBlocksize : t.histBlocksize = f.blocksizeValue
  hist : t.hist = List.replicate f.channelCount.value (Memory.filled f.nwrap 0)
  mean : t.mean = List.replicate f.channelCount.value (Memory.filled (max 1 f.nmeanValue.toNat) Config.meanInit)
  coef : t.coef = []
  blob : t.blob = f.blob.map (BitVec.ofNat 8)
  sampleRate : t.sampleRate = rate
  bitsPerSample : t.bitsPerSample = 16
  currentChannel : t.currentChannel = 0
  bitshift : t.bitshift = 0
  headerParsed : t.headerParsed = true
  control : t.control = .finish .noFrame
  pos : t.pos = s.pos + (encHeader impl.general f).length
  cap : t.cap = max s.cap (impl.capNext ({ t with cap := s.cap } : State).core)
  pending : t.pending = s.pending
  bitResumeOffset : t.bitResumeOffset = s.bitResumeOffset
  fault : t.fault = s.fault
  quitReceived : t.quitReceived = s.quitReceived
  out : t.out = s.out
  cmd : t.cmd = s.cmd
  residualSize : t.residualSize = s.residualSize
  coffset : t.coffset = s.coffset
  order : t.order = s.order
  shift : t.shift = s.shift
  initSum : t.initSum = s.initSum
  sum : t.sum = s.sum
  len : t.len = s.len
  accepted : t.accepted = s.accepted
  requests : t.requests = s.requests
  results : t.results = s.results

/-- R129, R204, R206: what answers to `s` when a read runs past the buffer: the error is taken, and the buffer bookkeeping is
emptied. -/
def State.Overreads (s : State) (o : Host.Outcome State Fault Refusal) : Prop :=
  ∃ t, o = .next t ∧ t.fault = some .overread ∧ t.control = .idle ∧ t.results = s.results ++ [.error .overread] ∧
    t.pending = [] ∧ t.bitResumeOffset = 0

/-! ## No overflow (R183)

Each predicate says "no step overflowed" for one place where a result is stored in a cell; beside it stands the same
computation in exact arithmetic. Together they cover every addition, subtraction, multiplication and left shift that the
machine narrows: the taps, their sum and the sample (R170), the sum of the offset and its bias (R163), the coefficients and
the offset taken and given back (R171), the sum of the mean, its bias and its shift (R178), and the shift of the block
(R180). -/

/-- Whether a value is held by a cell as it is. -/
def fits32 (v : Int) : Bool := decide (-2147483648 ≤ v) && decide (v < 2147483648)

/-- R170 in exact arithmetic: the sum of the taps. -/
def exactTaps (cv : List Int) (recent : List Int) (sum : Int) : Int :=
  (List.zipWith (· * ·) cv recent).foldl (· + ·) sum

/-- R170 in exact arithmetic: the samples. -/
def exactSamples (cv : List Int) (shift : Nat) (initSum : Int) : List Int → List Int → List Int
  | _, [] => []
  | recent, r :: residuals =>
    let x := r + asr (exactTaps cv recent initSum) shift
    x :: exactSamples cv shift initSum (x :: recent) residuals

/-- No product of the taps and no partial sum overflowed. -/
def tapsFit : List Int → List Int → Int → Bool
  | a :: cv, h :: recent, sum => fits32 (a * h) && fits32 (sum + a * h) && tapsFit cv recent (sum + a * h)
  | _, _, _ => true

/-- The decode loop R170. -/
def predictFits (cv : List Int) (shift : Nat) (initSum : Int) : List Int → List Int → Bool
  | _, [] => true
  | recent, r :: residuals =>
    let x := r + asr (exactTaps cv recent initSum) shift
    tapsFit cv recent initSum && fits32 x && predictFits cv shift initSum (x :: recent) residuals

/-- A sum of cells on top of a start value (R163, R178). -/
def sumFits : Int → List Int → Bool
  | _, [] => true
  | sum, v :: vs => fits32 (sum + v) && sumFits (sum + v) vs

/-- R163, R178: the start value of a sum. -/
def exactBias (s : State) (n : Int) : Int := if s.version.toNat < 2 then 0 else n / 2

/-- R163: the bias and the sum of the offset correction. -/
def coffsetFits (s : State) (means : List Int) : Bool :=
  s.nmean == 0 || fits32 (exactBias s s.nmean) && sumFits (exactBias s s.nmean) (means.take s.nmean.toNat)

/-- R163 in exact arithmetic. -/
def exactOffset (s : State) (means : List Int) : Int :=
  if s.nmean = 0 then means.headD 0
  else
    let quotient := tdiv ((means.take s.nmean.toNat).foldl (· + ·) (exactBias s s.nmean)) s.nmean
    if 2 ≤ s.version.toNat then asr quotient (min 1 s.bitshift) else quotient

/-- R178 in exact arithmetic: the quotient. -/
def exactMean (s : State) (block : List Int) : Int := tdiv (block.foldl (· + ·) (exactBias s s.blocksize)) s.blocksize

/-- R178: the bias, the sum and the shift of the mean update. -/
def meanFits (s : State) (block : List Int) : Bool :=
  fits32 (exactBias s s.blocksize) && sumFits (exactBias s s.blocksize) block
    && (decide (s.version.toNat < 2) || fits32 (exactMean s block * (2 ^ s.bitshift : Nat)))

/-- R178 in exact arithmetic: the mean store after a block. -/
def exactMeanAfter (s : State) (means block : List Int) : List Int :=
  means.tail ++ [if s.version.toNat < 2 then exactMean s block else exactMean s block * (2 ^ s.bitshift : Nat)]

/-- R171: the coefficients, each narrowed when it is stored. -/
def coefsFit (coefs : List Int) : Bool := coefs.all fits32

/-- R171: `d`, the offset or its opposite, added to cells of the history. -/
def offsetFits (d : Int) (cells : List Int) : Bool := cells.all fun v => fits32 (v + d)

/-- R180: the left shift of a block. -/
def shiftFits (n : Nat) (block : List Int) : Bool := block.all fun v => fits32 (v * (2 ^ n : Nat))

/-! ## Runs -/

/-- `k` steps, when each answers a next state. -/
def runSteps : Nat → State → Option State
  | 0, s => some s
  | k + 1, s =>
    match step s with
    | .next t => runSteps k t
    | .fault _ => none
    | .refused _ => none

end Sys2Proof.Machine
end

