-- ==== Sys2Proof/Certificates/Slice0/Obligations.lean ====
section
/-! DEFINITION. Certificates/Slice0/Obligations.lean: the statements about SHN-CORE, for the provers. Each docstring names
the rule it formalises. "The model's choice" marks what rests on a decision of the spec or of the model, with its log
entry. -/

open Sys2Proof Sys2Proof.Machine

/-! ## Encoding -/

/-- R64, opcode_table.json: words written out from the table's `match` fields decode to their rows. The model's choice: a
command's word is the 5-bit window, its bit 4 first, followed by zeros, and the header's word the first 32 bits (log 6). That
five bits select the command (R64) is the spec's inference; the numbers of the commands are its decision D2 (log 14). -/
def Obligations.TableWordsDecode : Prop :=
  decodeTableWord 8 0x10 = some .diff0 ∧ decodeTableWord 8 0x14 = some .diff1 ∧
  decodeTableWord 8 0x18 = some .diff2 ∧ decodeTableWord 8 0x1C = some .diff3 ∧
  decodeTableWord 8 0x08 = some .quit ∧ decodeTableWord 8 0x0A = some .blocksize ∧
  decodeTableWord 8 0x0C = some .bitshift ∧ decodeTableWord 8 0x0E = some .qlpc ∧
  decodeTableWord 8 0x04 = some .zero ∧ decodeTableWord 8 0x05 = some .verbatim ∧
  decodeTableWord 8 0x06 = some .illegal10or11 ∧ decodeTableWord 8 0x00 = some .illegal12up ∧
  decodeTableWord 32 0x616A6B67 = some .header

/-- R64: for every legal numbering of the commands (R63, `FN_ID`), each 5-bit window at a command boundary is matched by exactly
one row of the table, so no two rows overlap and no window is left over. (R64 is the spec's inference.) -/
def Obligations.EveryWindowHasOneRow : Prop :=
  ∀ g : Config.General, g.legal = true →
    ∀ w : Fin 32, (((opcodeRows g).filter fun row => row.1.isPrefixOf (encRaw 5 w.val)).length) = 1

/-- R61, R63, R64: for every legal numbering of the commands (`FN_ID`, D2), decoding an encoded opcode gives the instruction
back, whatever follows it in the stream, and consumes exactly the opcode. -/
def Obligations.DecodeOfEncodedOpcode : Prop :=
  ∀ (g : Config.General) (i : Instr) (rest : Bits), g.legal = true → i.wf = true →
    decode g (decide (i ≠ .header)) (encode g i ++ rest) = .ok (i, (encode g i).length)

/-- R62, R63, R64: decoding by the window agrees with `read_unsigned(FNSIZE)`: when the bits begin with the code of the number
`n`, the decoder selects the row of `n`; for a legal number it consumes the whole code. Stated for every legal numbering of the
commands; that of SHN-CORE is decision D2 (log 14). -/
def Obligations.WindowAgreesWithFunctionCode : Prop :=
  ∀ (g : Config.General) (bs rest : Bits) (n : Nat), g.legal = true →
    takeUnsigned Config.fnSize bs = some (n, rest) →
    ∃ len, decodeCommand g bs = .ok (Instr.ofFnNumber g n, len) ∧ (n ≤ 9 → rest = bs.drop len)

/-- R85, R89 through the cursor: `read_unsigned(k)` of an encoded value gives the value, consumes exactly its code, whose
length is `(v div 2^k) + 1 + k`, and changes nothing else. -/
def Obligations.UnsignedCodeRoundTrip : Prop :=
  ∀ (s : State) (k v : Nat) (rest : Bits), s.unread = encU k v ++ rest →
    readUnsigned k s = .ok v (s.advance (v / 2 ^ k + 1 + k)) ∧
    (s.advance (v / 2 ^ k + 1 + k)).unread = rest

/-- R86, R89 through the cursor: `read_signed(k)` of an encoded value gives the value and consumes exactly its code. The
parameter handed on is `k + SR_K_BIAS` (decision D9; log 19). -/
def Obligations.SignedCodeRoundTrip : Prop :=
  ∀ (s : State) (k r : Int) (rest : Bits), 0 ≤ k + Config.srKBias → s.unread = encS k r ++ rest →
    readSigned k s = .ok r (s.advance (encS k r).length) ∧ (s.advance (encS k r).length).unread = rest

/-- R87, R89 through the cursor: `read_adaptive_unsigned(h)` of an encoded value gives the value, whatever `k` the encoder
chose, at every version. -/
def Obligations.AdaptiveCodeRoundTrip : Prop :=
  ∀ (s : State) (hint : Nat) (f : Adaptive) (rest : Bits), s.unread = encA s.version hint f ++ rest →
    readAdaptive hint s = .ok f.value (s.advance (encA s.version hint f).length) ∧
    (s.advance (encA s.version hint f).length).unread = rest

/-- R85, R80, R141, R112: a code that the buffer cuts short anywhere raises Overread; and so does every command, and the header,
whose operand bits the buffer cuts short anywhere: the call ends with the error, nothing suspends inside them, and the buffer
bookkeeping is emptied (R129, R206). That the cursor refuses the read, and what is emptied, is decision D29 (log 34); R112 is the
spec's inference; the codings are those of the commands' own statements and of HeaderParsesStream (log 13 to 16, 19, 20, 30). The
header is stated for every implementation that has the capacity for it (log 11). -/
def Obligations.TruncatedCodeOverreads : Prop :=
  (∀ (s : State) (k v : Nat) (missing : Bits), missing ≠ [] → s.unread ++ missing = encU k v →
    ∃ t, readUnsigned k s = .error (.raise .overread) t) ∧
  ∀ (s : State) (missing : Bits), missing ≠ [] → s.pos ≤ s.bitLength →
    (s.RunInv → s.MemoriesWf →
      (∀ f : DiffFields, f.wf s.version s.blocksize = true → s.unread ++ missing = encDiff s.version f →
        ∀ i ∈ [Instr.diff0, .diff1, .diff2, .diff3], s.Overreads (exec i s)) ∧
      (∀ f : QlpcFields, f.wf s.version s.blocksize s.nwrap = true → s.unread ++ missing = encQlpc s.version f →
        s.Overreads (exec .qlpc s))) ∧
    (∀ bytes : List Nat, s.unread ++ missing = encVerbatim Config.general bytes → s.Overreads (exec .verbatim s)) ∧
    (∀ shift : Nat, s.unread ++ missing = encShift shift → s.Overreads (exec .bitshift s)) ∧
    (∀ size : Adaptive, s.unread ++ missing = encBlocksize s.version s.blocksize size →
      s.Overreads (exec .blocksize s)) ∧
    (s.unread = [] → s.Overreads (exec .illegal10or11 s)) ∧
    (∀ v : Nat, s.unread ++ missing = encU 2 v → s.Overreads (exec .illegal12up s)) ∧
    exec .header s = perform (headerPass Config.impl) s ∧
    ∀ (impl : Config.Impl) (f : HeaderFields), s.FreshInv → impl.general.legal = true → f.wf impl.general = true →
      headerFits impl.limits f = true → s.unread ++ missing = encHeader impl.general f →
      s.Overreads (perform (headerPass impl) s)

/-! ## The bit cursor -/

/-- R80, R41: `read_bits(n)` gives the next `n` bits as an unsigned integer, the first bit the highest one, where stream bit
`p` is bit `7 - (p mod 8)` of byte `p div 8` (the model's choice of the spec's decision D1; log 13); it raises Overread and
consumes nothing when fewer bits remain (decision D29; log 34). `peek_bits(n)` (R81, the spec's inference) gives the same
and leaves the cursor. -/
def Obligations.ReadBitsMostSignificantFirst : Prop :=
  ∀ (s : State) (n : Nat),
    (s.pos + n ≤ s.bitLength → ∃ v, readBits n s = .ok v (s.advance n) ∧ peekBits n s = .ok v s ∧ v < 2 ^ n ∧
      ∀ j, j < n → v.testBit (n - 1 - j) =
        (s.pending.getD ((s.pos + j) / 8) 0).getLsbD (7 - (s.pos + j) % 8)) ∧
    (s.bitLength < s.pos + n →
      readBits n s = .error (.raise .overread) s ∧ peekBits n s = .error (.raise .overread) s)

/-- R82 to R84: `skip_bits` advances the cursor without a value and raises when too few bits remain; `bits_remaining` and
`bits_consumed` only look. -/
def Obligations.CursorPrimitives : Prop :=
  ∀ (s : State) (n : Nat),
    (s.pos + n ≤ s.bitLength → skipBits n s = .ok () (s.advance n)) ∧
    (s.bitLength < s.pos + n → skipBits n s = .error (.raise .overread) s) ∧
    bitsRemaining s = .ok (s.bitLength - s.pos) s ∧ bitsConsumed s = .ok s.pos s

/-- R24, R88: nothing moves the cursor backwards, and an instruction never goes past the end of the buffer it was given. -/
def Obligations.CursorNeverMovesBack : Prop :=
  ∀ (i : Instr) (s t : State), s.pos ≤ s.bitLength → exec i s = .next t → s.pos ≤ t.pos ∧ t.pos ≤ s.bitLength

/-! ## The step -/

/-- R140, R126: in a pass that does not suspend, when the bits at the cursor decode to an instruction, the step is that
instruction's execution in the state whose cursor is past the opcode and whose `cmd` is the command's number. -/
def Obligations.StepRunsDecodedInstruction : Prop :=
  ∀ (s : State) (i : Instr) (n : Nat), s.control = .pass → s.suspends = false →
    decode Config.general s.headerParsed s.unread = .ok (i, n) → step s = exec i (s.issue Config.general i n)

/-- R140, R141: with fewer than `3 + 2` bits left, or no channel due, a pass of the command loop ends without a frame and keeps
every register. With five bits or more left and a channel due it reads a command. -/
def Obligations.PassSuspends : Prop :=
  ∀ s : State, s.control = .pass → s.headerParsed = true →
    (s.bitLength < s.pos + 5 ∨ s.channels ≤ s.currentChannel →
      step s = .next { s with control := .finish .noFrame }) ∧
    (s.pos + 5 ≤ s.bitLength → s.currentChannel < s.channels →
      s.suspends = false ∧ ∃ i n, decode Config.general s.headerParsed s.unread = .ok (i, n))

/-- R100: before the header is parsed, a stream whose bytes are those of the magic up to one that differs raises BadMagic, however
short it is; and a stream that ends inside the magic, with no byte that differs, raises Overread. (Which of the two a short
stream raises is the model's byte-wise reading of R100; log 5.) -/
def Obligations.BadMagicRaises : Prop :=
  ∀ (s : State) (good more : List Byte), s.control = .pass → s.headerParsed = false →
    (∀ (m : Byte) (bad : Nat) (rest : Bits), magic = good ++ m :: more → bad < 256 → bad ≠ m.toNat →
      s.unread = bitsOf good ++ encRaw 8 bad ++ rest → step s = .next (s.raise .badMagic)) ∧
    (∀ part : Bits, magic = good ++ more → more ≠ [] → part.length < 8 → s.unread = bitsOf good ++ part →
      step s = .next (s.raise .overread))

/-! ## The decode call -/

/-- R121: the entry checks come first; neither parses, takes a byte or changes a register. That a call after an error answers
the first cause is the spec's decision D13 (log 23). -/
def Obligations.EntryChecksAnswerWithoutParsing : Prop :=
  ∀ (s : State) (chunk : List Byte) (more : List Request), s.control = .idle → s.requests = .decode chunk :: more →
    (∀ c, s.fault = some c →
      step s = .next { s with requests := more, results := s.results ++ [.error c] }) ∧
    (s.fault = none → s.quitReceived = true →
      step s = .next { s with requests := more, results := s.results ++ [.postQuit chunk.length] })

/-- R123, R124: a call that neither fills the buffer up to the cap nor flushes stashes its whole chunk, asks for more input and
changes nothing else. That a non-empty chunk means that more data may follow is the spec's decision D15 (log 24); the queue of
requests and the list of results are the model's (log 2); and the buffer can be held (log 11). -/
def Obligations.ShortChunkAsksForMore : Prop :=
  ∀ (s : State) (chunk : List Byte) (more : List Request), s.control = .idle → s.requests = .decode chunk :: more →
    s.fault = none → s.quitReceived = false → 0 < chunk.length → s.pending.length + chunk.length < s.cap →
    step s = .next (serve Config.limits s) ∧
    ∀ limits : Config.Limits, limits.pendingStorage s.cap = true →
      serve limits s = { s with
        requests := more, pending := s.pending ++ chunk, accepted := chunk.length
        results := s.results ++ [.needMoreInput chunk.length] }

/-- R123, R124, R125: a flush, or a chunk that fills the buffer, starts a pass over the whole buffer from the saved bit offset;
the bytes beyond the cap are not taken. (On every implementation that can hold the buffer; log 11.) -/
def Obligations.FullBufferOrFlushStartsPass : Prop :=
  ∀ (s : State) (chunk : List Byte) (more : List Request), s.Inv → s.control = .idle →
    s.requests = .decode chunk :: more → s.fault = none → s.quitReceived = false →
    (chunk = [] ∨ s.cap ≤ s.pending.length + chunk.length) →
    step s = .next (serve Config.limits s) ∧
    ∀ limits : Config.Limits, limits.pendingStorage s.cap = true →
      serve limits s = { s with
        requests := more
        pending := s.pending ++ chunk.take (s.cap - s.pending.length)
        accepted := min chunk.length (s.cap - s.pending.length)
        pos := s.bitResumeOffset
        control := .pass }

/-- R127, R128: at the end of a pass the whole bytes gone over are dropped, the fractional offset is kept, and the call answers
with the bytes of its chunk that it took (decision D14; log 24), and with the frame if there is one. -/
def Obligations.PassFinishCompacts : Prop :=
  ∀ (s : State) (o : PassOutcome), s.control = .finish o → s.pos ≤ s.bitLength →
    step s = .next { s with
      pending := s.pending.drop (s.pos / 8)
      bitResumeOffset := s.pos % 8
      out := []
      control := .idle
      results := s.results ++
        [match o with
         | .noFrame => .noFrame s.accepted
         | .frame => .frame s.accepted s.blocksize s.channels s.out] }

/-- R127, R44, R24: compaction loses no bit: after the end of a pass, and whatever bytes are then appended, a new pass begins with
exactly the bits the last one left unread, followed by the new ones. -/
def Obligations.CompactionKeepsUnreadBits : Prop :=
  ∀ (s : State) (extra : List Byte), s.pos ≤ s.bitLength →
    ({ s with pending := s.pending.drop (s.pos / 8) ++ extra, pos := s.pos % 8 } : State).unread =
      s.unread ++ bitsOf extra

/-- R29, R52: no step changes a byte of the buffer in place: a step drops bytes from the front, appends bytes at the end, or
empties the buffer; and only a call's end drops, only a call's start appends. -/
def Obligations.PendingOnlyDroppedOrAppended : Prop :=
  ∀ s t : State, step s = .next t →
    t.pending = [] ∨ (∃ n, t.pending = s.pending.drop n ∧ (n ≠ 0 → ∃ o, s.control = .finish o)) ∨
    (∃ extra, s.control = .idle ∧ t.pending = s.pending ++ extra)

/-- R120: a step adds at most one result, and never takes one back; only the request to open a new stream aside, it is at the end
of a call that it adds one, and the core is idle then. -/
def Obligations.ResultsOnlyGrow : Prop :=
  ∀ s t : State, step s = .next t →
    t.results = s.results ∨ ∃ r, t.results = s.results ++ [r] ∧ t.control = .idle

/-! ## The audio commands -/

/-- R160, R161, R162, R163, R165 to R170, R178 to R181: DIFF0 to DIFF3. On every encoding of its operands the command completes;
the block is what the decode loop gives for its coefficient vector and start value; the post-processing is done; the
cursor is past the operands; `sum` is left as the loop leaves it; and nothing else changes. Width, rounding and the readings of
the fields are the spec's decisions D1, D3, D4, D9, D10, D11, D20 (log 13, 17, 18, 19, 20, 22, 27). The model's choice: the order,
the shift and the start value of R165 to R169 are arguments of the loop, and the registers `order`, `shift` and `init_sum` keep
their values (log 36). -/
def Obligations.DiffCommandsDecodeBlock : Prop :=
  ∀ (s : State) (f : DiffFields) (rest : Bits) (wrap means : List Cell),
    s.RunInv → s.MemoriesWf → f.wf s.version s.blocksize = true → s.unread = encDiff s.version f ++ rest →
    s.histCells s.currentChannel (-(s.nwrap : Int)) s.nwrap = wrap.map some →
    s.meanCells s.currentChannel = means.map some →
    ∀ p ∈ [(Instr.diff0, [], offsetValue s means), (Instr.diff1, [1], 0), (Instr.diff2, [2, -1], 0),
        (Instr.diff3, [3, -3, 1], 0)],
      ∃ t, exec p.1 s = .next t ∧ AudioDone s t wrap (samplesOf p.2.1 0 p.2.2 wrap.reverse f.residuals) ∧
        t.pos = s.pos + (encDiff s.version f).length ∧
        t.residualSize = residualSizeOf s.version f.energy.value ∧ t.coffset = offsetValue s means ∧
        t.coef = s.coef ∧ t.order = s.order ∧ t.shift = s.shift ∧ t.initSum = s.initSum

/-- R164, R160: ZERO reads no operand, decodes a block of zeros, and runs the post-processing. -/
def Obligations.ZeroDecodesZeros : Prop :=
  ∀ (s : State) (wrap means : List Cell), s.RunInv → s.MemoriesWf →
    s.histCells s.currentChannel (-(s.nwrap : Int)) s.nwrap = wrap.map some →
    s.meanCells s.currentChannel = means.map some →
    ∃ t, exec .zero s = .next t ∧ AudioDone s t wrap (List.replicate s.blocksize 0) ∧ t.pos = s.pos ∧
      t.coffset = offsetValue s means ∧ t.residualSize = s.residualSize ∧ t.sum = s.sum ∧ t.coef = s.coef ∧
      t.order = s.order ∧ t.shift = s.shift ∧ t.initSum = s.initSum

/-- R171, R172, R160: QLPC. The order and the coefficients come from the stream, the offset is taken from the samples before the
block and given back to the block, and it is not given back to the wrap region (R172 b). Decisions as for DIFF, and D7
(log 16). -/
def Obligations.QlpcDecodesBlock : Prop :=
  ∀ (s : State) (f : QlpcFields) (rest : Bits) (wrap means : List Cell),
    s.RunInv → s.MemoriesWf → f.wf s.version s.blocksize s.nwrap = true → s.unread = encQlpc s.version f ++ rest →
    s.histCells s.currentChannel (-(s.nwrap : Int)) s.nwrap = wrap.map some →
    s.meanCells s.currentChannel = means.map some →
    let order := f.coefs.length
    let off := offsetValue s means
    let lowered := wrap.take (s.nwrap - order) ++
      (wrap.drop (s.nwrap - order)).map fun v => wrap32 (v.toInt - off.toInt)
    let raw := samplesOf (f.coefs.map fun a => (wrap32 a).toInt) 5 (if 0 < order then wrap32 s.lpcqoffset else off)
      lowered.reverse f.residuals
    ∃ t, exec .qlpc s = .next t ∧
      AudioDone s t lowered (raw.map fun v => wrap32 (v.toInt + off.toInt)) ∧
      t.pos = s.pos + (encQlpc s.version f).length ∧
      t.residualSize = residualSizeOf s.version f.energy.value ∧ t.coffset = off ∧ t.order = order ∧ t.shift = 5 ∧
      t.initSum = (if 0 < order then wrap32 s.lpcqoffset else off) ∧
      ∀ j : Nat, t.coef.read j = if j < order then (f.coefs[j]?).map wrap32 else s.coef.read j

/-- R171: a QLPC order above `nwrap` raises LpcOrderTooLarge before any coefficient is read: the cursor is just past the order
field, and the history, the mean store and the coefficient file are unchanged. -/
def Obligations.QlpcOrderTooLargeRaises : Prop :=
  ∀ (s : State) (energy order : Adaptive) (rest : Bits), s.RunInv → s.MemoriesWf → s.nwrap < order.value →
    s.unread = encEnergy s.version energy ++ encOrder s.version order ++ rest →
    ∃ t, exec .qlpc s = .next t ∧ t.fault = some .lpcOrderTooLarge ∧ t.control = .idle ∧
      t.results = s.results ++ [.error .lpcOrderTooLarge] ∧
      t.pos = s.pos + (encEnergy s.version energy).length + (encOrder s.version order).length ∧
      t.hist = s.hist ∧ t.mean = s.mean ∧ t.coef = s.coef ∧ t.currentChannel = s.currentChannel ∧ t.pending = s.pending

/-- R162, R85, R171: at version 0 an energy of 0 gives the Rice parameter -1, and the first residual raises
NegativeRiceParameter (the spec's decision D19; log 26), in DIFF0 to DIFF3 and in QLPC, there after the order and the coefficients
were read and the coefficients stored. The offset is 0 at version 0, so no cell of the history has changed. Stated for
`SR_K_BIAS = 0` (D9; log 19), under which the case exists. -/
def Obligations.VersionZeroEnergyZeroRaises : Prop :=
  ∀ (s : State) (k : Nat) (rest : Bits), s.RunInv → s.MemoriesWf → s.version = 0 → Config.srKBias = 0 →
    (s.unread = encEnergy s.version ⟨k, 0⟩ ++ rest →
      ∀ i ∈ [Instr.diff0, .diff1, .diff2, .diff3], ∃ t, exec i s = .next t ∧
        t.fault = some .negativeRiceParameter ∧ t.residualSize = -1 ∧
        t.pos = s.pos + (encEnergy s.version ⟨k, 0⟩).length ∧ t.results = s.results ++ [.error .negativeRiceParameter] ∧
        t.mean = s.mean ∧ t.currentChannel = s.currentChannel ∧ ∀ c i, t.histCell c i = s.histCell c i) ∧
    ∀ (orderK : Nat) (coefs : List Int), coefs.length ≤ s.nwrap →
      let operands := encEnergy s.version ⟨k, 0⟩ ++ encOrder s.version ⟨orderK, coefs.length⟩
        ++ coefs.flatMap (encS Config.lpcQuant)
      s.unread = operands ++ rest →
      ∃ t, exec .qlpc s = .next t ∧ t.fault = some .negativeRiceParameter ∧ t.residualSize = -1 ∧
        t.pos = s.pos + operands.length ∧ t.results = s.results ++ [.error .negativeRiceParameter] ∧
        t.mean = s.mean ∧ t.currentChannel = s.currentChannel ∧ (∀ c i, t.histCell c i = s.histCell c i) ∧
        t.order = coefs.length ∧ t.coffset = 0 ∧
        ∀ j : Nat, t.coef.read j = if j < coefs.length then (coefs[j]?).map wrap32 else s.coef.read j

/-- R163, R233: with an all-zero mean store the offset correction is 0, at every version and for every legal `nmean`. The
bias is a `W`-bit value, so `nmean` must fit one (log 41). -/
def Obligations.ZeroMeansGiveZeroOffset : Prop :=
  ∀ (s : State) (means : List Cell), s.RunInv → s.nmean < 2147483648 → (∀ m ∈ means, m = 0) → offsetValue s means = 0

/-- R183: where no step overflows, the arithmetic of the audio commands is exact: the samples of the decode loop (R170), the offset
(R163), the coefficients and the offset taken and given back (R171), the mean update (R178) and the shift of the block (R180). The
width is decision D3 (log 17). -/
def Obligations.NoOverflowGivesExactSamples : Prop :=
  (∀ (cv : List Int) (shift : Nat) (initSum : Cell) (recent : List Cell) (residuals : List Int),
    cv.length ≤ recent.length →
    predictFits cv shift initSum.toInt (recent.map BitVec.toInt) residuals = true →
    (samplesOf cv shift initSum recent residuals).map BitVec.toInt =
      exactSamples cv shift initSum.toInt (recent.map BitVec.toInt) residuals) ∧
  (∀ (s : State) (means : List Cell), -1 ≤ s.nmean → coffsetFits s (means.map BitVec.toInt) = true →
    (offsetValue s means).toInt = exactOffset s (means.map BitVec.toInt)) ∧
  (∀ coefs : List Int, coefsFit coefs = true → (coefs.map fun a => (wrap32 a).toInt) = coefs) ∧
  (∀ (d : Int) (cells : List Cell), offsetFits d (cells.map BitVec.toInt) = true →
    (cells.map fun v => (wrap32 (v.toInt + d)).toInt) = cells.map fun v => v.toInt + d) ∧
  (∀ (s : State) (means block : List Cell), meanFits s (block.map BitVec.toInt) = true →
    (meanAfter s means block).map BitVec.toInt = exactMeanAfter s (means.map BitVec.toInt) (block.map BitVec.toInt)) ∧
  (∀ (n : Nat) (block : List Cell), shiftFits n (block.map BitVec.toInt) = true →
    (block.map fun v => (shl32 v.toInt n).toInt) = block.map fun v => (v.toInt * (2 ^ n : Nat) : Int))

/-- R185: with all residuals 0 and no overflow, the fixed predictors extrapolate: order 1 repeats the last sample, order 2
continues a line and order 3 a parabola through the last samples. -/
def Obligations.FixedPredictorsExtrapolate : Prop :=
  (∀ (n : Nat) (a : Cell) (recent : List Cell),
    samplesOf [1] 0 0 (a :: recent) (List.replicate n 0) = List.replicate n a) ∧
  (∀ (n : Nat) (a b : Cell) (recent : List Cell),
    predictFits [2, -1] 0 0 ((a :: b :: recent).map BitVec.toInt) (List.replicate n 0) = true →
    ∀ i, i < n → ((samplesOf [2, -1] 0 0 (a :: b :: recent) (List.replicate n 0))[i]?).map BitVec.toInt =
      some (a.toInt + (i + 1) * (a.toInt - b.toInt))) ∧
  (∀ (n : Nat) (a b c : Cell) (recent : List Cell),
    predictFits [3, -3, 1] 0 0 ((a :: b :: c :: recent).map BitVec.toInt) (List.replicate n 0) = true →
    ∀ i, i < n → ((samplesOf [3, -3, 1] 0 0 (a :: b :: c :: recent) (List.replicate n 0))[i]?).map
        (fun v => 2 * v.toInt) =
      some (2 * a.toInt + (i + 1) * (3 * a.toInt - 4 * b.toInt + c.toInt) +
        (i + 1) * (i + 1) * (a.toInt - 2 * b.toInt + c.toInt)))

/-! ## The machine's block operations and the pseudocode -/

/-- R170: the decode loop on a list of samples agrees with the pseudocode that reads and writes the history cell by cell, in the
result, the stop and every field of the state. -/
def Obligations.PredictMatchesPseudocode : Prop :=
  ∀ (s : State) (c : Nat) (cv : List Int) (shift : Nat) (initSum : Cell), s.MemoriesWf → c < s.hist.length →
    cv.length ≤ s.nwrap → s.blocksize ≤ s.histBlocksize →
    (∀ i : Int, -(s.nwrap : Int) ≤ i → i < 0 → (s.histCell c i).isSome = true) →
    predict c cv shift initSum s = Reference.predict c cv shift initSum s

/-- R179: reading all the sources and then writing all the destinations agrees with the ascending copy of the pseudocode, for
every block size, also one smaller than `nwrap`. -/
def Obligations.WrapCopyMatchesPseudocode : Prop :=
  ∀ (s : State) (c : Nat), s.MemoriesWf → c < s.hist.length → 0 < s.blocksize → s.blocksize ≤ s.histBlocksize →
    (∀ i : Int, -(s.nwrap : Int) ≤ i → i < s.blocksize → (s.histCell c i).isSome = true) →
    wrapCopy c s = Reference.wrapCopy c s

/-- R164, R178, R180, R190: the other block operations agree with the cell by cell loops. -/
def Obligations.BlockLoopsMatchPseudocode : Prop :=
  ∀ (s : State), s.MemoriesWf → s.channels ≤ s.hist.length → s.blocksize ≤ s.histBlocksize → 0 < s.blocksize →
    (∀ c < s.channels, ∀ i : Int, 0 ≤ i → i < s.blocksize → (s.histCell c i).isSome = true) →
    (∀ c < s.channels, blockMean c s = Reference.blockMean c s ∧ shiftBlock c s = Reference.shiftBlock c s ∧
      writeHist c 0 (List.replicate s.blocksize 0) s = Reference.zeroBlock c s) ∧
    assembleFrame s = Reference.assembleFrame s

/-! ## Output -/

/-- R191: `clip16` saturates at both ends of the signed 16-bit range and is the identity inside; a clipped value is stored as it
is. -/
def Obligations.ClipSaturates : Prop :=
  ∀ v : Int, (v < -32768 → (toSample v).toInt = -32768) ∧ (32767 < v → (toSample v).toInt = 32767) ∧
    (-32768 ≤ v → v ≤ 32767 → (toSample v).toInt = v)

/-- R190: frame assembly writes `clip16(hist[c][i])` to `OUT[i·channels + c]` and changes nothing but `OUT`. -/
def Obligations.FrameInterleavesChannels : Prop :=
  ∀ (s : State), s.MemoriesWf → s.channels ≤ s.hist.length → s.blocksize ≤ s.histBlocksize →
    (∀ c < s.channels, ∀ i : Int, 0 ≤ i → i < s.blocksize → (s.histCell c i).isSome = true) →
    ∃ t, assembleFrame s = .ok () t ∧ t = { s with out := t.out } ∧ t.out.length = s.blocksize * s.channels ∧
      ∀ i, i < s.blocksize → ∀ c, c < s.channels →
        t.out[i * s.channels + c]? = (s.histCell c i).map fun v => toSample v.toInt

/-! ## The non-audio commands -/

/-- R145: VERBATIM discards its bytes, codes of 256 and more among them, and changes nothing but the cursor and its own count.
The parameter of the count is decision D5 (log 15). -/
def Obligations.VerbatimSkipsBytes : Prop :=
  ∀ (s : State) (bytes : List Nat) (rest : Bits), s.unread = encVerbatim Config.general bytes ++ rest →
    exec .verbatim s = .next { s with pos := s.pos + (encVerbatim Config.general bytes).length, len := bytes.length }

/-- R146: BITSHIFT writes `bitshift` and nothing else for operands up to 31, and raises BadBitshift for larger ones, `bitshift`
unchanged (the bound is decision D18; log 25). -/
def Obligations.BitshiftWritesOrRaises : Prop :=
  ∀ (s : State) (shift : Nat) (rest : Bits), s.unread = encShift shift ++ rest →
    (shift ≤ 31 →
      exec .bitshift s = .next { s with pos := s.pos + (encShift shift).length, bitshift := shift }) ∧
    (31 < shift → exec .bitshift s = .next ((s.advance (encShift shift).length).raise .badBitshift))

/-- R147: BLOCKSIZE writes a smaller or equal block size and ends the pass without a frame; a larger one raises
BlocksizeIncrease, 0 raises BadBlocksize, and on either error the block size is unchanged. The hint is decision D24
(log 30). -/
def Obligations.BlocksizeShrinksOrRaises : Prop :=
  ∀ (s : State) (size : Adaptive) (rest : Bits), s.blocksize ≤ 65535 →
    s.unread = encBlocksize s.version s.blocksize size ++ rest →
    let t := s.advance (encBlocksize s.version s.blocksize size).length
    (0 < size.value → size.value ≤ s.blocksize →
      exec .blocksize s = .next { t with blocksize := size.value, control := .finish .noFrame }) ∧
    (s.blocksize < size.value → exec .blocksize s = .next (t.raise .blocksizeIncrease)) ∧
    (size.value = 0 → exec .blocksize s = .next (t.raise .badBlocksize))

/-- R148: QUIT sets `quit_received` and ends the pass without a frame. -/
def Obligations.QuitEndsStream : Prop :=
  ∀ s : State, exec .quit s = .next { s with quitReceived := true, control := .finish .noFrame }

/-- R142: a function code above 9 raises UnknownCommand; its bits have been consumed and nothing else has changed but the
working register `cmd` (log 36). -/
def Obligations.UnknownCommandRaises : Prop :=
  (∀ (s : State) (x : Bool) (rest : Bits), s.unread = x :: rest →
    exec .illegal10or11 s = .next ({ s.advance 1 with cmd := 10 + x.toNat }.raise .unknownCommand)) ∧
  (∀ (s : State) (v : Nat) (rest : Bits), s.unread = encU 2 v ++ rest →
    exec .illegal12up s = .next ({ s.advance (encU 2 v).length with cmd := 12 + v }.raise .unknownCommand))

/-- R149: what the non-audio commands never touch, whether they complete or raise. -/
def Obligations.NonAudioCommandsFrame : Prop :=
  ∀ i ∈ [Instr.verbatim, .bitshift, .blocksize, .quit], ∀ s t : State, exec i s = .next t →
    t.hist = s.hist ∧ t.mean = s.mean ∧ t.coef = s.coef ∧ t.currentChannel = s.currentChannel ∧
    t.nwrap = s.nwrap ∧ t.nmean = s.nmean ∧ t.version = s.version ∧ t.lpcqoffset = s.lpcqoffset ∧
    t.out = s.out ∧ t.blob = s.blob ∧ t.residualSize = s.residualSize ∧ t.coffset = s.coffset ∧
    t.order = s.order ∧ t.shift = s.shift ∧ t.initSum = s.initSum ∧ t.sum = s.sum

/-- Frame of every command, whether it completes or raises: no command writes the registers that only the header writes, nor the
blob, the cap, the host's requests or the bytes of the buffer but for emptying it on an Overread (R206); `bitshift`,
`blocksize` and `quit_received` are written by BITSHIFT, BLOCKSIZE and QUIT alone (R146 to R148). -/
def Obligations.CommandsFrame : Prop :=
  ∀ (i : Instr) (s t : State), i ≠ .header → exec i s = .next t →
    t.version = s.version ∧ t.internalFormatType = s.internalFormatType ∧ t.channels = s.channels ∧
    t.nwrap = s.nwrap ∧ t.nmean = s.nmean ∧ t.lpcqoffset = s.lpcqoffset ∧ t.sampleRate = s.sampleRate ∧
    t.bitsPerSample = s.bitsPerSample ∧ t.headerParsed = s.headerParsed ∧ t.cap = s.cap ∧
    t.histBlocksize = s.histBlocksize ∧ t.blob = s.blob ∧ t.accepted = s.accepted ∧ t.requests = s.requests ∧
    (t.bitshift = s.bitshift ∨ i = .bitshift) ∧ (t.blocksize = s.blocksize ∨ i = .blocksize) ∧
    (t.quitReceived = s.quitReceived ∨ i = .quit) ∧
    (t.pending = s.pending ∧ t.bitResumeOffset = s.bitResumeOffset ∨
      t.pending = [] ∧ t.bitResumeOffset = 0 ∧ t.fault = some .overread) ∧
    (t.fault = s.fault ∧ t.results = s.results ∨
      ∃ c, t.fault = some c ∧ t.control = .idle ∧ t.results = s.results ++ [.error c])

/-- Frame of every command, on the memories: an audio command touches the history and the mean store of the current channel only
(R160: it "decodes one channel"), whether it completes or raises; no command touches cells of the history past the
block; only QLPC writes the coefficient file (R28, R171). -/
def Obligations.CommandsLeaveOtherChannels : Prop :=
  ∀ (i : Instr) (s t : State), i ≠ .header → exec i s = .next t →
    (∀ c, c ≠ s.currentChannel → t.hist[c]? = s.hist[c]? ∧ t.mean[c]? = s.mean[c]?) ∧
    (∀ a : Int, s.blocksize ≤ a → t.histCell s.currentChannel a = s.histCell s.currentChannel a) ∧
    (i ≠ .qlpc → t.coef = s.coef) ∧ t.hist.length = s.hist.length ∧ t.mean.length = s.mean.length

/-! ## The header -/

/-- R101 to R111, R126, R130: on every encoding of a legal header whose blob holds an acceptable WAVE header, from the state after
stream open, HEADER completes and leaves the registers and memories the rules name, on every implementation with the
capacity for it; one without it raises AllocFail (D17; log 11). Stated for SHN-CORE and for every value of the parameters that R6
leaves to an argument. The growth of the cap is free (log 12). The codings are decisions D1, D5, D6, D7, D8, D12, D23, D31 (log 13,
15, 16, 21, 29, 35) and D2 (the code of VERBATIM; log 14); that every version is accepted is D27 (log 33); that `bitshift` is cleared
is D18 (log 25). The model's choice: the header leaves `cmd` and `len` as they were (log 36). -/
def Obligations.HeaderParsesStream : Prop :=
  ∀ (s : State) (f : HeaderFields) (rate : BitVec 32) (rest : Bits), s.FreshInv →
    IsWave (f.blob.map (BitVec.ofNat 8)) rate →
    (f.wf Config.general = true → s.unread = encHeader Config.general f ++ rest →
      ∃ t, exec .header s = .next t ∧
        if headerFits Config.limits f = true then HeaderDone Config.impl s t f rate
        else t.fault = some .allocFail ∧ t.control = .idle ∧ t.headerParsed = s.headerParsed) ∧
    ∀ impl : Config.Impl, impl.general.legal = true → f.wf impl.general = true →
      s.unread = encHeader impl.general f ++ rest → headerFits impl.limits f = true →
      ∃ t, perform (headerPass impl) s = .next t ∧ HeaderDone impl s t f rate

/-- R102, R205: a channel count of 0 or above 8 raises BadChannelCount and leaves `channels` 0, whatever the format type. -/
def Obligations.BadChannelCountRaises : Prop :=
  ∀ (s : State) (version : Byte) (formatType channelCount : Adaptive) (rest : Bits),
    s.unread = encRaw 8 version.toNat ++ encA version Config.general.typeSize formatType
      ++ encA version Config.general.chanSize channelCount ++ rest →
    (channelCount.value = 0 ∨ 8 < channelCount.value) →
    ∃ t, exec .header s = .next t ∧ t.fault = some .badChannelCount ∧ t.channels = 0 ∧
      t.internalFormatType = formatType.value ∧ t.version = version ∧ t.headerParsed = s.headerParsed ∧
      t.control = .idle ∧ t.results = s.results ++ [.error .badChannelCount] ∧ t.hist = s.hist ∧ t.mean = s.mean ∧
      t.pending = s.pending

/-- R103: a header block size of 0 or above 65535 raises BadHeaderBlocksize; the register keeps its value. -/
def Obligations.BadHeaderBlocksizeRaises : Prop :=
  ∀ (s : State) (version : Byte) (formatType channelCount blocksize : Adaptive) (rest : Bits), version ≠ 0 →
    s.unread = encRaw 8 version.toNat ++ encA version Config.general.typeSize formatType
      ++ encA version Config.general.chanSize channelCount ++ encA version 0 blocksize ++ rest →
    0 < channelCount.value → channelCount.value ≤ 8 → (blocksize.value = 0 ∨ 65535 < blocksize.value) →
    ∃ t, exec .header s = .next t ∧ t.fault = some .badHeaderBlocksize ∧ t.blocksize = s.blocksize ∧
      t.channels = channelCount.value ∧ t.control = .idle ∧ t.results = s.results ++ [.error .badHeaderBlocksize] ∧
      t.headerParsed = s.headerParsed ∧ t.pending = s.pending

/-- R106, R108: after legal parameters, at every version, an unsupported format type raises UnknownAudioType, whatever follows; a
function code that is not that of VERBATIM MissingHeaderVerbatim, whatever follows it; and a blob size outside `[44, 16384)`
BadHeaderBlobSize; the header is not parsed. (On every implementation with the capacity, log 11, and for every value of the
parameters of R6. The numbers are decisions D2, D5, D8; log 14, 15, 16.) -/
def Obligations.HeaderChecksRaise : Prop :=
  ∀ (s : State) (f : HeaderFields) (rest : Bits), s.FreshInv → f.parametersWf = true →
    exec .header s = perform (headerPass Config.impl) s ∧
    ∀ impl : Config.Impl, impl.general.legal = true → headerFits impl.limits f = true →
      let parameters := encHeaderParameters impl.general f
      let Raises := fun c : Cause => ∃ t, perform (headerPass impl) s = .next t ∧ t.fault = some c ∧ t.control = .idle ∧
        t.headerParsed = s.headerParsed ∧ t.results = s.results ++ [.error c]
      (f.formatType.value ≠ impl.general.typeS16HL → s.unread = parameters ++ rest → Raises .unknownAudioType) ∧
      (f.formatType.value = impl.general.typeS16HL → ∀ fn : Nat, some fn ≠ Instr.fnNumber impl.general .verbatim →
        s.unread = parameters ++ encU Config.fnSize fn ++ rest → Raises .missingHeaderVerbatim) ∧
      (f.formatType.value = impl.general.typeS16HL → ∀ len : Nat, len < 44 ∨ 16384 ≤ len →
        s.unread = parameters ++ encFn impl.general .verbatim ++ encU impl.general.verbatimCkSize len ++ rest →
        Raises .badHeaderBlobSize)

/-- R110: the checks of the WAVE parse, in their order: the tags, the length of the `fmt ` sub-chunk, the format code and the bits
per sample; and BlobOverrun wherever the blob ends before the parse does: inside the tags or the size of its head, inside the tag,
the length or the body of a sub-chunk, or inside the `fmt ` sub-chunk, where the sample rate may have been read before. That the
blob's end raises, and that no pad byte follows a sub-chunk, is decision D23 (log 29). -/
def Obligations.WaveParseErrors : Prop :=
  ∀ (s : State) (a size b mid rest : List Byte) (chunks : List (List Byte × List Byte × List Byte)),
    a.length = 4 → size.length = 4 → b.length = 4 →
    (∀ k ∈ chunks, k.1.length = 4 ∧ k.1 ≠ tagFmt ∧ k.2.1.length = 4 ∧ k.2.2.length = leBytes k.2.1) →
    let pre := tagRiff ++ size ++ tagWave ++ chunks.flatMap (fun k => k.1 ++ k.2.1 ++ k.2.2)
    (a ≠ tagRiff → s.blob = a ++ rest → parseWave s = .error (.raise .badRiffTag) s) ∧
    (b ≠ tagWave → s.blob = tagRiff ++ size ++ b ++ rest → parseWave s = .error (.raise .badWaveTag) s) ∧
    (leBytes a < 16 → s.blob = pre ++ tagFmt ++ a ++ rest → parseWave s = .error (.raise .fmtChunkTooShort) s) ∧
    (∀ code : List Byte, code.length = 2 → leBytes code ≠ 1 → 16 ≤ leBytes a →
      s.blob = pre ++ tagFmt ++ a ++ code ++ rest → parseWave s = .error (.raise .notPcm) s) ∧
    (∀ bits : List Byte, bits.length = 2 → leBytes bits ≠ 16 → 16 ≤ leBytes a → mid.length = 12 →
      s.blob = pre ++ tagFmt ++ a ++ [1, 0] ++ mid ++ bits ++ rest →
      parseWave s = .error (.raise .badBitsPerSample)
        { s with sampleRate := BitVec.ofNat 32 (leBytes ((mid.drop 2).take 4)) }) ∧
    (rest.length < 4 → s.blob = rest → parseWave s = .error (.raise .blobOverrun) s) ∧
    (rest.length < 8 → s.blob = tagRiff ++ rest → parseWave s = .error (.raise .blobOverrun) s) ∧
    (rest.length < 4 → s.blob = pre ++ rest → parseWave s = .error (.raise .blobOverrun) s) ∧
    (b ≠ tagFmt → rest.length < 4 → s.blob = pre ++ b ++ rest → parseWave s = .error (.raise .blobOverrun) s) ∧
    (b ≠ tagFmt → rest.length < leBytes a → s.blob = pre ++ b ++ a ++ rest →
      parseWave s = .error (.raise .blobOverrun) s) ∧
    (rest.length < 4 → s.blob = pre ++ tagFmt ++ rest → parseWave s = .error (.raise .blobOverrun) s) ∧
    (16 ≤ leBytes a → rest.length < 2 → s.blob = pre ++ tagFmt ++ a ++ rest →
      parseWave s = .error (.raise .blobOverrun) s) ∧
    (16 ≤ leBytes a → rest.length < 14 → s.blob = pre ++ tagFmt ++ a ++ [1, 0] ++ rest →
      parseWave s = .error (.raise .blobOverrun)
        (if rest.length < 6 then s else { s with sampleRate := BitVec.ofNat 32 (leBytes ((rest.drop 2).take 4)) }))

/-- R105, R106, R123: AllocFail: a wrap length above `NWRAP_MAX`, an `nmean` above `NMEAN_MAX`, or a storage that the implementation
cannot provide, for the histories, the mean stores or the pending buffer (decision D17; log 11). -/
def Obligations.AllocationFailureRaises : Prop :=
  ∀ (g : Config.General) (limits : Config.Limits) (s : State),
    (exceeds s.nwrap limits.nwrapMax = true ∨ limits.histStorage s.channels s.blocksize s.nwrap = false →
      allocateHistory limits s = .error (.raise .allocFail) s) ∧
    (exceeds s.nmean.toNat limits.nmeanMax = true ∨ limits.meanStorage s.channels (max 1 s.nmean.toNat) = false →
      allocateMeans g limits s = .error (.raise .allocFail) s) ∧
    ∀ (chunk : List Byte) (more : List Request), s.control = .idle → s.requests = .decode chunk :: more →
      s.fault = none → s.quitReceived = false → limits.pendingStorage s.cap = false →
      serve limits s = ({ s with requests := more } : State).raise .allocFail

/-! ## Errors and phases -/

/-- R204, R206: raising an error sets the fault register, ends the call with the error and no count, and changes nothing else, but
that an Overread empties the buffer bookkeeping. -/
def Obligations.RaiseRecordsCause : Prop :=
  ∀ (s : State) (c : Cause),
    (c ≠ .overread → s.raise c = { s with fault := some c, control := .idle, results := s.results ++ [.error c] }) ∧
    s.raise .overread = { s with
      fault := some .overread, control := .idle, results := s.results ++ [.error .overread]
      pending := [], bitResumeOffset := 0 }

/-- R210: after an error no step but the opening of a new stream changes anything except the host's requests and results, for as
long as the stream lives (the sticky fault is decision D13; log 23). -/
def Obligations.ErrorIsSticky : Prop :=
  ∀ (s t : State) (c : Cause), s.Inv → s.fault = some c → step s = .next t →
    (∃ more, s.requests = .streamOpen :: more) ∨
      t = { s with requests := t.requests, results := t.results } ∧ t.requests = s.requests.drop 1

/-- R212, R23: phases are left only forward: HEADER to RUN to QUIT, and anything to FAILED; only the opening of a new stream goes
back. -/
def Obligations.PhasesMoveForward : Prop :=
  ∀ s t : State, s.Inv → step s = .next t → (∀ more, s.requests = .streamOpen :: more → s.control ≠ .idle) →
    t.phase = s.phase ∨ t.phase = .failed ∨ (s.phase = .header ∧ t.phase = .run) ∨ (s.phase = .run ∧ t.phase = .quit)

/-- R30, R14, R31: while a stream lives the cap never shrinks, and after the header the block size never grows. -/
def Obligations.CapGrowsBlocksizeShrinks : Prop :=
  ∀ s t : State, step s = .next t → (∀ more, s.requests = .streamOpen :: more → s.control ≠ .idle) →
    s.cap ≤ t.cap ∧ (s.headerParsed = true → t.headerParsed = true ∧ t.blocksize ≤ s.blocksize)

/-! ## Reset and the invariant -/

/-- R36, R230: what stream open leaves. (The values of the registers R36 leaves unspecified are the model's choice and are not
stated; log 7, log 8. `channels`, `blocksize`, `bitshift` and `fault` are decisions D30, D31, D18, D13.) -/
def Obligations.ResetValues : Prop :=
  State.reset.channels = 0 ∧ State.reset.blocksize = 256 ∧ State.reset.nmean = -1 ∧ State.reset.bitshift = 0 ∧
  State.reset.lpcqoffset = 0 ∧ State.reset.currentChannel = 0 ∧ State.reset.headerParsed = false ∧
  State.reset.quitReceived = false ∧ State.reset.fault = none ∧ State.reset.bitResumeOffset = 0 ∧
  State.reset.pending = [] ∧ State.reset.cap = 1024 ∧ State.reset.hist = [] ∧ State.reset.mean = [] ∧
  State.reset.coef = [] ∧ State.reset.blob = [] ∧ State.reset.phase = .header

/-- R231, R10: the request to open a stream puts every item of the instance at its reset value and leaves the host's side. -/
def Obligations.StreamOpenResets : Prop :=
  ∀ (s : State) (more : List Request), s.control = .idle → s.requests = .streamOpen :: more →
    step s = .next { State.reset with requests := more, results := s.results }

/-- The invariant holds at reset. -/
def Obligations.ResetMeetsInvariant : Prop := State.reset.Inv

/-- Every step keeps every memory in canonical form, from every state. The form, a list of cells in rising order of their indices,
is the model's representation of the cell stores of R43 and R45 (log 9); no rule of the spec gives it. -/
def Obligations.MemoriesStayCanonical : Prop :=
  ∀ s t : State, s.MemoriesWf → step s = .next t → t.MemoriesWf

/-- R47, R31, R32, R25, R26, R29: from every state with the invariant a step answers a next state, which has the invariant: no
rule forms an index outside the allocated ranges, none reads a cell that was not written, and the ranges of the
registers, the cursor and the buffer hold. -/
def Obligations.InvariantKeptAndNothingStops : Prop :=
  ∀ s : State, s.Inv → ∃ t, step s = .next t ∧ t.Inv

/-- R241: a call always terminates: from every state with the invariant that is in a call, a number of steps that the bits left
bound ends the call with one more result. -/
def Obligations.CallsTerminate : Prop :=
  ∀ s : State, s.Inv → s.control ≠ .idle →
    ∃ k t r, k ≤ s.bitLength - s.pos + 2 ∧ runSteps k s = some t ∧ t.control = .idle ∧ t.results = s.results ++ [r]

/-! ## Whole-machine rules -/

/-- R132, R52: a command that completes does the same when more bytes stand behind the buffer: it never looks past what it
consumes, and no result depends on how much input is there. The header too, on every implementation (`exec .header` is the header
pass of `Config.impl`), but for the cap: its growth is free and may look at the buffer (R130; log 12). -/
def Obligations.LongerBufferSameEffect : Prop :=
  (∀ (i : Instr) (s t : State) (extra : List Byte), i ≠ .header → s.fault = none → s.pos ≤ s.bitLength →
    exec i s = .next t → t.fault = none →
    exec i { s with pending := s.pending ++ extra } = .next { t with pending := t.pending ++ extra }) ∧
  ∀ (impl : Config.Impl) (s t : State) (extra : List Byte), s.fault = none → s.pos ≤ s.bitLength →
    perform (headerPass impl) s = .next t → t.fault = none →
    ∃ cap, s.cap ≤ cap ∧ perform (headerPass impl) { s with pending := s.pending ++ extra } =
      .next { t with pending := t.pending ++ extra, cap := cap }

/-- R2: every version of 2 or more is treated alike by every command (the spec's decision D27; log 33). -/
def Obligations.VersionsFromTwoAlike : Prop :=
  ∀ (i : Instr) (s t : State) (v : BitVec 8), i ≠ .header → 2 ≤ s.version.toNat → 2 ≤ v.toNat →
    exec i s = .next t → exec i { s with version := v } = .next { t with version := v }
end

