-- ==== Sys2Proof/Laws/Codec.lean ====
section
/-! SUPPORT. Laws/Codec.lean: the field codings on bit strings: what each consumes, that it never looks past that, and that it
reads back what the encoder wrote (30_encoding.md R71, 40_bit_cursor_rice.md R85 to R89). -/

namespace Sys2Proof

/-! ### Bits of bytes -/

@[simp] theorem byteBits_length (b : Byte) : (byteBits b).length = 8 := by simp [byteBits]

@[simp] theorem bitsOf_nil : bitsOf [] = [] := rfl

theorem bitsOf_cons (b : Byte) (bs : List Byte) : bitsOf (b :: bs) = byteBits b ++ bitsOf bs := rfl

@[simp] theorem bitsOf_append (a b : List Byte) : bitsOf (a ++ b) = bitsOf a ++ bitsOf b := List.flatMap_append

@[simp] theorem bitsOf_length (bs : List Byte) : (bitsOf bs).length = 8 * bs.length := by
  induction bs with
  | nil => rfl
  | cons b bs ih => rw [bitsOf_cons, List.length_append, ih, byteBits_length, List.length_cons]; omega

/-- Dropping whole bytes drops eight bits each. -/
theorem bitsOf_drop (bs : List Byte) (n : Nat) : bitsOf (bs.drop n) = (bitsOf bs).drop (8 * n) := by
  induction n generalizing bs with
  | zero => simp
  | succ n ih =>
    cases bs with
    | nil => simp
    | cons b bs =>
      rw [List.drop_succ_cons, ih, bitsOf_cons, show 8 * (n + 1) = (byteBits b).length + 8 * n by simp; omega,
        List.drop_length_add_append]

/-- R41: stream bit `p` is bit `7 - (p mod 8)` of byte `p div 8`. -/
theorem bitsOf_getElem? (bs : List Byte) (p : Nat) (h : p < 8 * bs.length) :
    (bitsOf bs)[p]? = some ((bs.getD (p / 8) 0).getLsbD (7 - p % 8)) := by
  induction bs generalizing p with
  | nil => simp at h
  | cons b bs ih =>
    rw [bitsOf_cons]
    rcases Nat.lt_or_ge p 8 with hp | hp
    · rw [List.getElem?_append_left (by simpa using hp)]
      simp [byteBits, bitOfByte, hp, Nat.div_eq_of_lt hp, Nat.mod_eq_of_lt hp]
    · rw [List.getElem?_append_right (by simpa using hp), byteBits_length, ih (p - 8) (by simp at h; omega)]
      rw [show p / 8 = (p - 8) / 8 + 1 by omega, show p % 8 = (p - 8) % 8 by omega]
      simp

/-! ### `RAW(n)` -/

theorem takeBits_eq_none {n v : Nat} {bs : Bits} : takeBits n v bs = none ↔ bs.length < n := by
  induction n generalizing v bs with
  | zero => simp [takeBits]
  | succ n ih => cases bs <;> simp [takeBits, ih]

/-- What `takeBits` leaves is the rest of the string. -/
theorem takeBits_rest {n v w : Nat} {bs rest : Bits} (h : takeBits n v bs = some (w, rest)) :
    rest = bs.drop n ∧ n ≤ bs.length := by
  induction n generalizing v bs with
  | zero => simp only [takeBits, Option.some.injEq, Prod.mk.injEq] at h; simp [h.2]
  | succ n ih =>
    cases bs with
    | nil => simp [takeBits] at h
    | cons b bs =>
      have := ih (v := 2 * v + b.toNat) (by simpa [takeBits] using h)
      simpa using this

theorem takeBits_append {n v w : Nat} {bs rest : Bits} (h : takeBits n v bs = some (w, rest)) (extra : Bits) :
    takeBits n v (bs ++ extra) = some (w, rest ++ extra) := by
  induction n generalizing v bs with
  | zero =>
    simp only [takeBits, Option.some.injEq, Prod.mk.injEq] at h ⊢
    simp [h]
  | succ n ih =>
    cases bs with
    | nil => simp [takeBits] at h
    | cons b bs => simpa [takeBits] using ih (v := 2 * v + b.toNat) (by simpa [takeBits] using h)

theorem takeBits_lt {n v w : Nat} {bs rest : Bits} (h : takeBits n v bs = some (w, rest)) : w < (v + 1) * 2 ^ n := by
  induction n generalizing v bs with
  | zero => simp only [takeBits, Option.some.injEq, Prod.mk.injEq] at h; omega
  | succ n ih =>
    cases bs with
    | nil => simp [takeBits] at h
    | cons b bs =>
      have h1 := ih (v := 2 * v + b.toNat) (by simpa [takeBits] using h)
      have h2 : 2 * v + b.toNat + 1 ≤ 2 * (v + 1) := by cases b <;> simp; omega
      calc w < (2 * v + b.toNat + 1) * 2 ^ n := h1
        _ ≤ 2 * (v + 1) * 2 ^ n := Nat.mul_le_mul_right _ h2
        _ = (v + 1) * 2 ^ (n + 1) := by ring

@[simp] theorem encRaw_length (n v : Nat) : (encRaw n v).length = n := by
  induction n with
  | zero => rfl
  | succ n ih => simp [encRaw, ih]

theorem takeBits_encRaw_acc (n v acc : Nat) (rest : Bits) :
    takeBits n acc (encRaw n v ++ rest) = some (acc * 2 ^ n + v % 2 ^ n, rest) := by
  induction n generalizing acc with
  | zero => simp [takeBits, encRaw, Nat.mod_one]
  | succ n ih =>
    rw [encRaw, List.cons_append, takeBits, ih]
    congr 2
    have h1 : v % 2 ^ (n + 1) = (v.testBit n).toNat * 2 ^ n + v % 2 ^ n := by
      rw [Nat.pow_succ, Nat.mod_mul, Nat.testBit_eq_decide_div_mod_eq]
      rcases Nat.mod_two_eq_zero_or_one (v / 2 ^ n) with h | h <;> simp [h]
      omega
    rw [h1, Nat.pow_succ]
    ring

/-- Reading back an encoded raw field. -/
theorem takeBits_encRaw {n v : Nat} (h : v < 2 ^ n) (rest : Bits) : takeBits n 0 (encRaw n v ++ rest) = some (v, rest) := by
  rw [takeBits_encRaw_acc, Nat.mod_eq_of_lt h]; simp

/-! ### The unary part -/

theorem takeUnary_rest {q w : Nat} {bs rest : Bits} (h : takeUnary q bs = some (w, rest)) :
    q ≤ w ∧ rest = bs.drop (w - q + 1) ∧ w - q + 1 ≤ bs.length := by
  induction bs generalizing q with
  | nil => simp [takeUnary] at h
  | cons b bs ih =>
    cases b with
    | true =>
      simp only [takeUnary, Option.some.injEq, Prod.mk.injEq] at h
      obtain ⟨rfl, rfl⟩ := h
      simp
    | false =>
      obtain ⟨h1, h2, h3⟩ := ih (q := q + 1) (by simpa [takeUnary] using h)
      rw [show w - q + 1 = (w - (q + 1) + 1) + 1 by omega]
      exact ⟨by omega, by simpa using h2, by simpa using h3⟩

theorem takeUnary_append {q w : Nat} {bs rest : Bits} (h : takeUnary q bs = some (w, rest)) (extra : Bits) :
    takeUnary q (bs ++ extra) = some (w, rest ++ extra) := by
  induction bs generalizing q with
  | nil => simp [takeUnary] at h
  | cons b bs ih =>
    cases b with
    | true =>
      simp only [takeUnary, Option.some.injEq, Prod.mk.injEq] at h
      simp [takeUnary, h]
    | false => simpa [takeUnary] using ih (q := q + 1) (by simpa [takeUnary] using h)

theorem takeUnary_zeros (n q : Nat) (rest : Bits) :
    takeUnary q (List.replicate n false ++ true :: rest) = some (q + n, rest) := by
  induction n generalizing q with
  | zero => simp [takeUnary]
  | succ n ih =>
    rw [List.replicate_succ, List.cons_append, takeUnary, ih]
    congr 2
    omega

/-! ### `U(k)`, `S(k)`, `A(h)` -/

/-- R89: the length of a code. -/
@[simp] theorem encU_length (k v : Nat) : (encU k v).length = v / 2 ^ k + 1 + k := by
  simp [encU]; omega

/-- What a code read at the front of a string says: its length follows from its value (R89), and what is left is the rest. -/
theorem takeUnsigned_rest {k v : Nat} {bs rest : Bits} (h : takeUnsigned k bs = some (v, rest)) :
    rest = bs.drop (v / 2 ^ k + 1 + k) ∧ v / 2 ^ k + 1 + k ≤ bs.length := by
  unfold takeUnsigned at h
  rcases h1 : takeUnary 0 bs with _ | ⟨q, r1⟩
  · rw [h1] at h; cases h
  · rw [h1] at h
    simp only at h
    rcases h2 : takeBits k 0 r1 with _ | ⟨w, r2⟩
    · rw [h2] at h; cases h
    · rw [h2] at h
      simp only [Option.some.injEq, Prod.mk.injEq] at h
      obtain ⟨rfl, rfl⟩ := h
      obtain ⟨-, hr1, hl1⟩ := takeUnary_rest h1
      obtain ⟨hr2, hl2⟩ := takeBits_rest h2
      have hw : w < 2 ^ k := by simpa using takeBits_lt h2
      have hq : (q * 2 ^ k + w) / 2 ^ k = q := by
        rw [Nat.mul_comm, Nat.mul_add_div (Nat.two_pow_pos k), Nat.div_eq_of_lt hw]; rfl
      rw [hq, hr2, hr1, List.drop_drop]
      refine ⟨rfl, ?_⟩
      rw [hr1, List.length_drop] at hl2
      omega

theorem takeUnsigned_append {k v : Nat} {bs rest : Bits} (h : takeUnsigned k bs = some (v, rest)) (extra : Bits) :
    takeUnsigned k (bs ++ extra) = some (v, rest ++ extra) := by
  unfold takeUnsigned at h ⊢
  rcases h1 : takeUnary 0 bs with _ | ⟨q, r1⟩
  · rw [h1] at h; cases h
  · rw [h1] at h
    rw [takeUnary_append h1]
    simp only at h ⊢
    rcases h2 : takeBits k 0 r1 with _ | ⟨w, r2⟩
    · rw [h2] at h; cases h
    · rw [h2] at h
      rw [takeBits_append h2]
      simp only [Option.some.injEq, Prod.mk.injEq] at h ⊢
      simp [h]

/-- Reading back an encoded unsigned value. -/
theorem takeUnsigned_encU (k v : Nat) (rest : Bits) : takeUnsigned k (encU k v ++ rest) = some (v, rest) := by
  unfold takeUnsigned encU
  rw [List.append_assoc, List.cons_append, takeUnary_zeros]
  simp only [Nat.zero_add]
  rw [takeBits_encRaw (Nat.mod_lt _ (Nat.two_pow_pos k))]
  simp only [Option.some.injEq, Prod.mk.injEq, and_true]
  rw [Nat.mul_comm]; exact Nat.div_add_mod v (2 ^ k)

/-- R86: the fold and its inverse. -/
@[simp] theorem unzigzag_zigzag (r : Int) : unzigzag (zigzag r) = r := by
  unfold zigzag
  split
  · rw [unzigzag, if_pos (by omega)]; omega
  · rw [unzigzag, if_neg (by omega)]; omega

/-! ### The opcode table -/

/-- R64: the rows for the numbers of R63, as the table writes them. -/
theorem opcodeRows_general : opcodeRows Config.general =
    [ ([true, false, false], .diff0), ([true, false, true], .diff1), ([true, true, false], .diff2),
      ([true, true, true], .diff3), ([false, true, false, false], .quit), ([false, true, false, true], .blocksize),
      ([false, true, true, false], .bitshift), ([false, true, true, true], .qlpc), ([false, false, true, false, false], .zero),
      ([false, false, true, false, true], .verbatim), ([false, false, true, true], .illegal10or11),
      ([false, false, false], .illegal12up) ] := by decide

end Sys2Proof
end

