-- ==== Sys2Proof/Laws/Memory.lean ====
section
/-! SUPPORT. Laws/Memory.lean: reads after writes, the canonical form, and that it makes equal memories equal lists. -/

namespace Sys2Proof

/-! ### Single cells -/

@[simp] theorem Memory.read_nil (a : Nat) : Memory.read [] a = none := rfl

theorem Memory.read_cons (k : Nat) (v : Cell) (m : Memory) (a : Nat) :
    Memory.read ((k, v) :: m) a = if k = a then some v else Memory.read m a := rfl

theorem Memory.wf_cons {k : Nat} {v : Cell} {m : Memory} :
    Memory.wf ((k, v) :: m) ↔ (∀ e ∈ m, k < e.1) ∧ Memory.wf m := by
  simp [Memory.wf, List.pairwise_cons]

theorem Memory.wf_nil : Memory.wf [] := by simp [Memory.wf]

theorem Memory.read_eq_none_of_lt {m : Memory} {a : Nat} (h : ∀ e ∈ m, a < e.1) : m.read a = none := by
  induction m with
  | nil => rfl
  | cons e m ih =>
    obtain ⟨k, v⟩ := e
    have hk : a < k := h (k, v) (by simp)
    rw [Memory.read_cons, if_neg (by omega)]
    exact ih fun e he => h e (by simp [he])

theorem Memory.read_write_same (m : Memory) (a : Nat) (v : Cell) : (m.write a v).read a = some v := by
  induction m with
  | nil => simp [Memory.write, Memory.read]
  | cons e m ih =>
    obtain ⟨k, w⟩ := e
    unfold Memory.write
    split
    · simp [Memory.read]
    · split
      · simp [Memory.read]
      · rw [Memory.read_cons, if_neg (by omega)]; exact ih

theorem Memory.read_write_other (m : Memory) {a b : Nat} (v : Cell) (h : b ≠ a) :
    (m.write a v).read b = m.read b := by
  induction m with
  | nil => simp [Memory.write, Memory.read, Ne.symm h]
  | cons e m ih =>
    obtain ⟨k, w⟩ := e
    unfold Memory.write
    split
    · rw [Memory.read_cons, if_neg (Ne.symm h)]
    · split
      · rename_i h1 h2
        rw [Memory.read_cons, Memory.read_cons, if_neg (Ne.symm h), if_neg (by omega)]
      · rw [Memory.read_cons, Memory.read_cons, ih]

theorem Memory.mem_write {m : Memory} {a : Nat} {v : Cell} {e : Nat × Cell} (h : e ∈ m.write a v) :
    e = (a, v) ∨ e ∈ m := by
  induction m with
  | nil => simpa [Memory.write] using h
  | cons f m ih =>
    obtain ⟨k, w⟩ := f
    unfold Memory.write at h
    split at h
    · simpa using h
    · split at h
      · rcases List.mem_cons.1 h with h | h
        · exact .inl h
        · exact .inr (List.mem_cons_of_mem _ h)
      · rcases List.mem_cons.1 h with h | h
        · exact .inr (by simp [h])
        · exact (ih h).imp id (List.mem_cons_of_mem _)

/-- A write keeps the canonical form. -/
theorem Memory.wf_write {m : Memory} (h : m.wf) (a : Nat) (v : Cell) : (m.write a v).wf := by
  induction m with
  | nil => simp [Memory.write, Memory.wf]
  | cons e m ih =>
    obtain ⟨k, w⟩ := e
    obtain ⟨hk, hm⟩ := Memory.wf_cons.1 h
    unfold Memory.write
    split
    · rename_i hlt
      refine Memory.wf_cons.2 ⟨fun e he => ?_, h⟩
      rcases List.mem_cons.1 he with rfl | he
      · exact hlt
      · exact Nat.lt_trans hlt (hk e he)
    · split
      · rename_i _ heq
        subst heq
        exact Memory.wf_cons.2 ⟨hk, hm⟩
      · refine Memory.wf_cons.2 ⟨fun e he => ?_, ih hm⟩
        rcases Memory.mem_write he with rfl | he
        · show k < a; omega
        · exact hk e he

/-- Two memories in canonical form that read alike are the same list. -/
theorem Memory.ext_of_wf {m m' : Memory} (h : m.wf) (h' : m'.wf) (heq : ∀ a, m.read a = m'.read a) : m = m' := by
  induction m generalizing m' with
  | nil =>
    cases m' with
    | nil => rfl
    | cons e m' =>
      have := heq e.1
      simp [Memory.read] at this
  | cons e m ih =>
    obtain ⟨k, v⟩ := e
    obtain ⟨hk, hm⟩ := Memory.wf_cons.1 h
    cases m' with
    | nil =>
      have := heq k
      simp [Memory.read] at this
    | cons e' m' =>
      obtain ⟨k', v'⟩ := e'
      obtain ⟨hk', hm'⟩ := Memory.wf_cons.1 h'
      have hkk : k = k' := by
        rcases Nat.lt_trichotomy k k' with hlt | rfl | hlt
        · have h1 := heq k
          rw [Memory.read_cons, if_pos rfl, Memory.read_cons, if_neg (by omega),
            Memory.read_eq_none_of_lt fun e he => Nat.lt_trans hlt (hk' e he)] at h1
          cases h1
        · rfl
        · have h1 := heq k'
          rw [Memory.read_cons, if_neg (by omega), Memory.read_cons, if_pos rfl,
            Memory.read_eq_none_of_lt fun e he => Nat.lt_trans hlt (hk e he)] at h1
          cases h1
      subst hkk
      have hv : v = v' := by simpa [Memory.read] using heq k
      subst hv
      congr 1
      refine ih hm hm' fun a => ?_
      by_cases hka : k = a
      · subst hka
        rw [Memory.read_eq_none_of_lt hk, Memory.read_eq_none_of_lt hk']
      · simpa [Memory.read_cons, hka] using heq a

/-! ### Ranges of cells -/

theorem Memory.read_append (m m' : Memory) (b : Nat) :
    Memory.read (m ++ m') b = (m.read b).or (m'.read b) := by
  induction m with
  | nil => simp
  | cons e m ih =>
    obtain ⟨k, v⟩ := e
    rw [List.cons_append, Memory.read_cons, Memory.read_cons, ih]
    split <;> simp

theorem Memory.read_filter (m : Memory) (p : Nat → Bool) (b : Nat) :
    Memory.read (m.filter fun e => p e.1) b = if p b then m.read b else none := by
  induction m with
  | nil => simp
  | cons e m ih =>
    obtain ⟨k, v⟩ := e
    rw [List.filter_cons]
    by_cases hk : p k = true
    · rw [if_pos hk, Memory.read_cons, ih, Memory.read_cons]
      by_cases hkb : k = b
      · subst hkb; simp [hk]
      · simp [hkb]
    · rw [if_neg hk, ih, Memory.read_cons]
      by_cases hkb : k = b
      · subst hkb; simp [hk]
      · simp [hkb]

theorem Memory.read_zip (vs : List Cell) (a b : Nat) :
    Memory.read ((List.range' a vs.length).zip vs) b = if a ≤ b then vs[b - a]? else none := by
  induction vs generalizing a with
  | nil => simp
  | cons v vs ih =>
    rw [List.length_cons, List.range'_succ, List.zip_cons_cons, Memory.read_cons, ih]
    rcases Nat.lt_trichotomy a b with h | rfl | h
    · rw [if_neg (by omega), if_pos (by omega), if_pos (by omega), show b - a = (b - (a + 1)) + 1 by omega]
      simp
    · simp
    · rw [if_neg (by omega), if_neg (by omega), if_neg (by omega)]

/-- What a memory reads as after a range was written. -/
theorem Memory.read_writeFrom (m : Memory) (a : Nat) (vs : List Cell) (b : Nat) :
    (m.writeFrom a vs).read b = if a ≤ b ∧ b < a + vs.length then vs[b - a]? else m.read b := by
  unfold Memory.writeFrom
  rw [Memory.read_append, Memory.read_append, Memory.read_zip,
    Memory.read_filter m (fun k => decide (k < a)), Memory.read_filter m (fun k => decide (a + vs.length ≤ k))]
  rcases Nat.lt_or_ge b a with h | h
  · simp [h, show ¬ a ≤ b by omega, show ¬ a + vs.length ≤ b by omega]
  · rcases Nat.lt_or_ge b (a + vs.length) with h2 | h2
    · simp [h, h2, show ¬ b < a by omega, show ¬ a + vs.length ≤ b by omega, show b - a < vs.length by omega]
    · simp [h, h2, show ¬ b < a by omega, show ¬ b < a + vs.length by omega,
        List.getElem?_eq_none (show vs.length ≤ b - a by omega)]

theorem Memory.wf_filter {m : Memory} (h : m.wf) (p : Nat × Cell → Bool) : Memory.wf (m.filter p) := by
  unfold Memory.wf at *
  exact h.sublist (List.filter_sublist.map _)

/-- Writing a range keeps the canonical form. -/
theorem Memory.wf_writeFrom {m : Memory} (h : m.wf) (a : Nat) (vs : List Cell) : (m.writeFrom a vs).wf := by
  unfold Memory.writeFrom
  have hz : ((List.range' a vs.length).zip vs).map Prod.fst = List.range' a vs.length := by
    rw [List.map_fst_zip]; simp
  unfold Memory.wf
  rw [List.map_append, List.map_append, hz, List.pairwise_append, List.pairwise_append]
  refine ⟨⟨Memory.wf_filter h _, List.pairwise_lt_range', ?_⟩, Memory.wf_filter h _, ?_⟩
  · intro x hx y hy
    simp only [List.mem_map, List.mem_filter, decide_eq_true_eq] at hx
    obtain ⟨e, ⟨_, he⟩, rfl⟩ := hx
    have := (List.mem_range'_1.1 hy).1
    omega
  · intro x hx y hy
    simp only [List.mem_map, List.mem_filter, decide_eq_true_eq] at hy
    obtain ⟨e, ⟨_, he⟩, rfl⟩ := hy
    rcases List.mem_append.1 hx with hx | hx
    · simp only [List.mem_map, List.mem_filter, decide_eq_true_eq] at hx
      obtain ⟨f, ⟨_, hf⟩, rfl⟩ := hx
      omega
    · have := (List.mem_range'_1.1 hx).2
      omega

/-- Reading a range of a memory in canonical form reads each of its cells. -/
theorem Memory.readFrom_eq_some {m : Memory} (h : m.wf) {a n : Nat} {vs : List Cell} :
    m.readFrom a n = some vs ↔ vs.length = n ∧ ∀ i, i < n → m.read (a + i) = vs[i]? := by
  induction m generalizing a n vs with
  | nil =>
    cases n with
    | zero =>
      simp only [Memory.readFrom, Option.some.injEq]
      constructor
      · rintro rfl; simp
      · rintro ⟨hl, -⟩; exact (List.length_eq_zero_iff.1 hl).symm
    | succ n =>
      simp only [Memory.readFrom, reduceCtorEq, false_iff, not_and, not_forall]
      intro hl
      refine ⟨0, by omega, ?_⟩
      simp [show 0 < vs.length by omega]
  | cons e m ih =>
    obtain ⟨k, v⟩ := e
    obtain ⟨hk, hm⟩ := Memory.wf_cons.1 h
    cases n with
    | zero =>
      simp only [Memory.readFrom, Option.some.injEq]
      constructor
      · rintro rfl; simp
      · rintro ⟨hl, -⟩; exact (List.length_eq_zero_iff.1 hl).symm
    | succ n =>
      unfold Memory.readFrom
      split
      · rename_i hlt
        rw [ih hm]
        refine and_congr_right fun _ => forall_congr' fun i => imp_congr_right fun _ => ?_
        rw [Memory.read_cons, if_neg (by omega)]
      · split
        · rename_i _ heq
          subst heq
          simp only [Option.map_eq_some_iff]
          constructor
          · rintro ⟨ws, hws, rfl⟩
            obtain ⟨hl, hr⟩ := (ih hm).1 hws
            refine ⟨by simp [hl], fun i hi => ?_⟩
            cases i with
            | zero => simp [Memory.read_cons]
            | succ i =>
              rw [Memory.read_cons, if_neg (by omega), show k + (i + 1) = k + 1 + i by omega, hr i (by omega)]
              simp
          · rintro ⟨hl, hr⟩
            cases vs with
            | nil => simp at hl
            | cons w ws =>
              have h0 := hr 0 (by omega)
              simp only [Nat.add_zero, Memory.read_cons, if_true, List.getElem?_cons_zero, Option.some.injEq] at h0
              subst h0
              refine ⟨ws, (ih hm).2 ⟨by simpa using hl, fun i hi => ?_⟩, rfl⟩
              have := hr (i + 1) (by omega)
              rw [Memory.read_cons, if_neg (by omega)] at this
              rw [show k + 1 + i = k + (i + 1) by omega, this]
              simp
        · rename_i hlt hne
          simp only [reduceCtorEq, false_iff, not_and, not_forall]
          intro hl
          refine ⟨0, by omega, ?_⟩
          rw [Nat.add_zero, Memory.read_cons, if_neg hne,
            Memory.read_eq_none_of_lt fun e he => by have := hk e he; omega]
          simp [show 0 < vs.length by omega]

/-- As many cells as were asked for. -/
theorem Memory.readFrom_length {m : Memory} {a n : Nat} {vs : List Cell} (h : m.readFrom a n = some vs) : vs.length = n := by
  induction m generalizing a n vs with
  | nil =>
    cases n with
    | zero => cases h; rfl
    | succ n => cases h
  | cons e m ih =>
    obtain ⟨k, v⟩ := e
    cases n with
    | zero => cases h; rfl
    | succ n =>
      unfold Memory.readFrom at h
      split at h
      · exact ih h
      · split at h
        · obtain ⟨ws, hws, rfl⟩ := Option.map_eq_some_iff.1 h
          simp [ih hws]
        · cases h

/-- A range is readable exactly when each of its cells is. -/
theorem Memory.readFrom_isSome {m : Memory} (h : m.wf) {a n : Nat}
    (hr : ∀ i, i < n → (m.read (a + i)).isSome = true) : ∃ vs, m.readFrom a n = some vs := by
  refine ⟨(List.range n).map fun i => (m.read (a + i)).getD 0, (Memory.readFrom_eq_some h).2 ⟨by simp, fun i hi => ?_⟩⟩
  obtain ⟨v, hv⟩ := Option.isSome_iff_exists.1 (hr i hi)
  simp [hi, hv]

/-! ### Filled stores -/

theorem Memory.filled_eq (n : Nat) (v : Cell) :
    Memory.filled n v = (List.range' 0 (List.replicate n v).length).zip (List.replicate n v) := by
  unfold Memory.filled
  rw [List.length_replicate, ← List.range_eq_range']
  apply List.ext_getElem
  · simp
  · intro i h1 h2; simp

theorem Memory.read_filled (n : Nat) (v : Cell) (a : Nat) :
    (Memory.filled n v).read a = if a < n then some v else none := by
  rw [Memory.filled_eq, Memory.read_zip]
  simp [List.getElem?_replicate]

theorem Memory.wf_filled (n : Nat) (v : Cell) : (Memory.filled n v).wf := by
  unfold Memory.wf Memory.filled
  rw [List.map_map]
  simpa [Function.comp_def] using List.pairwise_lt_range (n := n)

end Sys2Proof
end

