-- ==== Sys2Proof/Laws/State.lean ====
section
/-! SUPPORT. Laws/State.lean: one lemma per field per named update of the state, so that no proof unfolds an update. -/

namespace Sys2Proof.Machine

variable (s : State)

/-! ### `State.advance` -/

@[simp] theorem State.advance_version (n : Nat) : (s.advance n).version = s.version := rfl
@[simp] theorem State.advance_internalFormatType (n : Nat) : (s.advance n).internalFormatType = s.internalFormatType := rfl
@[simp] theorem State.advance_channels (n : Nat) : (s.advance n).channels = s.channels := rfl
@[simp] theorem State.advance_blocksize (n : Nat) : (s.advance n).blocksize = s.blocksize := rfl
@[simp] theorem State.advance_nwrap (n : Nat) : (s.advance n).nwrap = s.nwrap := rfl
@[simp] theorem State.advance_nmean (n : Nat) : (s.advance n).nmean = s.nmean := rfl
@[simp] theorem State.advance_bitshift (n : Nat) : (s.advance n).bitshift = s.bitshift := rfl
@[simp] theorem State.advance_lpcqoffset (n : Nat) : (s.advance n).lpcqoffset = s.lpcqoffset := rfl
@[simp] theorem State.advance_sampleRate (n : Nat) : (s.advance n).sampleRate = s.sampleRate := rfl
@[simp] theorem State.advance_bitsPerSample (n : Nat) : (s.advance n).bitsPerSample = s.bitsPerSample := rfl
@[simp] theorem State.advance_headerParsed (n : Nat) : (s.advance n).headerParsed = s.headerParsed := rfl
@[simp] theorem State.advance_quitReceived (n : Nat) : (s.advance n).quitReceived = s.quitReceived := rfl
@[simp] theorem State.advance_fault (n : Nat) : (s.advance n).fault = s.fault := rfl
@[simp] theorem State.advance_pos (n : Nat) : (s.advance n).pos = s.pos + n := rfl
@[simp] theorem State.advance_bitResumeOffset (n : Nat) : (s.advance n).bitResumeOffset = s.bitResumeOffset := rfl
@[simp] theorem State.advance_currentChannel (n : Nat) : (s.advance n).currentChannel = s.currentChannel := rfl
@[simp] theorem State.advance_cmd (n : Nat) : (s.advance n).cmd = s.cmd := rfl
@[simp] theorem State.advance_residualSize (n : Nat) : (s.advance n).residualSize = s.residualSize := rfl
@[simp] theorem State.advance_coffset (n : Nat) : (s.advance n).coffset = s.coffset := rfl
@[simp] theorem State.advance_order (n : Nat) : (s.advance n).order = s.order := rfl
@[simp] theorem State.advance_shift (n : Nat) : (s.advance n).shift = s.shift := rfl
@[simp] theorem State.advance_initSum (n : Nat) : (s.advance n).initSum = s.initSum := rfl
@[simp] theorem State.advance_sum (n : Nat) : (s.advance n).sum = s.sum := rfl
@[simp] theorem State.advance_len (n : Nat) : (s.advance n).len = s.len := rfl
@[simp] theorem State.advance_coef (n : Nat) : (s.advance n).coef = s.coef := rfl
@[simp] theorem State.advance_pending (n : Nat) : (s.advance n).pending = s.pending := rfl
@[simp] theorem State.advance_cap (n : Nat) : (s.advance n).cap = s.cap := rfl
@[simp] theorem State.advance_histBlocksize (n : Nat) : (s.advance n).histBlocksize = s.histBlocksize := rfl
@[simp] theorem State.advance_hist (n : Nat) : (s.advance n).hist = s.hist := rfl
@[simp] theorem State.advance_mean (n : Nat) : (s.advance n).mean = s.mean := rfl
@[simp] theorem State.advance_blob (n : Nat) : (s.advance n).blob = s.blob := rfl
@[simp] theorem State.advance_out (n : Nat) : (s.advance n).out = s.out := rfl
@[simp] theorem State.advance_accepted (n : Nat) : (s.advance n).accepted = s.accepted := rfl
@[simp] theorem State.advance_control (n : Nat) : (s.advance n).control = s.control := rfl
@[simp] theorem State.advance_requests (n : Nat) : (s.advance n).requests = s.requests := rfl
@[simp] theorem State.advance_results (n : Nat) : (s.advance n).results = s.results := rfl

/-! ### `State.raise` -/

@[simp] theorem State.raise_version (c : Cause) : (s.raise c).version = s.version := rfl
@[simp] theorem State.raise_internalFormatType (c : Cause) : (s.raise c).internalFormatType = s.internalFormatType := rfl
@[simp] theorem State.raise_channels (c : Cause) : (s.raise c).channels = s.channels := rfl
@[simp] theorem State.raise_blocksize (c : Cause) : (s.raise c).blocksize = s.blocksize := rfl
@[simp] theorem State.raise_nwrap (c : Cause) : (s.raise c).nwrap = s.nwrap := rfl
@[simp] theorem State.raise_nmean (c : Cause) : (s.raise c).nmean = s.nmean := rfl
@[simp] theorem State.raise_bitshift (c : Cause) : (s.raise c).bitshift = s.bitshift := rfl
@[simp] theorem State.raise_lpcqoffset (c : Cause) : (s.raise c).lpcqoffset = s.lpcqoffset := rfl
@[simp] theorem State.raise_sampleRate (c : Cause) : (s.raise c).sampleRate = s.sampleRate := rfl
@[simp] theorem State.raise_bitsPerSample (c : Cause) : (s.raise c).bitsPerSample = s.bitsPerSample := rfl
@[simp] theorem State.raise_headerParsed (c : Cause) : (s.raise c).headerParsed = s.headerParsed := rfl
@[simp] theorem State.raise_quitReceived (c : Cause) : (s.raise c).quitReceived = s.quitReceived := rfl
@[simp] theorem State.raise_fault (c : Cause) : (s.raise c).fault = some c := rfl
@[simp] theorem State.raise_pos (c : Cause) : (s.raise c).pos = s.pos := rfl
@[simp] theorem State.raise_bitResumeOffset (c : Cause) : (s.raise c).bitResumeOffset = if c = .overread then 0 else s.bitResumeOffset := rfl
@[simp] theorem State.raise_currentChannel (c : Cause) : (s.raise c).currentChannel = s.currentChannel := rfl
@[simp] theorem State.raise_cmd (c : Cause) : (s.raise c).cmd = s.cmd := rfl
@[simp] theorem State.raise_residualSize (c : Cause) : (s.raise c).residualSize = s.residualSize := rfl
@[simp] theorem State.raise_coffset (c : Cause) : (s.raise c).coffset = s.coffset := rfl
@[simp] theorem State.raise_order (c : Cause) : (s.raise c).order = s.order := rfl
@[simp] theorem State.raise_shift (c : Cause) : (s.raise c).shift = s.shift := rfl
@[simp] theorem State.raise_initSum (c : Cause) : (s.raise c).initSum = s.initSum := rfl
@[simp] theorem State.raise_sum (c : Cause) : (s.raise c).sum = s.sum := rfl
@[simp] theorem State.raise_len (c : Cause) : (s.raise c).len = s.len := rfl
@[simp] theorem State.raise_coef (c : Cause) : (s.raise c).coef = s.coef := rfl
@[simp] theorem State.raise_pending (c : Cause) : (s.raise c).pending = if c = .overread then [] else s.pending := rfl
@[simp] theorem State.raise_cap (c : Cause) : (s.raise c).cap = s.cap := rfl
@[simp] theorem State.raise_histBlocksize (c : Cause) : (s.raise c).histBlocksize = s.histBlocksize := rfl
@[simp] theorem State.raise_hist (c : Cause) : (s.raise c).hist = s.hist := rfl
@[simp] theorem State.raise_mean (c : Cause) : (s.raise c).mean = s.mean := rfl
@[simp] theorem State.raise_blob (c : Cause) : (s.raise c).blob = s.blob := rfl
@[simp] theorem State.raise_out (c : Cause) : (s.raise c).out = s.out := rfl
@[simp] theorem State.raise_accepted (c : Cause) : (s.raise c).accepted = s.accepted := rfl
@[simp] theorem State.raise_control (c : Cause) : (s.raise c).control = .idle := rfl
@[simp] theorem State.raise_requests (c : Cause) : (s.raise c).requests = s.requests := rfl
@[simp] theorem State.raise_results (c : Cause) : (s.raise c).results = s.results ++ [.error c] := rfl

/-! ### `State.endPass` -/

@[simp] theorem State.endPass_version (o : PassOutcome) : (s.endPass o).version = s.version := rfl
@[simp] theorem State.endPass_internalFormatType (o : PassOutcome) : (s.endPass o).internalFormatType = s.internalFormatType := rfl
@[simp] theorem State.endPass_channels (o : PassOutcome) : (s.endPass o).channels = s.channels := rfl
@[simp] theorem State.endPass_blocksize (o : PassOutcome) : (s.endPass o).blocksize = s.blocksize := rfl
@[simp] theorem State.endPass_nwrap (o : PassOutcome) : (s.endPass o).nwrap = s.nwrap := rfl
@[simp] theorem State.endPass_nmean (o : PassOutcome) : (s.endPass o).nmean = s.nmean := rfl
@[simp] theorem State.endPass_bitshift (o : PassOutcome) : (s.endPass o).bitshift = s.bitshift := rfl
@[simp] theorem State.endPass_lpcqoffset (o : PassOutcome) : (s.endPass o).lpcqoffset = s.lpcqoffset := rfl
@[simp] theorem State.endPass_sampleRate (o : PassOutcome) : (s.endPass o).sampleRate = s.sampleRate := rfl
@[simp] theorem State.endPass_bitsPerSample (o : PassOutcome) : (s.endPass o).bitsPerSample = s.bitsPerSample := rfl
@[simp] theorem State.endPass_headerParsed (o : PassOutcome) : (s.endPass o).headerParsed = s.headerParsed := rfl
@[simp] theorem State.endPass_quitReceived (o : PassOutcome) : (s.endPass o).quitReceived = s.quitReceived := rfl
@[simp] theorem State.endPass_fault (o : PassOutcome) : (s.endPass o).fault = s.fault := rfl
@[simp] theorem State.endPass_pos (o : PassOutcome) : (s.endPass o).pos = s.pos := rfl
@[simp] theorem State.endPass_bitResumeOffset (o : PassOutcome) : (s.endPass o).bitResumeOffset = s.bitResumeOffset := rfl
@[simp] theorem State.endPass_currentChannel (o : PassOutcome) : (s.endPass o).currentChannel = s.currentChannel := rfl
@[simp] theorem State.endPass_cmd (o : PassOutcome) : (s.endPass o).cmd = s.cmd := rfl
@[simp] theorem State.endPass_residualSize (o : PassOutcome) : (s.endPass o).residualSize = s.residualSize := rfl
@[simp] theorem State.endPass_coffset (o : PassOutcome) : (s.endPass o).coffset = s.coffset := rfl
@[simp] theorem State.endPass_order (o : PassOutcome) : (s.endPass o).order = s.order := rfl
@[simp] theorem State.endPass_shift (o : PassOutcome) : (s.endPass o).shift = s.shift := rfl
@[simp] theorem State.endPass_initSum (o : PassOutcome) : (s.endPass o).initSum = s.initSum := rfl
@[simp] theorem State.endPass_sum (o : PassOutcome) : (s.endPass o).sum = s.sum := rfl
@[simp] theorem State.endPass_len (o : PassOutcome) : (s.endPass o).len = s.len := rfl
@[simp] theorem State.endPass_coef (o : PassOutcome) : (s.endPass o).coef = s.coef := rfl
@[simp] theorem State.endPass_pending (o : PassOutcome) : (s.endPass o).pending = s.pending := rfl
@[simp] theorem State.endPass_cap (o : PassOutcome) : (s.endPass o).cap = s.cap := rfl
@[simp] theorem State.endPass_histBlocksize (o : PassOutcome) : (s.endPass o).histBlocksize = s.histBlocksize := rfl
@[simp] theorem State.endPass_hist (o : PassOutcome) : (s.endPass o).hist = s.hist := rfl
@[simp] theorem State.endPass_mean (o : PassOutcome) : (s.endPass o).mean = s.mean := rfl
@[simp] theorem State.endPass_blob (o : PassOutcome) : (s.endPass o).blob = s.blob := rfl
@[simp] theorem State.endPass_out (o : PassOutcome) : (s.endPass o).out = s.out := rfl
@[simp] theorem State.endPass_accepted (o : PassOutcome) : (s.endPass o).accepted = s.accepted := rfl
@[simp] theorem State.endPass_control (o : PassOutcome) : (s.endPass o).control = .finish o := rfl
@[simp] theorem State.endPass_requests (o : PassOutcome) : (s.endPass o).requests = s.requests := rfl
@[simp] theorem State.endPass_results (o : PassOutcome) : (s.endPass o).results = s.results := rfl

/-! ### `State.answer` -/

@[simp] theorem State.answer_version (r : CallResult) : (s.answer r).version = s.version := rfl
@[simp] theorem State.answer_internalFormatType (r : CallResult) : (s.answer r).internalFormatType = s.internalFormatType := rfl
@[simp] theorem State.answer_channels (r : CallResult) : (s.answer r).channels = s.channels := rfl
@[simp] theorem State.answer_blocksize (r : CallResult) : (s.answer r).blocksize = s.blocksize := rfl
@[simp] theorem State.answer_nwrap (r : CallResult) : (s.answer r).nwrap = s.nwrap := rfl
@[simp] theorem State.answer_nmean (r : CallResult) : (s.answer r).nmean = s.nmean := rfl
@[simp] theorem State.answer_bitshift (r : CallResult) : (s.answer r).bitshift = s.bitshift := rfl
@[simp] theorem State.answer_lpcqoffset (r : CallResult) : (s.answer r).lpcqoffset = s.lpcqoffset := rfl
@[simp] theorem State.answer_sampleRate (r : CallResult) : (s.answer r).sampleRate = s.sampleRate := rfl
@[simp] theorem State.answer_bitsPerSample (r : CallResult) : (s.answer r).bitsPerSample = s.bitsPerSample := rfl
@[simp] theorem State.answer_headerParsed (r : CallResult) : (s.answer r).headerParsed = s.headerParsed := rfl
@[simp] theorem State.answer_quitReceived (r : CallResult) : (s.answer r).quitReceived = s.quitReceived := rfl
@[simp] theorem State.answer_fault (r : CallResult) : (s.answer r).fault = s.fault := rfl
@[simp] theorem State.answer_pos (r : CallResult) : (s.answer r).pos = s.pos := rfl
@[simp] theorem State.answer_bitResumeOffset (r : CallResult) : (s.answer r).bitResumeOffset = s.bitResumeOffset := rfl
@[simp] theorem State.answer_currentChannel (r : CallResult) : (s.answer r).currentChannel = s.currentChannel := rfl
@[simp] theorem State.answer_cmd (r : CallResult) : (s.answer r).cmd = s.cmd := rfl
@[simp] theorem State.answer_residualSize (r : CallResult) : (s.answer r).residualSize = s.residualSize := rfl
@[simp] theorem State.answer_coffset (r : CallResult) : (s.answer r).coffset = s.coffset := rfl
@[simp] theorem State.answer_order (r : CallResult) : (s.answer r).order = s.order := rfl
@[simp] theorem State.answer_shift (r : CallResult) : (s.answer r).shift = s.shift := rfl
@[simp] theorem State.answer_initSum (r : CallResult) : (s.answer r).initSum = s.initSum := rfl
@[simp] theorem State.answer_sum (r : CallResult) : (s.answer r).sum = s.sum := rfl
@[simp] theorem State.answer_len (r : CallResult) : (s.answer r).len = s.len := rfl
@[simp] theorem State.answer_coef (r : CallResult) : (s.answer r).coef = s.coef := rfl
@[simp] theorem State.answer_pending (r : CallResult) : (s.answer r).pending = s.pending := rfl
@[simp] theorem State.answer_cap (r : CallResult) : (s.answer r).cap = s.cap := rfl
@[simp] theorem State.answer_histBlocksize (r : CallResult) : (s.answer r).histBlocksize = s.histBlocksize := rfl
@[simp] theorem State.answer_hist (r : CallResult) : (s.answer r).hist = s.hist := rfl
@[simp] theorem State.answer_mean (r : CallResult) : (s.answer r).mean = s.mean := rfl
@[simp] theorem State.answer_blob (r : CallResult) : (s.answer r).blob = s.blob := rfl
@[simp] theorem State.answer_out (r : CallResult) : (s.answer r).out = s.out := rfl
@[simp] theorem State.answer_accepted (r : CallResult) : (s.answer r).accepted = s.accepted := rfl
@[simp] theorem State.answer_control (r : CallResult) : (s.answer r).control = .idle := rfl
@[simp] theorem State.answer_requests (r : CallResult) : (s.answer r).requests = s.requests := rfl
@[simp] theorem State.answer_results (r : CallResult) : (s.answer r).results = s.results ++ [r] := rfl

/-! ### `State.setHist` -/

@[simp] theorem State.setHist_version (c : Nat) (m : Memory) : (s.setHist c m).version = s.version := rfl
@[simp] theorem State.setHist_internalFormatType (c : Nat) (m : Memory) : (s.setHist c m).internalFormatType = s.internalFormatType := rfl
@[simp] theorem State.setHist_channels (c : Nat) (m : Memory) : (s.setHist c m).channels = s.channels := rfl
@[simp] theorem State.setHist_blocksize (c : Nat) (m : Memory) : (s.setHist c m).blocksize = s.blocksize := rfl
@[simp] theorem State.setHist_nwrap (c : Nat) (m : Memory) : (s.setHist c m).nwrap = s.nwrap := rfl
@[simp] theorem State.setHist_nmean (c : Nat) (m : Memory) : (s.setHist c m).nmean = s.nmean := rfl
@[simp] theorem State.setHist_bitshift (c : Nat) (m : Memory) : (s.setHist c m).bitshift = s.bitshift := rfl
@[simp] theorem State.setHist_lpcqoffset (c : Nat) (m : Memory) : (s.setHist c m).lpcqoffset = s.lpcqoffset := rfl
@[simp] theorem State.setHist_sampleRate (c : Nat) (m : Memory) : (s.setHist c m).sampleRate = s.sampleRate := rfl
@[simp] theorem State.setHist_bitsPerSample (c : Nat) (m : Memory) : (s.setHist c m).bitsPerSample = s.bitsPerSample := rfl
@[simp] theorem State.setHist_headerParsed (c : Nat) (m : Memory) : (s.setHist c m).headerParsed = s.headerParsed := rfl
@[simp] theorem State.setHist_quitReceived (c : Nat) (m : Memory) : (s.setHist c m).quitReceived = s.quitReceived := rfl
@[simp] theorem State.setHist_fault (c : Nat) (m : Memory) : (s.setHist c m).fault = s.fault := rfl
@[simp] theorem State.setHist_pos (c : Nat) (m : Memory) : (s.setHist c m).pos = s.pos := rfl
@[simp] theorem State.setHist_bitResumeOffset (c : Nat) (m : Memory) : (s.setHist c m).bitResumeOffset = s.bitResumeOffset := rfl
@[simp] theorem State.setHist_currentChannel (c : Nat) (m : Memory) : (s.setHist c m).currentChannel = s.currentChannel := rfl
@[simp] theorem State.setHist_cmd (c : Nat) (m : Memory) : (s.setHist c m).cmd = s.cmd := rfl
@[simp] theorem State.setHist_residualSize (c : Nat) (m : Memory) : (s.setHist c m).residualSize = s.residualSize := rfl
@[simp] theorem State.setHist_coffset (c : Nat) (m : Memory) : (s.setHist c m).coffset = s.coffset := rfl
@[simp] theorem State.setHist_order (c : Nat) (m : Memory) : (s.setHist c m).order = s.order := rfl
@[simp] theorem State.setHist_shift (c : Nat) (m : Memory) : (s.setHist c m).shift = s.shift := rfl
@[simp] theorem State.setHist_initSum (c : Nat) (m : Memory) : (s.setHist c m).initSum = s.initSum := rfl
@[simp] theorem State.setHist_sum (c : Nat) (m : Memory) : (s.setHist c m).sum = s.sum := rfl
@[simp] theorem State.setHist_len (c : Nat) (m : Memory) : (s.setHist c m).len = s.len := rfl
@[simp] theorem State.setHist_coef (c : Nat) (m : Memory) : (s.setHist c m).coef = s.coef := rfl
@[simp] theorem State.setHist_pending (c : Nat) (m : Memory) : (s.setHist c m).pending = s.pending := rfl
@[simp] theorem State.setHist_cap (c : Nat) (m : Memory) : (s.setHist c m).cap = s.cap := rfl
@[simp] theorem State.setHist_histBlocksize (c : Nat) (m : Memory) : (s.setHist c m).histBlocksize = s.histBlocksize := rfl
@[simp] theorem State.setHist_hist (c : Nat) (m : Memory) : (s.setHist c m).hist = s.hist.set c m := rfl
@[simp] theorem State.setHist_mean (c : Nat) (m : Memory) : (s.setHist c m).mean = s.mean := rfl
@[simp] theorem State.setHist_blob (c : Nat) (m : Memory) : (s.setHist c m).blob = s.blob := rfl
@[simp] theorem State.setHist_out (c : Nat) (m : Memory) : (s.setHist c m).out = s.out := rfl
@[simp] theorem State.setHist_accepted (c : Nat) (m : Memory) : (s.setHist c m).accepted = s.accepted := rfl
@[simp] theorem State.setHist_control (c : Nat) (m : Memory) : (s.setHist c m).control = s.control := rfl
@[simp] theorem State.setHist_requests (c : Nat) (m : Memory) : (s.setHist c m).requests = s.requests := rfl
@[simp] theorem State.setHist_results (c : Nat) (m : Memory) : (s.setHist c m).results = s.results := rfl

/-! ### `State.setMean` -/

@[simp] theorem State.setMean_version (c : Nat) (m : Memory) : (s.setMean c m).version = s.version := rfl
@[simp] theorem State.setMean_internalFormatType (c : Nat) (m : Memory) : (s.setMean c m).internalFormatType = s.internalFormatType := rfl
@[simp] theorem State.setMean_channels (c : Nat) (m : Memory) : (s.setMean c m).channels = s.channels := rfl
@[simp] theorem State.setMean_blocksize (c : Nat) (m : Memory) : (s.setMean c m).blocksize = s.blocksize := rfl
@[simp] theorem State.setMean_nwrap (c : Nat) (m : Memory) : (s.setMean c m).nwrap = s.nwrap := rfl
@[simp] theorem State.setMean_nmean (c : Nat) (m : Memory) : (s.setMean c m).nmean = s.nmean := rfl
@[simp] theorem State.setMean_bitshift (c : Nat) (m : Memory) : (s.setMean c m).bitshift = s.bitshift := rfl
@[simp] theorem State.setMean_lpcqoffset (c : Nat) (m : Memory) : (s.setMean c m).lpcqoffset = s.lpcqoffset := rfl
@[simp] theorem State.setMean_sampleRate (c : Nat) (m : Memory) : (s.setMean c m).sampleRate = s.sampleRate := rfl
@[simp] theorem State.setMean_bitsPerSample (c : Nat) (m : Memory) : (s.setMean c m).bitsPerSample = s.bitsPerSample := rfl
@[simp] theorem State.setMean_headerParsed (c : Nat) (m : Memory) : (s.setMean c m).headerParsed = s.headerParsed := rfl
@[simp] theorem State.setMean_quitReceived (c : Nat) (m : Memory) : (s.setMean c m).quitReceived = s.quitReceived := rfl
@[simp] theorem State.setMean_fault (c : Nat) (m : Memory) : (s.setMean c m).fault = s.fault := rfl
@[simp] theorem State.setMean_pos (c : Nat) (m : Memory) : (s.setMean c m).pos = s.pos := rfl
@[simp] theorem State.setMean_bitResumeOffset (c : Nat) (m : Memory) : (s.setMean c m).bitResumeOffset = s.bitResumeOffset := rfl
@[simp] theorem State.setMean_currentChannel (c : Nat) (m : Memory) : (s.setMean c m).currentChannel = s.currentChannel := rfl
@[simp] theorem State.setMean_cmd (c : Nat) (m : Memory) : (s.setMean c m).cmd = s.cmd := rfl
@[simp] theorem State.setMean_residualSize (c : Nat) (m : Memory) : (s.setMean c m).residualSize = s.residualSize := rfl
@[simp] theorem State.setMean_coffset (c : Nat) (m : Memory) : (s.setMean c m).coffset = s.coffset := rfl
@[simp] theorem State.setMean_order (c : Nat) (m : Memory) : (s.setMean c m).order = s.order := rfl
@[simp] theorem State.setMean_shift (c : Nat) (m : Memory) : (s.setMean c m).shift = s.shift := rfl
@[simp] theorem State.setMean_initSum (c : Nat) (m : Memory) : (s.setMean c m).initSum = s.initSum := rfl
@[simp] theorem State.setMean_sum (c : Nat) (m : Memory) : (s.setMean c m).sum = s.sum := rfl
@[simp] theorem State.setMean_len (c : Nat) (m : Memory) : (s.setMean c m).len = s.len := rfl
@[simp] theorem State.setMean_coef (c : Nat) (m : Memory) : (s.setMean c m).coef = s.coef := rfl
@[simp] theorem State.setMean_pending (c : Nat) (m : Memory) : (s.setMean c m).pending = s.pending := rfl
@[simp] theorem State.setMean_cap (c : Nat) (m : Memory) : (s.setMean c m).cap = s.cap := rfl
@[simp] theorem State.setMean_histBlocksize (c : Nat) (m : Memory) : (s.setMean c m).histBlocksize = s.histBlocksize := rfl
@[simp] theorem State.setMean_hist (c : Nat) (m : Memory) : (s.setMean c m).hist = s.hist := rfl
@[simp] theorem State.setMean_mean (c : Nat) (m : Memory) : (s.setMean c m).mean = s.mean.set c m := rfl
@[simp] theorem State.setMean_blob (c : Nat) (m : Memory) : (s.setMean c m).blob = s.blob := rfl
@[simp] theorem State.setMean_out (c : Nat) (m : Memory) : (s.setMean c m).out = s.out := rfl
@[simp] theorem State.setMean_accepted (c : Nat) (m : Memory) : (s.setMean c m).accepted = s.accepted := rfl
@[simp] theorem State.setMean_control (c : Nat) (m : Memory) : (s.setMean c m).control = s.control := rfl
@[simp] theorem State.setMean_requests (c : Nat) (m : Memory) : (s.setMean c m).requests = s.requests := rfl
@[simp] theorem State.setMean_results (c : Nat) (m : Memory) : (s.setMean c m).results = s.results := rfl

/-! ### `State.issue` -/

@[simp] theorem State.issue_version (g : Config.General) (i : Instr) (n : Nat) : (s.issue g i n).version = s.version := rfl
@[simp] theorem State.issue_internalFormatType (g : Config.General) (i : Instr) (n : Nat) : (s.issue g i n).internalFormatType = s.internalFormatType := rfl
@[simp] theorem State.issue_channels (g : Config.General) (i : Instr) (n : Nat) : (s.issue g i n).channels = s.channels := rfl
@[simp] theorem State.issue_blocksize (g : Config.General) (i : Instr) (n : Nat) : (s.issue g i n).blocksize = s.blocksize := rfl
@[simp] theorem State.issue_nwrap (g : Config.General) (i : Instr) (n : Nat) : (s.issue g i n).nwrap = s.nwrap := rfl
@[simp] theorem State.issue_nmean (g : Config.General) (i : Instr) (n : Nat) : (s.issue g i n).nmean = s.nmean := rfl
@[simp] theorem State.issue_bitshift (g : Config.General) (i : Instr) (n : Nat) : (s.issue g i n).bitshift = s.bitshift := rfl
@[simp] theorem State.issue_lpcqoffset (g : Config.General) (i : Instr) (n : Nat) : (s.issue g i n).lpcqoffset = s.lpcqoffset := rfl
@[simp] theorem State.issue_sampleRate (g : Config.General) (i : Instr) (n : Nat) : (s.issue g i n).sampleRate = s.sampleRate := rfl
@[simp] theorem State.issue_bitsPerSample (g : Config.General) (i : Instr) (n : Nat) : (s.issue g i n).bitsPerSample = s.bitsPerSample := rfl
@[simp] theorem State.issue_headerParsed (g : Config.General) (i : Instr) (n : Nat) : (s.issue g i n).headerParsed = s.headerParsed := rfl
@[simp] theorem State.issue_quitReceived (g : Config.General) (i : Instr) (n : Nat) : (s.issue g i n).quitReceived = s.quitReceived := rfl
@[simp] theorem State.issue_fault (g : Config.General) (i : Instr) (n : Nat) : (s.issue g i n).fault = s.fault := rfl
@[simp] theorem State.issue_pos (g : Config.General) (i : Instr) (n : Nat) : (s.issue g i n).pos = s.pos + n := rfl
@[simp] theorem State.issue_bitResumeOffset (g : Config.General) (i : Instr) (n : Nat) : (s.issue g i n).bitResumeOffset = s.bitResumeOffset := rfl
@[simp] theorem State.issue_currentChannel (g : Config.General) (i : Instr) (n : Nat) : (s.issue g i n).currentChannel = s.currentChannel := rfl
@[simp] theorem State.issue_cmd (g : Config.General) (i : Instr) (n : Nat) : (s.issue g i n).cmd = (i.fnNumber g).getD s.cmd := rfl
@[simp] theorem State.issue_residualSize (g : Config.General) (i : Instr) (n : Nat) : (s.issue g i n).residualSize = s.residualSize := rfl
@[simp] theorem State.issue_coffset (g : Config.General) (i : Instr) (n : Nat) : (s.issue g i n).coffset = s.coffset := rfl
@[simp] theorem State.issue_order (g : Config.General) (i : Instr) (n : Nat) : (s.issue g i n).order = s.order := rfl
@[simp] theorem State.issue_shift (g : Config.General) (i : Instr) (n : Nat) : (s.issue g i n).shift = s.shift := rfl
@[simp] theorem State.issue_initSum (g : Config.General) (i : Instr) (n : Nat) : (s.issue g i n).initSum = s.initSum := rfl
@[simp] theorem State.issue_sum (g : Config.General) (i : Instr) (n : Nat) : (s.issue g i n).sum = s.sum := rfl
@[simp] theorem State.issue_len (g : Config.General) (i : Instr) (n : Nat) : (s.issue g i n).len = s.len := rfl
@[simp] theorem State.issue_coef (g : Config.General) (i : Instr) (n : Nat) : (s.issue g i n).coef = s.coef := rfl
@[simp] theorem State.issue_pending (g : Config.General) (i : Instr) (n : Nat) : (s.issue g i n).pending = s.pending := rfl
@[simp] theorem State.issue_cap (g : Config.General) (i : Instr) (n : Nat) : (s.issue g i n).cap = s.cap := rfl
@[simp] theorem State.issue_histBlocksize (g : Config.General) (i : Instr) (n : Nat) : (s.issue g i n).histBlocksize = s.histBlocksize := rfl
@[simp] theorem State.issue_hist (g : Config.General) (i : Instr) (n : Nat) : (s.issue g i n).hist = s.hist := rfl
@[simp] theorem State.issue_mean (g : Config.General) (i : Instr) (n : Nat) : (s.issue g i n).mean = s.mean := rfl
@[simp] theorem State.issue_blob (g : Config.General) (i : Instr) (n : Nat) : (s.issue g i n).blob = s.blob := rfl
@[simp] theorem State.issue_out (g : Config.General) (i : Instr) (n : Nat) : (s.issue g i n).out = s.out := rfl
@[simp] theorem State.issue_accepted (g : Config.General) (i : Instr) (n : Nat) : (s.issue g i n).accepted = s.accepted := rfl
@[simp] theorem State.issue_control (g : Config.General) (i : Instr) (n : Nat) : (s.issue g i n).control = s.control := rfl
@[simp] theorem State.issue_requests (g : Config.General) (i : Instr) (n : Nat) : (s.issue g i n).requests = s.requests := rfl
@[simp] theorem State.issue_results (g : Config.General) (i : Instr) (n : Nat) : (s.issue g i n).results = s.results := rfl

/-! ### `State.core` -/

@[simp] theorem State.core_version : s.core.version = s.version := rfl
@[simp] theorem State.core_internalFormatType : s.core.internalFormatType = s.internalFormatType := rfl
@[simp] theorem State.core_channels : s.core.channels = s.channels := rfl
@[simp] theorem State.core_blocksize : s.core.blocksize = s.blocksize := rfl
@[simp] theorem State.core_nwrap : s.core.nwrap = s.nwrap := rfl
@[simp] theorem State.core_nmean : s.core.nmean = s.nmean := rfl
@[simp] theorem State.core_bitshift : s.core.bitshift = s.bitshift := rfl
@[simp] theorem State.core_lpcqoffset : s.core.lpcqoffset = s.lpcqoffset := rfl
@[simp] theorem State.core_sampleRate : s.core.sampleRate = s.sampleRate := rfl
@[simp] theorem State.core_bitsPerSample : s.core.bitsPerSample = s.bitsPerSample := rfl
@[simp] theorem State.core_headerParsed : s.core.headerParsed = s.headerParsed := rfl
@[simp] theorem State.core_quitReceived : s.core.quitReceived = s.quitReceived := rfl
@[simp] theorem State.core_fault : s.core.fault = s.fault := rfl
@[simp] theorem State.core_pos : s.core.pos = s.pos := rfl
@[simp] theorem State.core_bitResumeOffset : s.core.bitResumeOffset = s.bitResumeOffset := rfl
@[simp] theorem State.core_currentChannel : s.core.currentChannel = s.currentChannel := rfl
@[simp] theorem State.core_cmd : s.core.cmd = s.cmd := rfl
@[simp] theorem State.core_residualSize : s.core.residualSize = s.residualSize := rfl
@[simp] theorem State.core_coffset : s.core.coffset = s.coffset := rfl
@[simp] theorem State.core_order : s.core.order = s.order := rfl
@[simp] theorem State.core_shift : s.core.shift = s.shift := rfl
@[simp] theorem State.core_initSum : s.core.initSum = s.initSum := rfl
@[simp] theorem State.core_sum : s.core.sum = s.sum := rfl
@[simp] theorem State.core_len : s.core.len = s.len := rfl
@[simp] theorem State.core_coef : s.core.coef = s.coef := rfl
@[simp] theorem State.core_pending : s.core.pending = s.pending := rfl
@[simp] theorem State.core_cap : s.core.cap = s.cap := rfl
@[simp] theorem State.core_histBlocksize : s.core.histBlocksize = s.histBlocksize := rfl
@[simp] theorem State.core_hist : s.core.hist = s.hist := rfl
@[simp] theorem State.core_mean : s.core.mean = s.mean := rfl
@[simp] theorem State.core_blob : s.core.blob = s.blob := rfl
@[simp] theorem State.core_out : s.core.out = s.out := rfl
@[simp] theorem State.core_accepted : s.core.accepted = 0 := rfl
@[simp] theorem State.core_control : s.core.control = .idle := rfl
@[simp] theorem State.core_requests : s.core.requests = [] := rfl
@[simp] theorem State.core_results : s.core.results = [] := rfl

/-- R35: the host's side and the place in a call are no part of the core. -/
@[simp] theorem State.core_of_hostSide (accepted : Nat) (control : Control) (requests : List Request) (results : List CallResult) :
    ({ s with accepted := accepted, control := control, requests := requests, results := results } : State).core = s.core := rfl

end Sys2Proof.Machine
end

