-- ==== Sys2Proof/Laws/Program.lean ====
section
/-! SUPPORT. Laws/Program.lean: how a rule runs, and two ways to say once what a rule can do: `Keeps R`, the relation `R`
holds between the states before and after, whether the rule ended or stopped; and `Runs P E Q`, from every state with `P`
the rule ends in `Q` or raises in `E` and never stops for good. -/

namespace Sys2Proof.Machine

variable {α β : Type}

/-! ### Running -/

theorem run_bind (m : M α) (f : α → M β) (s : State) :
    (m >>= f) s = match m s with | .ok a t => f a t | .error e t => .error e t := by
  show EStateM.bind m f s = _
  unfold EStateM.bind
  rcases m s with ⟨a, t⟩ | ⟨e, t⟩ <;> rfl

theorem run_bind_ok {m : M α} {f : α → M β} {s t : State} {a : α} (h : m s = .ok a t) : (m >>= f) s = f a t := by
  rw [run_bind, h]

theorem run_bind_error {m : M α} {f : α → M β} {s t : State} {e : Stop} (h : m s = .error e t) :
    (m >>= f) s = .error e t := by
  rw [run_bind, h]

@[simp] theorem run_pure (a : α) (s : State) : (pure a : M α) s = .ok a s := rfl
@[simp] theorem run_get (s : State) : (get : M State) s = .ok s s := rfl
@[simp] theorem run_set (t s : State) : (set t : M PUnit) s = .ok ⟨⟩ t := rfl
@[simp] theorem run_modify (f : State → State) (s : State) : (modify f : M PUnit) s = .ok ⟨⟩ (f s) := rfl
@[simp] theorem run_throw (e : Stop) (s : State) : (throw e : M α) s = .error e s := rfl
@[simp] theorem run_raise (c : Cause) (s : State) : (raise c : M α) s = .error (.raise c) s := rfl

@[simp] theorem run_get_bind (f : State → M β) (s : State) : (get >>= f) s = f s s := run_bind_ok (run_get s)
@[simp] theorem run_set_bind (t : State) (f : PUnit → M β) (s : State) : (set t >>= f) s = f ⟨⟩ t :=
  run_bind_ok (run_set t s)
@[simp] theorem run_modify_bind (g : State → State) (f : PUnit → M β) (s : State) :
    (modify g >>= f) s = f ⟨⟩ (g s) := run_bind_ok (run_modify g s)
@[simp] theorem run_pure_bind (a : α) (f : α → M β) (s : State) : (pure a >>= f) s = f a s := run_bind_ok (run_pure a s)

theorem perform_ok {m : M Unit} {s t : State} (h : m s = .ok () t) : perform m s = .next t := by
  unfold perform; rw [h]

theorem perform_raise {m : M Unit} {s t : State} {c : Cause} (h : m s = .error (.raise c) t) :
    perform m s = .next (t.raise c) := by
  unfold perform; rw [h]

/-- What a performed rule can answer. -/
theorem perform_next {m : M Unit} {s u : State} (h : perform m s = .next u) :
    m s = .ok () u ∨ ∃ c t, m s = .error (.raise c) t ∧ u = t.raise c := by
  unfold perform at h
  split at h
  · rename_i heq; cases h; exact .inl heq
  · rename_i heq; cases h; exact .inr ⟨_, _, heq, rfl⟩
  · cases h

/-! ### `Keeps` -/

/-- The state in which a rule ended or stopped. -/
def finalState : EStateM.Result Stop State α → State
  | .ok _ t => t
  | .error _ t => t

/-- `R` holds between the states before and after the rule, whether it ended or stopped. -/
def Keeps (R : State → State → Prop) (m : M α) : Prop := ∀ s, R s (finalState (m s))

variable {R : State → State → Prop}

theorem keeps_mono {R' : State → State → Prop} {m : M α} (h : Keeps R m) (hR : ∀ s t, R s t → R' s t) : Keeps R' m :=
  fun s => hR _ _ (h s)

section

variable (refl : ∀ s, R s s) (trans : ∀ s t u, R s t → R t u → R s u)

include refl

theorem keeps_pure (a : α) : Keeps R (pure a : M α) := fun s => refl s
theorem keeps_get : Keeps R (get : M State) := fun s => refl s
theorem keeps_throw (e : Stop) : Keeps R (throw e : M α) := fun s => refl s
theorem keeps_raise (c : Cause) : Keeps R (raise c : M α) := fun s => refl s

omit refl
theorem keeps_modify {f : State → State} (h : ∀ s, R s (f s)) : Keeps R (modify f : M PUnit) := h

/-- After `get`, the rest may use that the value is the state. -/
theorem keeps_get_bind {f : State → M β} (hf : ∀ s, R s (finalState (f s s))) : Keeps R (get >>= f) := by
  intro s
  rw [run_get_bind]
  exact hf s

include trans
theorem keeps_bind {m : M α} {f : α → M β} (hm : Keeps R m) (hf : ∀ a, Keeps R (f a)) : Keeps R (m >>= f) := by
  intro s
  have h := hm s
  rw [run_bind]
  rcases hms : m s with ⟨a, t⟩ | ⟨e, t⟩
  · rw [hms] at h; exact trans _ _ _ h (hf a t)
  · rw [hms] at h; exact h

include refl
theorem keeps_forRange {body : Int → M Unit} (h : ∀ i, Keeps R (body i)) (n : Nat) (i : Int) :
    Keeps R (forRange n i body) := by
  induction n generalizing i with
  | zero => exact keeps_pure refl ()
  | succ n ih => exact keeps_bind trans (h i) fun _ => ih (i + 1)

theorem keeps_collectRange {body : Int → M α} (h : ∀ i, Keeps R (body i)) (n : Nat) (i : Int) :
    Keeps R (collectRange n i body) := by
  induction n generalizing i with
  | zero => exact keeps_pure refl []
  | succ n ih =>
    exact keeps_bind trans (h i) fun _ => keeps_bind trans (ih (i + 1)) fun _ => keeps_pure refl _

end

/-! ### `Runs` -/

/-- From every state with `P` the rule ends in `Q`, or raises an error in `E`; it never stops for good. -/
def Runs (P : State → Prop) (E : State → Prop) (m : M α) (Q : α → State → Prop) : Prop :=
  ∀ s, P s → match m s with
    | .ok a t => Q a t
    | .error (.raise _) t => E t
    | .error (.stuck _) _ => False

variable {P E : State → Prop} {Q : α → State → Prop}

theorem Runs.weaken {P' E' : State → Prop} {Q' : α → State → Prop} {m : M α} (h : Runs P E m Q)
    (hP : ∀ s, P' s → P s) (hE : ∀ s, E s → E' s) (hQ : ∀ a s, Q a s → Q' a s) : Runs P' E' m Q' := by
  intro s hs
  have := h s (hP s hs)
  split at this
  · exact hQ _ _ this
  · exact hE _ this
  · exact this.elim

theorem Runs.pure {a : α} (h : ∀ s, P s → Q a s) : Runs P E (pure a : M α) Q := h

theorem Runs.raise {c : Cause} (h : ∀ s, P s → E s) : Runs P E (raise c : M α) Q := h

theorem Runs.modify {f : State → State} {Q : PUnit → State → Prop} (h : ∀ s, P s → Q ⟨⟩ (f s)) :
    Runs P E (modify f : M PUnit) Q := h

theorem Runs.bind {m : M α} {f : α → M β} {Q' : β → State → Prop} (hm : Runs P E m Q)
    (hf : ∀ a, Runs (Q a) E (f a) Q') : Runs P E (m >>= f) Q' := by
  intro s hs
  have h := hm s hs
  rw [run_bind]
  rcases hms : m s with ⟨a, t⟩ | ⟨_ | _, t⟩
  · rw [hms] at h; exact hf a t h
  · rw [hms] at h; exact h
  · rw [hms] at h; exact h.elim

theorem Runs.get_bind {f : State → M β} {Q' : β → State → Prop} (hf : ∀ s, Runs (fun t => t = s ∧ P s) E (f s) Q') :
    Runs P E (get >>= f) Q' := by
  intro s hs
  rw [run_get_bind]
  exact hf s s ⟨rfl, hs⟩

theorem Runs.ite {c : Prop} [Decidable c] {m m' : M α} (h : c → Runs P E m Q) (h' : ¬ c → Runs P E m' Q) :
    Runs P E (if c then m else m') Q := by
  split
  · exact h ‹_›
  · exact h' ‹_›

/-- A loop runs when its body keeps an indexed invariant. -/
theorem Runs.forRange {body : Int → M Unit} (I : Nat → State → Prop) (n : Nat) (i : Int)
    (h : ∀ k, k < n → Runs (I k) E (body (i + k)) fun _ => I (k + 1)) :
    Runs (I 0) E (forRange n i body) fun _ => I n := by
  induction n generalizing i I with
  | zero => exact Runs.pure fun _ hs => hs
  | succ n ih =>
    refine Runs.bind (Q := fun _ => I 1) ?_ fun _ => ?_
    · simpa using h 0 (by omega)
    · refine ih (fun k => I (k + 1)) (i + 1) fun k hk => ?_
      have := h (k + 1) (by omega)
      rw [show i + 1 + (k : Int) = i + (k + 1 : Nat) by push_cast; omega]
      exact this

/-- What a performed rule answers when it runs. -/
theorem Runs.perform {m : M Unit} {Q : Unit → State → Prop} (h : Runs P E m Q) {s : State} (hs : P s) :
    ∃ t, perform m s = .next t ∧ ((m s = .ok () t ∧ Q () t) ∨ ∃ c u, m s = .error (.raise c) u ∧ E u ∧ t = u.raise c) := by
  have := h s hs
  rcases hms : m s with ⟨a, t⟩ | ⟨c | f, t⟩
  · rw [hms] at this; exact ⟨t, perform_ok hms, .inl ⟨rfl, this⟩⟩
  · rw [hms] at this; exact ⟨_, perform_raise hms, .inr ⟨c, t, rfl, this, rfl⟩⟩
  · rw [hms] at this; exact this.elim

end Sys2Proof.Machine
end

