-- ==== Sys2Proof/Laws/Ops.lean ====
section
/-! SUPPORT. Laws/Ops.lean: what each shared operation can do, said once: the cursor and the field readers move the cursor and
nothing else; the reads of a memory change nothing; a write changes the cells it names and nothing else. -/

namespace Sys2Proof.Machine

/-! ### The cursor -/

@[simp] theorem State.advance_zero (s : State) : s.advance 0 = s := rfl

@[simp] theorem State.advance_advance (s : State) (m n : Nat) : (s.advance m).advance n = s.advance (m + n) := by
  simp [State.advance, Nat.add_assoc]

@[simp] theorem State.advance_bitLength (s : State) (n : Nat) : (s.advance n).bitLength = s.bitLength := rfl

theorem State.unread_advance (s : State) (n : Nat) : (s.advance n).unread = s.unread.drop n := by
  simp [State.unread, State.advance, List.drop_drop]

@[simp] theorem State.unread_length (s : State) : s.unread.length = s.bitLength - s.pos := by
  simp [State.unread, State.bitLength]

/-- Past the bits at the front of the unread string the rest is unread. -/
theorem State.unread_advance_append {s : State} {code rest : Bits} (h : s.unread = code ++ rest) :
    (s.advance code.length).unread = rest := by
  rw [State.unread_advance, h, List.drop_left]

/-- Bits that are there are within the buffer. -/
theorem State.fits_of_unread {s : State} {code rest : Bits} (h : s.unread = code ++ rest) (hc : code ≠ []) :
    s.pos + code.length ≤ s.bitLength := by
  have h1 := congrArg List.length h
  have h2 : 0 < code.length := List.length_pos_iff.2 hc
  rw [State.unread_length, List.length_append] at h1
  omega

theorem readBits_ok {s : State} {n v : Nat} {rest : Bits} (h : takeBits n 0 s.unread = some (v, rest))
    (hp : s.pos + n ≤ s.bitLength) : readBits n s = .ok v (s.advance n) := by
  unfold readBits
  rw [if_neg (by omega), h]

theorem readBits_short {s : State} {n : Nat} (hp : s.bitLength < s.pos + n) :
    readBits n s = .error (.raise .overread) s := by
  unfold readBits
  rw [if_pos hp]

/-- R80: everything `read_bits` can do. -/
theorem readBits_cases (n : Nat) (s : State) :
    (∃ v rest, takeBits n 0 s.unread = some (v, rest) ∧ s.pos + n ≤ s.bitLength ∧ readBits n s = .ok v (s.advance n)) ∨
    (s.bitLength < s.pos + n ∧ readBits n s = .error (.raise .overread) s) := by
  rcases Nat.lt_or_ge s.bitLength (s.pos + n) with h | h
  · exact .inr ⟨h, readBits_short h⟩
  · left
    rcases ht : takeBits n 0 s.unread with _ | ⟨v, rest⟩
    · rw [takeBits_eq_none, State.unread_length] at ht; omega
    · exact ⟨v, rest, rfl, h, readBits_ok ht h⟩

/-- R85: everything the unary loop can do. -/
theorem readUnary_cases (s : State) :
    (∃ q rest, takeUnary 0 s.unread = some (q, rest) ∧ s.pos + (q + 1) ≤ s.bitLength ∧
      readUnary s = .ok q (s.advance (q + 1))) ∨
    (takeUnary 0 s.unread = none ∧
      readUnary s = .error (.raise .overread) (s.advance (s.bitLength - s.pos))) := by
  unfold readUnary
  rcases ht : takeUnary 0 s.unread with _ | ⟨q, rest⟩
  · exact .inr ⟨rfl, rfl⟩
  · left
    have := (takeUnary_rest ht).2.2
    rw [State.unread_length] at this
    exact ⟨q, rest, rfl, by omega, rfl⟩

/-- Only the cursor moved: forwards, and not out of the buffer. -/
def CursorOnly (s t : State) : Prop := ∃ n, t = s.advance n ∧ (s.pos ≤ s.bitLength → t.pos ≤ s.bitLength)

theorem CursorOnly.refl (s : State) : CursorOnly s s := ⟨0, rfl, id⟩

theorem CursorOnly.trans (s t u : State) (h : CursorOnly s t) (h' : CursorOnly t u) : CursorOnly s u := by
  obtain ⟨m, rfl, hm⟩ := h
  obtain ⟨n, rfl, hn⟩ := h'
  exact ⟨m + n, by simp, fun hs => hn (hm hs)⟩

theorem keeps_readBits (n : Nat) : Keeps CursorOnly (readBits n) := by
  intro s
  rcases readBits_cases n s with ⟨v, rest, _, hp, h⟩ | ⟨_, h⟩ <;> rw [h]
  · exact ⟨n, rfl, fun _ => hp⟩
  · exact CursorOnly.refl s

theorem keeps_skipBits (n : Nat) : Keeps CursorOnly (skipBits n) := by
  intro s
  unfold skipBits
  split
  · exact CursorOnly.refl s
  · exact ⟨n, rfl, fun _ => by show s.pos + n ≤ s.bitLength; omega⟩

theorem keeps_readUnary : Keeps CursorOnly readUnary := by
  intro s
  rcases readUnary_cases s with ⟨q, rest, _, hp, h⟩ | ⟨_, h⟩ <;> rw [h]
  · exact ⟨q + 1, rfl, fun _ => hp⟩
  · exact ⟨_, rfl, fun _ => by show s.pos + (s.bitLength - s.pos) ≤ s.bitLength; omega⟩

/-- R85: `read_unsigned` moves the cursor and nothing else. -/
theorem keeps_readUnsigned (k : Int) : Keeps CursorOnly (readUnsigned k) := by
  unfold readUnsigned
  split
  · exact keeps_raise CursorOnly.refl _
  · exact keeps_bind CursorOnly.trans keeps_readUnary fun _ =>
      keeps_bind CursorOnly.trans (keeps_readBits _) fun _ => keeps_pure CursorOnly.refl _

/-- R85, R89: a code at the cursor is read, and the cursor moves over exactly its bits. -/
theorem readUnsigned_ok {s : State} {k v : Nat} {rest : Bits} (h : takeUnsigned k s.unread = some (v, rest)) :
    readUnsigned k s = .ok v (s.advance (v / 2 ^ k + 1 + k)) ∧ (s.advance (v / 2 ^ k + 1 + k)).unread = rest := by
  refine ⟨?_, by rw [State.unread_advance]; exact (takeUnsigned_rest h).1.symm⟩
  unfold takeUnsigned at h
  unfold readUnsigned
  rw [if_neg (by omega)]
  rcases readUnary_cases s with ⟨q, r1, h1, hp, hr⟩ | ⟨h1, hr⟩
  · rw [h1] at h
    simp only at h
    obtain ⟨-, hr1, -⟩ := takeUnary_rest h1
    have hun : (s.advance (q + 1)).unread = r1 := by rw [State.unread_advance, hr1]; rfl
    rw [run_bind_ok hr]
    rcases h2 : takeBits k 0 r1 with _ | ⟨w, r2⟩
    · rw [h2] at h; cases h
    · rw [h2] at h
      have hlen := (takeBits_rest h2).2
      have hw : w < 2 ^ k := by simpa using takeBits_lt h2
      rw [← hun, State.unread_length, State.advance_bitLength, State.advance_pos] at hlen
      have hrb := readBits_ok (s := s.advance (q + 1)) (n := k) (by rw [hun]; exact h2)
        (by rw [State.advance_bitLength, State.advance_pos]; omega)
      rw [Int.toNat_natCast, run_bind_ok hrb]
      simp only [Option.some.injEq, Prod.mk.injEq] at h
      obtain ⟨hv, rfl⟩ := h
      have hq : v / 2 ^ k = q := by
        rw [← hv, Nat.mul_comm, Nat.mul_add_div (Nat.two_pow_pos k), Nat.div_eq_of_lt hw]; rfl
      simp only [run_pure, State.advance_advance, hv, hq]
  · rw [h1] at h; cases h

/-- R85: without a whole code at the cursor, the read that needs the missing bit raises. -/
theorem readUnsigned_short {s : State} {k : Nat} (h : takeUnsigned k s.unread = none) :
    ∃ n, readUnsigned k s = .error (.raise .overread) (s.advance n) := by
  unfold takeUnsigned at h
  unfold readUnsigned
  rw [if_neg (by omega)]
  rcases readUnary_cases s with ⟨q, r1, h1, hp, hr⟩ | ⟨h1, hr⟩
  · rw [h1] at h
    simp only at h
    obtain ⟨-, hr1, -⟩ := takeUnary_rest h1
    have hun : (s.advance (q + 1)).unread = r1 := by rw [State.unread_advance, hr1]; rfl
    rw [run_bind_ok hr, Int.toNat_natCast]
    rcases readBits_cases k (s.advance (q + 1)) with ⟨w, r2, h2, -, -⟩ | ⟨-, h2⟩
    · rw [hun] at h2; rw [h2] at h; cases h
    · exact ⟨_, run_bind_error h2⟩
  · exact ⟨_, run_bind_error hr⟩

/-- R85: everything `read_unsigned(k)` can do. -/
theorem readUnsigned_cases (k : Int) (s : State) :
    (k < 0 ∧ readUnsigned k s = .error (.raise .negativeRiceParameter) s) ∨
    (0 ≤ k ∧ ∃ v rest, takeUnsigned k.toNat s.unread = some (v, rest) ∧
      readUnsigned k s = .ok v (s.advance (v / 2 ^ k.toNat + 1 + k.toNat)) ∧
      (s.advance (v / 2 ^ k.toNat + 1 + k.toNat)).unread = rest) ∨
    (0 ≤ k ∧ takeUnsigned k.toNat s.unread = none ∧
      ∃ n, readUnsigned k s = .error (.raise .overread) (s.advance n)) := by
  rcases lt_or_ge k 0 with hk | hk
  · left
    unfold readUnsigned
    rw [if_pos hk]
    exact ⟨hk, rfl⟩
  · right
    lift k to Nat using hk
    rw [Int.toNat_natCast]
    rcases h : takeUnsigned k s.unread with _ | ⟨v, rest⟩
    · exact .inr ⟨by omega, rfl, readUnsigned_short h⟩
    · exact .inl ⟨by omega, v, rest, rfl, readUnsigned_ok h⟩

/-- R86. -/
theorem keeps_readSigned (k : Int) : Keeps CursorOnly (readSigned k) :=
  keeps_bind CursorOnly.trans (keeps_readUnsigned _) fun _ => keeps_pure CursorOnly.refl _

/-- R87. -/
theorem keeps_readAdaptive (hint : Nat) : Keeps CursorOnly (readAdaptive hint) := by
  refine keeps_get_bind fun s => ?_
  split
  · exact keeps_readUnsigned _ s
  · exact keeps_bind CursorOnly.trans (keeps_readUnsigned _) (fun _ => keeps_readUnsigned _) s

theorem keeps_readEnergy : Keeps CursorOnly readEnergy := by
  unfold readEnergy
  split
  · exact keeps_readAdaptive _
  · exact keeps_readUnsigned _

theorem keeps_readOrder : Keeps CursorOnly readOrder := by
  unfold readOrder
  split
  · exact keeps_readAdaptive _
  · exact keeps_readUnsigned _

/-- No field reader stops for good. -/
def NeverStuck {α : Type} (m : M α) : Prop := ∀ s f t, m s ≠ .error (.stuck f) t

theorem neverStuck_bind {α β : Type} {m : M α} {f : α → M β} (hm : NeverStuck m) (hf : ∀ a, NeverStuck (f a)) :
    NeverStuck (m >>= f) := by
  intro s e t h
  rw [run_bind] at h
  rcases hms : m s with ⟨a, u⟩ | ⟨e', u⟩
  · rw [hms] at h; exact hf a u e t h
  · rw [hms] at h; injection h with h1 h2; exact hm s e u (by rw [hms, h1])

theorem neverStuck_pure {α : Type} (a : α) : NeverStuck (pure a : M α) := fun s f t h => by simp at h

theorem neverStuck_raise {α : Type} (c : Cause) : NeverStuck (raise c : M α) := fun s f t h => by simp at h

theorem neverStuck_readBits (n : Nat) : NeverStuck (readBits n) := by
  intro s f t h
  rcases readBits_cases n s with ⟨v, rest, _, _, h'⟩ | ⟨_, h'⟩ <;> rw [h'] at h <;> simp at h

theorem neverStuck_skipBits (n : Nat) : NeverStuck (skipBits n) := by
  intro s f t h
  unfold skipBits at h
  split at h <;> simp at h

theorem neverStuck_readUnary : NeverStuck readUnary := by
  intro s f t h
  rcases readUnary_cases s with ⟨q, rest, _, _, h'⟩ | ⟨_, h'⟩ <;> rw [h'] at h <;> simp at h

theorem neverStuck_readUnsigned (k : Int) : NeverStuck (readUnsigned k) := by
  unfold readUnsigned
  split
  · exact neverStuck_raise _
  · exact neverStuck_bind neverStuck_readUnary fun _ =>
      neverStuck_bind (neverStuck_readBits _) fun _ => neverStuck_pure _

theorem neverStuck_readSigned (k : Int) : NeverStuck (readSigned k) :=
  neverStuck_bind (neverStuck_readUnsigned _) fun _ => neverStuck_pure _

theorem neverStuck_readAdaptive (hint : Nat) : NeverStuck (readAdaptive hint) := by
  intro s f t h
  unfold readAdaptive at h
  rw [run_get_bind] at h
  split at h
  · exact neverStuck_readUnsigned _ s f t h
  · exact neverStuck_bind (neverStuck_readUnsigned _) (fun _ => neverStuck_readUnsigned _) s f t h

/-! ### The history -/

theorem State.histSlot_eq_some {s : State} {i : Int} {a : Nat} :
    s.histSlot i = some a ↔ -(s.nwrap : Int) ≤ i ∧ i < s.histBlocksize ∧ (a : Int) = i + s.nwrap := by
  unfold State.histSlot
  simp only
  split
  · rename_i h
    rw [Option.some.injEq]
    push_cast at h
    constructor
    · rintro rfl; omega
    · intro ⟨h1, h2, h3⟩; omega
  · rename_i h
    push_cast at h
    simp only [reduceCtorEq, false_iff]
    omega

/-- A history cell inside the allocated range is the cell of its slot. -/
theorem State.histCell_eq {s : State} {c : Nat} {m : Memory} (hm : s.hist[c]? = some m) {i : Int}
    (h1 : -(s.nwrap : Int) ≤ i) (h2 : i < s.histBlocksize) : s.histCell c i = m.read (i + s.nwrap).toNat := by
  unfold State.histCell
  rw [hm, (State.histSlot_eq_some (a := (i + s.nwrap).toNat)).2 ⟨h1, h2, by omega⟩]

theorem State.histCell_none_of_range {s : State} {c : Nat} {i : Int}
    (h : ¬ (-(s.nwrap : Int) ≤ i ∧ i < s.histBlocksize)) : s.histCell c i = none := by
  unfold State.histCell
  rcases hs : s.histSlot i with _ | a
  · cases s.hist[c]? <;> rfl
  · have := State.histSlot_eq_some.1 hs
    exact absurd ⟨this.1, this.2.1⟩ h

theorem State.histRange_iff {s : State} {i : Int} {n : Nat} :
    s.histRange i n = true ↔ -(s.nwrap : Int) ≤ i ∧ i + n ≤ s.histBlocksize := by
  simp [State.histRange]

/-- A read of the history changes nothing. -/
theorem keeps_readHist (c : Nat) (i : Int) (n : Nat) : Keeps Eq (readHist c i n) := by
  intro s
  unfold readHist
  split
  · rfl
  · split
    · split <;> rfl
    · rfl

/-- A read of the history gives the cells of its range. -/
theorem readHist_eq_ok {s t : State} {c : Nat} {i : Int} {n : Nat} {vs : List Cell} (hwf : ∀ m ∈ s.hist, m.wf) :
    readHist c i n s = .ok vs t ↔
      t = s ∧ c < s.hist.length ∧ s.histRange i n = true ∧ vs.length = n ∧
        ∀ k, k < n → s.histCell c (i + k) = vs[k]? := by
  unfold readHist
  rcases hm : s.hist[c]? with _ | m
  · have := List.getElem?_eq_none_iff.1 hm
    simp only [reduceCtorEq, false_iff]
    rintro ⟨-, h, -⟩; omega
  · have hc : c < s.hist.length := (List.getElem?_eq_some_iff.1 hm).1
    have hmw : m.wf := hwf m (List.mem_of_getElem? hm)
    simp only
    by_cases hr : s.histRange i n = true
    · obtain ⟨h1, h2⟩ := State.histRange_iff.1 hr
      have hcell : ∀ k, k < n → s.histCell c (i + k) = m.read ((i + s.nwrap).toNat + k) := fun k hk => by
        rw [State.histCell_eq hm (by omega) (by omega)]; congr 1; omega
      rw [if_pos hr]
      rcases hv : m.readFrom (i + s.nwrap).toNat n with _ | ws
      · simp only [reduceCtorEq, false_iff]
        rintro ⟨-, -, -, hl, hk⟩
        have := (Memory.readFrom_eq_some hmw).2 ⟨hl, fun k h => by rw [← hcell k h]; exact hk k h⟩
        rw [hv] at this; cases this
      · obtain ⟨hl, hk⟩ := (Memory.readFrom_eq_some hmw).1 hv
        simp only [EStateM.Result.ok.injEq]
        constructor
        · rintro ⟨rfl, rfl⟩
          exact ⟨rfl, hc, hr, hl, fun k h => by rw [hcell k h]; exact hk k h⟩
        · rintro ⟨rfl, -, -, hl', hk'⟩
          refine ⟨List.ext_getElem? fun k => ?_, rfl⟩
          rcases Nat.lt_or_ge k n with h | h
          · rw [← hk k h, ← hcell k h, hk' k h]
          · rw [List.getElem?_eq_none (by omega), List.getElem?_eq_none (by omega)]
    · rw [if_neg hr]
      simp only [reduceCtorEq, false_iff]
      rintro ⟨-, -, h, -⟩; exact hr h

/-- A range whose cells hold values is read. -/
theorem readHist_runs {s : State} {c : Nat} {i : Int} {n : Nat} (hwf : ∀ m ∈ s.hist, m.wf) (hc : c < s.hist.length)
    (hr : s.histRange i n = true) (hk : ∀ k : Nat, k < n → (s.histCell c (i + k)).isSome = true) :
    ∃ vs, readHist c i n s = .ok vs s ∧ vs.length = n ∧ ∀ k, k < n → s.histCell c (i + k) = vs[k]? := by
  have h : ∀ k, k < n → s.histCell c (i + k) = ((List.range n).map fun k : Nat => (s.histCell c (i + k)).getD 0)[k]? :=
    fun k hkn => by
      obtain ⟨v, hv⟩ := Option.isSome_iff_exists.1 (hk k hkn)
      simp [hkn, hv]
  exact ⟨_, (readHist_eq_ok hwf).2 ⟨rfl, hc, hr, by simp, h⟩, by simp, h⟩

/-- Everything a write of the history can do. -/
theorem writeHist_cases (c : Nat) (i : Int) (vs : List Cell) (s : State) :
    (∃ m, s.hist[c]? = some m ∧ s.histRange i vs.length = true ∧
      writeHist c i vs s = .ok () (s.setHist c (m.writeFrom (i + s.nwrap).toNat vs))) ∨
    ((c < s.hist.length → s.histRange i vs.length = false) ∧ writeHist c i vs s = .error (.stuck .noSuchCell) s) := by
  unfold writeHist
  rcases hm : s.hist[c]? with _ | m
  · exact .inr ⟨fun h => absurd (List.getElem?_eq_none_iff.1 hm) (by omega), rfl⟩
  · by_cases hr : s.histRange i vs.length = true
    · exact .inl ⟨m, rfl, hr, by simp [hr]⟩
    · exact .inr ⟨fun _ => by simpa using hr, by simp [hr]⟩

/-- The history after a write of a range. -/
theorem State.histCell_setHist {s : State} {c : Nat} {m : Memory} (hm : s.hist[c]? = some m) {i : Int} {vs : List Cell}
    (hr : s.histRange i vs.length = true) (d : Nat) (j : Int) :
    (s.setHist c (m.writeFrom (i + s.nwrap).toNat vs)).histCell d j =
      if d = c ∧ i ≤ j ∧ j < i + vs.length then vs[(j - i).toNat]? else s.histCell d j := by
  obtain ⟨h1, h2⟩ := State.histRange_iff.1 hr
  have hc : c < s.hist.length := (List.getElem?_eq_some_iff.1 hm).1
  by_cases hd : d = c
  · subst hd
    by_cases hj : -(s.nwrap : Int) ≤ j ∧ j < s.histBlocksize
    · have hm' : (s.setHist d (m.writeFrom (i + s.nwrap).toNat vs)).hist[d]? = some (m.writeFrom (i + s.nwrap).toNat vs) := by
        simp [hc]
      rw [State.histCell_eq hm' (by simpa using hj.1) (by simpa using hj.2), State.histCell_eq hm hj.1 hj.2,
        Memory.read_writeFrom]
      show (if (i + (s.nwrap : Int)).toNat ≤ (j + (s.nwrap : Int)).toNat ∧
          (j + (s.nwrap : Int)).toNat < (i + (s.nwrap : Int)).toNat + vs.length
        then vs[(j + (s.nwrap : Int)).toNat - (i + (s.nwrap : Int)).toNat]? else m.read (j + (s.nwrap : Int)).toNat) = _
      by_cases hin : i ≤ j ∧ j < i + vs.length
      · rw [if_pos (by omega), if_pos ⟨rfl, hin⟩]; congr 1; omega
      · rw [if_neg (by omega), if_neg fun h => hin h.2]
    · rw [State.histCell_none_of_range (by simpa using hj), State.histCell_none_of_range hj, if_neg (by omega)]
  · rw [if_neg (by simp [hd])]
    unfold State.histCell
    have : (s.setHist c (m.writeFrom (i + s.nwrap).toNat vs)).hist[d]? = s.hist[d]? := by
      simp [List.getElem?_set_ne (Ne.symm hd)]
    rw [this]; rfl

/-- A write keeps the canonical form of every history. -/
theorem State.histWf_setHist {s : State} {c : Nat} {m : Memory} (h : ∀ m ∈ s.hist, m.wf) (hm : s.hist[c]? = some m)
    (a : Nat) (vs : List Cell) : ∀ m' ∈ (s.setHist c (m.writeFrom a vs)).hist, Memory.wf m' := by
  intro m' hm'
  rcases List.mem_or_eq_of_mem_set hm' with h' | rfl
  · exact h m' h'
  · exact Memory.wf_writeFrom (h m (List.mem_of_getElem? hm)) a vs

/-! ### The mean store and the coefficient file -/

/-- Everything a read of the mean store can do. -/
theorem readMean_cases (c i : Nat) (s : State) :
    (∃ v, s.meanCell c i = some v ∧ readMean c i s = .ok v s) ∨
    (s.meanCell c i = none ∧ ∃ f, readMean c i s = .error (.stuck f) s) := by
  unfold readMean State.meanCell
  rcases s.mean[c]? with _ | m
  · exact .inr ⟨rfl, _, rfl⟩
  · simp only
    split
    · rcases m.read i with _ | v
      · exact .inr ⟨rfl, _, rfl⟩
      · exact .inl ⟨v, rfl, rfl⟩
    · exact .inr ⟨rfl, _, rfl⟩

/-- Everything a write of the mean store can do. -/
theorem writeMean_cases (c i : Nat) (v : Cell) (s : State) :
    (∃ m, s.mean[c]? = some m ∧ i < max 1 s.nmean.toNat ∧ writeMean c i v s = .ok () (s.setMean c (m.write i v))) ∨
    ((c < s.mean.length → ¬ i < max 1 s.nmean.toNat) ∧ writeMean c i v s = .error (.stuck .noSuchCell) s) := by
  unfold writeMean
  rcases hm : s.mean[c]? with _ | m
  · exact .inr ⟨fun h => absurd (List.getElem?_eq_none_iff.1 hm) (by omega), rfl⟩
  · by_cases hi : i < max 1 s.nmean.toNat
    · exact .inl ⟨m, rfl, hi, by simp only [hi, if_true]⟩
    · exact .inr ⟨fun _ => hi, by simp only [hi, if_false]⟩

/-- The mean store after a write. -/
theorem State.meanCell_setMean {s : State} {c : Nat} {m : Memory} (hm : s.mean[c]? = some m) {i : Nat}
    (hi : i < max 1 s.nmean.toNat) (v : Cell) (d j : Nat) :
    (s.setMean c (m.write i v)).meanCell d j = if d = c ∧ j = i then some v else s.meanCell d j := by
  have hc : c < s.mean.length := (List.getElem?_eq_some_iff.1 hm).1
  unfold State.meanCell
  by_cases hd : d = c
  · subst hd
    have hm' : (s.setMean d (m.write i v)).mean[d]? = some (m.write i v) := by simp [hc]
    rw [hm', hm]
    simp only [State.setMean_nmean, true_and]
    by_cases hj : j = i
    · subst hj; simp [hi, Memory.read_write_same]
    · simp [hj, Memory.read_write_other m v hj]
  · have : (s.setMean c (m.write i v)).mean[d]? = s.mean[d]? := by simp [List.getElem?_set_ne (Ne.symm hd)]
    rw [this, if_neg (by simp [hd])]; rfl

/-- A write keeps the canonical form of every mean store. -/
theorem State.meanWf_setMean {s : State} {c : Nat} {m : Memory} (h : ∀ m ∈ s.mean, m.wf) (hm : s.mean[c]? = some m)
    (a : Nat) (v : Cell) : ∀ m' ∈ (s.setMean c (m.write a v)).mean, Memory.wf m' := by
  intro m' hm'
  rcases List.mem_or_eq_of_mem_set hm' with h' | rfl
  · exact h m' h'
  · exact Memory.wf_write (h m (List.mem_of_getElem? hm)) a v

/-- Everything a read of the coefficient file can do. -/
theorem readCoef_cases (j : Nat) (s : State) :
    (∃ v, j < s.nwrap ∧ s.coef.read j = some v ∧ readCoef j s = .ok v s) ∨
    ((s.nwrap ≤ j ∨ s.coef.read j = none) ∧ ∃ f, readCoef j s = .error (.stuck f) s) := by
  unfold readCoef
  split
  · rcases hr : s.coef.read j with _ | v
    · exact .inr ⟨.inr rfl, _, rfl⟩
    · exact .inl ⟨v, ‹_›, rfl, rfl⟩
  · exact .inr ⟨.inl (by omega), _, rfl⟩

/-- Everything a write of the coefficient file can do. -/
theorem writeCoef_cases (j : Nat) (v : Cell) (s : State) :
    (j < s.nwrap ∧ writeCoef j v s = .ok () { s with coef := s.coef.write j v }) ∨
    (s.nwrap ≤ j ∧ writeCoef j v s = .error (.stuck .noSuchCell) s) := by
  unfold writeCoef
  split
  · exact .inl ⟨‹_›, rfl⟩
  · exact .inr ⟨by omega, rfl⟩

/-! ### The blob -/

/-- R110: everything `get(n)` can do. -/
theorem getBlob_cases (p n : Nat) (s : State) :
    (p + n ≤ s.blob.length ∧ getBlob p n s = .ok ((s.blob.drop p).take n) s) ∨
    (s.blob.length < p + n ∧ getBlob p n s = .error (.raise .blobOverrun) s) := by
  unfold getBlob
  split
  · exact .inr ⟨‹_›, rfl⟩
  · exact .inl ⟨by omega, rfl⟩

end Sys2Proof.Machine
end

