-- ==== Sys2Proof/Laws/Predictor.lean ====
section
/-! SUPPORT. Laws/Predictor.lean: what the steps of an audio command do (44_audio_commands.md R160 to R181), one lemma a step,
in a state whose cells are held. -/

namespace Sys2Proof.Machine

/-! ### Loops that only read -/

/-- A loop that collects what it reads, and changes nothing. -/
theorem collectRange_runs {α : Type} {body : Int → M α} {s : State} {n : Nat} {i : Int} {vs : List α}
    (hl : vs.length = n) (h : ∀ k v, vs[k]? = some v → body (i + (k : Nat)) s = .ok v s) :
    collectRange n i body s = .ok vs s := by
  induction n generalizing i vs with
  | zero => rw [List.length_eq_zero_iff.1 hl]; rfl
  | succ n ih =>
    cases vs with
    | nil => simp at hl
    | cons v vs =>
      unfold collectRange
      have h0 : body i s = .ok v s := by simpa using h 0 v rfl
      rw [run_bind_ok h0]
      have h1 : collectRange n (i + 1) body s = .ok vs s := ih (by simpa using hl) fun k w hw => by
        have := h (k + 1) w (by simpa using hw)
        rw [show i + 1 + (k : Int) = i + (k + 1 : Nat) by push_cast; omega]
        exact this
      rw [run_bind_ok h1]
      rfl

/-! ### The mean store -/

theorem State.meanCells_length (s : State) (c : Nat) : (s.meanCells c).length = max 1 s.nmean.toNat := by
  simp [State.meanCells]

theorem State.meanCells_getElem? (s : State) (c i : Nat) :
    (s.meanCells c)[i]? = if i < max 1 s.nmean.toNat then some (s.meanCell c i) else none := by
  unfold State.meanCells
  rw [List.getElem?_map]
  by_cases h : i < max 1 s.nmean.toNat
  · rw [List.getElem?_range h, if_pos h]; rfl
  · rw [List.getElem?_eq_none (by rw [List.length_range]; omega), if_neg h]; rfl

/-- Held entries, one by one. -/
theorem State.meanCell_of_meanCells {s : State} {c : Nat} {means : List Cell} (h : s.meanCells c = means.map some) {i : Nat}
    {v : Cell} (hv : means[i]? = some v) : s.meanCell c i = some v := by
  have h1 := congrArg (fun l => l[i]?) h
  simp only [State.meanCells_getElem?, List.getElem?_map, hv, Option.map_some] at h1
  split at h1
  · simpa using h1
  · cases h1

theorem State.length_of_meanCells {s : State} {c : Nat} {means : List Cell} (h : s.meanCells c = means.map some) :
    means.length = max 1 s.nmean.toNat := by
  rw [← State.meanCells_length s c, h, List.length_map]

theorem readMean_runs {s : State} {c i : Nat} {v : Cell} (h : s.meanCell c i = some v) : readMean c i s = .ok v s := by
  rcases readMean_cases c i s with ⟨w, hw, hr⟩ | ⟨hn, -⟩
  · rw [h] at hw; cases hw; exact hr
  · rw [h] at hn; cases hn

/-- R163. -/
theorem coffsetOf_runs {s : State} {c : Nat} {means : List Cell} (h : s.meanCells c = means.map some) :
    coffsetOf c s = .ok (offsetValue s means) s := by
  have hl := State.length_of_meanCells h
  unfold coffsetOf offsetValue
  rw [run_get_bind]
  by_cases hn : s.nmean = 0
  · rw [if_pos hn, if_pos hn]
    cases means with
    | nil => simp only [List.length_nil] at hl; omega
    | cons v means => exact readMean_runs (State.meanCell_of_meanCells h (by simp))
  · rw [if_neg hn, if_neg hn]
    have hc : collectRange s.nmean.toNat 0 (fun i => readMean c i.toNat) s = .ok (means.take s.nmean.toNat) s :=
      collectRange_runs (by rw [List.length_take]; omega) fun k v hv => by
        rw [show (0 + (k : Int)).toNat = k by omega]
        refine readMean_runs (State.meanCell_of_meanCells h ?_)
        rw [List.getElem?_take] at hv
        split at hv
        · exact hv
        · cases hv
    rw [run_bind_ok hc]
    rfl

theorem computeCoffset_runs {s : State} {c : Nat} {means : List Cell} (h : s.meanCells c = means.map some) :
    computeCoffset c s = .ok ⟨⟩ { s with coffset := offsetValue s means } := by
  unfold computeCoffset
  rw [run_bind_ok (coffsetOf_runs h)]
  rfl

/-! ### The history -/

/-- From `s` to `t` the cells from `i` on of the history of channel `c` were overwritten with `vs`, and nothing else. -/
def HistWrite (s t : State) (c : Nat) (i : Int) (vs : List Cell) : Prop :=
  ∃ m, s.hist[c]? = some m ∧ s.histRange i vs.length = true ∧ t = s.setHist c (m.writeFrom (i + s.nwrap).toNat vs)

theorem writeHist_runs {s : State} {c : Nat} {i : Int} {vs : List Cell} (hc : c < s.hist.length)
    (hr : s.histRange i vs.length = true) : ∃ t, writeHist c i vs s = .ok () t ∧ HistWrite s t c i vs := by
  rcases writeHist_cases c i vs s with ⟨m, hm, hr', hw⟩ | ⟨h, -⟩
  · exact ⟨_, hw, m, hm, hr', rfl⟩
  · rw [h hc] at hr; cases hr

theorem HistWrite.cell {s t : State} {c : Nat} {i : Int} {vs : List Cell} (h : HistWrite s t c i vs) (d : Nat) (j : Int) :
    t.histCell d j = if d = c ∧ i ≤ j ∧ j < i + vs.length then vs[(j - i).toNat]? else s.histCell d j := by
  obtain ⟨m, hm, hr, rfl⟩ := h
  exact State.histCell_setHist hm hr d j

theorem HistWrite.wf {s t : State} {c : Nat} {i : Int} {vs : List Cell} (h : HistWrite s t c i vs)
    (hwf : ∀ m ∈ s.hist, m.wf) : ∀ m ∈ t.hist, m.wf := by
  obtain ⟨m, hm, hr, rfl⟩ := h
  exact State.histWf_setHist hwf hm _ _

theorem HistWrite.other {s t : State} {c : Nat} {i : Int} {vs : List Cell} (h : HistWrite s t c i vs) {d : Nat} (hd : d ≠ c) :
    t.hist[d]? = s.hist[d]? := by
  obtain ⟨m, hm, hr, rfl⟩ := h
  simp [List.getElem?_set_ne (Ne.symm hd)]

theorem HistWrite.length {s t : State} {c : Nat} {i : Int} {vs : List Cell} (h : HistWrite s t c i vs) :
    t.hist.length = s.hist.length := by
  obtain ⟨m, hm, hr, rfl⟩ := h
  simp

/-- Nothing but the history changed. -/
theorem HistWrite.rest {s t : State} {c : Nat} {i : Int} {vs : List Cell} (h : HistWrite s t c i vs) :
    t = { s with hist := t.hist } := by
  obtain ⟨m, hm, hr, rfl⟩ := h
  rfl

/-- Held cells, as a list. -/
theorem readHist_list {s : State} {c : Nat} {i : Int} {vs : List Cell} (hwf : ∀ m ∈ s.hist, m.wf) (hc : c < s.hist.length)
    (hr : s.histRange i vs.length = true) (h : ∀ k : Nat, k < vs.length → s.histCell c (i + k) = vs[k]?) :
    readHist c i vs.length s = .ok vs s :=
  (readHist_eq_ok hwf).2 ⟨rfl, hc, hr, rfl, h⟩

theorem State.histCells_iff {s : State} {c : Nat} {i : Int} {n : Nat} {vs : List Cell} :
    s.histCells c i n = vs.map some ↔ vs.length = n ∧ ∀ k : Nat, k < n → s.histCell c (i + k) = vs[k]? := by
  unfold State.histCells
  constructor
  · intro h
    have hl : vs.length = n := by simpa using (congrArg List.length h).symm
    refine ⟨hl, fun k hk => ?_⟩
    have h1 := congrArg (fun l => l[k]?) h
    simpa [hk, hl] using h1
  · rintro ⟨hl, h⟩
    refine List.ext_getElem? fun k => ?_
    rcases Nat.lt_or_ge k n with hk | hk
    · have := h k hk
      have hv : k < vs.length := by omega
      simp [hk, hv, this]
    · rw [List.getElem?_eq_none (by simpa using hk), List.getElem?_eq_none (by simpa [hl] using hk)]

/-! ### The decode loop -/

theorem sumTaps_isSome {cv : List Int} {recent : List Cell} (sum : Cell) (h : cv.length ≤ recent.length) :
    ∃ v, sumTaps cv recent sum = some v := by
  induction cv generalizing recent sum with
  | nil => exact ⟨sum, rfl⟩
  | cons a cv ih =>
    cases recent with
    | nil => simp at h
    | cons x recent => exact ih _ (by simpa using h)

theorem samplesOf_length {cv : List Int} {shift : Nat} {initSum : Cell} {recent : List Cell} {residuals : List Int}
    (h : cv.length ≤ recent.length) : (samplesOf cv shift initSum recent residuals).length = residuals.length := by
  induction residuals generalizing recent with
  | nil => rfl
  | cons r residuals ih =>
    obtain ⟨v, hv⟩ := sumTaps_isSome initSum h
    unfold samplesOf
    rw [hv]
    simp only [List.length_cons]
    rw [ih (by simp only [List.length_cons]; omega)]

/-- A run of the decode loop: no more samples than asked for, all of them if it did not stop, and a state that differs in the
cursor and the accumulator alone. -/
theorem predictRun_spec {cv : List Int} {shift : Nat} {initSum : Cell} (n : Nat) (recent : List Cell) (s : State) :
    (predictRun cv shift initSum n recent s).samples.length ≤ n ∧
    ((predictRun cv shift initSum n recent s).stop = none → (predictRun cv shift initSum n recent s).samples.length = n) ∧
    ∃ k sum, (predictRun cv shift initSum n recent s).state = { s.advance k with sum := sum } ∧
      (s.pos ≤ s.bitLength → s.pos + k ≤ s.bitLength) := by
  induction n generalizing recent s with
  | zero => exact ⟨Nat.le_refl 0, fun _ => rfl, 0, s.sum, rfl, id⟩
  | succ n ih =>
    unfold predictRun
    split
    · exact ⟨by simp, by simp, 0, s.sum, rfl, id⟩
    · rename_i sum hsum
      have hk := keeps_readSigned s.residualSize { s with sum := sum }
      split
      · rename_i e t heq
        rw [heq] at hk
        obtain ⟨k, rfl, hk⟩ := hk
        exact ⟨by simp, by simp, k, sum, rfl, hk⟩
      · rename_i r t heq
        rw [heq] at hk
        obtain ⟨k, rfl, hk⟩ := hk
        obtain ⟨h1, h2, k', sum', h3, h4⟩ := ih (wrap32 (r + asr sum.toInt shift) :: recent)
          (State.advance { s with sum := sum } k)
        refine ⟨by simpa using h1, fun h => by simpa using h2 h, k + k', sum', ?_, fun hp => ?_⟩
        · simp only [h3]; simp [State.advance, Nat.add_assoc]
        · have := h4 (hk hp)
          simp only [State.advance_pos] at this
          rw [← Nat.add_assoc]
          exact this

theorem sumTaps_append {cv : List Int} {recent : List Cell} (more : List Cell) (sum : Cell) (h : cv.length ≤ recent.length) :
    sumTaps cv (recent ++ more) sum = sumTaps cv recent sum := by
  induction cv generalizing recent sum with
  | nil => rfl
  | cons a cv ih =>
    cases recent with
    | nil => simp at h
    | cons x recent => exact ih _ (by simpa using h)

/-- Only as many samples before the block matter as there are taps. -/
theorem samplesOf_append {cv : List Int} {shift : Nat} {initSum : Cell} {recent : List Cell} (more : List Cell)
    {residuals : List Int} (h : cv.length ≤ recent.length) :
    samplesOf cv shift initSum (recent ++ more) residuals = samplesOf cv shift initSum recent residuals := by
  induction residuals generalizing recent with
  | nil => rfl
  | cons r residuals ih =>
    unfold samplesOf
    rw [sumTaps_append more initSum h]
    split
    · rfl
    · have := ih (recent := wrap32 (r + asr (‹Cell› : Cell).toInt shift) :: recent) (by simp only [List.length_cons]; omega)
      exact congrArg (List.cons _) this

/-- R170: the decode loop where the wrap region is held: the block read so far is written, then the loop ends as its run did. -/
theorem predict_runs {s : State} {c : Nat} {cv : List Int} {shift : Nat} {initSum : Cell} {wrap : List Cell}
    (hwf : ∀ m ∈ s.hist, m.wf) (hc : c < s.hist.length) (hb : s.blocksize ≤ s.histBlocksize) (hcv : cv.length ≤ s.nwrap)
    (hw : s.histCells c (-(s.nwrap : Int)) s.nwrap = wrap.map some) :
    let run := predictRun cv shift initSum s.blocksize (wrap.drop (s.nwrap - cv.length)).reverse s
    ∃ t, HistWrite run.state t c 0 run.samples ∧
      predict c cv shift initSum s = match run.stop with
        | none => .ok () t
        | some e => .error e t := by
  intro run
  obtain ⟨hl, hk⟩ := State.histCells_iff.1 hw
  have hctx : readHist c (-(cv.length : Int)) cv.length s = .ok (wrap.drop (s.nwrap - cv.length)) s := by
    have hd : (wrap.drop (s.nwrap - cv.length)).length = cv.length := by rw [List.length_drop]; omega
    have := readHist_list (i := -(cv.length : Int)) (vs := wrap.drop (s.nwrap - cv.length)) hwf hc
      (State.histRange_iff.2 (by rw [hd]; omega)) fun k h => by
        rw [List.getElem?_drop, ← hk (s.nwrap - cv.length + k) (by omega)]
        congr 1
        omega
    rwa [hd] at this
  obtain ⟨h1, -, k, sum, h3, -⟩ := predictRun_spec (cv := cv) (shift := shift) (initSum := initSum) s.blocksize
    (wrap.drop (s.nwrap - cv.length)).reverse s
  change run.samples.length ≤ s.blocksize at h1
  change run.state = _ at h3
  obtain ⟨t, ht, hwr⟩ := writeHist_runs (s := run.state) (c := c) (i := 0) (vs := run.samples)
    (by rw [h3]; exact hc) (State.histRange_iff.2 (by rw [h3]; simp only [State.advance_nwrap, State.advance_histBlocksize]; omega))
  refine ⟨t, hwr, ?_⟩
  unfold predict
  rw [run_get_bind, run_bind_ok hctx, run_set_bind]
  show (writeHist c 0 run.samples >>= fun _ => match run.stop with | none => pure () | some e => throw e) run.state = _
  rw [run_bind_ok ht]
  cases run.stop <;> rfl

/-! ### Post-processing -/

theorem writeMean_runs {s : State} {c i : Nat} {v : Cell} (hc : c < s.mean.length) (hi : i < max 1 s.nmean.toNat) :
    ∃ m, s.mean[c]? = some m ∧ writeMean c i v s = .ok () (s.setMean c (m.write i v)) := by
  rcases writeMean_cases c i v s with ⟨m, hm, -, hw⟩ | ⟨h, -⟩
  · exact ⟨m, hm, hw⟩
  · exact absurd hi (h hc)

/-- From `s` to `t` nothing changed but the mean store of channel `c`, which stayed in canonical form. -/
structure MeanOnly (s t : State) (c : Nat) : Prop where
  rest : t = { s with mean := t.mean }
  length : t.mean.length = s.mean.length
  other : ∀ d, d ≠ c → t.mean[d]? = s.mean[d]?
  wf : (∀ m ∈ s.mean, m.wf) → ∀ m ∈ t.mean, m.wf

theorem MeanOnly.refl (s : State) (c : Nat) : MeanOnly s s c := ⟨rfl, rfl, fun _ _ => rfl, id⟩

theorem MeanOnly.trans {s t u : State} {c : Nat} (h : MeanOnly s t c) (h' : MeanOnly t u c) : MeanOnly s u c :=
  ⟨by rw [h'.rest, h.rest], by rw [h'.length, h.length], fun d hd => by rw [h'.other d hd, h.other d hd],
    fun hw => h'.wf (h.wf hw)⟩

theorem MeanOnly.setMean {s : State} {c : Nat} {m : Memory} (hm : s.mean[c]? = some m) (i : Nat) (v : Cell) :
    MeanOnly s (s.setMean c (m.write i v)) c :=
  ⟨rfl, by simp, fun d hd => by simp [List.getElem?_set_ne (Ne.symm hd)], fun h => State.meanWf_setMean h hm i v⟩

theorem MeanOnly.nmean {s t : State} {c : Nat} (h : MeanOnly s t c) : t.nmean = s.nmean := by rw [h.rest]

theorem MeanOnly.meanCell_other {s t : State} {c d : Nat} (h : MeanOnly s t c) (hd : d ≠ c) (j : Nat) :
    t.meanCell d j = s.meanCell d j := by
  unfold State.meanCell
  rw [h.other d hd, h.nmean]

/-- R178, the loop: every entry from the second on moves down by one. -/
theorem shiftMeans_runs {c : Nat} (n : Nat) {s : State} (hc : c < s.mean.length) (first : Nat) (hf : 1 ≤ first)
    (hn : first + n ≤ max 1 s.nmean.toNat) (h : ∀ i, first ≤ i → i < first + n → (s.meanCell c i).isSome = true) :
    ∃ t, forRange n first (fun i => do
        let v ← readMean c i.toNat
        writeMean c (i.toNat - 1) v) s = .ok () t ∧ MeanOnly s t c ∧
      ∀ j, t.meanCell c j = if first ≤ j + 1 ∧ j + 1 < first + n then s.meanCell c (j + 1) else s.meanCell c j := by
  induction n generalizing s first with
  | zero => exact ⟨s, rfl, MeanOnly.refl s c, fun j => by rw [if_neg (by omega)]⟩
  | succ n ih =>
    obtain ⟨v, hv⟩ := Option.isSome_iff_exists.1 (h first (by omega) (by omega))
    obtain ⟨m, hm, hw⟩ := writeMean_runs (v := v) hc (i := first - 1) (by omega)
    have hcell := State.meanCell_setMean hm (i := first - 1) (by omega) v c
    have ho := MeanOnly.setMean hm (first - 1) v
    obtain ⟨t, ht, hot, hj⟩ := ih (s := s.setMean c (m.write (first - 1) v)) (by rw [ho.length]; exact hc) (first + 1)
      (by omega) (by rw [ho.nmean]; omega) fun i h1 h2 => by
        rw [hcell, if_neg (by omega)]; exact h i (by omega) (by omega)
    refine ⟨t, ?_, ho.trans hot, fun j => ?_⟩
    · unfold forRange
      have hstep : (do let v ← readMean c (first : Int).toNat; writeMean c ((first : Int).toNat - 1) v) s =
          .ok () (s.setMean c (m.write (first - 1) v)) := by
        rw [Int.toNat_natCast, run_bind_ok (readMean_runs hv)]; exact hw
      rw [run_bind_ok hstep]
      exact ht
    · rw [hj j, hcell, hcell]
      rcases Nat.lt_trichotomy (j + 1) first with hlt | heq | hgt
      · rw [if_neg (by omega), if_neg (by omega), if_neg (by omega)]
      · rw [if_neg (by omega), if_pos (by omega), if_pos (by omega), heq, hv]
      · by_cases hin : j + 1 < first + (n + 1)
        · rw [if_pos (by omega), if_neg (by omega), if_pos (by omega)]
        · rw [if_neg (by omega), if_neg (by omega), if_neg (by omega)]

/-- R178: the mean of a held block. -/
theorem blockMean_runs {s : State} {c : Nat} {block : List Cell} (hwf : ∀ m ∈ s.hist, m.wf) (hc : c < s.hist.length)
    (hb : s.blocksize ≤ s.histBlocksize) (h : s.histCells c 0 s.blocksize = block.map some) :
    blockMean c s =
      .ok (tdiv (sumCells (if s.version.toNat < 2 then 0 else wrap32 (s.blocksize / 2 : Nat)) block).toInt s.blocksize) s := by
  obtain ⟨hl, hk⟩ := State.histCells_iff.1 h
  unfold blockMean
  rw [run_get_bind]
  have hr := readHist_list (i := 0) hwf hc (State.histRange_iff.2 (by rw [hl]; omega)) (fun k h => hk k (by omega))
  rw [hl] at hr
  rw [run_bind_ok hr]
  rfl

/-- R178. -/
theorem updateMean_runs {s : State} {c : Nat} {block means : List Cell} (hwf : ∀ m ∈ s.hist, m.wf) (hc : c < s.hist.length)
    (hcm : c < s.mean.length) (hb : s.blocksize ≤ s.histBlocksize) (h : s.histCells c 0 s.blocksize = block.map some)
    (hm : s.meanCells c = means.map some) :
    ∃ t, updateMean c s = .ok () t ∧ MeanOnly s t c ∧
      t.meanCells c = (if 0 < s.nmean then meanAfter s means block else means).map some := by
  unfold updateMean
  rw [run_get_bind]
  by_cases hn : 0 < s.nmean
  · rw [if_pos hn, if_pos hn, run_bind_ok (blockMean_runs hwf hc hb h)]
    have hl := State.length_of_meanCells hm
    obtain ⟨t, ht, ho, hj⟩ := shiftMeans_runs (c := c) (s.nmean.toNat - 1) hcm 1 (by omega) (by omega) fun i h1 h2 => by
      have : means[i]? = some (means[i]'(by omega)) := List.getElem?_eq_getElem (by omega)
      rw [State.meanCell_of_meanCells hm this]; rfl
    rw [run_bind_ok (show forRange (s.nmean.toNat - 1) 1 _ s = .ok () t from ht)]
    generalize hv : (if s.version.toNat < 2 then _ else _ : Cell) = v
    obtain ⟨m, hm', hw⟩ := writeMean_runs (s := t) (v := v) (c := c) (i := s.nmean.toNat - 1) (by rw [ho.length]; exact hcm)
      (by rw [ho.nmean]; omega)
    refine ⟨_, hw, ho.trans (MeanOnly.setMean hm' _ v), ?_⟩
    have hcell := State.meanCell_setMean hm' (i := s.nmean.toNat - 1) (by rw [ho.nmean]; omega) v c
    refine List.ext_getElem? fun j => ?_
    have hma : meanAfter s means block = means.tail ++ [v] := by rw [← hv]; rfl
    rw [State.meanCells_getElem?, hma, List.getElem?_map, State.setMean_nmean, ho.nmean, hcell, hj]
    rcases Nat.lt_trichotomy j (s.nmean.toNat - 1) with hlt | heq | hgt
    · have : means[j + 1]? = some (means[j + 1]'(by omega)) := List.getElem?_eq_getElem (by omega)
      rw [if_pos (by omega), if_neg (by omega), if_pos (by omega), State.meanCell_of_meanCells hm this,
        List.getElem?_append_left (by rw [List.length_tail]; omega), List.getElem?_tail, this]
      rfl
    · rw [if_pos (by omega), if_pos (by omega), List.getElem?_append_right (by rw [List.length_tail]; omega),
        List.length_tail, show j - (means.length - 1) = 0 by omega]
      rfl
    · rw [if_neg (by omega), List.getElem?_eq_none (by simp only [List.length_append, List.length_tail, List.length_singleton]; omega)]
      rfl
  · rw [if_neg hn, if_neg hn]
    exact ⟨s, rfl, MeanOnly.refl s c, hm⟩

/-- R179. -/
theorem wrapCopy_runs {s : State} {c : Nat} {wrap block : List Cell} (hwf : ∀ m ∈ s.hist, m.wf) (hc : c < s.hist.length)
    (hb : s.blocksize ≤ s.histBlocksize) (hw : s.histCells c (-(s.nwrap : Int)) s.nwrap = wrap.map some)
    (h : s.histCells c 0 s.blocksize = block.map some) :
    ∃ t, wrapCopy c s = .ok () t ∧ HistWrite s t c (-(s.nwrap : Int)) ((wrap ++ block).drop s.blocksize) := by
  obtain ⟨hlw, hkw⟩ := State.histCells_iff.1 hw
  obtain ⟨hlb, hkb⟩ := State.histCells_iff.1 h
  have hl : ((wrap ++ block).drop s.blocksize).length = s.nwrap := by rw [List.length_drop, List.length_append]; omega
  have hr := readHist_list (i := -(s.nwrap : Int) + s.blocksize) (vs := (wrap ++ block).drop s.blocksize) hwf hc
    (State.histRange_iff.2 (by rw [hl]; omega)) fun k hk => by
      rw [List.getElem?_drop]
      rcases Nat.lt_or_ge (s.blocksize + k) wrap.length with h1 | h1
      · rw [List.getElem?_append_left h1, ← hkw _ (by omega)]; congr 1; push_cast; omega
      · rw [List.getElem?_append_right h1, ← hkb _ (by omega)]; congr 1; omega
  rw [hl] at hr
  unfold wrapCopy
  rw [run_get_bind, run_bind_ok hr]
  exact writeHist_runs hc (State.histRange_iff.2 (by rw [hl]; omega))

/-- R180. -/
theorem shiftBlock_runs {s : State} {c : Nat} {block : List Cell} (hwf : ∀ m ∈ s.hist, m.wf) (hc : c < s.hist.length)
    (hb : s.blocksize ≤ s.histBlocksize) (h : s.histCells c 0 s.blocksize = block.map some) :
    ∃ t, shiftBlock c s = .ok () t ∧
      ((s.bitshift = 0 ∧ t = s) ∨ (s.bitshift ≠ 0 ∧ HistWrite s t c 0 (block.map fun v => shl32 v.toInt s.bitshift))) := by
  obtain ⟨hl, hk⟩ := State.histCells_iff.1 h
  unfold shiftBlock
  rw [run_get_bind]
  by_cases hn : s.bitshift = 0
  · rw [if_pos hn]; exact ⟨s, rfl, .inl ⟨hn, rfl⟩⟩
  · rw [if_neg hn]
    have hr := readHist_list (i := 0) hwf hc (State.histRange_iff.2 (by rw [hl]; omega)) (fun k h => hk k (by omega))
    rw [hl] at hr
    rw [run_bind_ok hr]
    obtain ⟨t, ht, hwr⟩ := writeHist_runs (s := s) (c := c) (i := 0) (vs := block.map fun v => shl32 v.toInt s.bitshift) hc
      (State.histRange_iff.2 (by rw [List.length_map, hl]; omega))
    exact ⟨t, ht, .inr ⟨hn, hwr⟩⟩

/-! ### The frame -/

theorem interleave_length {n : Nat} {blocks : List (List Cell)} : (interleave n blocks).length = n * blocks.length := by
  induction n generalizing blocks with
  | zero => simp [interleave]
  | succ n ih =>
    rw [interleave, List.length_append, List.length_map, ih, List.length_map, Nat.succ_mul, Nat.add_comm]

/-- R190: entry `i·channels + c` of the frame is sample `i` of channel `c`. -/
theorem interleave_getElem? {n : Nat} {blocks : List (List Cell)} {i c : Nat} (hi : i < n) {b : List Cell} {v : Cell}
    (hb : blocks[c]? = some b) (hv : b[i]? = some v) :
    (interleave n blocks)[i * blocks.length + c]? = some (toSample v.toInt) := by
  have hc : c < blocks.length := (List.getElem?_eq_some_iff.1 hb).1
  induction n generalizing blocks b i with
  | zero => omega
  | succ n ih =>
    rw [interleave]
    cases i with
    | zero =>
      rw [List.getElem?_append_left (by simpa using hc)]
      cases b with
      | nil => simp at hv
      | cons w b => simp only [List.getElem?_cons_zero, Option.some.injEq] at hv; simp [hb, hv]
    | succ i =>
      rw [List.getElem?_append_right (by rw [List.length_map]; nlinarith), List.length_map,
        show (i + 1) * blocks.length + c - blocks.length = i * (blocks.map List.tail).length + c by
          rw [List.length_map, Nat.succ_mul]; omega]
      refine ih (b := b.tail) (by omega) (by simp [hb]) ?_ (by simpa using hc)
      rw [List.getElem?_tail]; exact hv

/-- R190. -/
theorem assembleFrame_runs {s : State} (hwf : ∀ m ∈ s.hist, m.wf) (hc : s.channels ≤ s.hist.length)
    (hb : s.blocksize ≤ s.histBlocksize)
    (h : ∀ c < s.channels, ∀ i : Int, 0 ≤ i → i < s.blocksize → (s.histCell c i).isSome = true) :
    ∃ out, assembleFrame s = .ok ⟨⟩ { s with out := out } ∧ out.length = s.blocksize * s.channels ∧
      ∀ i, i < s.blocksize → ∀ c, c < s.channels →
        out[i * s.channels + c]? = (s.histCell c i).map fun v => toSample v.toInt := by
  let blocks := (List.range s.channels).map fun c => (List.range s.blocksize).map fun i : Nat => (s.histCell c i).getD 0
  have hlb : blocks.length = s.channels := by simp [blocks]
  have hcell : ∀ c < s.channels, ∀ i < s.blocksize, ∃ v, s.histCell c (i : Nat) = some v := fun c h1 i h2 =>
    Option.isSome_iff_exists.1 (h c h1 i (by omega) (by omega))
  have hcol : collectRange s.channels 0 (fun c => readHist c.toNat 0 s.blocksize) s = .ok blocks s := by
    refine collectRange_runs hlb fun c b hcb => ?_
    have hcs : c < s.channels := by rw [← hlb]; exact (List.getElem?_eq_some_iff.1 hcb).1
    have hbe : b = (List.range s.blocksize).map fun i : Nat => (s.histCell c i).getD 0 := by
      simpa [blocks, hcs] using hcb.symm
    have hbl : b.length = s.blocksize := by rw [hbe]; simp
    rw [show (0 + (c : Int)).toNat = c by omega]
    have := readHist_list (i := 0) (c := c) (vs := b) hwf (by omega) (State.histRange_iff.2 (by rw [hbl]; omega)) fun k hk => by
      obtain ⟨v, hv⟩ := hcell c hcs k (by omega)
      rw [Int.zero_add, hv, hbe]
      simp [show k < s.blocksize by omega, hv]
    rwa [hbl] at this
  refine ⟨interleave s.blocksize blocks, ?_, by rw [interleave_length, hlb], fun i hi c hcs => ?_⟩
  · unfold assembleFrame
    rw [run_get_bind, run_bind_ok hcol]
    rfl
  · obtain ⟨v, hv⟩ := hcell c hcs i hi
    have := interleave_getElem? (n := s.blocksize) (blocks := blocks) (i := i) (c := c) hi
      (b := (List.range s.blocksize).map fun i : Nat => (s.histCell c i).getD 0) (v := v) (by simp [blocks, hcs])
      (by simp [hi, hv])
    rw [hlb] at this
    rw [this, hv]; rfl

/-! ### The end of an audio command -/

theorem State.SameStream.refl (s : State) : s.SameStream s := by constructor <;> rfl

theorem State.SameStream.trans {s t u : State} (h : s.SameStream t) (h' : t.SameStream u) : s.SameStream u := by
  constructor
  · rw [h'.version, h.version]
  · rw [h'.internalFormatType, h.internalFormatType]
  · rw [h'.channels, h.channels]
  · rw [h'.blocksize, h.blocksize]
  · rw [h'.nwrap, h.nwrap]
  · rw [h'.nmean, h.nmean]
  · rw [h'.bitshift, h.bitshift]
  · rw [h'.lpcqoffset, h.lpcqoffset]
  · rw [h'.sampleRate, h.sampleRate]
  · rw [h'.bitsPerSample, h.bitsPerSample]
  · rw [h'.headerParsed, h.headerParsed]
  · rw [h'.quitReceived, h.quitReceived]
  · rw [h'.fault, h.fault]
  · rw [h'.bitResumeOffset, h.bitResumeOffset]
  · rw [h'.cmd, h.cmd]
  · rw [h'.len, h.len]
  · rw [h'.pending, h.pending]
  · rw [h'.cap, h.cap]
  · rw [h'.histBlocksize, h.histBlocksize]
  · rw [h'.blob, h.blob]
  · rw [h'.accepted, h.accepted]
  · rw [h'.requests, h.requests]
  · rw [h'.results, h.results]

/-- What the steps of an audio command find and leave of the registers that only some of them write. -/
structure SameWork (s t : State) : Prop where
  pos : t.pos = s.pos
  residualSize : t.residualSize = s.residualSize
  coffset : t.coffset = s.coffset
  order : t.order = s.order
  shift : t.shift = s.shift
  initSum : t.initSum = s.initSum
  sum : t.sum = s.sum
  coef : t.coef = s.coef

/-- R181, R143: with the blocks of all channels up to this one held. -/
theorem advanceChannel_runs {s : State} (hwf : ∀ m ∈ s.hist, m.wf) (hc : s.currentChannel < s.channels)
    (hl : s.hist.length = s.channels) (hb : s.blocksize ≤ s.histBlocksize)
    (h : ∀ c ≤ s.currentChannel, ∀ i : Int, 0 ≤ i → i < s.blocksize → (s.histCell c i).isSome = true) :
    (s.currentChannel + 1 < s.channels ∧ advanceChannel s = .ok () { s with currentChannel := s.currentChannel + 1 }) ∨
    (s.currentChannel + 1 = s.channels ∧ ∃ out, out.length = s.blocksize * s.channels ∧
      (∀ i, i < s.blocksize → ∀ c, c < s.channels →
        out[i * s.channels + c]? = (s.histCell c i).map fun v => toSample v.toInt) ∧
      advanceChannel s = .ok () { s with currentChannel := 0, out := out, control := .finish .frame }) := by
  unfold advanceChannel
  rw [run_modify_bind, run_get_bind]
  rcases Nat.lt_or_ge (s.currentChannel + 1) s.channels with hlt | hge
  · left
    exact ⟨hlt, by rw [if_neg (show ¬ s.currentChannel + 1 = s.channels by omega)]; rfl⟩
  · right
    have heq : s.currentChannel + 1 = s.channels := by omega
    refine ⟨heq, ?_⟩
    rw [if_pos (show s.currentChannel + 1 = s.channels from heq)]
    unfold completeFrame
    obtain ⟨out, ho, hlen, hcell⟩ := assembleFrame_runs (s := { s with currentChannel := s.currentChannel + 1 }) hwf
      (Nat.le_of_eq hl.symm) hb fun c hc' i h1 h2 => h c (by simp only at hc'; omega) i h1 h2
    rw [run_bind_ok ho]
    exact ⟨out, hlen, hcell, rfl⟩

/-- R160, steps 4 to 7. -/
theorem postProcess_runs {s : State} {wrap block means : List Cell} (hwf : ∀ m ∈ s.hist, m.wf)
    (hc : s.currentChannel < s.channels) (hl : s.hist.length = s.channels) (hlm : s.mean.length = s.channels)
    (hb : s.blocksize ≤ s.histBlocksize)
    (hw : s.histCells s.currentChannel (-(s.nwrap : Int)) s.nwrap = wrap.map some)
    (h : s.histCells s.currentChannel 0 s.blocksize = block.map some)
    (hm : s.meanCells s.currentChannel = means.map some)
    (held : ∀ c < s.currentChannel, ∀ i : Int, 0 ≤ i → i < s.blocksize → (s.histCell c i).isSome = true) :
    ∃ t, postProcess s.currentChannel s = .ok () t ∧ AudioDone s t wrap block ∧ SameWork s t := by
  obtain ⟨hlw, hkw⟩ := State.histCells_iff.1 hw
  obtain ⟨hlb, hkb⟩ := State.histCells_iff.1 h
  -- step 4
  obtain ⟨s4, h4, o4, m4⟩ := updateMean_runs hwf (by omega) (by omega) hb h hm
  have e4 := o4.rest
  have c4 : ∀ c i, s4.histCell c i = s.histCell c i := fun c i => by rw [e4]; rfl
  have hw4 : s4.histCells s.currentChannel (-(s4.nwrap : Int)) s4.nwrap = wrap.map some := by
    rw [show s4.nwrap = s.nwrap by rw [e4]]
    exact State.histCells_iff.2 ⟨hlw, fun k hk => by rw [c4]; exact hkw k hk⟩
  have h4b : s4.histCells s.currentChannel 0 s4.blocksize = block.map some := by
    rw [show s4.blocksize = s.blocksize by rw [e4]]
    exact State.histCells_iff.2 ⟨hlb, fun k hk => by rw [c4]; exact hkb k hk⟩
  have hwf4 : ∀ m ∈ s4.hist, m.wf := by rw [e4]; exact hwf
  -- step 5
  obtain ⟨s5, h5, w5⟩ := wrapCopy_runs (c := s.currentChannel) hwf4 (by rw [e4]; exact hl ▸ hc) (by rw [e4]; exact hb) hw4 h4b
  have e5 : s5 = { s with mean := s4.mean, hist := s5.hist } := by rw [w5.rest, e4]
  have l5 : ((wrap ++ block).drop s4.blocksize).length = s.nwrap := by
    rw [List.length_drop, List.length_append, show s4.blocksize = s.blocksize by rw [e4]]; omega
  have c5 := fun d j => w5.cell d j
  rw [show s4.nwrap = s.nwrap by rw [e4], l5] at c5
  have h5b : s5.histCells s.currentChannel 0 s5.blocksize = block.map some := by
    rw [show s5.blocksize = s.blocksize by rw [e5]]
    refine State.histCells_iff.2 ⟨hlb, fun k hk => ?_⟩
    rw [c5, if_neg (by omega), c4]; exact hkb k hk
  have hwf5 := w5.wf hwf4
  have hc5 : s.currentChannel < s5.hist.length := by rw [w5.length, e4]; exact hl ▸ hc
  -- step 6
  obtain ⟨s6, h6, w6⟩ := shiftBlock_runs (c := s.currentChannel) hwf5 hc5 (by rw [e5]; exact hb) h5b
  have hbs5 : s5.bitshift = s.bitshift := by rw [e5]
  have key6 : s6 = { s with mean := s4.mean, hist := s6.hist } ∧ (∀ m ∈ s6.hist, m.wf) ∧ s6.hist.length = s.channels ∧
      (∀ d, d ≠ s.currentChannel → s6.hist[d]? = s.hist[d]?) ∧
      (∀ i, i < s.blocksize → s6.histCell s.currentChannel (i : Nat) =
        (block[i]?).map fun v => shl32 v.toInt s.bitshift) ∧
      ∀ j : Int, (j < 0 ∨ s.blocksize ≤ j) → s6.histCell s.currentChannel j = s5.histCell s.currentChannel j := by
    rcases w6 with ⟨hz, rfl⟩ | ⟨hnz, w6⟩
    · refine ⟨e5, hwf5, by rw [w5.length, e4]; exact hl, fun d hd => by rw [w5.other hd, e4], fun i hi => ?_, fun _ _ => rfl⟩
      rw [c5, if_neg (by omega), c4, ← Int.zero_add (i : Int), hkb i hi, ← hbs5, hz]
      rcases block[i]? with _ | v
      · rfl
      · simp [shl32, wrap32, BitVec.ofInt_toInt]
    · refine ⟨by rw [w6.rest, e5], w6.wf hwf5, by rw [w6.length, w5.length, e4]; exact hl,
        fun d hd => by rw [w6.other hd, w5.other hd, e4], fun i hi => ?_, fun j hj => ?_⟩
      · rw [w6.cell, if_pos ⟨rfl, by omega, by rw [List.length_map, hlb]; omega⟩, List.getElem?_map, hbs5]
        congr 2
      · rw [w6.cell, if_neg (by rw [List.length_map, hlb]; omega)]
  obtain ⟨e6, hwf6, l6, o6, sh6, st6⟩ := key6
  have other6 : ∀ c, c ≠ s.currentChannel → ∀ i, s6.histCell c i = s.histCell c i := fun c hcc i => by
    unfold State.histCell
    rw [o6 c hcc, e6]; rfl
  -- step 7
  have hheld : ∀ c ≤ s6.currentChannel, ∀ i : Int, 0 ≤ i → i < s6.blocksize → (s6.histCell c i).isSome = true := by
    intro c hcc i h1 h2
    rw [show s6.currentChannel = s.currentChannel by rw [e6]] at hcc
    rw [show s6.blocksize = s.blocksize by rw [e6]] at h2
    rcases Nat.lt_or_ge c s.currentChannel with hlt | hge
    · rw [other6 c (by omega)]; exact held c hlt i h1 h2
    · obtain rfl : c = s.currentChannel := by omega
      lift i to Nat using h1
      have : block[i]? = some (block[i]'(by omega)) := List.getElem?_eq_getElem (by omega)
      rw [sh6 i (by omega), this]; rfl
  have h7 := advanceChannel_runs (s := s6) hwf6 (by rw [e6]; exact hc) (by rw [l6, e6]) (by rw [e6]; exact hb) hheld
  have hrun : postProcess s.currentChannel s = advanceChannel s6 := by
    unfold postProcess
    rw [run_bind_ok h4, run_bind_ok h5, run_bind_ok h6]
  rw [hrun]
  have wrapped : ∀ i, i < s.nwrap → s6.histCell s.currentChannel ((i : Int) - s.nwrap) = (wrap ++ block)[i + s.blocksize]? := by
    intro i hi
    rw [st6 _ (by omega), c5, if_pos (by omega), List.getElem?_drop, show s4.blocksize = s.blocksize by rw [e4]]
    congr 1
    omega
  have beyond : ∀ i : Int, s.blocksize ≤ i → s6.histCell s.currentChannel i = s.histCell s.currentChannel i := by
    intro i hi
    rw [st6 _ (by omega), c5, if_neg (by omega), c4]
  have means6 : ∀ ms : List Cell, s.meanCells s.currentChannel = ms.map some →
      s6.meanCells s.currentChannel = (if 0 < s.nmean then meanAfter s ms block else ms).map some := by
    intro ms hms
    have : ms = means := List.map_injective_iff.2 (Option.some_injective _) (hms.symm.trans hm)
    rw [this, ← m4]
    unfold State.meanCells State.meanCell
    rw [e6, e4]
  have same6 : s.SameStream s6 := by rw [e6]; constructor <;> rfl
  have work6 : SameWork s s6 := by rw [e6]; constructor <;> rfl
  have omean : ∀ c, c ≠ s.currentChannel → s6.mean[c]? = s.mean[c]? := fun c hcc => by rw [e6]; exact o4.other c hcc
  have hcc6 : s6.currentChannel = s.currentChannel := by rw [e6]
  have hch6 : s6.channels = s.channels := by rw [e6]
  have hbl6 : s6.blocksize = s.blocksize := by rw [e6]
  rcases h7 with ⟨hlt, h7⟩ | ⟨heq, out, ho, hcell, h7⟩
  · exact ⟨_, h7,
      { shifted := sh6, wrapped := wrapped, means := means6, beyond := beyond, otherHist := o6, otherMean := omean,
        next := fun _ => ⟨congrArg (· + 1) hcc6, by rw [e6], by rw [e6]⟩, complete := fun h => by omega,
        same := same6.trans (by constructor <;> rfl) }, ⟨work6.pos, work6.residualSize, work6.coffset, work6.order,
          work6.shift, work6.initSum, work6.sum, work6.coef⟩⟩
  · rw [hbl6, hch6] at ho hcell
    exact ⟨_, h7,
      { shifted := sh6, wrapped := wrapped, means := means6, beyond := beyond, otherHist := o6, otherMean := omean,
        next := fun h => by omega, complete := fun _ => ⟨rfl, rfl, ho, hcell⟩,
        same := same6.trans (by constructor <;> rfl) }, ⟨work6.pos, work6.residualSize, work6.coffset, work6.order,
          work6.shift, work6.initSum, work6.sum, work6.coef⟩⟩

/-- The end of an audio command says the same of the state in which the command began, when what ran in between left these
things alone. -/
theorem AudioDone.transport {s u t : State} {wrap block : List Cell} (h : AudioDone u t wrap block) (hs : s.SameStream u)
    (hc : u.currentChannel = s.currentChannel) (hctl : u.control = s.control) (hout : u.out = s.out)
    (hhist : ∀ c, c ≠ s.currentChannel → u.hist[c]? = s.hist[c]?) (hmean : u.mean = s.mean)
    (hb : ∀ i : Int, s.blocksize ≤ i → u.histCell s.currentChannel i = s.histCell s.currentChannel i) :
    AudioDone s t wrap block where
  shifted := by have := h.shifted; rwa [hc, hs.blocksize, hs.bitshift] at this
  wrapped := by have := h.wrapped; rwa [hc, hs.blocksize, hs.nwrap] at this
  means := by
    intro ms hms
    have hm : u.meanCells s.currentChannel = s.meanCells s.currentChannel := by
      unfold State.meanCells State.meanCell
      rw [hmean, hs.nmean]
    have := h.means ms (by rw [hc, hm]; exact hms)
    rw [hc, hs.nmean] at this
    rw [this]
    unfold meanAfter
    rw [hs.version, hs.blocksize, hs.bitshift]
  beyond := by
    intro i hi
    have := h.beyond i (by rw [hs.blocksize]; exact hi)
    rw [hc] at this
    rw [this, hb i hi]
  otherHist := fun c hcc => by rw [h.otherHist c (by rw [hc]; exact hcc), hhist c hcc]
  otherMean := fun c hcc => by rw [h.otherMean c (by rw [hc]; exact hcc), hmean]
  next := by have := h.next; rwa [hc, hs.channels, hctl, hout] at this
  complete := by have := h.complete; rwa [hc, hs.channels, hs.blocksize] at this
  same := hs.trans h.same

end Sys2Proof.Machine
end

