-- ==== Sys2Proof/Laws/Frames.lean ====
section
/-! SUPPORT. Laws/Frames.lean: what a command leaves alone, whether it completes, raises or stops: one relation for the audio
commands (44_audio_commands.md R160), and one for the others (43_interpreter_control.md R149). -/

namespace Sys2Proof.Config

@[simp] theorem impl_general : impl.general = general := rfl
@[simp] theorem impl_limits : impl.limits = limits := rfl
@[simp] theorem impl_capNext : impl.capNext = capNext := rfl

end Sys2Proof.Config

namespace Sys2Proof.Machine

/-! ### Audio commands -/

/-- What an audio command on channel `c` may do. `q` says whether it may write the coefficient file. -/
structure AudioFrame (q : Bool) (c : Nat) (s t : State) : Prop where
  same : s.SameStream t
  pos_le : s.pos ≤ t.pos
  pos_fits : s.pos ≤ s.bitLength → t.pos ≤ s.bitLength
  coef : q = false → t.coef = s.coef
  histLength : t.hist.length = s.hist.length
  meanLength : t.mean.length = s.mean.length
  otherHist : ∀ d, d ≠ c → t.hist[d]? = s.hist[d]?
  otherMean : ∀ d, d ≠ c → t.mean[d]? = s.mean[d]?
  beyond : ∀ i : Int, s.blocksize ≤ i → t.histCell c i = s.histCell c i
  memories : s.MemoriesWf → t.MemoriesWf

variable {q : Bool} {c : Nat}

theorem State.SameStream.bitLength {s t : State} (h : s.SameStream t) : t.bitLength = s.bitLength := by
  unfold State.bitLength; rw [h.pending]

theorem AudioFrame.refl (s : State) : AudioFrame q c s s :=
  ⟨.refl s, Nat.le_refl _, id, fun _ => rfl, rfl, rfl, fun _ _ => rfl, fun _ _ => rfl, fun _ _ => rfl, id⟩

theorem AudioFrame.trans {s t u : State} (h : AudioFrame q c s t) (h' : AudioFrame q c t u) : AudioFrame q c s u where
  same := h.same.trans h'.same
  pos_le := Nat.le_trans h.pos_le h'.pos_le
  pos_fits := fun hp => by
    have hb := h.same.bitLength
    have := h'.pos_fits (by rw [hb]; exact h.pos_fits hp)
    rwa [hb] at this
  coef := fun hq => by rw [h'.coef hq, h.coef hq]
  histLength := by rw [h'.histLength, h.histLength]
  meanLength := by rw [h'.meanLength, h.meanLength]
  otherHist := fun d hd => by rw [h'.otherHist d hd, h.otherHist d hd]
  otherMean := fun d hd => by rw [h'.otherMean d hd, h.otherMean d hd]
  beyond := fun i hi => by rw [h'.beyond i (by rw [h.same.blocksize]; exact hi), h.beyond i hi]
  memories := fun hm => h'.memories (h.memories hm)

/-- A rule within the frame, from states of one block size. -/
def InFrame {α : Type} (q : Bool) (c b : Nat) (m : M α) : Prop :=
  ∀ s, s.blocksize = b → AudioFrame q c s (finalState (m s))

variable {α β : Type} {b : Nat}

theorem inFrame_pure (a : α) : InFrame q c b (pure a : M α) := fun s _ => .refl s

theorem inFrame_raise (e : Cause) : InFrame q c b (raise e : M α) := fun s _ => .refl s

theorem inFrame_throw (e : Stop) : InFrame q c b (throw e : M α) := fun s _ => .refl s

theorem inFrame_bind {m : M α} {f : α → M β} (hm : InFrame q c b m) (hf : ∀ a, InFrame q c b (f a)) :
    InFrame q c b (m >>= f) := by
  intro s hs
  have h := hm s hs
  rw [run_bind]
  rcases hms : m s with ⟨a, t⟩ | ⟨e, t⟩
  · rw [hms] at h
    exact h.trans (hf a t (h.same.blocksize.trans hs))
  · rw [hms] at h; exact h

theorem inFrame_get_bind {f : State → M β} (hf : ∀ s, s.blocksize = b → InFrame q c b (f s)) : InFrame q c b (get >>= f) := by
  intro s hs
  rw [run_get_bind]
  exact hf s hs s hs

/-- The registers that an audio command may write at any time. -/
theorem inFrame_modify {f : State → State} (h : ∀ s, AudioFrame q c s (f s)) : InFrame q c b (modify f : M PUnit) :=
  fun s _ => h s

theorem inFrame_of_eq {m : M α} (h : Keeps Eq m) : InFrame q c b m := fun s _ => by rw [← h s]; exact .refl s

theorem inFrame_of_cursor {m : M α} (h : Keeps CursorOnly m) : InFrame q c b m := fun s _ => by
  obtain ⟨n, h1, h2⟩ := h s
  rw [h1] at h2 ⊢
  exact ⟨by constructor <;> rfl, Nat.le_add_right _ _, h2, fun _ => rfl, rfl, rfl, fun _ _ => rfl, fun _ _ => rfl,
    fun _ _ => rfl, id⟩

theorem inFrame_forRange {body : Int → M Unit} (h : ∀ i, InFrame q c b (body i)) (n : Nat) (i : Int) :
    InFrame q c b (forRange n i body) := by
  induction n generalizing i with
  | zero => exact inFrame_pure ()
  | succ n ih => exact inFrame_bind (h i) fun _ => ih (i + 1)

theorem HistWrite.frame {s t : State} {i : Int} {vs : List Cell} (h : HistWrite s t c i vs) (hl : i + vs.length ≤ s.blocksize) :
    AudioFrame q c s t where
  same := by rw [h.rest]; constructor <;> rfl
  pos_le := by rw [h.rest]
  pos_fits := by rw [h.rest]; exact id
  coef := fun _ => by rw [h.rest]
  histLength := h.length
  meanLength := by rw [h.rest]
  otherHist := fun d hd => h.other hd
  otherMean := fun d _ => by rw [h.rest]
  beyond := fun j hj => by rw [h.cell, if_neg (by omega)]
  memories := fun hm => ⟨h.wf hm.1, by rw [h.rest]; exact hm.2.1, by rw [h.rest]; exact hm.2.2⟩

theorem inFrame_writeHist {i : Int} {vs : List Cell} (hl : i + vs.length ≤ b) : InFrame q c b (writeHist c i vs) := by
  intro s hs
  rcases writeHist_cases c i vs s with ⟨m, hm, hr, h⟩ | ⟨-, h⟩ <;> rw [h]
  · exact HistWrite.frame ⟨m, hm, hr, rfl⟩ (by rw [hs]; exact hl)
  · exact .refl s

/-- After a read of `n` cells the rest may use that there are `n` of them and that the state is the same. -/
theorem frame_readHist_bind {i : Int} {n : Nat} {f : List Cell → M β} {s : State}
    (hf : ∀ vs, vs.length = n → AudioFrame q c s (finalState (f vs s))) :
    AudioFrame q c s (finalState ((readHist c i n >>= f) s)) := by
  rw [run_bind]
  rcases h : readHist c i n s with ⟨vs, t⟩ | ⟨e, t⟩
  · have ht : s = t := by have := keeps_readHist c i n s; rw [h] at this; exact this
    subst ht
    refine hf vs ?_
    unfold readHist at h
    split at h
    · cases h
    · split at h
      · split at h
        · rename_i heq
          cases h
          exact Memory.readFrom_length heq
        · cases h
      · cases h
  · have ht : s = t := by have := keeps_readHist c i n s; rw [h] at this; exact this
    subst ht
    exact .refl s

theorem MeanOnly.frame {s t : State} (h : MeanOnly s t c) : AudioFrame q c s t where
  same := by rw [h.rest]; constructor <;> rfl
  pos_le := by rw [h.rest]
  pos_fits := by rw [h.rest]; exact id
  coef := fun _ => by rw [h.rest]
  histLength := by rw [h.rest]
  meanLength := h.length
  otherHist := fun d _ => by rw [h.rest]
  otherMean := fun d hd => h.other d hd
  beyond := fun j _ => by rw [h.rest]; rfl
  memories := fun hm => ⟨by rw [h.rest]; exact hm.1, h.wf hm.2.1, by rw [h.rest]; exact hm.2.2⟩

theorem inFrame_writeMean (i : Nat) (v : Cell) : InFrame q c b (writeMean c i v) := by
  intro s _
  rcases writeMean_cases c i v s with ⟨m, hm, -, h⟩ | ⟨-, h⟩ <;> rw [h]
  · exact (MeanOnly.setMean hm i v).frame
  · exact .refl s

theorem keeps_readMean (c i : Nat) : Keeps Eq (readMean c i) := by
  intro s
  rcases readMean_cases c i s with ⟨v, -, h⟩ | ⟨-, f, h⟩ <;> rw [h] <;> rfl

theorem keeps_readCoef (j : Nat) : Keeps Eq (readCoef j) := by
  intro s
  rcases readCoef_cases j s with ⟨v, -, -, h⟩ | ⟨-, f, h⟩ <;> rw [h] <;> rfl

/-- R163 reads only. -/
theorem keeps_coffsetOf (c : Nat) : Keeps Eq (coffsetOf c) := by
  refine keeps_get_bind fun s => ?_
  split
  · exact keeps_readMean c 0 s
  · exact keeps_bind (R := Eq) (fun _ _ _ h h' => h.trans h')
      (keeps_collectRange (fun _ => rfl) (fun _ _ _ h h' => h.trans h') (fun i => keeps_readMean c i.toNat) _ _)
      (fun _ => keeps_pure (fun _ => rfl) _) s

theorem inFrame_computeCoffset (d : Nat) : InFrame q c b (computeCoffset d) :=
  inFrame_bind (inFrame_of_eq (keeps_coffsetOf d)) fun _ => inFrame_modify fun s =>
    ⟨by constructor <;> rfl, Nat.le_refl _, id, fun _ => rfl, rfl, rfl, fun _ _ => rfl, fun _ _ => rfl, fun _ _ => rfl, id⟩

theorem inFrame_readResidualSize : InFrame q c b readResidualSize :=
  inFrame_bind (inFrame_of_cursor keeps_readEnergy) fun _ => inFrame_modify fun s =>
    ⟨by constructor <;> rfl, Nat.le_refl _, id, fun _ => rfl, rfl, rfl, fun _ _ => rfl, fun _ _ => rfl, fun _ _ => rfl, id⟩

/-- A change of the cursor and the working registers. -/
theorem AudioFrame.working {s t : State} (h : s.SameStream t) (h1 : s.pos ≤ t.pos) (h2 : s.pos ≤ s.bitLength → t.pos ≤ s.bitLength)
    (h3 : t.hist = s.hist) (h4 : t.mean = s.mean) (h5 : t.coef = s.coef) : AudioFrame q c s t where
  same := h
  pos_le := h1
  pos_fits := h2
  coef := fun _ => h5
  histLength := by rw [h3]
  meanLength := by rw [h4]
  otherHist := fun _ _ => by rw [h3]
  otherMean := fun _ _ => by rw [h4]
  beyond := fun _ _ => by unfold State.histCell State.histSlot; rw [h3, h.nwrap, h.histBlocksize]
  memories := fun hm => ⟨by rw [h3]; exact hm.1, by rw [h4]; exact hm.2.1, by rw [h5]; exact hm.2.2⟩

/-- An update of working registers. -/
theorem inFrame_working {f : State → State} (h1 : ∀ s : State, s.SameStream (f s)) (h2 : ∀ s, (f s).pos = s.pos)
    (h3 : ∀ s, (f s).hist = s.hist) (h4 : ∀ s, (f s).mean = s.mean) (h5 : ∀ s, (f s).coef = s.coef) :
    InFrame q c b (modify f : M PUnit) :=
  inFrame_modify fun s => .working (h1 s) (Nat.le_of_eq (h2 s).symm) (fun h => by rw [h2]; exact h) (h3 s) (h4 s) (h5 s)

/-- R170. -/
theorem inFrame_predict (cv : List Int) (shift : Nat) (initSum : Cell) : InFrame q c b (predict c cv shift initSum) := by
  intro s _
  unfold predict
  rw [run_get_bind]
  refine frame_readHist_bind fun ctx _ => ?_
  rw [run_set_bind]
  obtain ⟨h1, -, k, sum, h3, h4⟩ := predictRun_spec (cv := cv) (shift := shift) (initSum := initSum) s.blocksize ctx.reverse s
  generalize predictRun cv shift initSum s.blocksize ctx.reverse s = run at h1 h3
  have hrun : AudioFrame q c s run.state := by
    rw [h3]
    exact .working (by constructor <;> rfl) (Nat.le_add_right _ _) h4 rfl rfl rfl
  refine hrun.trans ?_
  refine inFrame_bind (q := q) (b := s.blocksize) (inFrame_writeHist (by omega)) (fun _ => ?_) run.state hrun.same.blocksize
  cases run.stop with
  | none => exact inFrame_pure ()
  | some e => exact inFrame_throw e

/-- R178. -/
theorem inFrame_updateMean : InFrame q c b (updateMean c) := by
  intro s hs
  unfold updateMean
  rw [run_get_bind]
  split
  · refine inFrame_bind (q := q) (b := b) ?_ (fun m => ?_) s hs
    · exact inFrame_of_eq (keeps_get_bind fun s => keeps_bind (R := Eq) (fun _ _ _ h h' => h.trans h') (keeps_readHist _ _ _)
        (fun _ => keeps_pure (fun _ => rfl) _) s)
    · refine inFrame_bind (inFrame_forRange (fun i => inFrame_bind (inFrame_of_eq (keeps_readMean _ _)) fun v =>
        inFrame_writeMean _ _) _ _) fun _ => inFrame_writeMean _ _
  · exact .refl s

/-- R179. -/
theorem inFrame_wrapCopy : InFrame q c b (wrapCopy c) := by
  intro s hs
  unfold wrapCopy
  rw [run_get_bind]
  exact frame_readHist_bind fun vs hvs => inFrame_writeHist (b := b) (by omega) s hs

/-- R180. -/
theorem inFrame_shiftBlock : InFrame q c b (shiftBlock c) := by
  intro s hs
  unfold shiftBlock
  rw [run_get_bind]
  split
  · exact .refl s
  · exact frame_readHist_bind fun vs hvs => inFrame_writeHist (b := b) (by rw [List.length_map]; omega) s hs

/-- R190, R143, R181. -/
theorem inFrame_advanceChannel : InFrame q c b advanceChannel := by
  refine inFrame_bind (inFrame_working (fun s => by constructor <;> rfl) (fun _ => rfl) (fun _ => rfl) (fun _ => rfl) fun _ => rfl)
    fun _ => inFrame_get_bind fun s _ => ?_
  split
  · refine inFrame_bind ?_ fun _ =>
      inFrame_working (fun s => by constructor <;> rfl) (fun _ => rfl) (fun _ => rfl) (fun _ => rfl) fun _ => rfl
    refine inFrame_get_bind fun s _ => inFrame_bind ?_ fun _ =>
      inFrame_working (fun s => by constructor <;> rfl) (fun _ => rfl) (fun _ => rfl) (fun _ => rfl) fun _ => rfl
    exact inFrame_of_eq (keeps_collectRange (fun _ => rfl) (fun _ _ _ h h' => h.trans h') (fun i => keeps_readHist _ _ _) _ _)
  · exact inFrame_pure ()

theorem inFrame_postProcess : InFrame q c b (postProcess c) :=
  inFrame_bind inFrame_updateMean fun _ => inFrame_bind inFrame_wrapCopy fun _ => inFrame_bind inFrame_shiftBlock fun _ =>
    inFrame_advanceChannel

/-- R160 for a body within the frame. -/
theorem audioCommand_frame {body : Nat → M Unit} (hb : ∀ s : State, InFrame q s.currentChannel s.blocksize (body s.currentChannel))
    (s : State) : AudioFrame q s.currentChannel s (finalState (audioCommand body s)) := by
  unfold audioCommand
  rw [run_get_bind]
  exact inFrame_bind (b := s.blocksize) inFrame_readResidualSize (fun _ => inFrame_bind (inFrame_computeCoffset _) fun _ =>
    inFrame_bind (hb s) fun _ => inFrame_postProcess) s rfl

theorem zeroCommand_frame {body : Nat → M Unit} (hb : ∀ s : State, InFrame q s.currentChannel s.blocksize (body s.currentChannel))
    (s : State) : AudioFrame q s.currentChannel s (finalState (zeroCommand body s)) := by
  unfold zeroCommand
  rw [run_get_bind]
  exact inFrame_bind (b := s.blocksize) (inFrame_computeCoffset _) (fun _ =>
    inFrame_bind (hb s) fun _ => inFrame_postProcess) s rfl

theorem inFrame_offsetHist {i : Int} {n : Nat} (hl : i + n ≤ b) (d : Int) : InFrame q c b (offsetHist c i n d) := by
  intro s hs
  unfold offsetHist
  split
  · exact .refl s
  · exact frame_readHist_bind fun vs hvs => inFrame_writeHist (b := b) (by rw [List.length_map, hvs]; exact hl) s hs

/-- R171. -/
theorem inFrame_readCoefs (order : Nat) : InFrame true c b (readCoefs order) := by
  refine inFrame_forRange (fun j => inFrame_bind (inFrame_of_cursor (keeps_readSigned _)) fun v s _ => ?_) _ _
  rcases writeCoef_cases j.toNat (wrap32 v) s with ⟨-, h⟩ | ⟨-, h⟩ <;> rw [h]
  · exact ⟨by constructor <;> rfl, Nat.le_refl _, id, fun h => (by cases h), rfl, rfl, fun _ _ => rfl, fun _ _ => rfl,
      fun _ _ => rfl, fun hm => ⟨hm.1, hm.2.1, Memory.wf_write hm.2.2 _ _⟩⟩
  · exact .refl s

/-- R171, R172. -/
theorem inFrame_qlpcBody : InFrame true c b (qlpcBody c) := by
  refine inFrame_bind (inFrame_of_cursor keeps_readOrder) fun order => inFrame_bind
    (inFrame_working (fun s => by constructor <;> rfl) (fun _ => rfl) (fun _ => rfl) (fun _ => rfl) fun _ => rfl) fun _ =>
    inFrame_get_bind fun s hs => ?_
  split
  · exact inFrame_raise _
  · refine inFrame_bind (inFrame_readCoefs _) fun _ => inFrame_bind
      (inFrame_working (fun s => by constructor <;> rfl) (fun _ => rfl) (fun _ => rfl) (fun _ => rfl) fun _ => rfl) fun _ =>
      inFrame_bind (inFrame_offsetHist (by omega) _) fun _ => inFrame_bind
      (inFrame_working (fun s => by constructor <;> rfl) (fun _ => rfl) (fun _ => rfl) (fun _ => rfl) fun _ => rfl) fun _ =>
      inFrame_bind (inFrame_of_eq (keeps_collectRange (fun _ => rfl) (fun _ _ _ h h' => h.trans h')
        (fun i => keeps_readCoef _) _ _)) fun cv => inFrame_get_bind fun t _ =>
      inFrame_bind (inFrame_predict _ _ _) fun _ => inFrame_offsetHist (by omega) _

/-! ### The other commands -/

/-- What a command that is not audio may do (R149): the cursor, `cmd` and `len` move; `bitshift`, `blocksize`, `quit_received` and
the end of the pass are the business of BITSHIFT, BLOCKSIZE and QUIT. -/
def ControlFrame (s t : State) : Prop :=
  ∃ n cmd len, t = { s.advance n with cmd := cmd, len := len } ∧ (s.pos ≤ s.bitLength → s.pos + n ≤ s.bitLength)

theorem ControlFrame.refl (s : State) : ControlFrame s s := ⟨0, s.cmd, s.len, rfl, id⟩

theorem ControlFrame.trans (s t u : State) (h : ControlFrame s t) (h' : ControlFrame t u) : ControlFrame s u := by
  obtain ⟨n, cmd, len, rfl, hn⟩ := h
  obtain ⟨n', cmd', len', rfl, hn'⟩ := h'
  refine ⟨n + n', cmd', len', by simp [State.advance, Nat.add_assoc], fun hp => ?_⟩
  rw [← Nat.add_assoc]
  exact hn' (hn hp)

theorem ControlFrame.of_cursor {α : Type} {m : M α} (h : Keeps CursorOnly m) : Keeps ControlFrame m := fun s => by
  obtain ⟨n, h1, h2⟩ := h s
  rw [h1] at h2
  exact ⟨n, s.cmd, s.len, h1, h2⟩

/-- R145. -/
theorem keeps_verbatimRule (g : Config.General) : Keeps ControlFrame (verbatimRule g) := by
  refine keeps_bind ControlFrame.trans (.of_cursor (keeps_readUnsigned _)) fun _ =>
    keeps_bind ControlFrame.trans (keeps_modify fun s => ⟨0, s.cmd, _, rfl, id⟩) fun _ =>
    keeps_forRange ControlFrame.refl ControlFrame.trans (fun _ => ?_) _ _
  exact keeps_bind ControlFrame.trans (.of_cursor (keeps_readUnsigned _)) fun _ => keeps_pure ControlFrame.refl _

/-- R146: BITSHIFT within the frame, up to the register it writes. -/
theorem bitshiftRule_frame (s : State) :
    ∃ u, ControlFrame s u ∧
      (finalState (bitshiftRule s) = u ∨ ∃ v ≤ Config.maxBitshift, finalState (bitshiftRule s) = { u with bitshift := v }) := by
  have hk := ControlFrame.of_cursor (keeps_readUnsigned Config.bitshiftSize) s
  unfold bitshiftRule
  rcases hr : readUnsigned Config.bitshiftSize s with ⟨v, t⟩ | ⟨e, t⟩ <;> rw [hr] at hk <;> refine ⟨t, hk, ?_⟩
  · rw [run_bind_ok hr]
    by_cases hv : Config.maxBitshift < v
    · rw [if_pos hv]; exact .inl rfl
    · rw [if_neg hv]; exact .inr ⟨v, by omega, rfl⟩
  · rw [run_bind_error hr]; exact .inl rfl

/-- R147: BLOCKSIZE within the frame, up to the register it writes and the end of the pass. -/
theorem blocksizeRule_frame (s : State) :
    ∃ u, ControlFrame s u ∧ (finalState (blocksizeRule s) = u ∨
      ∃ v, 0 < v ∧ v ≤ s.blocksize ∧ finalState (blocksizeRule s) = ({ u with blocksize := v } : State).endPass .noFrame) := by
  have hk := ControlFrame.of_cursor (keeps_readAdaptive (log2floor s.blocksize)) s
  unfold blocksizeRule
  rw [run_get_bind]
  rcases hr : readAdaptive (log2floor s.blocksize) s with ⟨v, t⟩ | ⟨e, t⟩ <;> rw [hr] at hk <;> refine ⟨t, hk, ?_⟩
  · rw [run_bind_ok hr]
    by_cases hv : s.blocksize < v
    · rw [if_pos hv]; exact .inl rfl
    · rw [if_neg hv]
      by_cases hz : v = 0 ∨ Config.maxBlocksize < v
      · rw [if_pos hz]; exact .inl rfl
      · rw [if_neg hz]; exact .inr ⟨v, by omega, by omega, rfl⟩
  · rw [run_bind_error hr]; exact .inl rfl

/-- R142. -/
theorem keeps_illegal10or11Rule : Keeps ControlFrame illegal10or11Rule :=
  keeps_bind ControlFrame.trans (.of_cursor (keeps_readBits _)) fun _ =>
    keeps_bind ControlFrame.trans (keeps_modify fun s => ⟨0, _, s.len, rfl, id⟩) fun _ => keeps_raise ControlFrame.refl _

/-- R142. -/
theorem keeps_illegal12upRule : Keeps ControlFrame illegal12upRule :=
  keeps_bind ControlFrame.trans (.of_cursor (keeps_readUnsigned _)) fun _ =>
    keeps_bind ControlFrame.trans (keeps_modify fun s => ⟨0, _, s.len, rfl, id⟩) fun _ => keeps_raise ControlFrame.refl _

/-! ### The audio commands -/

theorem diff0Rule_frame (s : State) : AudioFrame false s.currentChannel s (finalState (diff0Rule s)) := by
  refine audioCommand_frame (fun t => ?_) s
  exact inFrame_get_bind fun _ _ => inFrame_predict _ _ _

theorem diff1Rule_frame (s : State) : AudioFrame false s.currentChannel s (finalState (diff1Rule s)) :=
  audioCommand_frame (fun _ => inFrame_predict _ _ _) s

theorem diff2Rule_frame (s : State) : AudioFrame false s.currentChannel s (finalState (diff2Rule s)) :=
  audioCommand_frame (fun _ => inFrame_predict _ _ _) s

theorem diff3Rule_frame (s : State) : AudioFrame false s.currentChannel s (finalState (diff3Rule s)) :=
  audioCommand_frame (fun _ => inFrame_predict _ _ _) s

theorem zeroRule_frame (s : State) : AudioFrame false s.currentChannel s (finalState (zeroRule s)) := by
  refine zeroCommand_frame (fun t => ?_) s
  exact inFrame_get_bind fun u hu => inFrame_writeHist (by rw [List.length_replicate]; omega)

theorem qlpcRule_frame (s : State) : AudioFrame true s.currentChannel s (finalState (qlpcRule s)) :=
  audioCommand_frame (fun _ => inFrame_qlpcBody) s

/-! ### The header -/

/-- What the header may not do, whether it ends, raises or stops: the buffer, the flags but for `header_parsed`, the working
registers and the host's side stay; the cursor moves forward inside the buffer. -/
structure HeaderFrame (s t : State) : Prop where
  pending : t.pending = s.pending
  bitResumeOffset : t.bitResumeOffset = s.bitResumeOffset
  cap_le : s.cap ≤ t.cap
  quitReceived : t.quitReceived = s.quitReceived
  fault : t.fault = s.fault
  out : t.out = s.out
  cmd : t.cmd = s.cmd
  len : t.len = s.len
  accepted : t.accepted = s.accepted
  requests : t.requests = s.requests
  results : t.results = s.results
  pos_le : s.pos ≤ t.pos
  pos_fits : s.pos ≤ s.bitLength → t.pos ≤ s.bitLength
  memories : s.MemoriesWf → t.MemoriesWf

theorem HeaderFrame.refl (s : State) : HeaderFrame s s :=
  ⟨rfl, rfl, Nat.le_refl _, rfl, rfl, rfl, rfl, rfl, rfl, rfl, rfl, Nat.le_refl _, id, id⟩

theorem HeaderFrame.trans (s t u : State) (h : HeaderFrame s t) (h' : HeaderFrame t u) : HeaderFrame s u where
  pending := h'.pending.trans h.pending
  bitResumeOffset := h'.bitResumeOffset.trans h.bitResumeOffset
  cap_le := Nat.le_trans h.cap_le h'.cap_le
  quitReceived := h'.quitReceived.trans h.quitReceived
  fault := h'.fault.trans h.fault
  out := h'.out.trans h.out
  cmd := h'.cmd.trans h.cmd
  len := h'.len.trans h.len
  accepted := h'.accepted.trans h.accepted
  requests := h'.requests.trans h.requests
  results := h'.results.trans h.results
  pos_le := Nat.le_trans h.pos_le h'.pos_le
  pos_fits := fun hp => by
    have hb : t.bitLength = s.bitLength := by unfold State.bitLength; rw [h.pending]
    have := h'.pos_fits (by rw [hb]; exact h.pos_fits hp)
    rwa [hb] at this
  memories := fun hm => h'.memories (h.memories hm)

theorem HeaderFrame.of_cursor {α : Type} {m : M α} (h : Keeps CursorOnly m) : Keeps HeaderFrame m := fun s => by
  obtain ⟨n, h1, h2⟩ := h s
  rw [h1] at h2 ⊢
  exact ⟨rfl, rfl, Nat.le_refl _, rfl, rfl, rfl, rfl, rfl, rfl, rfl, rfl, Nat.le_add_right _ _, h2, id⟩

/-- An update of header registers only. -/
theorem HeaderFrame.update {s t : State} (h : ({ t with
      version := s.version, internalFormatType := s.internalFormatType, channels := s.channels, blocksize := s.blocksize
      nwrap := s.nwrap, nmean := s.nmean, bitshift := s.bitshift, lpcqoffset := s.lpcqoffset, sampleRate := s.sampleRate
      bitsPerSample := s.bitsPerSample, headerParsed := s.headerParsed, currentChannel := s.currentChannel, blob := s.blob
      control := s.control, cap := s.cap } : State) = s) (hc : s.cap ≤ t.cap) : HeaderFrame s t := by
  constructor <;> (try exact hc) <;> rw [← h] <;> first | exact Nat.le_refl _ | exact id

theorem wf_replicate_filled (n k : Nat) (v : Cell) : ∀ m ∈ List.replicate n (Memory.filled k v), Memory.wf m := by
  intro m hm
  rw [List.eq_of_mem_replicate hm]
  exact Memory.wf_filled k v

theorem keeps_readVersion : Keeps HeaderFrame readVersion :=
  keeps_bind HeaderFrame.trans (.of_cursor (keeps_readBits _)) fun _ => keeps_modify fun _ => .update rfl (Nat.le_refl _)

theorem keeps_readTypeAndChannels (g : Config.General) : Keeps HeaderFrame (readTypeAndChannels g) := by
  refine keeps_bind HeaderFrame.trans (.of_cursor (keeps_readAdaptive _)) fun _ =>
    keeps_bind HeaderFrame.trans (keeps_modify fun _ => .update rfl (Nat.le_refl _)) fun _ =>
    keeps_bind HeaderFrame.trans (.of_cursor (keeps_readAdaptive _)) fun n => ?_
  split
  · exact keeps_bind HeaderFrame.trans (keeps_modify fun _ => .update rfl (Nat.le_refl _)) fun _ => keeps_raise HeaderFrame.refl _
  · exact keeps_modify fun _ => .update rfl (Nat.le_refl _)

theorem keeps_readBlockParameters : Keeps HeaderFrame readBlockParameters := by
  refine keeps_get_bind fun s => ?_
  split
  · exact HeaderFrame.refl s
  · refine keeps_bind HeaderFrame.trans (.of_cursor (keeps_readAdaptive _)) (fun b => ?_) s
    split
    · exact keeps_raise HeaderFrame.refl _
    · exact keeps_bind HeaderFrame.trans (keeps_modify fun _ => .update rfl (Nat.le_refl _)) fun _ =>
        keeps_bind HeaderFrame.trans (.of_cursor (keeps_readAdaptive _)) fun _ =>
        keeps_bind HeaderFrame.trans (.of_cursor (keeps_readAdaptive _)) fun _ =>
        keeps_bind HeaderFrame.trans (keeps_modify fun _ => .update rfl (Nat.le_refl _)) fun _ =>
        keeps_bind HeaderFrame.trans (.of_cursor (keeps_readAdaptive _)) fun _ =>
        keeps_bind HeaderFrame.trans
          (keeps_forRange HeaderFrame.refl HeaderFrame.trans (fun _ => .of_cursor (keeps_skipBits _)) _ _) fun _ =>
        keeps_pure HeaderFrame.refl _

theorem keeps_allocateHistory (limits : Config.Limits) : Keeps HeaderFrame (allocateHistory limits) := by
  refine keeps_get_bind fun s => ?_
  split
  · exact HeaderFrame.refl s
  · exact ⟨rfl, rfl, Nat.le_refl _, rfl, rfl, rfl, rfl, rfl, rfl, rfl, rfl, Nat.le_refl _, id, fun hm =>
      ⟨wf_replicate_filled _ _ _, hm.2.1, Memory.wf_nil⟩⟩

theorem keeps_allocateMeans (g : Config.General) (limits : Config.Limits) : Keeps HeaderFrame (allocateMeans g limits) := by
  refine keeps_get_bind fun s => ?_
  split
  · exact HeaderFrame.refl s
  · rw [run_modify_bind]
    split
    · exact ⟨rfl, rfl, Nat.le_refl _, rfl, rfl, rfl, rfl, rfl, rfl, rfl, rfl, Nat.le_refl _, id, fun hm =>
        ⟨hm.1, fun m h => by rw [List.eq_of_mem_replicate h]; exact Memory.wf_nil, hm.2.2⟩⟩
    · exact ⟨rfl, rfl, Nat.le_refl _, rfl, rfl, rfl, rfl, rfl, rfl, rfl, rfl, Nat.le_refl _, id, fun hm =>
        ⟨hm.1, wf_replicate_filled _ _ _, hm.2.2⟩⟩

theorem keeps_setLpcqOffset (g : Config.General) : Keeps HeaderFrame (setLpcqOffset g) :=
  keeps_modify fun s => by split <;> exact .update rfl (Nat.le_refl _)

theorem keeps_readBlobLength (g : Config.General) : Keeps HeaderFrame (readBlobLength g) := by
  refine keeps_bind HeaderFrame.trans (.of_cursor (keeps_readUnsigned _)) fun fn => ?_
  split
  · exact keeps_raise HeaderFrame.refl _
  · refine keeps_bind HeaderFrame.trans (.of_cursor (keeps_readUnsigned _)) fun n => ?_
    split
    · exact keeps_raise HeaderFrame.refl _
    · exact keeps_pure HeaderFrame.refl _

theorem keeps_readBlob (n : Nat) : Keeps HeaderFrame (readBlob n) := by
  refine keeps_bind HeaderFrame.trans (keeps_modify fun _ => .update rfl (Nat.le_refl _)) fun _ =>
    keeps_forRange HeaderFrame.refl HeaderFrame.trans (fun _ => ?_) _ _
  exact keeps_bind HeaderFrame.trans (.of_cursor (keeps_readUnsigned _)) fun _ =>
    keeps_modify fun _ => .update rfl (Nat.le_refl _)

theorem keeps_getBlob (p n : Nat) : Keeps HeaderFrame (getBlob p n) := fun s => by
  rcases getBlob_cases p n s with ⟨-, h⟩ | ⟨-, h⟩ <;> rw [h] <;> exact HeaderFrame.refl s

theorem keeps_findFmt (rounds p : Nat) : Keeps HeaderFrame (findFmt rounds p) := by
  induction rounds generalizing p with
  | zero => exact keeps_raise HeaderFrame.refl _
  | succ n ih =>
    refine keeps_bind HeaderFrame.trans (keeps_getBlob _ _) fun tag => ?_
    split
    · exact keeps_pure HeaderFrame.refl _
    · exact keeps_bind HeaderFrame.trans (keeps_getBlob _ _) fun _ => keeps_bind HeaderFrame.trans (keeps_getBlob _ _)
        fun _ => ih _

theorem keeps_parseFmt (p : Nat) : Keeps HeaderFrame (parseFmt p) := by
  refine keeps_bind HeaderFrame.trans (keeps_getBlob _ _) fun size => ?_
  split
  · exact keeps_raise HeaderFrame.refl _
  · refine keeps_bind HeaderFrame.trans (keeps_getBlob _ _) fun code => ?_
    split
    · exact keeps_raise HeaderFrame.refl _
    · refine keeps_bind HeaderFrame.trans (keeps_getBlob _ _) fun _ =>
        keeps_bind HeaderFrame.trans (keeps_getBlob _ _) fun _ =>
        keeps_bind HeaderFrame.trans (keeps_modify fun _ => .update rfl (Nat.le_refl _)) fun _ =>
        keeps_bind HeaderFrame.trans (keeps_getBlob _ _) fun _ =>
        keeps_bind HeaderFrame.trans (keeps_getBlob _ _) fun _ =>
        keeps_bind HeaderFrame.trans (keeps_getBlob _ _) fun bits => ?_
      split
      · exact keeps_raise HeaderFrame.refl _
      · exact keeps_modify fun _ => .update rfl (Nat.le_refl _)

theorem keeps_parseWave : Keeps HeaderFrame parseWave := by
  refine keeps_bind HeaderFrame.trans (keeps_getBlob _ _) fun riff => ?_
  split
  · exact keeps_raise HeaderFrame.refl _
  · refine keeps_bind HeaderFrame.trans (keeps_getBlob _ _) fun _ =>
      keeps_bind HeaderFrame.trans (keeps_getBlob _ _) fun wave => ?_
    split
    · exact keeps_raise HeaderFrame.refl _
    · exact keeps_bind HeaderFrame.trans (keeps_get HeaderFrame.refl) fun s =>
        keeps_bind HeaderFrame.trans (keeps_findFmt _ _) fun p => keeps_parseFmt p

theorem keeps_headerPass (impl : Config.Impl) : Keeps HeaderFrame (headerPass impl) :=
  keeps_bind HeaderFrame.trans
    (keeps_bind HeaderFrame.trans keeps_readVersion fun _ =>
      keeps_bind HeaderFrame.trans (keeps_readTypeAndChannels _) fun _ =>
      keeps_bind HeaderFrame.trans keeps_readBlockParameters fun _ =>
      keeps_bind HeaderFrame.trans (keeps_modify fun _ => .update rfl (Nat.le_refl _)) fun _ =>
      keeps_bind HeaderFrame.trans (keeps_allocateHistory _) fun _ =>
      keeps_bind HeaderFrame.trans (keeps_allocateMeans _ _) fun _ =>
      keeps_bind HeaderFrame.trans (keeps_setLpcqOffset _) fun _ =>
      keeps_bind HeaderFrame.trans (keeps_readBlobLength _) fun _ =>
      keeps_bind HeaderFrame.trans (keeps_readBlob _) fun _ =>
      keeps_bind HeaderFrame.trans keeps_parseWave fun _ =>
      keeps_modify fun _ => .update rfl (Nat.le_refl _)) fun _ =>
    keeps_modify fun _ => .update rfl (Nat.le_max_left _ _)

end Sys2Proof.Machine
end

