-- ==== Sys2Proof/Laws/PerInstr.lean ====
section
/-! SUPPORT. Laws/PerInstr.lean: the family OpcodeRow: for every instruction, every word that its row of
spec/opcode_table.json matches decodes to it (30_encoding.md R61, R64, R72). -/

namespace Sys2Proof.Laws.OpcodeRow

/-- The `match` and the `mask` of the instruction's row, as the table writes them: over the 5-bit window for a command, over
the first 32 bits of the stream for the header. -/
def row : Instr → Nat × Nat
  | .diff0 => (0x10, 0x1C)
  | .diff1 => (0x14, 0x1C)
  | .diff2 => (0x18, 0x1C)
  | .diff3 => (0x1C, 0x1C)
  | .quit => (0x08, 0x1E)
  | .blocksize => (0x0A, 0x1E)
  | .bitshift => (0x0C, 0x1E)
  | .qlpc => (0x0E, 0x1E)
  | .zero => (0x04, 0x1F)
  | .verbatim => (0x05, 0x1F)
  | .illegal10or11 => (0x06, 0x1E)
  | .illegal12up => (0x00, 0x1C)
  | .header => (0x616A6B67, 0xFFFFFFFF)

/-- The words the row matches: the 5-bit windows that agree with `match` on `mask`; for the header the magic alone. -/
def words (i : Instr) : List Nat :=
  if i = .header then [(row i).1] else (List.range 32).filter fun w => w &&& (row i).2 == (row i).1

/-- How many bits the table gives the row, in whole bytes. -/
def bits (i : Instr) : Nat := if i = .header then 32 else 8

/-- The instruction is well-formed, its row matches some word, every word it matches decodes to it, and the fixed bits the
encoder writes are the first bits of each of those words. -/
def Statement (i : Instr) : Prop :=
  i.wf = true ∧ words i ≠ [] ∧
  (∀ w ∈ words i, decodeTableWord (bits i) w = some i ∧ (encode Config.general i).isPrefixOf (tableWordBits (bits i) w) = true)

theorem diff0 : Statement .diff0 := by refine ⟨rfl, by decide, ?_⟩; decide +kernel
theorem diff1 : Statement .diff1 := by refine ⟨rfl, by decide, ?_⟩; decide +kernel
theorem diff2 : Statement .diff2 := by refine ⟨rfl, by decide, ?_⟩; decide +kernel
theorem diff3 : Statement .diff3 := by refine ⟨rfl, by decide, ?_⟩; decide +kernel
theorem quit : Statement .quit := by refine ⟨rfl, by decide, ?_⟩; decide +kernel
theorem blocksize : Statement .blocksize := by refine ⟨rfl, by decide, ?_⟩; decide +kernel
theorem bitshift : Statement .bitshift := by refine ⟨rfl, by decide, ?_⟩; decide +kernel
theorem qlpc : Statement .qlpc := by refine ⟨rfl, by decide, ?_⟩; decide +kernel
theorem zero : Statement .zero := by refine ⟨rfl, by decide, ?_⟩; decide +kernel
theorem verbatim : Statement .verbatim := by refine ⟨rfl, by decide, ?_⟩; decide +kernel
theorem illegal10or11 : Statement .illegal10or11 := by refine ⟨rfl, by decide, ?_⟩; decide +kernel
theorem illegal12up : Statement .illegal12up := by refine ⟨rfl, by decide, ?_⟩; decide +kernel
theorem header : Statement .header := by refine ⟨rfl, by decide, ?_⟩; decide +kernel

end Sys2Proof.Laws.OpcodeRow
end

