-- ==== Sys2Proof/Tests/Slice0.lean ====
section
/-! SUPPORT. Tests/Slice0.lean: the model's own tests. The expected results are the hand-derived vectors of
95_test_vectors.md, named in each docstring; the words of the decode tests are written out from 30_encoding.md R64. After
them, for every obligation that has hypotheses, a concrete witness that meets them all. -/

namespace Sys2Proof.Tests

set_option Elab.async false

open Sys2Proof.Machine

/-! ### Building states -/

/-- Bits written as 0 and 1, first bit of the stream first. -/
def b (l : List Nat) : Bits := l.map (· == 1)

/-- State S(v, ch, bs, nw, nm) of 95_test_vectors.md, in a pass over the given bytes. -/
def S (v ch bs nw : Nat) (nm : Int) (bytes : List Byte) : State :=
  { State.reset with
    version := BitVec.ofNat 8 v, internalFormatType := 3, channels := ch, blocksize := bs, nwrap := nw, nmean := nm
    lpcqoffset := if 1 < v then 16 else 0, sampleRate := 44100, bitsPerSample := 16, headerParsed := true
    histBlocksize := bs, hist := List.replicate ch (Memory.filled nw 0)
    mean := List.replicate ch (Memory.filled (max 1 nm.toNat) 0), blob := List.replicate 44 0
    pending := bytes, control := .pass }

/-- A history of one channel whose wrap region holds the given values. -/
def wrap (l : List Int) : List Memory := [(List.range l.length).zip (l.map wrap32)]

/-- `s` in a pass over the given bits, padded with zeros to whole bytes. -/
def load (s : State) (bits : Bits) : State := { s with pending := packBits bits }

/-- The next state of an outcome. -/
def after : Host.Outcome State Fault Refusal → Option State
  | .next t => some t
  | .fault _ => none
  | .refused _ => none

/-- The cells of channel 0 from `-nwrap` to the end of the block, as integers. -/
def cells (s : State) : List (Option Int) :=
  (s.histCells 0 (-(s.nwrap : Int)) (s.nwrap + s.blocksize)).map (Option.map BitVec.toInt)

/-- The mean store of channel 0, as integers. -/
def means (s : State) : List (Option Int) := (s.meanCells 0).map (Option.map BitVec.toInt)

/-- The frame in `OUT`, as integers. -/
def frame (s : State) : List Int := s.out.map BitVec.toInt

/-- What a rule raises, and the state in which it does. -/
def raised {α : Type} (m : M α) (s : State) : Option (Cause × State) :=
  match m s with
  | .error (.raise c) t => some (c, t)
  | .error (.stuck _) _ => none
  | .ok _ _ => none

/-- The value a rule gives, and the cursor after it. -/
def value {α : Type} (m : M α) (s : State) : Option (α × Nat) :=
  match m s with
  | .ok a t => some (a, t.pos)
  | .error _ _ => none

/-! ### WellFormed: a term each check refuses -/

/-- R69: a residual too few. -/
theorem test_wf_diff_count : DiffFields.wf 2 2 ⟨⟨0, 0⟩, [0]⟩ = false := by decide
/-- R72: a negative Rice parameter, at version 0 (R162). -/
theorem test_wf_diff_energy : DiffFields.wf 0 1 ⟨⟨0, 0⟩, [0]⟩ = false := by decide
/-- R70: a residual too few; a negative Rice parameter; an order above `nwrap`. -/
theorem test_wf_qlpc_count : QlpcFields.wf 2 2 3 ⟨⟨0, 0⟩, 0, [], [0]⟩ = false := by decide
theorem test_wf_qlpc_energy : QlpcFields.wf 0 1 3 ⟨⟨0, 0⟩, 0, [], [0]⟩ = false := by decide
theorem test_wf_qlpc_order : QlpcFields.wf 2 1 3 ⟨⟨0, 0⟩, 0, [1, 1, 1, 1], [0]⟩ = false := by decide
/-- R72, R146: a shift of 32. -/
theorem test_wf_shift : shiftWf 32 = false := by decide
/-- R147: a block size of 0; one above the current one; one above 65535. -/
theorem test_wf_blocksize_zero : newBlocksizeWf 4 ⟨0, 0⟩ = false := by decide
theorem test_wf_blocksize_larger : newBlocksizeWf 4 ⟨0, 5⟩ = false := by decide
theorem test_wf_blocksize_max : newBlocksizeWf 70000 ⟨0, 65536⟩ = false := by decide

/-- The fields of vector H1 over a given blob. -/
def h1Fields (blob : List Nat) : HeaderFields :=
  { version := 2, formatType := ⟨2, 3⟩, channelCount := ⟨0, 1⟩, blocksize := ⟨2, 4⟩, maxLpcOrder := ⟨0, 0⟩,
    nmean := ⟨0, 0⟩, skipCount := ⟨0, 0⟩, skipped := [], blob := blob }

/-- The blob `WAV44(44100, 1)` of section 2.3. -/
def wav44 : List Nat :=
  [0x52, 0x49, 0x46, 0x46, 0x24, 0, 0, 0, 0x57, 0x41, 0x56, 0x45, 0x66, 0x6D, 0x74, 0x20, 0x10, 0, 0, 0, 1, 0, 1, 0]
    ++ [0x44, 0xAC, 0, 0, 0x88, 0x58, 1, 0, 2, 0, 0x10, 0, 0x64, 0x61, 0x74, 0x61, 0, 0, 0, 0]

theorem test_wf_header_legal : (h1Fields wav44).wf Config.general = true := by decide
/-- R102: no channel; nine channels. -/
theorem test_wf_header_no_channel : { h1Fields wav44 with channelCount := ⟨0, 0⟩ }.wf Config.general = false := by decide
theorem test_wf_header_channels : { h1Fields wav44 with channelCount := ⟨0, 9⟩ }.wf Config.general = false := by decide
/-- R103: a block size of 0 or above 65535; a skip count that is not the number of the bytes skipped. -/
theorem test_wf_header_blocksize_zero : { h1Fields wav44 with blocksize := ⟨0, 0⟩ }.wf Config.general = false := by decide
theorem test_wf_header_blocksize_max : { h1Fields wav44 with blocksize := ⟨0, 65536⟩ }.wf Config.general = false := by decide
theorem test_wf_header_skip : { h1Fields wav44 with skipCount := ⟨0, 1⟩ }.wf Config.general = false := by decide
/-- R106: another format type. R108: a blob of 43 bytes; one of 16384. -/
theorem test_wf_header_type : { h1Fields wav44 with formatType := ⟨0, 5⟩ }.wf Config.general = false := by decide
theorem test_wf_header_blob_short : (h1Fields (List.replicate 43 0)).wf Config.general = false := by decide
theorem test_wf_header_blob_long : (h1Fields (List.replicate 16384 0)).wf Config.general = false := by
  decide +kernel

/-! ### Decode: words written out bit by bit (R63, R64, R72, R61) -/

theorem test_decode_diff0 : decode Config.general true (b [1, 0, 0]) = .ok (.diff0, 3) := by decide
theorem test_decode_diff1 : decode Config.general true (b [1, 0, 1]) = .ok (.diff1, 3) := by decide
theorem test_decode_diff2 : decode Config.general true (b [1, 1, 0]) = .ok (.diff2, 3) := by decide
theorem test_decode_diff3 : decode Config.general true (b [1, 1, 1]) = .ok (.diff3, 3) := by decide
theorem test_decode_quit : decode Config.general true (b [0, 1, 0, 0]) = .ok (.quit, 4) := by decide
theorem test_decode_blocksize : decode Config.general true (b [0, 1, 0, 1]) = .ok (.blocksize, 4) := by decide
theorem test_decode_bitshift : decode Config.general true (b [0, 1, 1, 0]) = .ok (.bitshift, 4) := by decide
theorem test_decode_qlpc : decode Config.general true (b [0, 1, 1, 1]) = .ok (.qlpc, 4) := by decide
theorem test_decode_zero : decode Config.general true (b [0, 0, 1, 0, 0]) = .ok (.zero, 5) := by decide
theorem test_decode_verbatim : decode Config.general true (b [0, 0, 1, 0, 1]) = .ok (.verbatim, 5) := by decide
theorem test_decode_illegal10 : decode Config.general true (b [0, 0, 1, 1, 0]) = .ok (.illegal10or11, 4) := by decide
theorem test_decode_illegal11 : decode Config.general true (b [0, 0, 1, 1, 1]) = .ok (.illegal10or11, 4) := by decide
theorem test_decode_illegal12 : decode Config.general true (b [0, 0, 0, 1, 0, 0]) = .ok (.illegal12up, 3) := by decide
theorem test_decode_header :
    decode Config.general false (b [0, 1, 1, 0, 0, 0, 0, 1, 0, 1, 1, 0, 1, 0, 1, 0, 0, 1, 1, 0, 1, 0, 1, 1, 0, 1, 1, 0, 0, 1, 1, 1]) =
      .ok (.header, 32) := by decide
/-- HE1: the last byte of the magic is wrong. -/
theorem test_decode_bad_magic : decode Config.general false (bitsOf [0x61, 0x6A, 0x6B, 0x66]) = .error .badMagic := by decide
/-- R64: no two rows of the table share their fixed bits, for the numbers of R63 and for another legal numbering. -/
theorem test_opcode_rows_disjoint :
    ∀ g ∈ [Config.general, { Config.general with fnId := Config.commands }],
      (opcodeRows g).Pairwise fun a b => a.1.isPrefixOf b.1 = false ∧ b.1.isPrefixOf a.1 = false := by decide
/-- R80: a code cut short. -/
theorem test_decode_truncated : decode Config.general true (b [0, 0, 1, 0]) = .error .truncated := by decide

/-! ### The codings (95_test_vectors.md section 2.2) and the cursor (section 2.1) -/

/-- R-U. -/
theorem test_unsigned :
    takeUnsigned 0 (b [0, 0, 0, 1]) = some (3, []) ∧ takeUnsigned 2 (b [0, 1, 1, 1]) = some (7, []) ∧
    takeUnsigned 5 (b [0, 1, 0, 1, 1, 0, 0]) = some (44, []) ∧
    takeUnsigned 8 (b [0, 1, 0, 0, 1, 0, 1, 1, 0, 0]) = some (300, []) ∧ takeUnsigned 3 (b [0, 1, 0]) = none := by decide
/-- R-U, encoded. -/
theorem test_encode_unsigned :
    encU 2 12 = b [0, 0, 0, 1, 0, 0] ∧ encU 3 16 = b [0, 0, 1, 0, 0, 0] ∧ encU 8 82 = b [1, 0, 1, 0, 1, 0, 0, 1, 0] := by
  decide
/-- R-S. -/
theorem test_signed :
    value (readSigned 2) (load State.reset (b [0, 1, 0, 1])) = some (-3, 4) ∧
    value (readSigned 5) (load State.reset (b [0, 0, 1, 1, 0, 0, 0, 0])) = some (40, 8) ∧
    value (readSigned 5) (load State.reset (b [1, 1, 0, 1, 1, 1])) = some (-12, 6) := by decide
/-- R-A, at versions 2, 1 and 0. -/
theorem test_adaptive :
    value (readAdaptive 3) (load (S 2 1 4 3 0 []) (b [1, 1, 1, 1, 1, 1, 1])) = some (7, 7) ∧
    value (readAdaptive 0) (load (S 1 1 4 3 0 []) (b [0, 0, 1, 0, 0, 0, 1, 0, 0, 0, 0, 0, 0, 0, 0])) = some (256, 15) ∧
    value (readAdaptive 3) (load (S 0 1 4 3 0 []) (b [1, 0, 1, 1])) = some (3, 4) := by decide
/-- R-U, last line. -/
theorem test_negative_parameter :
    (raised (readUnsigned (-1)) (load State.reset (b [1]))).map (fun r => (r.1, r.2.pos)) =
      some (.negativeRiceParameter, 0) := by decide

/-- The buffer of section 2.1, with the cursor at `p`. -/
def cursorAt (p : Nat) : State := { State.reset with pending := [0xA5, 0x3C], pos := p }

/-- B1 to B8, B11. -/
theorem test_cursor :
    value (readBits 3) (cursorAt 0) = some (5, 3) ∧ value (readBits 5) (cursorAt 3) = some (5, 8) ∧
    value (peekBits 4) (cursorAt 8) = some (3, 8) ∧ value bitsRemaining (cursorAt 8) = some (8, 8) ∧
    value (skipBits 2) (cursorAt 8) = some ((), 10) ∧ value (readBits 6) (cursorAt 10) = some (60, 16) ∧
    value (readBits 0) (cursorAt 16) = some (0, 16) ∧ value bitsConsumed (cursorAt 16) = some (16, 16) ∧
    value (readBits 16) (cursorAt 0) = some (42300, 16) := by decide
/-- B9, B10. -/
theorem test_cursor_overread :
    (raised (readBits 1) (cursorAt 16)).map Prod.fst = some .overread ∧
    (raised (readBits 7) (cursorAt 10)).map (fun r => (r.1, r.2.pos)) = some (.overread, 10) ∧
    (raised (readBits 1) (cursorAt 16)).map (fun r => (r.2.raise r.1).pending) = some [] := by decide

/-! ### The audio commands (section 2.6), one step each -/

/-- What a step leaves: the cells of channel 0 from `-nwrap` on, its mean store, the frame, and the cursor. -/
def heard (s : State) : Option (List (Option Int) × List (Option Int) × List Int × Nat) :=
  (after (step s)).map fun t => (cells t, means t, frame t, t.pos)

/-- Cells that all hold a value. -/
def all (l : List Int) : List (Option Int) := l.map some

/-- A1, its bits; the cursor is that of program P2, pass 1 (24 bits; A1's "25" is a slip, see NOTES.md). -/
theorem test_diff0 : heard (load (S 2 1 4 3 0 [])
      (b [1, 0, 0, 1, 1, 0, 1, 1, 0, 0, 1, 1, 0, 1, 1, 1, 0, 0, 1, 1, 0, 1, 0, 0])) =
    some (all [-2, 5, 0, 3, -2, 5, 0], all [0], [3, -2, 5, 0], 24) := by decide +kernel

/-- A3: the offset at version 2 with `bitshift = 3`, a short block, the mean update and the shift. -/
theorem test_diff0_mean_shift :
    heard { S 2 1 2 3 2 [0x93, 0x20] with bitshift := 3, mean := wrap [-3, -4] } =
      some (all [0, -2, -1, -16, -8], all [-4, -8], [-16, -8], 11) := by decide +kernel

/-- A8: version 0. -/
theorem test_diff1_v0 : heard (load (S 0 1 4 3 (-1) [])
      (b [1, 0, 1, 1, 0, 1, 1, 0, 0, 0, 1, 1, 0, 0, 1, 0, 1, 1, 0, 0, 0, 1, 0, 0])) =
    some (all [4, 4, 6, 7, 4, 4, 6], all [0], [7, 4, 4, 6], 24) := by decide +kernel

/-- A17: the addition wraps. -/
theorem test_diff1_wraps :
    heard { load (S 2 1 4 3 0 []) (b [1, 0, 1, 1, 0, 0, 1, 0, 0, 1, 1, 1, 1]) with hist := wrap [0, 0, 2147483647] } =
      some (all (List.replicate 7 (-2147483648)), all [0], List.replicate 4 (-32768), 13) := by decide +kernel

/-- A5. -/
theorem test_diff2 :
    heard { load (S 2 1 4 3 0 []) (b [1, 1, 0, 1, 0, 0, 1, 1, 1, 1, 1]) with hist := wrap [0, 5, 0] } =
      some (all [-10, -15, -20, -5, -10, -15, -20], all [0], [-5, -10, -15, -20], 11) := by decide +kernel

/-- A7. -/
theorem test_diff3 :
    heard { load (S 2 1 4 3 0 []) (b [1, 1, 1, 1, 0, 0, 0, 1, 0, 1, 0, 1, 0, 1, 0, 1, 1]) with hist := wrap [11, 10, 12] } =
      some (all [28, 42, 59, 18, 28, 42, 59], all [0], [18, 28, 42, 59], 17) := by decide +kernel

/-- A16: the mean update of a block of zeros. -/
theorem test_zero :
    heard { S 2 1 4 3 2 [0x20] with mean := wrap [10, 20] } =
      some (all [0, 0, 0, 0, 0, 0, 0], all [20, 0], [0, 0, 0, 0], 5) := by decide +kernel

/-- C11: the first of two channels. -/
theorem test_zero_channel :
    (after (step (S 2 2 4 3 0 [0x21]))).map (fun t => (t.currentChannel, t.pos, t.control, t.out)) =
      some (1, 5, .pass, []) := by decide +kernel

/-- A10: QLPC as worked through in R171. -/
theorem test_qlpc :
    heard { load (S 2 1 4 3 2 []) (b [0, 1, 1, 1, 1, 0, 1, 1, 1, 1, 1, 0, 1, 1, 0, 0, 0, 1, 1, 0, 0, 0, 0, 1, 1, 0, 1, 1, 1]
        ++ b [0, 1, 0, 0, 1, 1, 1, 0, 0, 0, 0, 1, 0]) with
      bitshift := 1, mean := wrap [0, 100], hist := wrap [104, 96, 101] } =
      some (all [81, 69, 62, 188, 162, 138, 124], all [100, 154], [188, 162, 138, 124], 42) := by decide +kernel

/-- A14: the quantization shift rounds toward minus infinity. -/
theorem test_qlpc_floor :
    heard { load (S 2 1 4 3 0 []) (b [0, 1, 1, 1, 1, 0, 0, 1, 1, 0, 0, 0, 1, 0, 1, 1, 1, 1, 1, 0, 1, 1, 1, 1]) with
      hist := wrap [0, 0, -64] } =
      some (all [-60, -58, -56, -62, -60, -58, -56], all [0], [-62, -60, -58, -56], 24) := by decide +kernel

/-- O1: saturation at the output, and nowhere before. -/
theorem test_output_saturates :
    heard (S 2 1 4 3 0 [0x9D, 0x80, 0x00, 0x03, 0x10, 0x00, 0x00, 0x03, 0x0F, 0xE0, 0x00, 0x3F, 0xFC, 0x00, 0x03, 0xFF, 0xE0]) =
      some (all [-40000, 32767, -32768, 40000, -40000, 32767, -32768], all [0], [32767, -32768, 32767, -32768], 131) := by
  decide +kernel

/-- O2: interleaving. -/
theorem test_output_interleaves :
    interleave 4 ([[3, -2, 5, 0], [10, 11, 10, 12]].map (List.map wrap32)) =
      [3, 10, -2, 11, 5, 10, 0, 12].map (BitVec.ofInt 16) := by decide +kernel

/-! ### The non-audio commands and the errors (sections 2.5, 2.8), one step each -/

/-- The flags, the registers and the cursor after a step. -/
def told (s : State) : Option (Option Cause × Bool × Nat × Nat × Nat) :=
  (after (step s)).map fun t => (t.fault, t.quitReceived, t.bitshift, t.blocksize, t.pos)

/-- C1. -/
theorem test_quit : told (S 2 1 4 3 0 [0x40]) = some (none, true, 0, 4, 4) := by decide
/-- C9: four bits are too few, QUIT is not read. -/
theorem test_quit_suspended : told { S 2 1 4 3 0 [0x04] with pos := 4 } = some (none, false, 0, 4, 4) := by decide
/-- C2. -/
theorem test_bitshift : told (S 2 1 4 3 0 [0x6A]) = some (none, false, 1, 4, 7) := by decide
/-- E7: 32. -/
theorem test_bitshift_too_large :
    told (S 2 1 4 3 0 [0x60, 0x08]) = some (some .badBitshift, false, 0, 4, 15) := by decide
/-- C4. -/
theorem test_blocksize : told (S 2 1 4 3 0 [0x5D, 0x80]) = some (none, false, 0, 2, 10) := by decide
/-- E1, E2. -/
theorem test_blocksize_errors :
    told (S 2 1 4 3 0 [0x5F, 0xA0]) = some (some .blocksizeIncrease, false, 0, 4, 11) ∧
    told (S 2 1 4 3 0 [0x59]) = some (some .badBlocksize, false, 0, 4, 8) := by decide
/-- C8: the two bytes, and nothing else. -/
theorem test_verbatim :
    told (load (S 2 1 4 3 0 []) (b [0, 0, 1, 0, 1, 1, 0, 0, 0, 1, 0, 1, 0, 1, 0, 0, 0, 0, 0, 1, 1, 0, 0, 0, 0, 1, 0, 1, 0])) =
      some (none, false, 0, 4, 29) := by decide +kernel
/-- E3, E4: the codes 10 and 12. -/
theorem test_unknown_command :
    told (S 2 1 4 3 0 [0x30]) = some (some .unknownCommand, false, 0, 4, 5) ∧
    told (S 2 1 4 3 0 [0x10, 0x00]) = some (some .unknownCommand, false, 0, 4, 6) := by decide
/-- E9: a code that never ends; the buffer is emptied. -/
theorem test_unknown_overread :
    (after (step (S 2 1 4 3 0 [0x00]))).map (fun t => (t.fault, t.pending, t.bitResumeOffset)) =
      some (some .overread, [], 0) := by decide
/-- E5 and A12. -/
theorem test_qlpc_order :
    told (S 2 1 4 3 0 [0x79, 0xC8]) = some (some .lpcOrderTooLarge, false, 0, 4, 15) := by decide +kernel
/-- E8 and A9. -/
theorem test_negative_rice :
    told (S 0 1 4 3 (-1) [0x91, 0xFE]) = some (some .negativeRiceParameter, false, 0, 4, 7) := by decide +kernel
/-- E6: the samples before the one that raises are in the history (R204). -/
theorem test_residual_overread :
    (after (step (S 2 1 4 3 0 [0x93, 0x80]))).map (fun t => (t.fault, t.pending, cells t)) =
      some (some .overread, [], all [0, 0, 0, 0, 0] ++ [none, none]) := by decide +kernel

/-! ### The header (section 2.3), on the implementation without limits -/

/-- The 60 bytes of H1. -/
def h1 : List Byte :=
  [0x61, 0x6A, 0x6B, 0x67, 0x02, 0xDE, 0x39, 0x26, 0x64, 0xAB, 0x2A, 0x54, 0x9A, 0x35, 0x1A, 0x49, 0x00, 0x80, 0x40, 0x2A]
    ++ [0xF4, 0x1A, 0xB5, 0x16, 0xCD, 0x6D, 0xBA, 0x48, 0x22, 0x10, 0x08, 0x04, 0x02, 0x03, 0x00, 0x80, 0xC0, 0x28, 0x9A, 0xC8]
    ++ [0x04, 0x03, 0x11, 0x58, 0x80, 0xC0, 0x20, 0x50, 0x08, 0x84, 0x02, 0xC9, 0x61, 0xBA, 0x58, 0x60, 0x10, 0x08, 0x04, 0x00]

/-- What HEADER leaves of a stream whose magic has been read. -/
def parsed (bytes : List Byte) : Option State :=
  after (perform (headerPass Config.Impl.unbounded) { State.reset with pending := bytes, pos := 32, control := .pass })

/-- The bytes of H1 with one field or blob byte changed, encoded by R61. -/
def h1With (f : HeaderFields) : List Byte := packBits (bitsOf magic ++ encHeader Config.general f)

/-- The registers the header sets, and the cursor: version, channels, blocksize, nwrap, nmean, lpcqoffset, sample rate, bits
per sample, pos. -/
def registers (t : State) : List Int :=
  [t.version.toNat, t.channels, t.blocksize, t.nwrap, t.nmean, t.lpcqoffset, t.sampleRate.toNat, t.bitsPerSample.toNat, t.pos]

/-- H1, from the bytes the spec lists. -/
theorem test_header :
    (parsed h1).map registers = some [2, 1, 4, 3, 0, 16, 44100, 16, 478] ∧
    (parsed h1).map (fun t => (t.headerParsed, cells t, means t)) =
      some (true, all [0, 0, 0] ++ [none, none, none, none], all [0]) := by decide +kernel

/-- H2: version 0. -/
theorem test_header_v0 :
    (parsed (h1With { h1Fields wav44 with version := 0 })).map registers = some [0, 1, 256, 3, -1, 0, 44100, 16, 455] ∧
    (parsed (h1With { h1Fields wav44 with version := 0 })).map means = some (all [0]) := by decide +kernel

/-- The encoder gives the bytes the spec lists for H1, and the first ten of H2. -/
theorem test_header_encoded :
    h1With (h1Fields wav44) = h1 ∧
    (h1With { h1Fields wav44 with version := 0 }).take 10 =
      [0x61, 0x6A, 0x6B, 0x67, 0x00, 0x9A, 0x55, 0x95, 0x2A, 0x4D] := by decide +kernel

/-- The cause that ends a changed H1. -/
def fails (f : HeaderFields) : Option (Option Cause) := (parsed (h1With f)).map State.fault

/-- HE2 to HE6, HE17. -/
theorem test_header_parameter_errors :
    fails { h1Fields wav44 with channelCount := ⟨2, 9⟩ } = some (some .badChannelCount) ∧
    fails { h1Fields wav44 with channelCount := ⟨0, 0⟩ } = some (some .badChannelCount) ∧
    fails { h1Fields wav44 with blocksize := ⟨2, 0⟩ } = some (some .badHeaderBlocksize) ∧
    fails { h1Fields wav44 with blocksize := ⟨15, 65536⟩ } = some (some .badHeaderBlocksize) ∧
    fails { h1Fields wav44 with formatType := ⟨2, 5⟩ } = some (some .unknownAudioType) ∧
    fails { h1Fields wav44 with formatType := ⟨2, 5⟩, channelCount := ⟨2, 9⟩ } = some (some .badChannelCount) := by
  decide +kernel

/-- HE10 to HE15. -/
theorem test_header_wave_errors :
    fails (h1Fields (wav44.set 3 0x58)) = some (some .badRiffTag) ∧
    fails (h1Fields (wav44.set 8 0x58)) = some (some .badWaveTag) ∧
    fails (h1Fields (wav44.set 16 15)) = some (some .fmtChunkTooShort) ∧
    fails (h1Fields (wav44.set 20 3)) = some (some .notPcm) ∧
    fails (h1Fields (wav44.set 34 8)) = some (some .badBitsPerSample) ∧
    fails (h1Fields (wav44.take 12 ++ [0x4C, 0x49, 0x53, 0x54] ++ wav44.drop 16)) = some (some .blobOverrun) := by
  decide +kernel

/-- H4: a sub-chunk before `fmt `. -/
theorem test_header_chunk :
    (parsed (h1With (h1Fields (wav44.take 12 ++ [0x4C, 0x49, 0x53, 0x54, 3, 0, 0, 0, 0x61, 0x62, 0x63] ++ wav44.drop 12)))).map
      (fun t => (t.sampleRate, t.fault, t.pos)) = some (44100, none, 577) := by decide +kernel

/-- HE1: the step that fetches. -/
theorem test_header_bad_magic :
    (after (step { State.reset with pending := [0x61, 0x6A, 0x6B, 0x66], control := .pass })).map State.fault =
      some (some .badMagic) := by decide

/-! ### The decode call (section 2.4) -/

/-- I3: the cap is reached; 24 bytes are taken and a pass begins. -/
theorem test_call_cap :
    let t := beginCall Config.Limits.unbounded (List.replicate 100 0) { State.reset with pending := List.replicate 1000 0 }
    (t.accepted, t.pending.length, t.control, t.results) = (24, 1024, .pass, []) := by decide +kernel

/-- I1, I7, I8. -/
theorem test_call_entry :
    (beginCall Config.Limits.unbounded (List.replicate 100 0) State.reset).results = [.needMoreInput 100] ∧
    (beginCall Config.Limits.unbounded [0] { State.reset with fault := some .badMagic }).results = [.error .badMagic] ∧
    (beginCall Config.Limits.unbounded (List.replicate 7 0) { S 2 1 4 3 0 [] with quitReceived := true }).results =
      [.postQuit 7] := by decide +kernel

/-- I9: 59 bytes are dropped, the offset is 6. -/
theorem test_call_finish :
    let t := finishPass .noFrame { S 2 1 4 3 0 (List.replicate 61 0) with pos := 478 }
    (t.pending.length, t.bitResumeOffset, t.control, t.results) = (2, 6, .idle, [.noFrame 0]) := by decide +kernel

/-! ### The step on a placed word -/

/-- Every row of the table, placed after reset, is the next instruction that runs: QUIT and the header as examples. -/
theorem test_placed_word :
    (after (step (State.reset.withFetchWord 8 0x08))).map State.quitReceived = some true ∧
    (after (step (State.reset.withFetchWord 32 0x616A6B67))).map State.fault = some (some .overread) := by decide +kernel

/-! ### Witnesses: for every obligation with hypotheses, a concrete state and operands that meet all of them -/

/-- The fields of a DIFF command for a block of two samples. -/
def diffW : DiffFields := ⟨⟨1, 1⟩, [3, -2]⟩
/-- The fields of a QLPC command of order `n` for a block of two samples. -/
def qlpcW (n : Nat) : QlpcFields := ⟨⟨1, 1⟩, 2, List.replicate n 7, [3, -2]⟩
/-- Two channels at version 2, block size 2, `nwrap` 3, `nmean` 2, over the given bits. -/
def w2 (bits : Bits) : State := load (S 2 2 2 3 2 []) bits
/-- One channel at version 0, block size 2, `nmean` -1, over the given bits. -/
def w0 (bits : Bits) : State := load (S 0 1 2 3 (-1) []) bits
/-- As `w2`, with both blocks decoded and the second channel due. -/
def w2b (bits : Bits) : State :=
  { w2 bits with currentChannel := 1, hist := [Memory.filled 5 9, Memory.filled 5 8] }
/-- Idle, with a request. -/
def idle (s : State) (r : Request) : State := { s with control := .idle, requests := [r] }
/-- A pass before the header. -/
def fresh (bits : Bits) : State := load { State.reset with control := .pass } bits
/-- The zeros that fill up the last byte. -/
def pad (bits : Bits) : Bits := List.replicate ((8 - bits.length % 8) % 8) false
/-- Cells of zero. -/
def zeros (n : Nat) : List Cell := List.replicate n 0
/-- Whether `exec` answers a next state. -/
def completes (i : Instr) (s : State) : Bool := (after (exec i s)).isSome

theorem next_of_completes {i : Instr} {s : State} (h : completes i s = true) : ∃ t, exec i s = .next t := by
  unfold completes after at h
  split at h
  · exact ⟨_, ‹_›⟩
  · exact absurd h (by decide)
  · exact absurd h (by decide)

theorem w2_runInv : (w2 []).RunInv := by constructor <;> decide +kernel
theorem w0_runInv : (w0 []).RunInv := by constructor <;> decide +kernel
theorem w2b_runInv : (w2b []).RunInv := by constructor <;> decide +kernel
theorem w2_run (bits : Bits) : (w2 bits).RunInv := { w2_runInv with }
theorem w0_run (bits : Bits) : (w0 bits).RunInv := { w0_runInv with }
theorem w2b_run (bits : Bits) : (w2b bits).RunInv := { w2b_runInv with }
theorem w2_wf : (w2 []).MemoriesWf := by refine ⟨?_, ?_, ?_⟩ <;> decide +kernel
theorem w0_wf : (w0 []).MemoriesWf := by refine ⟨?_, ?_, ?_⟩ <;> decide +kernel
theorem w2b_wf : (w2b []).MemoriesWf := by refine ⟨?_, ?_, ?_⟩ <;> decide +kernel

/-- A running state has the invariant. -/
theorem inv_of_run {s : State} (hm : s.MemoriesWf) (hr : s.RunInv) (hb : s.BufferInv) (hp : s.PhaseInv)
    (hh : s.headerParsed = true) (hc : s.control ≠ .finish .frame) : s.Inv where
  memories := hm
  buffer := hb
  phase := hp
  fresh h := by simp [hh] at h
  run _ _ := hr
  frame_size h := absurd h hc

/-- A new buffer meets the buffer's invariant. -/
theorem bufferInv_new {s : State} (hp : s.pending = []) (hc : s.cap = 1024) (hr : s.bitResumeOffset = 0) (h0 : s.pos = 0) :
    s.BufferInv := by
  constructor <;> simp [hp, hc, hr, h0]

theorem w2_inv : (w2 [true, false]).Inv :=
  inv_of_run w2_wf (w2_run _) ⟨by decide, by decide, by decide, by decide, by decide⟩
    ⟨by decide, by decide, by decide, by intro o; simp [w2, load, S]⟩ rfl (by decide)
theorem w2_failed_inv (r : Request) : ({ idle (w2 []) r with fault := some .notPcm } : State).Inv where
  memories := w2_wf
  buffer := bufferInv_new rfl rfl rfl rfl
  phase := ⟨fun h => absurd rfl h, fun h => (nomatch h), fun h => (nomatch h), fun _ h => (nomatch h)⟩
  fresh _ h := nomatch h
  run _ h := nomatch h
  frame_size h := nomatch h
theorem w2_idle_inv (r : Request) : (idle (w2 []) r).Inv :=
  inv_of_run w2_wf { w2_runInv with } (bufferInv_new rfl rfl rfl rfl)
    ⟨fun h => absurd rfl h, fun h => (nomatch h), fun h => (nomatch h), fun _ h => (nomatch h)⟩ rfl (fun h => nomatch h)

/-! Encoding. -/

/-- The numbers of R63, and the commands in another order. -/
theorem witness_EveryWindowHasOneRow :
    Config.general.legal = true ∧ ({ Config.general with fnId := Config.commands } : Config.General).legal = true := by decide
theorem witness_DecodeOfEncodedOpcode :
    Config.general.legal = true ∧ Instr.wf .qlpc = true ∧ Instr.wf .header = true := by decide
theorem witness_WindowAgreesWithFunctionCode :
    Config.general.legal = true ∧ takeUnsigned Config.fnSize (b [0, 0, 1, 0, 1, 1]) = some (9, [true]) ∧
    takeUnsigned Config.fnSize (b [0, 0, 0, 1, 0, 0]) = some (12, []) := by decide
theorem witness_UnsignedCodeRoundTrip : (load State.reset (encU 2 9)).unread = encU 2 9 ++ [false, false, false] := by decide
theorem witness_SignedCodeRoundTrip :
    0 ≤ (0 : Int) + Config.srKBias ∧ (load State.reset (encS 0 (-2))).unread = encS 0 (-2) ++ [false, false, false, false] := by
  decide
theorem witness_AdaptiveCodeRoundTrip :
    (w2 (encA 2 3 ⟨1, 2⟩)).unread = encA (w2 (encA 2 3 ⟨1, 2⟩)).version 3 ⟨1, 2⟩ ++ [false, false] ∧
    (w0 (encA 0 3 ⟨1, 2⟩)).unread = encA (w0 (encA 0 3 ⟨1, 2⟩)).version 3 ⟨1, 2⟩ ++ [false, false, false, false] := by decide
/-- `s` over the first `n` of the given bits, its cursor on the first of them and the buffer's end after the last. -/
def cut (s : State) (bits : Bits) (n : Nat) : State :=
  { load s (List.replicate ((8 - n % 8) % 8) false ++ bits.take n) with pos := (8 - n % 8) % 8 }
/-- The bits are cut before the `n`-th. -/
abbrev isCut (s : State) (bits : Bits) (n : Nat) : Prop :=
  bits.drop n ≠ [] ∧ (cut s bits n).pos ≤ (cut s bits n).bitLength ∧ (cut s bits n).unread ++ bits.drop n = bits
theorem cut_run {s : State} {bits : Bits} {n : Nat} (h : s.RunInv) : (cut s bits n).RunInv := { h with }
/-- Cut before the first bit, and before the last. -/
theorem witness_TruncatedCodeOverreads :
    ([true] ≠ [] ∧ (load State.reset (b [0, 0, 0, 1, 0, 0, 0, 0])).unread ++ [true] = encU 5 97) ∧
    ((∀ bits n, (cut (w2 []) bits n).RunInv ∧ (cut (w2 []) bits n).MemoriesWf) ∧
      diffW.wf 2 2 = true ∧ isCut (w2 []) (encDiff 2 diffW) 0 ∧ isCut (w2 []) (encDiff 2 diffW) ((encDiff 2 diffW).length - 1) ∧
      (qlpcW 3).wf 2 2 3 = true ∧ isCut (w2 []) (encQlpc 2 (qlpcW 3)) 0 ∧
      isCut (w2 []) (encQlpc 2 (qlpcW 3)) ((encQlpc 2 (qlpcW 3)).length - 1)) ∧
    (isCut (w2 []) (encVerbatim Config.general [65]) 0 ∧
      isCut (w2 []) (encVerbatim Config.general [65]) ((encVerbatim Config.general [65]).length - 1)) ∧
    (isCut (w2 []) (encShift 9) 0 ∧ isCut (w2 []) (encShift 9) ((encShift 9).length - 1)) ∧
    (isCut (w2 []) (encBlocksize 2 2 ⟨1, 2⟩) 0 ∧
      isCut (w2 []) (encBlocksize 2 2 ⟨1, 2⟩) ((encBlocksize 2 2 ⟨1, 2⟩).length - 1)) ∧
    (w2 []).unread = [] ∧ (isCut (w2 []) (encU 2 5) 0 ∧ isCut (w2 []) (encU 2 5) ((encU 2 5).length - 1)) :=
  ⟨by decide, ⟨fun _ _ => ⟨cut_run w2_runInv, w2_wf⟩, by decide, by decide, by decide, by decide, by decide, by decide⟩,
    ⟨by decide, by decide⟩, ⟨by decide, by decide⟩, ⟨by decide, by decide⟩, by decide, by decide, by decide⟩
/-- The header, cut before its first bit and before its last. -/
theorem witness_TruncatedCodeOverreads_header :
    (∀ bits n, (cut (fresh []) bits n).FreshInv) ∧ Config.Impl.unbounded.general.legal = true ∧
    (h1Fields wav44).wf Config.Impl.unbounded.general = true ∧
    headerFits Config.Impl.unbounded.limits (h1Fields wav44) = true ∧
    isCut (fresh []) (encHeader Config.general (h1Fields wav44)) 0 ∧
    isCut (fresh []) (encHeader Config.general (h1Fields wav44)) ((encHeader Config.general (h1Fields wav44)).length - 1) :=
  ⟨fun _ _ => ⟨rfl, rfl, rfl, rfl, rfl, rfl⟩, by decide, by decide, rfl, by decide +kernel, by decide +kernel⟩

/-! The cursor. -/

/-- Both clauses at the end of the buffer: 8 bits may be read, 9 may not. -/
theorem witness_ReadBitsMostSignificantFirst :
    (load State.reset (encRaw 8 0xA5)).pos + 8 ≤ (load State.reset (encRaw 8 0xA5)).bitLength ∧
    (load State.reset (encRaw 8 0xA5)).bitLength < (load State.reset (encRaw 8 0xA5)).pos + 9 := by decide
theorem witness_CursorPrimitives :
    (load State.reset (encRaw 8 0xA5)).pos + 8 ≤ (load State.reset (encRaw 8 0xA5)).bitLength ∧
    (load State.reset (encRaw 8 0xA5)).bitLength < (load State.reset (encRaw 8 0xA5)).pos + 9 := by decide
theorem witness_CursorNeverMovesBack :
    (w2 (encShift 3)).pos ≤ (w2 (encShift 3)).bitLength ∧ ∃ t, exec .bitshift (w2 (encShift 3)) = .next t :=
  ⟨by decide, next_of_completes (by decide)⟩

/-! The step and the call. -/

theorem witness_StepRunsDecodedInstruction :
    (w2 (b [0, 1, 0, 0, 1])).control = .pass ∧ (w2 (b [0, 1, 0, 0, 1])).suspends = false ∧
    decode Config.general (w2 (b [0, 1, 0, 0, 1])).headerParsed (w2 (b [0, 1, 0, 0, 1])).unread = .ok (.quit, 4) := by decide
/-- Four bits left; no channel due; five bits left and a channel due. -/
theorem witness_PassSuspends :
    (∀ p ∈ [3, 4], ({ w2 (encRaw 8 0) with pos := p } : State).control = .pass ∧
      ({ w2 (encRaw 8 0) with pos := p } : State).headerParsed = true) ∧
    ({ w2 (encRaw 8 0) with pos := 4 } : State).bitLength < 4 + 5 ∧
    ({ w2 (encRaw 8 0) with currentChannel := 2 } : State).channels ≤ 2 ∧
    3 + 5 ≤ ({ w2 (encRaw 8 0) with pos := 3 } : State).bitLength ∧
    ({ w2 (encRaw 8 0) with pos := 3 } : State).currentChannel < ({ w2 (encRaw 8 0) with pos := 3 } : State).channels := by
  decide
/-- The first byte wrong and nothing after it; the last byte wrong; a stream that ends before the magic's first bit, and one that
ends seven bits into its last byte. -/
theorem witness_BadMagicRaises :
    (fresh (encRaw 8 0x62)).control = .pass ∧ (fresh (encRaw 8 0x62)).headerParsed = false ∧
    (magic = [] ++ 0x61 :: [0x6A, 0x6B, 0x67] ∧ 0x62 < 256 ∧ 0x62 ≠ (0x61 : Byte).toNat ∧
      (fresh (encRaw 8 0x62)).unread = bitsOf [] ++ encRaw 8 0x62 ++ []) ∧
    (magic = [0x61, 0x6A, 0x6B] ++ 0x67 :: [] ∧ 0x66 < 256 ∧ 0x66 ≠ (0x67 : Byte).toNat ∧
      (fresh (encRaw 32 0x616A6B66)).unread = bitsOf [0x61, 0x6A, 0x6B] ++ encRaw 8 0x66 ++ []) ∧
    (magic = [] ++ magic ∧ magic ≠ [] ∧ (fresh []).unread = bitsOf [] ++ []) ∧
    (magic = [0x61, 0x6A, 0x6B] ++ [0x67] ∧ ([0x67] : List Byte) ≠ [] ∧ (encRaw 7 0x33).length < 8 ∧
      ({ fresh (encRaw 1 0 ++ encRaw 31 0x30B535B3) with pos := 1 } : State).unread =
        bitsOf [0x61, 0x6A, 0x6B] ++ encRaw 7 0x33) := by decide
theorem witness_EntryChecksAnswerWithoutParsing :
    (idle (w2 []) (.decode [1])).control = .idle ∧ (idle (w2 []) (.decode [1])).requests = .decode [1] :: [] ∧
    ({ idle (w2 []) (.decode [1]) with fault := some .notPcm } : State).fault = some .notPcm ∧
    ({ idle (w2 []) (.decode [1]) with quitReceived := true } : State).fault = none ∧
    ({ idle (w2 []) (.decode [1]) with quitReceived := true } : State).quitReceived = true := by decide
/-- One byte, and one less than the cap. -/
theorem witness_ShortChunkAsksForMore :
    (idle (w2 []) (.decode [1])).control = .idle ∧ (idle (w2 []) (.decode [1])).requests = .decode [1] :: [] ∧
    (idle (w2 []) (.decode [1])).fault = none ∧ (idle (w2 []) (.decode [1])).quitReceived = false ∧ 0 < [(1 : Byte)].length ∧
    (idle (w2 []) (.decode [1])).pending.length + [(1 : Byte)].length < (idle (w2 []) (.decode [1])).cap ∧
    (idle (w2 []) (.decode [1])).pending.length + (List.replicate 1023 (1 : Byte)).length < (idle (w2 []) (.decode [1])).cap ∧
    Config.Limits.unbounded.pendingStorage (idle (w2 []) (.decode [1])).cap = true :=
  ⟨rfl, rfl, rfl, rfl, by decide, by decide, by decide +kernel, rfl⟩
/-- A flush, and a chunk that just fills the buffer. -/
theorem witness_FullBufferOrFlushStartsPass :
    (∀ chunk ∈ [[], List.replicate 1024 (1 : Byte)], (idle (w2 []) (.decode chunk)).Inv ∧
      (idle (w2 []) (.decode chunk)).control = .idle ∧ (idle (w2 []) (.decode chunk)).requests = .decode chunk :: [] ∧
      (idle (w2 []) (.decode chunk)).fault = none ∧ (idle (w2 []) (.decode chunk)).quitReceived = false ∧
      (chunk = [] ∨ (idle (w2 []) (.decode chunk)).cap ≤
        (idle (w2 []) (.decode chunk)).pending.length + chunk.length)) ∧
    ∀ chunk, Config.Limits.unbounded.pendingStorage (idle (w2 []) (.decode chunk)).cap = true := by
  refine ⟨fun chunk h => ⟨w2_idle_inv _, ?_⟩, fun chunk => rfl⟩
  simp only [List.mem_cons, List.not_mem_nil, or_false] at h
  rcases h with rfl | rfl
  · exact ⟨rfl, rfl, rfl, rfl, .inl rfl⟩
  · exact ⟨rfl, rfl, rfl, rfl, .inr (by rw [List.length_replicate]; decide)⟩

/-- Both outcomes. -/
theorem witness_PassFinishCompacts :
    ({ w2 (encRaw 16 7) with control := .finish .noFrame, pos := 13 } : State).control = .finish .noFrame ∧
    ({ w2 (encRaw 16 7) with control := .finish .frame, pos := 16 } : State).control = .finish .frame ∧
    16 ≤ ({ w2 (encRaw 16 7) with control := .finish .frame, pos := 16 } : State).bitLength := by decide
theorem witness_CompactionKeepsUnreadBits :
    ({ w2 (encRaw 16 7) with pos := 16 } : State).pos ≤ ({ w2 (encRaw 16 7) with pos := 16 } : State).bitLength := by decide
/-- A step at the end of a call drops a byte; one that raises Overread empties the buffer. -/
theorem witness_PendingOnlyDroppedOrAppended :
    (after (step { w2 (encRaw 16 7) with control := .finish .noFrame, pos := 8 })).map State.pending = some [7] ∧
    (after (step (w2 (encRaw 8 0)))).map State.pending = some [] := by decide
theorem witness_ResultsOnlyGrow :
    (after (step { w2 [] with control := .finish .noFrame })).map State.results = some [.noFrame 0] ∧
    (after (step (w2 []))).map State.results = some [] := by decide

/-! The audio commands. -/

theorem w2_hist : (w2 []).histCells 0 (-3) 3 = (zeros 3).map some := by decide +kernel
theorem w2_mean : (w2 []).meanCells 0 = (zeros 2).map some := by decide +kernel
theorem w0_hist : (w0 []).histCells 0 (-3) 3 = (zeros 3).map some := by decide +kernel
theorem w0_mean : (w0 []).meanCells 0 = (zeros 1).map some := by decide +kernel
theorem w2b_hist : (w2b []).histCells 1 (-3) 3 = (List.replicate 3 8).map some := by decide +kernel
theorem w2b_mean : (w2b []).meanCells 1 = (zeros 2).map some := by decide +kernel

/-- At versions 2 and 0; not the last channel, and the last one. -/
theorem witness_DiffCommandsDecodeBlock :
    ((w2 (encDiff 2 diffW)).RunInv ∧ (w2 (encDiff 2 diffW)).MemoriesWf ∧ diffW.wf 2 2 = true ∧
      (w2 (encDiff 2 diffW)).unread = encDiff 2 diffW ++ pad (encDiff 2 diffW) ∧
      (w2 (encDiff 2 diffW)).histCells 0 (-3) 3 = (zeros 3).map some ∧
      (w2 (encDiff 2 diffW)).meanCells 0 = (zeros 2).map some) ∧
    ((w0 (encDiff 0 diffW)).RunInv ∧ (w0 (encDiff 0 diffW)).MemoriesWf ∧ diffW.wf 0 2 = true ∧
      (w0 (encDiff 0 diffW)).unread = encDiff 0 diffW ++ pad (encDiff 0 diffW) ∧
      (w0 (encDiff 0 diffW)).histCells 0 (-3) 3 = (zeros 3).map some ∧
      (w0 (encDiff 0 diffW)).meanCells 0 = (zeros 1).map some) ∧
    ((w2b (encDiff 2 diffW)).RunInv ∧ (w2b (encDiff 2 diffW)).MemoriesWf ∧
      (w2b (encDiff 2 diffW)).unread = encDiff 2 diffW ++ pad (encDiff 2 diffW) ∧
      (w2b (encDiff 2 diffW)).histCells 1 (-3) 3 = (List.replicate 3 8).map some ∧
      (w2b (encDiff 2 diffW)).meanCells 1 = (zeros 2).map some) :=
  ⟨⟨w2_run _, w2_wf, by decide, by decide, w2_hist, w2_mean⟩, ⟨w0_run _, w0_wf, by decide, by decide, w0_hist, w0_mean⟩,
    ⟨w2b_run _, w2b_wf, by decide, w2b_hist, w2b_mean⟩⟩
theorem witness_ZeroDecodesZeros :
    (w2 []).RunInv ∧ (w2 []).MemoriesWf ∧ (w2 []).histCells 0 (-3) 3 = (zeros 3).map some ∧
    (w2 []).meanCells 0 = (zeros 2).map some := ⟨w2_runInv, w2_wf, w2_hist, w2_mean⟩
/-- The orders 0 and `nwrap`. -/
theorem witness_QlpcDecodesBlock :
    (∀ n, (w2 (encQlpc 2 (qlpcW n))).RunInv ∧ (w2 (encQlpc 2 (qlpcW n))).MemoriesWf ∧
      (w2 (encQlpc 2 (qlpcW n))).histCells 0 (-3) 3 = (zeros 3).map some ∧
      (w2 (encQlpc 2 (qlpcW n))).meanCells 0 = (zeros 2).map some) ∧
    (qlpcW 0).wf 2 2 3 = true ∧ (qlpcW 3).wf 2 2 3 = true ∧
    (w2 (encQlpc 2 (qlpcW 0))).unread = encQlpc 2 (qlpcW 0) ++ pad (encQlpc 2 (qlpcW 0)) ∧
    (w2 (encQlpc 2 (qlpcW 3))).unread = encQlpc 2 (qlpcW 3) ++ pad (encQlpc 2 (qlpcW 3)) :=
  ⟨fun _ => ⟨w2_run _, w2_wf, w2_hist, w2_mean⟩, by decide, by decide, by decide, by decide⟩
/-- One more than `nwrap`. -/
theorem witness_QlpcOrderTooLargeRaises :
    (w2 (encEnergy 2 ⟨0, 0⟩ ++ encOrder 2 ⟨2, 4⟩)).RunInv ∧ (w2 (encEnergy 2 ⟨0, 0⟩ ++ encOrder 2 ⟨2, 4⟩)).MemoriesWf ∧
    (w2 (encEnergy 2 ⟨0, 0⟩ ++ encOrder 2 ⟨2, 4⟩)).nwrap < 4 ∧
    (w2 (encEnergy 2 ⟨0, 0⟩ ++ encOrder 2 ⟨2, 4⟩)).unread =
      encEnergy 2 ⟨0, 0⟩ ++ encOrder 2 ⟨2, 4⟩ ++ [false, false, false, false, false] :=
  ⟨w2_run _, w2_wf, by decide, by decide⟩
/-- DIFF; QLPC of order 0 and of order `nwrap`. -/
theorem witness_VersionZeroEnergyZeroRaises :
    (∀ bits, (w0 bits).RunInv ∧ (w0 bits).MemoriesWf ∧ (w0 bits).version = 0) ∧ Config.srKBias = 0 ∧
    (w0 (encEnergy 0 ⟨0, 0⟩)).unread = encEnergy 0 ⟨0, 0⟩ ++ [false, false, false, false] ∧
    ([] : List Int).length ≤ (w0 []).nwrap ∧ [1, -1, 1].length ≤ (w0 []).nwrap ∧
    (w0 (encEnergy 0 ⟨0, 0⟩ ++ encOrder 0 ⟨0, 0⟩ ++ ([] : List Int).flatMap (encS Config.lpcQuant))).unread =
      encEnergy 0 ⟨0, 0⟩ ++ encOrder 0 ⟨0, 0⟩ ++ ([] : List Int).flatMap (encS Config.lpcQuant) ++ [false] ∧
    (w0 (encEnergy 0 ⟨0, 0⟩ ++ encOrder 0 ⟨0, 3⟩ ++ [1, -1, 1].flatMap (encS Config.lpcQuant))).unread =
      encEnergy 0 ⟨0, 0⟩ ++ encOrder 0 ⟨0, 3⟩ ++ [1, -1, 1].flatMap (encS Config.lpcQuant) ++ List.replicate 7 false :=
  ⟨fun _ => ⟨w0_run _, w0_wf, rfl⟩, rfl, by decide, by decide, by decide, by decide, by decide⟩
/-- What the QLPC of order 3 above leaves. -/
theorem test_qlpc_negative_rice :
    (after (exec .qlpc (w0 (encEnergy 0 ⟨0, 0⟩ ++ encOrder 0 ⟨0, 3⟩ ++ [1, -1, 1].flatMap (encS Config.lpcQuant))))).map
      (fun t => (t.fault, t.residualSize, t.order, t.coef)) =
    some (some .negativeRiceParameter, -1, 3, [(0, 1), (1, -1), (2, 1)]) := by decide +kernel
/-- `nmean` 2, and at version 0 -1. -/
theorem witness_ZeroMeansGiveZeroOffset :
    (w2 []).RunInv ∧ (w2 []).nmean < 2147483648 ∧ (w0 []).RunInv ∧ (w0 []).nmean < 2147483648 ∧ ∀ m ∈ zeros 2, m = 0 :=
  ⟨w2_runInv, by decide +kernel, w0_runInv, by decide +kernel, fun _ h => List.eq_of_mem_replicate h⟩
/-- At the ends of a cell's range: a sample, a sum of means, coefficients, an offset, a mean, a shift. -/
theorem witness_NoOverflowGivesExactSamples :
    ([1].length ≤ [wrap32 2147483646].length ∧
      predictFits [1] 0 (0 : Cell).toInt ([wrap32 2147483646].map BitVec.toInt) [1, -5] = true) ∧
    (-1 ≤ (w2 []).nmean ∧ coffsetFits (w2 []) ([wrap32 2147483646, wrap32 (-5)].map BitVec.toInt) = true) ∧
    (-1 ≤ (w0 []).nmean ∧ coffsetFits (w0 []) ([wrap32 2147483647].map BitVec.toInt) = true) ∧
    coefsFit [2147483647, -2147483648] = true ∧ offsetFits (-7) ([wrap32 (-2147483641)].map BitVec.toInt) = true ∧
    meanFits { w2 [] with bitshift := 31 } ([wrap32 (-3), wrap32 0].map BitVec.toInt) = true ∧
    shiftFits 31 ([wrap32 (-1)].map BitVec.toInt) = true := by decide +kernel
/-- One step outside: the product of a tap, its sum, a coefficient, the offset, the sum of a mean, its shift, a shift. -/
theorem test_overflow_detected :
    tapsFit [65536] [32768] (-1) = false ∧ tapsFit [1] [2147483647] 1 = false ∧ coefsFit [2147483648] = false ∧
    offsetFits 1 [2147483647] = false ∧ coffsetFits (w2 []) [2147483647, 0] = false ∧
    meanFits (w2 []) [2147483647, 0] = false ∧ meanFits { w2 [] with bitshift := 31 } [2, 0] = false ∧
    shiftFits 31 [1] = false := by decide +kernel
/-- The vectors A5 and A6. -/
theorem witness_FixedPredictorsExtrapolate :
    predictFits [2, -1] 0 0 (([wrap32 0, wrap32 5] : List Cell).map BitVec.toInt) (List.replicate 4 0) = true ∧
    predictFits [3, -3, 1] 0 0 (([wrap32 9, wrap32 4, wrap32 1] : List Cell).map BitVec.toInt) (List.replicate 4 0) = true := by
  decide

/-! The block operations and the output. -/

theorem witness_PredictMatchesPseudocode :
    (w2 []).MemoriesWf ∧ 0 < (w2 []).hist.length ∧ [2, -1].length ≤ (w2 []).nwrap ∧
    (w2 []).blocksize ≤ (w2 []).histBlocksize ∧
    ∀ i : Int, -((w2 []).nwrap : Int) ≤ i → i < 0 → ((w2 []).histCell 0 i).isSome = true :=
  ⟨w2_wf, by decide, by decide, by decide, by decide +kernel⟩
theorem witness_WrapCopyMatchesPseudocode :
    (w2b []).MemoriesWf ∧ 0 < (w2b []).hist.length ∧ 0 < (w2b []).blocksize ∧
    (w2b []).blocksize ≤ (w2b []).histBlocksize ∧
    ∀ i : Int, -((w2b []).nwrap : Int) ≤ i → i < (w2b []).blocksize → ((w2b []).histCell 0 i).isSome = true :=
  ⟨w2b_wf, by decide, by decide, by decide, by decide +kernel⟩
theorem witness_BlockLoopsMatchPseudocode :
    (w2b []).MemoriesWf ∧ (w2b []).channels ≤ (w2b []).hist.length ∧ (w2b []).blocksize ≤ (w2b []).histBlocksize ∧
    0 < (w2b []).blocksize ∧
    ∀ c < (w2b []).channels, ∀ i : Int, 0 ≤ i → i < (w2b []).blocksize → ((w2b []).histCell c i).isSome = true :=
  ⟨w2b_wf, by decide, by decide, by decide, by decide +kernel⟩
/-- The values on both sides of both bounds. -/
theorem witness_ClipSaturates :
    (-32769 : Int) < -32768 ∧ (32767 : Int) < 32768 ∧ (-32768 : Int) ≤ -32768 ∧ (32767 : Int) ≤ 32767 := by decide
theorem witness_FrameInterleavesChannels :
    (w2b []).MemoriesWf ∧ (w2b []).channels ≤ (w2b []).hist.length ∧ (w2b []).blocksize ≤ (w2b []).histBlocksize ∧
    ∀ c < (w2b []).channels, ∀ i : Int, 0 ≤ i → i < (w2b []).blocksize → ((w2b []).histCell c i).isSome = true :=
  ⟨w2b_wf, by decide, by decide, by decide +kernel⟩

/-! The non-audio commands. -/

/-- No byte; a byte above 255. -/
theorem witness_VerbatimSkipsBytes :
    (w2 (encVerbatim Config.general [])).unread = encVerbatim Config.general [] ++ [false, false] ∧
    (w2 (encVerbatim Config.general [300])).unread = encVerbatim Config.general [300] ++ [] := by decide
/-- 31 and 32. -/
theorem witness_BitshiftWritesOrRaises :
    (w2 (encShift 31)).unread = encShift 31 ++ [false, false, false, false, false, false] ∧ 31 ≤ 31 ∧
    (w2 (encShift 32)).unread = encShift 32 ++ [false, false, false, false, false] ∧ 31 < 32 := by decide
/-- 1, the block size, one more, and 0. -/
theorem witness_BlocksizeShrinksOrRaises :
    (w2 []).blocksize ≤ 65535 ∧
    (∀ v ∈ [0, 1, 2, 3], (w2 (encBlocksize 2 2 ⟨1, v⟩)).unread = encBlocksize 2 2 ⟨1, v⟩ ++ pad (encBlocksize 2 2 ⟨1, v⟩ ++ b [0, 0, 0, 0, 0, 0, 0, 0])) ∧
    0 < 1 ∧ 2 ≤ (w2 []).blocksize ∧ (w2 []).blocksize < 3 := by decide
theorem witness_UnknownCommandRaises :
    (w2 [true]).unread = true :: List.replicate 7 false ∧ (w2 (encU 2 0)).unread = encU 2 0 ++ List.replicate 5 false := by decide
theorem witness_NonAudioCommandsFrame :
    (∃ t, exec .verbatim (w2 (encVerbatim Config.general [65])) = .next t) ∧ (∃ t, exec .bitshift (w2 (encShift 1)) = .next t) ∧
    (∃ t, exec .blocksize (w2 (encBlocksize 2 2 ⟨0, 1⟩)) = .next t) ∧ (∃ t, exec .quit (w2 []) = .next t) :=
  ⟨next_of_completes (by decide), next_of_completes (by decide), next_of_completes (by decide), next_of_completes (by decide)⟩
theorem witness_CommandsFrame :
    Instr.zero ≠ .header ∧ (∃ t, exec .zero (w2 []) = .next t) ∧ (∃ t, exec .qlpc (w2 (encQlpc 2 (qlpcW 3))) = .next t) :=
  ⟨by decide, next_of_completes (by decide +kernel), next_of_completes (by decide +kernel)⟩
/-- Another channel; a cell past the block. -/
theorem witness_CommandsLeaveOtherChannels :
    Instr.zero ≠ .header ∧ (∃ t, exec .zero (w2 []) = .next t) ∧ 1 ≠ (w2 []).currentChannel ∧ ((w2 []).blocksize : Int) ≤ 2 :=
  ⟨by decide, next_of_completes (by decide +kernel), by decide, by decide⟩

/-! The header. -/

/-- `WAV44(44100, 1)` is a blob that the WAVE parse accepts. -/
theorem wav44_isWave : IsWave (wav44.map (BitVec.ofNat 8)) 44100 :=
  ⟨[0x24, 0, 0, 0], [], [0x10, 0, 0, 0], [1, 0], [0x44, 0xAC, 0, 0], [0x88, 0x58, 1, 0], [2, 0],
    [0x64, 0x61, 0x74, 0x61, 0, 0, 0, 0], by decide⟩
theorem fresh_inv (bits : Bits) : (fresh bits).FreshInv := ⟨rfl, rfl, rfl, rfl, rfl, rfl⟩
/-- At versions 2 and 0. -/
theorem witness_HeaderParsesStream :
    (∀ bits, (fresh bits).FreshInv) ∧ Config.general.legal = true ∧ (h1Fields wav44).wf Config.general = true ∧
    { h1Fields wav44 with version := 0 }.wf Config.general = true ∧
    IsWave ((h1Fields wav44).blob.map (BitVec.ofNat 8)) 44100 ∧
    (fresh (encHeader Config.general (h1Fields wav44))).unread =
      encHeader Config.general (h1Fields wav44) ++ [false, false] ∧
    headerFits Config.Impl.unbounded.limits (h1Fields wav44) = true :=
  ⟨fresh_inv, by decide, by decide, by decide, wav44_isWave, by decide +kernel, rfl⟩
/-- No channel, and nine. -/
theorem witness_BadChannelCountRaises :
    ∀ n ∈ [0, 9], (fresh (encRaw 8 (2 : Byte).toNat ++ encA 2 Config.general.typeSize ⟨2, 3⟩ ++ encA 2 Config.general.chanSize ⟨4, n⟩)).unread =
      encRaw 8 (2 : Byte).toNat ++ encA 2 Config.general.typeSize ⟨2, 3⟩ ++ encA 2 Config.general.chanSize ⟨4, n⟩ ++ [false] ∧
      (n = 0 ∨ 8 < n) := by decide
/-- 0 and 65536, with one channel and with eight. -/
theorem witness_BadHeaderBlocksizeRaises :
    (2 : Byte) ≠ 0 ∧ ∀ p ∈ [(1, 0), (8, 65536)], ∃ rest,
      (fresh (encRaw 8 (2 : Byte).toNat ++ encA 2 Config.general.typeSize ⟨2, 3⟩ ++ encA 2 Config.general.chanSize ⟨4, p.1⟩
        ++ encA 2 0 ⟨15, p.2⟩)).unread =
      encRaw 8 (2 : Byte).toNat ++ encA 2 Config.general.typeSize ⟨2, 3⟩ ++ encA 2 Config.general.chanSize ⟨4, p.1⟩ ++ encA 2 0 ⟨15, p.2⟩
        ++ rest ∧ 0 < p.1 ∧ p.1 ≤ 8 ∧ (p.2 = 0 ∨ 65535 < p.2) := by
  refine ⟨by decide, fun p hp => ?_⟩
  simp only [List.mem_cons, List.not_mem_nil, or_false] at hp
  rcases hp with rfl | rfl
  · exact ⟨[false, false, false], by decide⟩
  · exact ⟨[false], by decide⟩
/-- An unsupported type and nothing after it; another function code and nothing after it; blobs of 43 and 16384 bytes. -/
theorem witness_HeaderChecksRaise :
    (∀ bits, (fresh bits).FreshInv) ∧ Config.Impl.unbounded.general.legal = true ∧
    (∀ type ∈ [5, 3], { h1Fields [] with formatType := ⟨2, type⟩ }.parametersWf = true ∧
      headerFits Config.Impl.unbounded.limits { h1Fields [] with formatType := ⟨2, type⟩ } = true) ∧
    (5 ≠ Config.general.typeS16HL ∧
      (fresh (encHeaderParameters Config.general { h1Fields [] with formatType := ⟨2, 5⟩ })).unread =
        encHeaderParameters Config.general { h1Fields [] with formatType := ⟨2, 5⟩ }
          ++ pad (encHeaderParameters Config.general { h1Fields [] with formatType := ⟨2, 5⟩ })) ∧
    (h1Fields []).formatType.value = Config.general.typeS16HL ∧
    (some 8 ≠ Instr.fnNumber Config.general .verbatim ∧
      (fresh (encHeaderParameters Config.general (h1Fields []) ++ encU Config.fnSize 8)).unread =
        encHeaderParameters Config.general (h1Fields []) ++ encU Config.fnSize 8
          ++ pad (encHeaderParameters Config.general (h1Fields []) ++ encU Config.fnSize 8)) ∧
    ∀ len ∈ [43, 16384], (len < 44 ∨ 16384 ≤ len) ∧ ∃ rest,
      (fresh (encHeaderParameters Config.general (h1Fields []) ++ encFn Config.general .verbatim
        ++ encU Config.general.verbatimCkSize len)).unread =
      encHeaderParameters Config.general (h1Fields []) ++ encFn Config.general .verbatim
        ++ encU Config.general.verbatimCkSize len ++ rest := by
  refine ⟨fresh_inv, by decide, fun type h => ?_, by decide, by decide, by decide, fun len h => ?_⟩
  all_goals
    simp only [List.mem_cons, List.not_mem_nil, or_false] at h
    rcases h with rfl | rfl
  · exact ⟨by decide, rfl⟩
  · exact ⟨by decide, rfl⟩
  · exact ⟨by decide, pad (encHeaderParameters Config.general (h1Fields []) ++ encFn Config.general .verbatim
      ++ encU Config.general.verbatimCkSize 43), by decide⟩
  · exact ⟨by decide, pad (encHeaderParameters Config.general (h1Fields []) ++ encFn Config.general .verbatim
      ++ encU Config.general.verbatimCkSize 16384), by decide +kernel⟩
/-- For each check, with a `LIST` sub-chunk before the `fmt ` one; and the longest blobs that still end too early: inside `RIFF`,
inside the head, inside a tag, a length and a body, inside the `fmt ` length and code, before and after the sample rate. -/
theorem witness_WaveParseErrors :
    tagWave.length = 4 ∧ [0x0F, 0, 0, 0].length = 4 ∧
    (∀ k ∈ [([0x4C, 0x49, 0x53, 0x54], [3, 0, 0, 0], [0x61, 0x62, 0x63])],
      k.1.length = 4 ∧ k.1 ≠ tagFmt ∧ k.2.1.length = 4 ∧ k.2.2.length = leBytes k.2.1) ∧
    tagWave ≠ tagRiff ∧ tagRiff ≠ tagWave ∧ leBytes [0x0F, 0, 0, 0] < 16 ∧ 16 ≤ leBytes [0x10, 0, 0, 0] ∧
    leBytes [3, 0] ≠ 1 ∧ leBytes [8, 0] ≠ 16 ∧ (List.replicate 12 (0 : Byte)).length = 12 ∧
    tagWave ≠ tagFmt ∧ (List.replicate 3 (0 : Byte)).length < 4 ∧ (List.replicate 7 (0 : Byte)).length < 8 ∧
    (List.replicate 15 (0 : Byte)).length < leBytes [0x10, 0, 0, 0] ∧ (List.replicate 1 (0 : Byte)).length < 2 ∧
    (List.replicate 5 (0 : Byte)).length < 6 ∧ ¬ (List.replicate 6 (0 : Byte)).length < 6 ∧
    (List.replicate 13 (0 : Byte)).length < 14 := by
  decide
/-- What a blob that ends inside the `fmt ` fields leaves, before the sample rate and after it. -/
theorem test_wave_overrun :
    (raised parseWave { State.reset with blob := (wav44.take 27).map (BitVec.ofNat 8) }).map (fun r => (r.1, r.2.sampleRate)) =
      some (.blobOverrun, 0) ∧
    (raised parseWave { State.reset with blob := (wav44.take 35).map (BitVec.ofNat 8) }).map (fun r => (r.1, r.2.sampleRate)) =
      some (.blobOverrun, 44100) := by decide +kernel
/-- Limits of 2 for a `nwrap` of 3 and of 1 for an `nmean` of 2; an implementation with no storage. -/
theorem witness_AllocationFailureRaises :
    exceeds (w2 []).nwrap (some 2) = true ∧ exceeds (w2 []).nmean.toNat (some 1) = true ∧
    (fun _ _ _ => false : Nat → Nat → Nat → Bool) (w2 []).channels (w2 []).blocksize (w2 []).nwrap = false ∧
    (idle (w2 []) (.decode [1])).control = .idle ∧ (idle (w2 []) (.decode [1])).requests = .decode [1] :: [] ∧
    (idle (w2 []) (.decode [1])).fault = none ∧ (idle (w2 []) (.decode [1])).quitReceived = false := by decide

/-! Errors, phases, the invariant, and the whole machine. -/

theorem witness_RaiseRecordsCause : Cause.badMagic ≠ .overread := by decide
theorem witness_ErrorIsSticky :
    ({ idle (w2 []) (.decode [1]) with fault := some .notPcm } : State).Inv ∧
    ∃ t, step { idle (w2 []) (.decode [1]) with fault := some .notPcm } = .next t := ⟨w2_failed_inv _, _, rfl⟩
theorem w2_step : ∃ t, step (w2 [true, false]) = .next t := ⟨_, rfl⟩
theorem witness_PhasesMoveForward :
    (w2 [true, false]).Inv ∧ (∃ t, step (w2 [true, false]) = .next t) ∧
    ∀ more, (w2 [true, false]).requests = .streamOpen :: more → (w2 [true, false]).control ≠ .idle :=
  ⟨w2_inv, w2_step, fun _ _ => by decide⟩
theorem witness_CapGrowsBlocksizeShrinks :
    (∃ t, step (w2 [true, false]) = .next t) ∧
    (∀ more, (w2 [true, false]).requests = .streamOpen :: more → (w2 [true, false]).control ≠ .idle) ∧
    (w2 [true, false]).headerParsed = true := ⟨w2_step, fun _ _ => by decide, rfl⟩
theorem witness_StreamOpenResets :
    (idle (w2 []) .streamOpen).control = .idle ∧ (idle (w2 []) .streamOpen).requests = .streamOpen :: [] := by decide
theorem witness_MemoriesStayCanonical : (w2 []).MemoriesWf ∧ ∃ t, step (w2 []) = .next t := ⟨w2_wf, _, rfl⟩
theorem witness_InvariantKeptAndNothingStops : (w2 [true, false]).Inv := w2_inv
theorem witness_CallsTerminate : (w2 [true, false]).Inv ∧ (w2 [true, false]).control ≠ .idle := ⟨w2_inv, by decide⟩
theorem witness_LongerBufferSameEffect :
    Instr.bitshift ≠ .header ∧ (w2 (encShift 3)).fault = none ∧ (w2 (encShift 3)).pos ≤ (w2 (encShift 3)).bitLength ∧
    (after (exec .bitshift (w2 (encShift 3)))).map State.fault = some none := by decide
/-- The header of a stream that is parsed to its end. -/
theorem witness_LongerBufferSameEffect_header :
    let s := fresh (encHeader Config.general (h1Fields wav44))
    s.fault = none ∧ s.pos ≤ s.bitLength ∧
    (after (perform (headerPass Config.Impl.unbounded) s)).map State.fault = some none := by decide +kernel
theorem witness_VersionsFromTwoAlike :
    Instr.zero ≠ .header ∧ 2 ≤ (w2 []).version.toNat ∧ 2 ≤ (7 : BitVec 8).toNat ∧ ∃ t, exec .zero (w2 []) = .next t :=
  ⟨by decide, by decide, by decide, next_of_completes (by decide +kernel)⟩

end Sys2Proof.Tests
end

section
/-! PROOFS. Decision D27 (log 33): no command tells two versions from 2 on apart. A rule is `AlikeFromTwo` when moving the state
it starts from to another version of 2 or more moves the state it ends or stops in, and changes nothing else of what it does. The
property goes through every construct the rules are written with, so only the places that read `version` need an argument of
their own: R87, R162, R163 and R178. -/

namespace Sys2Proof.Machine

variable {α β : Type}

/-! ### Moving to another version -/

/-- The state with `v` in the version register. -/
def State.atVersion (s : State) (v : BitVec 8) : State := { s with version := v }

section

variable (s : State) (v : BitVec 8)

@[simp] theorem State.atVersion_version : (s.atVersion v).version = v := rfl
@[simp] theorem State.atVersion_nwrap : (s.atVersion v).nwrap = s.nwrap := rfl
@[simp] theorem State.atVersion_nmean : (s.atVersion v).nmean = s.nmean := rfl
@[simp] theorem State.atVersion_bitshift : (s.atVersion v).bitshift = s.bitshift := rfl
@[simp] theorem State.atVersion_blocksize : (s.atVersion v).blocksize = s.blocksize := rfl
@[simp] theorem State.atVersion_hist : (s.atVersion v).hist = s.hist := rfl
@[simp] theorem State.atVersion_mean : (s.atVersion v).mean = s.mean := rfl
@[simp] theorem State.atVersion_coef : (s.atVersion v).coef = s.coef := rfl
@[simp] theorem State.atVersion_unread : (s.atVersion v).unread = s.unread := rfl
@[simp] theorem State.atVersion_histRange (i : Int) (n : Nat) : (s.atVersion v).histRange i n = s.histRange i n := rfl

end

/-- What a rule came to, with `v` in the version register. -/
def resultAtVersion (v : BitVec 8) : EStateM.Result Stop State α → EStateM.Result Stop State α
  | .ok a t => .ok a (t.atVersion v)
  | .error e t => .error e (t.atVersion v)

theorem finalState_resultAtVersion (v : BitVec 8) (r : EStateM.Result Stop State α) :
    (finalState (resultAtVersion v r)).version = v := by
  cases r <;> rfl

/-- The rule does the same at every version of 2 or more. -/
def AlikeFromTwo (m : M α) : Prop :=
  ∀ (s : State) (v : BitVec 8), 2 ≤ s.version.toNat → 2 ≤ v.toNat → m (s.atVersion v) = resultAtVersion v (m s)

/-- Such a rule does not write the version register: moved to its own version, a state is itself. -/
theorem AlikeFromTwo.version_eq {m : M α} (h : AlikeFromTwo m) {s : State} (hs : 2 ≤ s.version.toNat) :
    (finalState (m s)).version = s.version := by
  have hself : m s = resultAtVersion s.version (m s) := h s s.version hs hs
  rw [hself, finalState_resultAtVersion]

theorem version_ne_zero_of_two_le {v : BitVec 8} (h : 2 ≤ v.toNat) : v ≠ 0 := by
  rintro rfl
  exact absurd h (by decide)

/-! ### The constructs of rules -/

theorem alike_pure (a : α) : AlikeFromTwo (pure a : M α) := fun _ _ _ _ => rfl

theorem alike_raise (c : Cause) : AlikeFromTwo (raise c : M α) := fun _ _ _ _ => rfl

theorem alike_throw (e : Stop) : AlikeFromTwo (throw e : M α) := fun _ _ _ _ => rfl

theorem alike_modify {f : State → State}
    (h : ∀ (s : State) (v : BitVec 8), 2 ≤ s.version.toNat → 2 ≤ v.toNat → f (s.atVersion v) = (f s).atVersion v) :
    AlikeFromTwo (modify f : M PUnit) := fun s v hs hv => by
  rw [run_modify, run_modify, h s v hs hv]
  rfl

theorem alike_bind {m : M α} {f : α → M β} (hm : AlikeFromTwo m) (hf : ∀ a, AlikeFromTwo (f a)) :
    AlikeFromTwo (m >>= f) := by
  intro s v hs hv
  have ht := hm.version_eq hs
  rw [run_bind, run_bind, hm s v hs hv]
  rcases hms : m s with ⟨a, t⟩ | ⟨e, t⟩ <;> rw [hms] at ht
  · exact hf a t v (le_of_le_of_eq hs (congrArg BitVec.toNat ht.symm)) hv
  · rfl

/-- After `get`, what the rest takes from the state must not tell the versions apart. -/
theorem alike_get_bind {f : State → M β}
    (h : ∀ (s : State) (v : BitVec 8), 2 ≤ s.version.toNat → 2 ≤ v.toNat → f (s.atVersion v) = f s)
    (hf : ∀ s, AlikeFromTwo (f s)) : AlikeFromTwo (get >>= f) := by
  intro s v hs hv
  rw [run_get_bind, run_get_bind, h s v hs hv]
  exact hf s s v hs hv

theorem alike_ite {c : Prop} [Decidable c] {m m' : M α} (h : AlikeFromTwo m) (h' : AlikeFromTwo m') :
    AlikeFromTwo (if c then m else m') := by
  split
  · exact h
  · exact h'

theorem alike_forRange {body : Int → M Unit} (h : ∀ i, AlikeFromTwo (body i)) (n : Nat) (i : Int) :
    AlikeFromTwo (forRange n i body) := by
  induction n generalizing i with
  | zero => exact alike_pure ()
  | succ n ih => exact alike_bind (h i) fun _ => ih (i + 1)

theorem alike_collectRange {body : Int → M α} (h : ∀ i, AlikeFromTwo (body i)) (n : Nat) (i : Int) :
    AlikeFromTwo (collectRange n i body) := by
  induction n generalizing i with
  | zero => exact alike_pure []
  | succ n ih => exact alike_bind (h i) fun _ => alike_bind (ih (i + 1)) fun _ => alike_pure _

/-! ### The cursor and the operands -/

theorem alike_readBits (n : Nat) : AlikeFromTwo (readBits n) := by
  intro s v _ _
  rcases readBits_cases n s with ⟨w, rest, hw, hp, h⟩ | ⟨hp, h⟩ <;> rw [h]
  · exact readBits_ok (s := s.atVersion v) hw hp
  · exact readBits_short (s := s.atVersion v) hp

theorem alike_readUnary : AlikeFromTwo readUnary := by
  intro s v _ _
  unfold readUnary
  rw [State.atVersion_unread]
  cases takeUnary 0 s.unread <;> rfl

/-- R85. -/
theorem alike_readUnsigned (k : Int) : AlikeFromTwo (readUnsigned k) :=
  alike_ite (alike_raise _) (alike_bind alike_readUnary fun _ => alike_bind (alike_readBits _) fun _ => alike_pure _)

/-- R86. -/
theorem alike_readSigned (k : Int) : AlikeFromTwo (readSigned k) :=
  alike_bind (alike_readUnsigned _) fun _ => alike_pure _

/-- R87: the only version told apart is 0. -/
theorem alike_readAdaptive (hint : Nat) : AlikeFromTwo (readAdaptive hint) :=
  alike_get_bind
    (fun s v hs hv => by rw [State.atVersion_version, if_neg (version_ne_zero_of_two_le hv),
      if_neg (version_ne_zero_of_two_le hs)])
    fun _ => alike_ite (alike_readUnsigned _) (alike_bind (alike_readUnsigned _) fun _ => alike_readUnsigned _)

theorem alike_readEnergy : AlikeFromTwo readEnergy := alike_ite (alike_readAdaptive _) (alike_readUnsigned _)

theorem alike_readOrder : AlikeFromTwo readOrder := alike_ite (alike_readAdaptive _) (alike_readUnsigned _)

/-- R162: the only version told apart is 0. -/
theorem residualSizeOf_of_two_le {v : BitVec 8} (h : 2 ≤ v.toNat) (energy : Nat) : residualSizeOf v energy = energy :=
  if_neg (version_ne_zero_of_two_le h)

theorem alike_readResidualSize : AlikeFromTwo readResidualSize :=
  alike_bind alike_readEnergy fun energy => alike_modify fun s v hs hv => by
    rw [State.atVersion_version, residualSizeOf_of_two_le hv, residualSizeOf_of_two_le hs]
    rfl

/-! ### The memory spaces -/

theorem alike_readHist (c : Nat) (i : Int) (n : Nat) : AlikeFromTwo (readHist c i n) := by
  intro s v _ _
  simp only [readHist, State.atVersion_hist, State.atVersion_histRange, State.atVersion_nwrap]
  cases s.hist[c]? with
  | none => rfl
  | some m =>
    by_cases hr : s.histRange i n
    · simp only [hr, if_true]
      cases m.readFrom (i + s.nwrap).toNat n <;> rfl
    · simp only [hr]
      rfl

theorem alike_writeHist (c : Nat) (i : Int) (vs : List Cell) : AlikeFromTwo (writeHist c i vs) := by
  intro s v _ _
  simp only [writeHist, State.atVersion_hist, State.atVersion_histRange, State.atVersion_nwrap]
  cases s.hist[c]? with
  | none => rfl
  | some m => by_cases hr : s.histRange i vs.length <;> simp only [hr] <;> rfl

theorem alike_readMean (c i : Nat) : AlikeFromTwo (readMean c i) := by
  intro s v _ _
  simp only [readMean, State.atVersion_mean, State.atVersion_nmean]
  cases s.mean[c]? with
  | none => rfl
  | some m =>
    by_cases hi : i < max 1 s.nmean.toNat
    · simp only [hi, if_true]
      cases m.read i <;> rfl
    · simp only [hi, if_false]
      rfl

theorem alike_writeMean (c i : Nat) (w : Cell) : AlikeFromTwo (writeMean c i w) := by
  intro s v _ _
  simp only [writeMean, State.atVersion_mean, State.atVersion_nmean]
  cases s.mean[c]? with
  | none => rfl
  | some m => by_cases hi : i < max 1 s.nmean.toNat <;> simp only [hi] <;> rfl

theorem alike_readCoef (j : Nat) : AlikeFromTwo (readCoef j) := by
  intro s v _ _
  simp only [readCoef, State.atVersion_coef, State.atVersion_nwrap]
  by_cases hj : j < s.nwrap
  · simp only [hj, if_true]
    cases s.coef.read j <;> rfl
  · simp only [hj, if_false]
    rfl

theorem alike_writeCoef (j : Nat) (w : Cell) : AlikeFromTwo (writeCoef j w) := by
  intro s v _ _
  rcases writeCoef_cases j w s with ⟨hj, h⟩ | ⟨hj, h⟩ <;> rw [h]
  · exact if_pos hj
  · exact if_neg (Nat.not_lt.2 hj)

/-! ### The steps of an audio command -/

/-- R163: the bias and the shift are the same at every version of 2 or more. -/
theorem alike_coffsetOf (c : Nat) : AlikeFromTwo (coffsetOf c) :=
  alike_get_bind
    (fun s v hs hv => by simp only [State.atVersion_version, State.atVersion_nmean, State.atVersion_bitshift, hs, hv,
      Nat.not_lt.2 hs, Nat.not_lt.2 hv, if_true, if_false])
    fun _ => alike_ite (alike_readMean _ _)
      (alike_bind (alike_collectRange (fun _ => alike_readMean _ _) _ _) fun _ => alike_pure _)

theorem alike_computeCoffset (c : Nat) : AlikeFromTwo (computeCoffset c) :=
  alike_bind (alike_coffsetOf c) fun _ => alike_modify fun _ _ _ _ => rfl

/-- R170: the run of the decode loop, moved to another version. -/
theorem predictRun_atVersion (cv : List Int) (shift : Nat) (initSum : Cell) {v : BitVec 8} (hv : 2 ≤ v.toNat) (n : Nat)
    (recent : List Cell) {s : State} (hs : 2 ≤ s.version.toNat) :
    predictRun cv shift initSum n recent (s.atVersion v) =
      { predictRun cv shift initSum n recent s with state := (predictRun cv shift initSum n recent s).state.atVersion v } := by
  induction n generalizing recent s with
  | zero => rfl
  | succ n ih =>
    unfold predictRun
    cases sumTaps cv recent initSum with
    | none => rfl
    | some sum =>
      have hread := alike_readSigned s.residualSize { s with sum := sum } v hs hv
      have ht := (alike_readSigned s.residualSize).version_eq (s := { s with sum := sum }) hs
      dsimp only
      rw [show readSigned (s.atVersion v).residualSize { s.atVersion v with sum := sum } = _ from hread]
      rcases hr : readSigned s.residualSize { s with sum := sum } with ⟨r, t⟩ | ⟨e, t⟩ <;> rw [hr] at ht
      · have htv : 2 ≤ t.version.toNat := le_of_le_of_eq hs (congrArg BitVec.toNat ht.symm)
        simp only [resultAtVersion, ih _ htv]
      · rfl

/-- R170: the version register is not among what the loop moves. -/
theorem predictRun_version (cv : List Int) (shift : Nat) (initSum : Cell) (n : Nat) (recent : List Cell) (s : State) :
    (predictRun cv shift initSum n recent s).state.version = s.version := by
  obtain ⟨-, -, k, sum, hstate, -⟩ := predictRun_spec (cv := cv) (shift := shift) (initSum := initSum) n recent s
  rw [hstate, State.advance_version]

theorem alike_predict (c : Nat) (cv : List Int) (shift : Nat) (initSum : Cell) : AlikeFromTwo (predict c cv shift initSum) := by
  intro s v hs hv
  unfold predict
  rw [run_get_bind, run_get_bind, run_bind, run_bind, alike_readHist _ _ _ s v hs hv]
  rcases readHist c (-(cv.length : Int)) cv.length s with ⟨context, t⟩ | ⟨e, t⟩
  · simp only [resultAtVersion, run_set_bind, State.atVersion_blocksize, predictRun_atVersion cv shift initSum hv _ _ hs]
    generalize hrun : predictRun cv shift initSum s.blocksize context.reverse s = run
    have hrs : 2 ≤ run.state.version.toNat := by rw [← hrun, predictRun_version]; exact hs
    refine alike_bind (alike_writeHist c 0 run.samples) (fun _ => ?_) run.state v hrs hv
    cases run.stop with
    | none => exact alike_pure _
    | some e => exact alike_throw e
  · rfl

/-- R178: the bias is the same at every version of 2 or more. -/
theorem alike_blockMean (c : Nat) : AlikeFromTwo (blockMean c) :=
  alike_get_bind
    (fun s v hs hv => by simp only [State.atVersion_version, State.atVersion_blocksize,
      Nat.not_lt.2 hs, Nat.not_lt.2 hv, if_false])
    fun _ => alike_bind (alike_readHist _ _ _) fun _ => alike_pure _

/-- R178: the mean is shifted at every version of 2 or more. -/
theorem alike_updateMean (c : Nat) : AlikeFromTwo (updateMean c) :=
  alike_get_bind
    (fun s v hs hv => by simp only [State.atVersion_version, State.atVersion_nmean, State.atVersion_bitshift,
      Nat.not_lt.2 hs, Nat.not_lt.2 hv, if_false])
    fun _ => alike_ite
      (alike_bind (alike_blockMean c) fun _ =>
        alike_bind (alike_forRange (fun _ => alike_bind (alike_readMean _ _) fun _ => alike_writeMean _ _ _) _ _) fun _ =>
        alike_writeMean _ _ _)
      (alike_pure _)

/-- R179. -/
theorem alike_wrapCopy (c : Nat) : AlikeFromTwo (wrapCopy c) :=
  alike_get_bind (fun _ _ _ _ => rfl) fun _ => alike_bind (alike_readHist _ _ _) fun _ => alike_writeHist _ _ _

/-- R180. -/
theorem alike_shiftBlock (c : Nat) : AlikeFromTwo (shiftBlock c) :=
  alike_get_bind (fun _ _ _ _ => rfl) fun _ =>
    alike_ite (alike_pure _) (alike_bind (alike_readHist _ _ _) fun _ => alike_writeHist _ _ _)

/-- R190. -/
theorem alike_assembleFrame : AlikeFromTwo assembleFrame :=
  alike_get_bind (fun _ _ _ _ => rfl) fun _ =>
    alike_bind (alike_collectRange (fun _ => alike_readHist _ _ _) _ _) fun _ => alike_modify fun _ _ _ _ => rfl

/-- R143. -/
theorem alike_completeFrame : AlikeFromTwo completeFrame :=
  alike_bind alike_assembleFrame fun _ => alike_modify fun _ _ _ _ => rfl

/-- R181. -/
theorem alike_advanceChannel : AlikeFromTwo advanceChannel :=
  alike_bind (alike_modify fun _ _ _ _ => rfl) fun _ =>
    alike_get_bind (fun _ _ _ _ => rfl) fun _ => alike_ite alike_completeFrame (alike_pure _)

theorem alike_postProcess (c : Nat) : AlikeFromTwo (postProcess c) :=
  alike_bind (alike_updateMean c) fun _ => alike_bind (alike_wrapCopy c) fun _ =>
    alike_bind (alike_shiftBlock c) fun _ => alike_advanceChannel

/-- R160 for a body that is alike on every channel. -/
theorem alike_audioCommand {body : Nat → M Unit} (hb : ∀ c, AlikeFromTwo (body c)) : AlikeFromTwo (audioCommand body) :=
  alike_get_bind (fun _ _ _ _ => rfl) fun _ => alike_bind alike_readResidualSize fun _ =>
    alike_bind (alike_computeCoffset _) fun _ => alike_bind (hb _) fun _ => alike_postProcess _

theorem alike_zeroCommand {body : Nat → M Unit} (hb : ∀ c, AlikeFromTwo (body c)) : AlikeFromTwo (zeroCommand body) :=
  alike_get_bind (fun _ _ _ _ => rfl) fun _ =>
    alike_bind (alike_computeCoffset _) fun _ => alike_bind (hb _) fun _ => alike_postProcess _

/-! ### The audio commands -/

/-- R165. -/
theorem alike_diff0Rule : AlikeFromTwo diff0Rule :=
  alike_audioCommand fun _ => alike_get_bind (fun _ _ _ _ => rfl) fun _ => alike_predict _ _ _ _

/-- R164. -/
theorem alike_zeroRule : AlikeFromTwo zeroRule :=
  alike_zeroCommand fun _ => alike_get_bind (fun _ _ _ _ => rfl) fun _ => alike_writeHist _ _ _

theorem alike_readCoefs (order : Nat) : AlikeFromTwo (readCoefs order) :=
  alike_forRange (fun _ => alike_bind (alike_readSigned _) fun _ => alike_writeCoef _ _) _ _

theorem alike_offsetHist (c : Nat) (first : Int) (n : Nat) (d : Int) : AlikeFromTwo (offsetHist c first n d) :=
  alike_ite (alike_pure _) (alike_bind (alike_readHist _ _ _) fun _ => alike_writeHist _ _ _)

/-- R171, R172. -/
theorem alike_qlpcBody (c : Nat) : AlikeFromTwo (qlpcBody c) :=
  alike_bind alike_readOrder fun _ => alike_bind (alike_modify fun _ _ _ _ => rfl) fun _ =>
    alike_get_bind (fun _ _ _ _ => rfl) fun _ => alike_ite (alike_raise _)
      (alike_bind (alike_readCoefs _) fun _ => alike_bind (alike_modify fun _ _ _ _ => rfl) fun _ =>
        alike_bind (alike_offsetHist _ _ _ _) fun _ => alike_bind (alike_modify fun _ _ _ _ => rfl) fun _ =>
        alike_bind (alike_collectRange (fun _ => alike_readCoef _) _ _) fun _ =>
        alike_get_bind (fun _ _ _ _ => rfl) fun _ =>
        alike_bind (alike_predict _ _ _ _) fun _ => alike_offsetHist _ _ _ _)

/-! ### The other commands -/

/-- R145. -/
theorem alike_verbatimRule (g : Config.General) : AlikeFromTwo (verbatimRule g) :=
  alike_bind (alike_readUnsigned _) fun _ => alike_bind (alike_modify fun _ _ _ _ => rfl) fun _ =>
    alike_forRange (fun _ => alike_bind (alike_readUnsigned _) fun _ => alike_pure _) _ _

/-- R146. -/
theorem alike_bitshiftRule : AlikeFromTwo bitshiftRule :=
  alike_bind (alike_readUnsigned _) fun _ => alike_ite (alike_raise _) (alike_modify fun _ _ _ _ => rfl)

/-- R147. -/
theorem alike_blocksizeRule : AlikeFromTwo blocksizeRule :=
  alike_get_bind (fun _ _ _ _ => rfl) fun _ => alike_bind (alike_readAdaptive _) fun _ =>
    alike_ite (alike_raise _) (alike_ite (alike_raise _) (alike_modify fun _ _ _ _ => rfl))

/-- R148. -/
theorem alike_quitRule : AlikeFromTwo quitRule := alike_modify fun _ _ _ _ => rfl

/-- R142. -/
theorem alike_illegal10or11Rule : AlikeFromTwo illegal10or11Rule :=
  alike_bind (alike_readBits _) fun _ => alike_bind (alike_modify fun _ _ _ _ => rfl) fun _ => alike_raise _

/-- R142. -/
theorem alike_illegal12upRule : AlikeFromTwo illegal12upRule :=
  alike_bind (alike_readUnsigned _) fun _ => alike_bind (alike_modify fun _ _ _ _ => rfl) fun _ => alike_raise _

/-! ### What a command answers -/

/-- R204: taking an error does not look at the version. -/
theorem State.raise_atVersion (s : State) (v : BitVec 8) (c : Cause) : (s.atVersion v).raise c = (s.raise c).atVersion v := rfl

/-- A performed rule answers alike at every version of 2 or more. -/
theorem AlikeFromTwo.perform_atVersion {m : M Unit} (h : AlikeFromTwo m) {s t : State} {v : BitVec 8} (hs : 2 ≤ s.version.toNat)
    (hv : 2 ≤ v.toNat) (ht : perform m s = .next t) : perform m (s.atVersion v) = .next (t.atVersion v) := by
  have hrun := h s v hs hv
  rcases perform_next ht with hok | ⟨c, u, hraise, rfl⟩
  · rw [hok] at hrun
    exact perform_ok hrun
  · rw [hraise] at hrun
    rw [← State.raise_atVersion]
    exact perform_raise hrun

/-- Every command performs a rule that does the same at every version of 2 or more. -/
theorem exec_performs_alike {i : Instr} (hi : i ≠ .header) : ∃ m, AlikeFromTwo m ∧ exec i = perform m := by
  cases i with
  | diff0 => exact ⟨diff0Rule, alike_diff0Rule, rfl⟩
  | diff1 => exact ⟨diff1Rule, alike_audioCommand fun _ => alike_predict _ _ _ _, rfl⟩
  | diff2 => exact ⟨diff2Rule, alike_audioCommand fun _ => alike_predict _ _ _ _, rfl⟩
  | diff3 => exact ⟨diff3Rule, alike_audioCommand fun _ => alike_predict _ _ _ _, rfl⟩
  | quit => exact ⟨quitRule, alike_quitRule, rfl⟩
  | blocksize => exact ⟨blocksizeRule, alike_blocksizeRule, rfl⟩
  | bitshift => exact ⟨bitshiftRule, alike_bitshiftRule, rfl⟩
  | qlpc => exact ⟨qlpcRule, alike_audioCommand alike_qlpcBody, rfl⟩
  | zero => exact ⟨zeroRule, alike_zeroRule, rfl⟩
  | verbatim => exact ⟨verbatimRule Config.general, alike_verbatimRule _, rfl⟩
  | illegal10or11 => exact ⟨illegal10or11Rule, alike_illegal10or11Rule, rfl⟩
  | illegal12up => exact ⟨illegal12upRule, alike_illegal12upRule, rfl⟩
  | header => exact absurd rfl hi

end Sys2Proof.Machine

namespace Sys2Proof

open Machine

/-- Settles O60: every command performs a rule, and every one of these rules is alike from version 2 on. -/
theorem versionsFromTwoAlike : Obligations.VersionsFromTwoAlike := by
  intro i s t v hi hs hv ht
  obtain ⟨m, hm, hexec⟩ := exec_performs_alike hi
  rw [hexec] at ht ⊢
  exact hm.perform_atVersion hs hv ht

end Sys2Proof
end

section
/-! PROOFS. What a step may do to the registers of 10_state.md, said once: `Ends`, a rule ends in a state or takes an error there
(60_exceptions.md R204); `CommandFrame` and `InstrFrame`, what a command and any instruction may write; and one lemma for each
place of a call (42_call_and_input_buffer.md R120 to R128) that lists what the step there can answer. -/

namespace Sys2Proof.Machine

/-! ### A state, or an error taken there -/

/-- `t` is `u`, or `u` after an error was taken (R204). -/
def Ends (u t : State) : Prop := t = u ∨ ∃ c, t = u.raise c

section

variable {u t : State} (h : Ends u t)

include h

theorem Ends.pos : t.pos = u.pos := by
  obtain rfl | ⟨c, rfl⟩ := h <;> rfl

theorem Ends.cap : t.cap = u.cap := by
  obtain rfl | ⟨c, rfl⟩ := h <;> rfl

theorem Ends.blocksize : t.blocksize = u.blocksize := by
  obtain rfl | ⟨c, rfl⟩ := h <;> rfl

theorem Ends.headerParsed : t.headerParsed = u.headerParsed := by
  obtain rfl | ⟨c, rfl⟩ := h <;> rfl

theorem Ends.bitshift : t.bitshift = u.bitshift := by
  obtain rfl | ⟨c, rfl⟩ := h <;> rfl

theorem Ends.quitReceived : t.quitReceived = u.quitReceived := by
  obtain rfl | ⟨c, rfl⟩ := h <;> rfl

/-- R206: only an Overread touches the bookkeeping of the buffer. -/
theorem Ends.buffer :
    t.pending = u.pending ∧ t.bitResumeOffset = u.bitResumeOffset ∨
      t.pending = [] ∧ t.bitResumeOffset = 0 ∧ t.fault = some .overread := by
  obtain rfl | ⟨c, rfl⟩ := h
  · exact .inl ⟨rfl, rfl⟩
  · by_cases hc : c = .overread
    · subst hc
      exact .inr ⟨rfl, rfl, rfl⟩
    · left
      simp [hc]

theorem Ends.pending : t.pending = [] ∨ t.pending = u.pending := by
  obtain ⟨hp, -⟩ | ⟨hp, -⟩ := h.buffer
  · exact .inr hp
  · exact .inl hp

/-- R204: the fault and the results change by an error alone, and it ends the call. -/
theorem Ends.error :
    t.fault = u.fault ∧ t.results = u.results ∨
      ∃ c, t.fault = some c ∧ t.control = .idle ∧ t.results = u.results ++ [.error c] := by
  obtain rfl | ⟨c, rfl⟩ := h
  · exact .inl ⟨rfl, rfl⟩
  · exact .inr ⟨c, rfl, rfl, rfl⟩

end

/-- A performed rule answers the state it came to, or takes its error there. -/
theorem perform_ends {m : M Unit} {s t : State} (h : perform m s = .next t) : Ends (finalState (m s)) t := by
  obtain hok | ⟨c, u, hraise, rfl⟩ := perform_next h
  · rw [hok]
    exact .inl rfl
  · rw [hraise]
    exact .inr ⟨c, rfl⟩

/-! ### What a command may write -/

/-- From `s` the command `i` came to `t`: of the stream's registers only `cmd` and `len` are anybody's to write; `bitshift`,
`blocksize` and `quit_received` have one writer each (R146 to R148). -/
structure CommandFrame (i : Instr) (s t : State) : Prop where
  same : State.SameStream
    { s with
      cmd := t.cmd
      len := t.len
      bitshift := t.bitshift
      blocksize := t.blocksize
      quitReceived := t.quitReceived } t
  bitshift : t.bitshift = s.bitshift ∨ i = .bitshift
  blocksize : t.blocksize = s.blocksize ∨ i = .blocksize
  blocksize_le : t.blocksize ≤ s.blocksize
  quitReceived : t.quitReceived = s.quitReceived ∨ i = .quit
  pos_le : s.pos ≤ t.pos
  pos_fits : s.pos ≤ s.bitLength → t.pos ≤ s.bitLength

variable {s t : State} {i : Instr}

/-- R160. -/
theorem AudioFrame.command {q : Bool} {c : Nat} (h : AudioFrame q c s t) : CommandFrame i s t where
  same := { h.same with cmd := rfl, len := rfl, bitshift := rfl, blocksize := rfl, quitReceived := rfl }
  bitshift := .inl h.same.bitshift
  blocksize := .inl h.same.blocksize
  blocksize_le := Nat.le_of_eq h.same.blocksize
  quitReceived := .inl h.same.quitReceived
  pos_le := h.pos_le
  pos_fits := h.pos_fits

/-- R149. -/
theorem ControlFrame.command (h : ControlFrame s t) : CommandFrame i s t := by
  obtain ⟨n, cmd, len, rfl, hfits⟩ := h
  exact ⟨by constructor <;> rfl, .inl rfl, .inl rfl, Nat.le_refl _, .inl rfl, Nat.le_add_right _ _, hfits⟩

/-- R146. -/
theorem bitshiftRule_command (s : State) : CommandFrame .bitshift s (finalState (bitshiftRule s)) := by
  obtain ⟨u, hu, heq | ⟨v, -, heq⟩⟩ := bitshiftRule_frame s <;> rw [heq]
  · exact hu.command
  · obtain ⟨n, cmd, len, rfl, hfits⟩ := hu
    exact ⟨by constructor <;> rfl, .inr rfl, .inl rfl, Nat.le_refl _, .inl rfl, Nat.le_add_right _ _, hfits⟩

/-- R147. -/
theorem blocksizeRule_command (s : State) : CommandFrame .blocksize s (finalState (blocksizeRule s)) := by
  obtain ⟨u, hu, heq | ⟨v, -, hv, heq⟩⟩ := blocksizeRule_frame s <;> rw [heq]
  · exact hu.command
  · obtain ⟨n, cmd, len, rfl, hfits⟩ := hu
    exact ⟨by constructor <;> rfl, .inl rfl, .inr rfl, hv, .inl rfl, Nat.le_add_right _ _, hfits⟩

/-- R148. -/
theorem quitRule_command (s : State) : CommandFrame .quit s (finalState (quitRule s)) :=
  ⟨by constructor <;> rfl, .inl rfl, .inl rfl, Nat.le_refl _, .inr rfl, Nat.le_refl _, id⟩

/-- Every command performs a rule within its frame. -/
theorem exec_performs_command (hi : i ≠ .header) :
    ∃ m, exec i = perform m ∧ ∀ s, CommandFrame i s (finalState (m s)) := by
  cases i with
  | diff0 => exact ⟨diff0Rule, rfl, fun s => (diff0Rule_frame s).command⟩
  | diff1 => exact ⟨diff1Rule, rfl, fun s => (diff1Rule_frame s).command⟩
  | diff2 => exact ⟨diff2Rule, rfl, fun s => (diff2Rule_frame s).command⟩
  | diff3 => exact ⟨diff3Rule, rfl, fun s => (diff3Rule_frame s).command⟩
  | quit => exact ⟨quitRule, rfl, quitRule_command⟩
  | blocksize => exact ⟨blocksizeRule, rfl, blocksizeRule_command⟩
  | bitshift => exact ⟨bitshiftRule, rfl, bitshiftRule_command⟩
  | qlpc => exact ⟨qlpcRule, rfl, fun s => (qlpcRule_frame s).command⟩
  | zero => exact ⟨zeroRule, rfl, fun s => (zeroRule_frame s).command⟩
  | verbatim => exact ⟨verbatimRule Config.general, rfl, fun s => (keeps_verbatimRule _ s).command⟩
  | illegal10or11 => exact ⟨illegal10or11Rule, rfl, fun s => (keeps_illegal10or11Rule s).command⟩
  | illegal12up => exact ⟨illegal12upRule, rfl, fun s => (keeps_illegal12upRule s).command⟩
  | header => exact absurd rfl hi

/-- What a command answers: a state within its frame, or an error taken in one. -/
theorem exec_command_next (hi : i ≠ .header) (h : exec i s = .next t) : ∃ u, CommandFrame i s u ∧ Ends u t := by
  obtain ⟨m, hexec, hm⟩ := exec_performs_command hi
  rw [hexec] at h
  exact ⟨_, hm s, perform_ends h⟩

/-- The registers that neither a command nor an error it takes writes. -/
theorem CommandFrame.same_of_ends {u : State} (hu : CommandFrame i s u) (ht : Ends u t) :
    State.SameStream
      { s with
        cmd := t.cmd
        len := t.len
        bitshift := t.bitshift
        blocksize := t.blocksize
        quitReceived := t.quitReceived
        pending := t.pending
        bitResumeOffset := t.bitResumeOffset
        fault := t.fault
        results := t.results } t := by
  obtain rfl | ⟨c, rfl⟩ := ht <;>
    exact { hu.same with pending := rfl, bitResumeOffset := rfl, fault := rfl, results := rfl }

/-! ### What any instruction may do -/

/-- The buffer, the cap and the cursor under any instruction, the header included. -/
structure InstrFrame (s t : State) : Prop where
  pending : t.pending = s.pending
  cap_le : s.cap ≤ t.cap
  pos_le : s.pos ≤ t.pos
  pos_fits : s.pos ≤ s.bitLength → t.pos ≤ s.bitLength

theorem CommandFrame.instr (h : CommandFrame i s t) : InstrFrame s t :=
  ⟨h.same.pending, Nat.le_of_eq h.same.cap.symm, h.pos_le, h.pos_fits⟩

theorem HeaderFrame.instr (h : HeaderFrame s t) : InstrFrame s t := ⟨h.pending, h.cap_le, h.pos_le, h.pos_fits⟩

/-- What an instruction answers: a state within the frame, or an error taken in one. -/
theorem exec_next (h : exec i s = .next t) : ∃ u, InstrFrame s u ∧ Ends u t := by
  by_cases hi : i = .header
  · subst hi
    exact ⟨_, (keeps_headerPass Config.impl s).instr, perform_ends h⟩
  · obtain ⟨u, hu, ht⟩ := exec_command_next hi h
    exact ⟨u, hu.instr, ht⟩

/-! ### What a step may answer -/

/-- No row of the command table is the header's (R64). -/
theorem decodeCommand_ne_header {bs : Bits} {n : Nat} (h : decodeCommand Config.general bs = .ok (i, n)) : i ≠ .header := by
  have hrows : ∀ row ∈ opcodeRows Config.general, row.2 ≠ .header := by
    rw [opcodeRows_general]
    decide
  unfold decodeCommand at h
  rcases hfind : (opcodeRows Config.general).find? (fun row => row.1.isPrefixOf bs) with - | row <;> rw [hfind] at h
  · cases h
  · cases h
    exact hrows row (List.mem_of_find?_eq_some hfind)

/-- After the header the decoder gives commands only (R126). -/
theorem decode_ne_header {bs : Bits} {n : Nat} (h : decode Config.general true bs = .ok (i, n)) : i ≠ .header :=
  decodeCommand_ne_header h

/-- R121: between calls a step serves the next request. -/
theorem step_idle (hc : s.control = .idle) : step s = .next (serve Config.limits s) := by
  unfold step
  rw [hc]

/-- R127: when the pass has ended a step does the bookkeeping. -/
theorem step_finish {o : PassOutcome} (hc : s.control = .finish o) : step s = .next (finishPass o s) := by
  unfold step
  rw [hc]

/-- R126, R140: everything a step of a pass can answer. -/
theorem step_pass_next (hc : s.control = .pass) (h : step s = .next t) :
    t = s.endPass .noFrame ∨ (∃ c, t = s.raise c) ∨
      ∃ i n, decode Config.general s.headerParsed s.unread = .ok (i, n) ∧
        exec i (s.issue Config.general i n) = .next t := by
  unfold step at h
  rw [hc] at h
  dsimp only at h
  split at h
  · cases h
    exact .inl rfl
  · unfold fetch at h
    rcases hd : decode Config.general s.headerParsed s.unread with r | ⟨i, n⟩ <;> rw [hd] at h
    · cases h
      exact .inr (.inl ⟨_, rfl⟩)
    · exact .inr (.inr ⟨i, n, rfl, h⟩)

/-- R127, R128: the end of a call drops the consumed bytes, or takes an error. -/
theorem finishPass_ends (o : PassOutcome) (s : State) :
    ∃ n offset out control results,
      Ends
        { s with
          pending := s.pending.drop n
          bitResumeOffset := offset
          out := out
          control := control
          results := results }
        (finishPass o s) := by
  unfold finishPass
  dsimp only
  split
  · exact ⟨0, _, _, _, _, .inr ⟨_, rfl⟩⟩
  · exact ⟨_, _, _, _, _, .inl rfl⟩

/-- R125: a pass begins with the cursor at the saved offset, or that offset overruns the buffer. -/
theorem startPass_ends (s : State) :
    ∃ pos control, Ends { s with pos := pos, control := control } (startPass s) := by
  unfold startPass skipBits
  by_cases hshort : State.bitLength { s with pos := 0 } < 0 + s.bitResumeOffset
  · rw [if_pos hshort]
    exact ⟨0, s.control, .inr ⟨.overread, rfl⟩⟩
  · rw [if_neg hshort]
    exact ⟨_, .pass, .inl rfl⟩

/-- R121 to R125: the start of a call appends the bytes it takes, and may answer or take an error. -/
theorem beginCall_ends (limits : Config.Limits) (chunk : List Byte) (s : State) :
    ∃ extra accepted pos control results,
      Ends
        { s with
          pending := s.pending ++ extra
          accepted := accepted
          pos := pos
          control := control
          results := results }
        (beginCall limits chunk s) := by
  have nothing : s.pending ++ [] = s.pending := List.append_nil _
  unfold beginCall
  split
  · exact ⟨[], _, _, _, _, .inl (by rw [nothing]; rfl)⟩
  · split
    · exact ⟨[], _, _, _, _, .inl (by rw [nothing]; rfl)⟩
    · split
      · exact ⟨[], s.accepted, s.pos, s.control, s.results, .inr ⟨.allocFail, by rw [nothing]⟩⟩
      · dsimp only
        split
        · exact ⟨_, _, _, _, _, .inl rfl⟩
        · obtain ⟨pos, control, h⟩ := startPass_ends
            { s with
              pending := s.pending ++ chunk.take (min chunk.length (s.cap - s.pending.length))
              accepted := min chunk.length (s.cap - s.pending.length) }
          exact ⟨_, _, pos, control, s.results, h⟩

/-- What a step may do to the buffer, the cap and the block size while the stream lives: a step at the end of a call may drop
bytes, one at the start may append some (R123, R127); the cap grows (R130); the block size of a parsed header shrinks (R147). -/
structure StepFrame (s t : State) : Prop where
  pending : (∃ n, t.pending = s.pending.drop n ∧ (n ≠ 0 → ∃ o, s.control = .finish o)) ∨
    ∃ extra, s.control = .idle ∧ t.pending = s.pending ++ extra
  cap_le : s.cap ≤ t.cap
  run : s.headerParsed = true → t.headerParsed = true ∧ t.blocksize ≤ s.blocksize

/-- A step that keeps the buffer, the cap, the flag and the block size. -/
theorem StepFrame.of_eq (hp : t.pending = s.pending) (hc : t.cap = s.cap) (hh : t.headerParsed = s.headerParsed)
    (hb : t.blocksize = s.blocksize) : StepFrame s t where
  pending := .inl ⟨0, hp, fun hn => absurd rfl hn⟩
  cap_le := Nat.le_of_eq hc.symm
  run := fun hs => ⟨hh.trans hs, Nat.le_of_eq hb⟩

/-- A decoded instruction; that the header is not decoded twice is what the block size needs. -/
theorem exec_issue_stepFrame {n : Nat} (hd : decode Config.general s.headerParsed s.unread = .ok (i, n))
    (h : exec i (s.issue Config.general i n) = .next t) : ∃ u, StepFrame s u ∧ Ends u t := by
  cases hs : s.headerParsed with
  | true =>
    rw [hs] at hd
    obtain ⟨u, hu, ht⟩ := exec_command_next (decode_ne_header hd) h
    exact ⟨u, ⟨.inl ⟨0, hu.same.pending, fun hn => absurd rfl hn⟩, Nat.le_of_eq hu.same.cap.symm,
      fun _ => ⟨hu.same.headerParsed.trans hs, hu.blocksize_le⟩⟩, ht⟩
  | false =>
    obtain ⟨u, hu, ht⟩ := exec_next h
    exact ⟨u, ⟨.inl ⟨0, hu.pending, fun hn => absurd rfl hn⟩, hu.cap_le, fun hp => by rw [hs] at hp; cases hp⟩, ht⟩

/-- Everything a step can answer: a new stream, or a state within the step's frame, or an error taken in one. -/
theorem step_next (h : step s = .next t) :
    (s.control = .idle ∧ ∃ more, s.requests = .streamOpen :: more ∧
      t = { State.reset with requests := more, results := s.results }) ∨
    ∃ u, StepFrame s u ∧ Ends u t := by
  cases hc : s.control with
  | idle =>
    cases (step_idle hc).symm.trans h
    unfold serve
    rcases hr : s.requests with - | ⟨chunk | -, more⟩
    · exact .inr ⟨s, .of_eq rfl rfl rfl rfl, .inl rfl⟩
    · obtain ⟨extra, accepted, pos, control, results, hends⟩ :=
        beginCall_ends Config.limits chunk { s with requests := more }
      refine .inr ⟨_, ?_, hends⟩
      exact ⟨.inr ⟨extra, hc, rfl⟩, Nat.le_refl _, fun hs => ⟨hs, Nat.le_refl _⟩⟩
    · exact .inl ⟨rfl, more, rfl, rfl⟩
  | pass =>
    right
    obtain rfl | ⟨c, rfl⟩ | ⟨i, n, hd, hexec⟩ := step_pass_next hc h
    · exact ⟨s.endPass .noFrame, .of_eq rfl rfl rfl rfl, .inl rfl⟩
    · exact ⟨s, .of_eq rfl rfl rfl rfl, .inr ⟨c, rfl⟩⟩
    · exact exec_issue_stepFrame hd hexec
  | finish o =>
    cases (step_finish hc).symm.trans h
    obtain ⟨n, offset, out, control, results, hends⟩ := finishPass_ends o s
    refine .inr ⟨_, ?_, hends⟩
    exact ⟨.inl ⟨n, rfl, fun _ => ⟨o, hc⟩⟩, Nat.le_refl _, fun hs => ⟨hs, Nat.le_refl _⟩⟩

/-! ### Stream open -/

/-- R36: no memory is allocated. -/
theorem reset_memoriesWf : State.reset.MemoriesWf :=
  ⟨fun _ hm => (List.not_mem_nil hm).elim, fun _ hm => (List.not_mem_nil hm).elim, Memory.wf_nil⟩

/-- R36: the buffer is empty and no call runs. -/
theorem reset_bufferInv : State.reset.BufferInv where
  cap_pos := by decide
  pending_le := Nat.zero_le _
  resume_lt := by decide
  resume_kept := fun h => absurd h (by decide)
  pos_le := fun h => absurd rfl h

/-- R36: no call runs and no flag is set. -/
theorem reset_phaseInv : State.reset.PhaseInv where
  running := fun _ => rfl
  pass_open := fun _ => rfl
  quit_run := fun h => by cases h
  finish_run := fun _ h => by cases h

end Sys2Proof.Machine

namespace Sys2Proof

open Machine

/-- Settles O11: no instruction's frame lets the cursor back or out of the buffer, and an error leaves it where it is. -/
theorem cursorNeverMovesBack : Obligations.CursorNeverMovesBack := by
  intro i s t hs h
  obtain ⟨u, hu, ht⟩ := exec_next h
  rw [ht.pos]
  exact ⟨hu.pos_le, hu.pos_fits hs⟩

/-- Settles O20: the step's frame says what became of the buffer, an error empties it or keeps it, and a new stream begins with
an empty one. -/
theorem pendingOnlyDroppedOrAppended : Obligations.PendingOnlyDroppedOrAppended := by
  intro s t h
  obtain ⟨-, more, -, rfl⟩ | ⟨u, hu, ht⟩ := step_next h
  · exact .inl rfl
  · obtain hempty | hkept := ht.pending
    · exact .inl hempty
    · rw [hkept]
      exact .inr hu.pending

/-- Settles O41: the command's frame, and what an error changes on top of it. -/
theorem commandsFrame : Obligations.CommandsFrame := by
  intro i s t hi h
  obtain ⟨u, hu, ht⟩ := exec_command_next hi h
  have same := hu.same_of_ends ht
  have buffer := ht.buffer
  rw [hu.same.pending, hu.same.bitResumeOffset] at buffer
  have error := ht.error
  rw [hu.same.fault, hu.same.results] at error
  exact ⟨same.version, same.internalFormatType, same.channels, same.nwrap, same.nmean, same.lpcqoffset, same.sampleRate,
    same.bitsPerSample, same.headerParsed, same.cap, same.histBlocksize, same.blob, same.accepted, same.requests,
    ht.bitshift ▸ hu.bitshift, ht.blocksize ▸ hu.blocksize, ht.quitReceived ▸ hu.quitReceived, buffer, error⟩

/-- Settles O52: the step's frame; an error touches neither the cap nor the block size. -/
theorem capGrowsBlocksizeShrinks : Obligations.CapGrowsBlocksizeShrinks := by
  intro s t h hlives
  obtain ⟨hidle, more, hopen, -⟩ | ⟨u, hu, ht⟩ := step_next h
  · exact absurd hidle (hlives more hopen)
  · rw [ht.cap, ht.headerParsed, ht.blocksize]
    exact ⟨hu.cap_le, hu.run⟩

/-- Settles O53: the values are those that `State.reset` is written with. -/
theorem resetValues : Obligations.ResetValues := by
  unfold Obligations.ResetValues
  decide

/-- Settles O55: the memories and the buffer are empty, no call runs, and the header's registers are fresh. -/
theorem resetMeetsInvariant : Obligations.ResetMeetsInvariant where
  memories := reset_memoriesWf
  buffer := reset_bufferInv
  phase := reset_phaseInv
  fresh := fun _ _ => ⟨rfl, rfl, rfl, rfl, rfl, rfl⟩
  run := fun h => by cases h
  frame_size := fun h => by cases h

end Sys2Proof
end

section
/-! PROOFS. Audio commands never stop for good (20_memory.md R47; 44_audio_commands.md R160 to R181). `State.Running` is what an
instruction finds after the header and what it must leave; `Midway s t` says that inside an audio command that began at `s` the
stream still runs. Every step of R160 keeps it, since an index it forms is in the wrap region or in the block, and a cell it
reads was written before. -/

namespace Sys2Proof.Machine

variable {α β : Type}

/-! ### Rules that never stop for good -/

section

variable {P E : State → Prop}

/-- A rule that never stops for good runs, whatever holds of the state it ends or raises in. -/
theorem NeverStuck.runs {m : M α} {Q : State → Prop} (hm : NeverStuck m) (hQ : ∀ s, P s → Q (finalState (m s))) :
    Runs P (fun _ => True) m fun _ => Q := by
  intro s hs
  have hfinal := hQ s hs
  rcases hms : m s with ⟨a, t⟩ | ⟨c | f, t⟩
  · rw [hms] at hfinal
    exact hfinal
  · trivial
  · exact (hm s f t hms).elim

/-- A field reader keeps what does not depend on the cursor. -/
theorem runs_of_cursor {m : M α} (hm : NeverStuck m) (hk : Keeps CursorOnly m) (hP : ∀ s n, P s → P (s.advance n)) :
    Runs P (fun _ => True) m fun _ => P :=
  hm.runs fun s hs => by
    obtain ⟨n, hfinal, -⟩ := hk s
    rw [hfinal]
    exact hP s n hs

/-- R85. -/
theorem runs_readUnsigned {k : Int} (hP : ∀ s n, P s → P (s.advance n)) :
    Runs P (fun _ => True) (readUnsigned k) fun _ => P :=
  runs_of_cursor (neverStuck_readUnsigned _) (keeps_readUnsigned _) hP

/-- R87. -/
theorem runs_readAdaptive {hint : Nat} (hP : ∀ s n, P s → P (s.advance n)) :
    Runs P (fun _ => True) (readAdaptive hint) fun _ => P :=
  runs_of_cursor (neverStuck_readAdaptive _) (keeps_readAdaptive _) hP

/-- After a check that raises, the rest may use that the check passed. -/
theorem runs_check {c : Prop} [Decidable c] {cause : Cause} {m : M α} {Q : α → State → Prop}
    (h : ¬ c → Runs P (fun _ => True) m Q) : Runs P (fun _ => True) (if c then raise cause else m) Q :=
  Runs.ite (fun _ => Runs.raise fun _ _ => trivial) h

/-- After `get` the rest runs with a state of which `P` is known. -/
theorem Runs.get_bind_of {f : State → M β} {Q : β → State → Prop} (hf : ∀ s, P s → Runs P E (f s) Q) :
    Runs P E (get >>= f) Q := by
  intro s hs
  rw [run_get_bind]
  exact hf s hs s hs

end

theorem neverStuck_modify (f : State → State) : NeverStuck (modify f : M PUnit) := fun s e t h => by simp at h

theorem neverStuck_get_bind {f : State → M β} (hf : ∀ s, NeverStuck (f s)) : NeverStuck (get >>= f) := fun s e t h => by
  rw [run_get_bind] at h
  exact hf s s e t h

theorem neverStuck_ite {c : Prop} [Decidable c] {m m' : M α} (h : NeverStuck m) (h' : NeverStuck m') :
    NeverStuck (if c then m else m') := by
  split
  · exact h
  · exact h'

theorem neverStuck_forRange {body : Int → M Unit} (h : ∀ i, NeverStuck (body i)) (n : Nat) (i : Int) :
    NeverStuck (forRange n i body) := by
  induction n generalizing i with
  | zero => exact neverStuck_pure ()
  | succ n ih => exact neverStuck_bind (h i) fun _ => ih (i + 1)

theorem neverStuck_readEnergy : NeverStuck readEnergy := neverStuck_ite (neverStuck_readAdaptive _) (neverStuck_readUnsigned _)

theorem neverStuck_readOrder : NeverStuck readOrder := neverStuck_ite (neverStuck_readAdaptive _) (neverStuck_readUnsigned _)

/-! ### Cells that hold a value -/

variable {s t u : State} {c d : Nat} {i j : Int} {n : Nat}

/-- `n` cells of the history of channel `c`, from index `i` on, hold values. -/
def State.Holds (s : State) (c : Nat) (i : Int) (n : Nat) : Prop := ∀ k : Nat, k < n → (s.histCell c (i + k)).isSome = true

theorem State.Holds.cell (h : s.Holds c i n) (hi : i ≤ j) (hj : j < i + n) : (s.histCell c j).isSome = true := by
  have := h (j - i).toNat (by omega)
  rwa [show i + ((j - i).toNat : Int) = j by omega] at this

/-- Held cells are the values of a list. -/
theorem exists_map_some {l : List (Option α)} (h : ∀ x ∈ l, x.isSome = true) : ∃ vs : List α, l = vs.map some := by
  have hrange : l ∈ Set.range (List.map (some : α → Option α)) := by
    rw [Set.range_list_map]
    intro x hx
    obtain ⟨v, rfl⟩ := Option.isSome_iff_exists.1 (h x hx)
    exact ⟨v, rfl⟩
  obtain ⟨vs, hvs⟩ := hrange
  exact ⟨vs, hvs.symm⟩

theorem State.Holds.histCells (h : s.Holds c i n) : ∃ vs : List Cell, s.histCells c i n = vs.map some := by
  refine exists_map_some fun x hx => ?_
  obtain ⟨k, hk, rfl⟩ := List.mem_map.1 hx
  exact h k (List.mem_range.1 hk)

theorem State.meanCells_of_held (h : ∀ i < max 1 s.nmean.toNat, (s.meanCell c i).isSome = true) :
    ∃ means : List Cell, s.meanCells c = means.map some := by
  refine exists_map_some fun x hx => ?_
  obtain ⟨k, hk, rfl⟩ := List.mem_map.1 hx
  exact h k (List.mem_range.1 hk)

section

variable {vs : List Cell} (h : HistWrite s t c i vs)

include h

/-- A write leaves no cell without a value that held one. -/
theorem HistWrite.keeps_held (hd : (s.histCell d j).isSome = true) : (t.histCell d j).isSome = true := by
  rw [h.cell]
  split
  · rename_i hin
    rw [List.getElem?_eq_getElem (by omega)]
    rfl
  · exact hd

/-- What was written is held. -/
theorem HistWrite.holds : t.Holds c i vs.length := fun k hk => by
  rw [h.cell, if_pos ⟨rfl, by omega, by omega⟩, List.getElem?_eq_getElem (by omega)]
  rfl

end

/-- The history depends on its stores and their range alone. -/
theorem State.histCell_congr (hh : t.hist[c]? = s.hist[c]?) (hn : t.nwrap = s.nwrap) (hb : t.histBlocksize = s.histBlocksize) :
    t.histCell c i = s.histCell c i := by
  unfold State.histCell State.histSlot
  rw [hh, hn, hb]

theorem State.meanCell_congr {k : Nat} (hm : t.mean[c]? = s.mean[c]?) (hn : t.nmean = s.nmean) :
    t.meanCell c k = s.meanCell c k := by
  unfold State.meanCell
  rw [hm, hn]

/-! ### A running stream -/

/-- What an instruction finds after the header, and what it leaves when it does not raise. -/
structure State.Running (s : State) : Prop where
  parsed : s.headerParsed = true
  run : s.RunInv
  frame_size : s.control = .finish .frame → s.out.length = s.blocksize * s.channels

/-- The stream of `s` runs on in `t` when its registers are the same and the channel due and the held cells are in order. -/
theorem State.RunInv.of_same (h : s.RunInv) (same : s.SameStream t) (hcur : t.currentChannel < s.channels)
    (hhist : t.hist.length = s.hist.length) (hmean : t.mean.length = s.mean.length)
    (hwrap : ∀ c < s.channels, ∀ i : Int, -(s.nwrap : Int) ≤ i → i < 0 → (t.histCell c i).isSome = true)
    (hblock : ∀ c < t.currentChannel, ∀ i : Int, 0 ≤ i → i < s.blocksize → (t.histCell c i).isSome = true)
    (hmeans : ∀ c < s.channels, ∀ i < max 1 s.nmean.toNat, (t.meanCell c i).isSome = true) : t.RunInv := by
  constructor
  case wrap_held => rw [same.channels, same.nwrap]; exact hwrap
  case block_held => rw [same.blocksize]; exact hblock
  case mean_held => rw [same.channels, same.nmean]; exact hmeans
  case currentChannel_lt => rw [same.channels]; exact hcur
  case hist_length => rw [hhist, same.channels]; exact h.hist_length
  case mean_length => rw [hmean, same.channels]; exact h.mean_length
  case formatType => rw [same.internalFormatType]; exact h.formatType
  case channels_pos => rw [same.channels]; exact h.channels_pos
  case channels_le => rw [same.channels]; exact h.channels_le
  case blocksize_pos => rw [same.blocksize]; exact h.blocksize_pos
  case blocksize_le => rw [same.blocksize, same.histBlocksize]; exact h.blocksize_le
  case histBlocksize_le => rw [same.histBlocksize]; exact h.histBlocksize_le
  case nwrap_ge => rw [same.nwrap]; exact h.nwrap_ge
  case nmean_v0 => rw [same.version, same.nmean]; exact h.nmean_v0
  case nmean_nonneg => rw [same.version, same.nmean]; exact h.nmean_nonneg
  case bitshift_le => rw [same.bitshift]; exact h.bitshift_le
  case lpcqoffset => rw [same.lpcqoffset, same.version]; exact h.lpcqoffset
  case bits => rw [same.bitsPerSample]; exact h.bits
  case blob_ge => rw [same.blob]; exact h.blob_ge
  case blob_lt => rw [same.blob]; exact h.blob_lt

theorem State.RunInv.holds_wrap (h : s.RunInv) : s.Holds s.currentChannel (-(s.nwrap : Int)) s.nwrap := fun k hk =>
  h.wrap_held _ h.currentChannel_lt _ (by omega) (by omega)

theorem State.RunInv.channel_hist (h : s.RunInv) : s.currentChannel < s.hist.length := by
  rw [h.hist_length]
  exact h.currentChannel_lt

/-- R160, steps 4 to 7: what the stream is after a channel's block. -/
theorem AudioDone.running {wrap block : List Cell} (h : AudioDone s t wrap block) (hs : s.Running)
    (hframe : AudioFrame true s.currentChannel s t) (hwrap : wrap.length = s.nwrap) (hblock : block.length = s.blocksize) :
    t.Running := by
  have same := h.same
  have other : ∀ d, d ≠ s.currentChannel → ∀ i, t.histCell d i = s.histCell d i := fun d hd i =>
    State.histCell_congr (h.otherHist d hd) same.nwrap same.histBlocksize
  have shifted : ∀ i : Int, 0 ≤ i → i < s.blocksize → (t.histCell s.currentChannel i).isSome = true := fun i h0 hi => by
    lift i to Nat using h0
    rw [h.shifted i (by omega), List.getElem?_eq_getElem (by omega)]
    rfl
  have hnext : s.currentChannel + 1 < s.channels ∨ s.currentChannel + 1 = s.channels := by
    have := hs.run.currentChannel_lt
    omega
  have hcur : t.currentChannel < s.channels ∧ t.currentChannel ≤ s.currentChannel + 1 := by
    obtain hlt | heq := hnext
    · rw [(h.next hlt).1]
      omega
    · rw [(h.complete heq).1]
      omega
  refine ⟨same.headerParsed.trans hs.parsed, ?_, ?_⟩
  · refine hs.run.of_same same hcur.1 hframe.histLength hframe.meanLength ?_ ?_ ?_
    · intro d hd i hlo hhi
      by_cases hdc : d = s.currentChannel
      · have := h.wrapped (i + s.nwrap).toNat (by omega)
        rw [show ((i + s.nwrap).toNat : Int) - s.nwrap = i by omega,
          List.getElem?_eq_getElem (by rw [List.length_append]; omega)] at this
        rw [hdc, this]
        rfl
      · rw [other d hdc]
        exact hs.run.wrap_held d hd i hlo hhi
    · intro d hd i hlo hhi
      by_cases hdc : d = s.currentChannel
      · rw [hdc]
        exact shifted i hlo hhi
      · rw [other d hdc]
        exact hs.run.block_held d (by omega) i hlo hhi
    · intro d hd k hk
      by_cases hdc : d = s.currentChannel
      · obtain ⟨means, hmeans⟩ := State.meanCells_of_held (hs.run.mean_held _ hs.run.currentChannel_lt)
        have hafter := h.means means hmeans
        rw [← same.nmean] at hk
        have hlen := State.length_of_meanCells hafter
        rw [hdc, State.meanCell_of_meanCells hafter (List.getElem?_eq_getElem (by omega))]
        rfl
      · rw [State.meanCell_congr (h.otherMean d hdc) same.nmean]
        exact hs.run.mean_held d hd k hk
  · intro hctl
    rw [same.blocksize, same.channels]
    obtain hlt | heq := hnext
    · obtain ⟨-, hcontrol, hout⟩ := h.next hlt
      rw [hout]
      exact hs.frame_size (hcontrol ▸ hctl)
    · exact (h.complete heq).2.2.1

/-! ### Inside an audio command -/

/-- From the start `s` of an audio command to a place `t` inside it: the stream runs and the same channel is due. -/
structure Midway (s t : State) : Prop where
  running : t.Running
  histWf : ∀ m ∈ t.hist, m.wf
  same : s.SameStream t
  current : t.currentChannel = s.currentChannel

/-- Working registers, the cursor and the coefficient file may change. -/
theorem Midway.working (h : Midway s t)
    (hu : u = { t with
      pos := u.pos, residualSize := u.residualSize, coffset := u.coffset, order := u.order, shift := u.shift
      initSum := u.initSum, sum := u.sum, coef := u.coef }) : Midway s u where
  running := by rw [hu]; exact ⟨h.running.parsed, { h.running.run with }, h.running.frame_size⟩
  histWf := by rw [hu]; exact h.histWf
  same := h.same.trans (by rw [hu]; constructor <;> rfl)
  current := by rw [hu]; exact h.current

theorem Midway.histWrite {vs : List Cell} (h : Midway s t) (hw : HistWrite t u c i vs) : Midway s u where
  running := by
    have hsame : t.SameStream u := by rw [hw.rest]; constructor <;> rfl
    have hcur : u.currentChannel = t.currentChannel := by rw [hw.rest]
    refine ⟨hsame.headerParsed.trans h.running.parsed, ?_, by rw [hw.rest]; exact h.running.frame_size⟩
    refine h.running.run.of_same hsame (hcur ▸ h.running.run.currentChannel_lt) hw.length (by rw [hw.rest]) ?_ ?_ ?_
    · exact fun d hd j hlo hhi => hw.keeps_held (h.running.run.wrap_held d hd j hlo hhi)
    · rw [hcur]
      exact fun d hd j hlo hhi => hw.keeps_held (h.running.run.block_held d hd j hlo hhi)
    · intro d hd k hk
      rw [State.meanCell_congr (by rw [hw.rest]) hsame.nmean]
      exact h.running.run.mean_held d hd k hk
  histWf := hw.wf h.histWf
  same := h.same.trans (by rw [hw.rest]; constructor <;> rfl)
  current := by rw [hw.rest]; exact h.current

section

variable (h : Midway s t)

include h

theorem Midway.channel_hist : s.currentChannel < t.hist.length := h.current ▸ h.running.run.channel_hist

theorem Midway.holds_wrap : t.Holds s.currentChannel (-(s.nwrap : Int)) s.nwrap := by
  rw [← h.current, ← h.same.nwrap]
  exact h.running.run.holds_wrap

/-- The last cells of the wrap region are held. -/
theorem Midway.holds_taps (hn : n ≤ s.nwrap) : t.Holds s.currentChannel (-(n : Int)) n := fun k hk =>
  h.holds_wrap.cell (by omega) (by omega)

theorem Midway.blocksize_le : s.blocksize ≤ t.histBlocksize := h.same.blocksize ▸ h.running.run.blocksize_le

end

theorem runs_midway_of_cursor {m : M α} (hm : NeverStuck m) (hk : Keeps CursorOnly m) :
    Runs (Midway s) (fun _ => True) m fun _ => Midway s :=
  runs_of_cursor hm hk fun _ _ h => h.working rfl

/-- R161. -/
theorem runs_readResidualSize : Runs (Midway s) (fun _ => True) readResidualSize fun _ => Midway s :=
  (runs_midway_of_cursor neverStuck_readEnergy keeps_readEnergy).bind fun _ => Runs.modify fun _ h => h.working rfl

/-- R163: the entries of the mean store hold values. -/
theorem runs_computeCoffset : Runs (Midway s) (fun _ => True) (computeCoffset s.currentChannel) fun _ => Midway s := by
  intro t h
  obtain ⟨means, hmeans⟩ := State.meanCells_of_held (h.running.run.mean_held _ h.running.run.currentChannel_lt)
  rw [h.current] at hmeans
  rw [computeCoffset_runs hmeans]
  exact h.working rfl

/-- R170: with as many samples before the block as there are taps, only a residual stops the loop, and a residual never stops for
good. -/
theorem predictRun_stop {cv : List Int} {shift : Nat} {initSum : Cell} (n : Nat) {recent : List Cell}
    (hcv : cv.length ≤ recent.length) (t : State) (f : Fault) :
    (predictRun cv shift initSum n recent t).stop ≠ some (.stuck f) := by
  induction n generalizing recent t with
  | zero => exact fun h => by cases h
  | succ n ih =>
    obtain ⟨sum, hsum⟩ := sumTaps_isSome initSum hcv
    unfold predictRun
    rw [hsum]
    dsimp only
    rcases hr : readSigned t.residualSize { t with sum := sum } with ⟨r, u⟩ | ⟨e, u⟩
    · exact ih (by simp only [List.length_cons]; omega) u
    · rintro ⟨⟩
      exact neverStuck_readSigned _ _ _ _ hr

/-- R170: no tap reaches past the wrap region, so the block is decoded or a residual raises. -/
theorem runs_predict {cv : List Int} (hcv : cv.length ≤ s.nwrap) (shift : Nat) (initSum : Cell) :
    Runs (Midway s) (fun _ => True) (predict s.currentChannel cv shift initSum)
      fun _ t => Midway s t ∧ t.Holds s.currentChannel 0 s.blocksize := by
  intro t h
  obtain ⟨wrap, hwrap⟩ := h.holds_wrap.histCells
  have hlen := (State.histCells_iff.1 hwrap).1
  rw [← h.same.nwrap] at hwrap hcv hlen
  obtain ⟨u, hw, hrun⟩ := predict_runs (shift := shift) (initSum := initSum) h.histWf h.channel_hist
    h.running.run.blocksize_le hcv hwrap
  obtain ⟨-, hall, k, sum, hstate, -⟩ := predictRun_spec (cv := cv) (shift := shift) (initSum := initSum) t.blocksize
    (wrap.drop (t.nwrap - cv.length)).reverse t
  have hstop := predictRun_stop (cv := cv) (shift := shift) (initSum := initSum) t.blocksize
    (recent := (wrap.drop (t.nwrap - cv.length)).reverse) (by rw [List.length_reverse, List.length_drop]; omega) t
  rw [hrun]
  generalize predictRun cv shift initSum t.blocksize (wrap.drop (t.nwrap - cv.length)).reverse t = run at hw hall hstate hstop
  have hmid : Midway s run.state := h.working (by rw [hstate]; rfl)
  rcases hs : run.stop with - | ⟨c | f⟩
  · have hheld := hw.holds
    rw [hall hs, h.same.blocksize] at hheld
    exact ⟨hmid.histWrite hw, hheld⟩
  · trivial
  · exact hstop f hs

/-- A write inside the allocated range runs. -/
theorem Midway.writeHist_runs (h : Midway s t) {vs : List Cell} (hlo : -(s.nwrap : Int) ≤ i)
    (hhi : i + vs.length ≤ s.blocksize) :
    ∃ u, writeHist s.currentChannel i vs t = .ok () u ∧ HistWrite t u s.currentChannel i vs := by
  refine Machine.writeHist_runs h.channel_hist (State.histRange_iff.2 ?_)
  rw [h.same.nwrap]
  have := h.blocksize_le
  omega

/-- R164. -/
theorem runs_zeroBlock :
    Runs (Midway s) (fun _ => True) (writeHist s.currentChannel 0 (List.replicate s.blocksize 0))
      fun _ t => Midway s t ∧ t.Holds s.currentChannel 0 s.blocksize := by
  intro t h
  obtain ⟨u, hrun, hw⟩ := h.writeHist_runs (i := 0) (vs := List.replicate s.blocksize 0) (by omega)
    (by rw [List.length_replicate]; omega)
  have hheld := hw.holds
  rw [List.length_replicate] at hheld
  rw [hrun]
  exact ⟨h.histWrite hw, hheld⟩

/-- The first `n` coefficients hold values (R28). -/
def State.HoldsCoefs (s : State) (n : Nat) : Prop := ∀ j < n, (s.coef.read j).isSome = true

theorem State.holdsCoefs_zero (s : State) : s.HoldsCoefs 0 := fun _ hj => absurd hj (Nat.not_lt_zero _)

theorem State.HoldsCoefs.write (h : s.HoldsCoefs n) (v : Cell) :
    State.HoldsCoefs { s with coef := s.coef.write n v } (n + 1) := fun j hj => by
  show ((s.coef.write n v).read j).isSome = true
  by_cases hjn : j = n
  · rw [hjn, Memory.read_write_same]
    rfl
  · rw [Memory.read_write_other _ _ hjn]
    exact h j (by omega)

/-- R171: the offset is added to cells that hold values; the coefficient file keeps what it holds. -/
theorem runs_offsetHist {i : Int} {m : Nat} (hlo : -(s.nwrap : Int) ≤ i) (hhi : i + n ≤ s.blocksize) (d : Int) :
    Runs (fun t => Midway s t ∧ t.Holds s.currentChannel i n ∧ t.HoldsCoefs m) (fun _ => True)
      (offsetHist s.currentChannel i n d) fun _ t => Midway s t ∧ t.Holds s.currentChannel i n ∧ t.HoldsCoefs m := by
  refine Runs.ite (fun _ => Runs.pure fun _ h => h) fun _ t ⟨h, hheld, hcoefs⟩ => ?_
  have hrange : t.histRange i n = true := by
    rw [State.histRange_iff, h.same.nwrap]
    have := h.blocksize_le
    omega
  obtain ⟨vs, hread, rfl, -⟩ := readHist_runs h.histWf h.channel_hist hrange hheld
  obtain ⟨u, hrun, hw⟩ := h.writeHist_runs (vs := vs.map fun v => wrap32 (v.toInt + d)) hlo (by rwa [List.length_map])
  rw [run_bind_ok hread, hrun]
  refine ⟨h.histWrite hw, fun k hk => hw.keeps_held (hheld k hk), ?_⟩
  rw [hw.rest]
  exact hcoefs

/-- R171: an order of at most `nwrap` coefficients fits the coefficient file. -/
theorem runs_readCoefs (hn : n ≤ s.nwrap) :
    Runs (Midway s) (fun _ => True) (readCoefs n) fun _ t => Midway s t ∧ t.HoldsCoefs n := by
  refine (Runs.forRange (fun k t => Midway s t ∧ t.HoldsCoefs k) n 0 fun k hk => ?_).weaken
    (fun t h => ⟨h, t.holdsCoefs_zero⟩) (fun _ h => h) fun _ _ h => h
  refine (runs_of_cursor (neverStuck_readSigned _) (keeps_readSigned _) fun t _ h => ⟨h.1.working rfl, h.2⟩).bind fun v t h => ?_
  obtain ⟨hmid, hcoefs⟩ := h
  rw [show (0 + (k : Int)).toNat = k by omega]
  obtain ⟨-, hw⟩ | ⟨hout, -⟩ := writeCoef_cases k (wrap32 v) t
  · rw [hw]
    exact ⟨hmid.working rfl, hcoefs.write _⟩
  · rw [hmid.same.nwrap] at hout
    omega

/-- R171: the coefficients that were read are there. -/
theorem runs_collectCoefs (hn : n ≤ s.nwrap) :
    Runs (fun t => Midway s t ∧ t.HoldsCoefs n) (fun _ => True) (collectRange n 0 fun j => readCoef j.toNat)
      fun cv t => Midway s t ∧ cv.length = n := by
  intro t ⟨h, hcoefs⟩
  have hlen : ((List.range n).map fun j => (t.coef.read j).getD 0).length = n := by simp
  rw [collectRange_runs (body := fun j => readCoef j.toNat) (i := 0) hlen fun k v hv => ?_]
  · exact ⟨h, hlen⟩
  · have hk : k < n := hlen ▸ (List.getElem?_eq_some_iff.1 hv).1
    rw [show (0 + (k : Int)).toNat = k by omega]
    obtain ⟨w, -, hw, hr⟩ | ⟨hout | hnone, -⟩ := readCoef_cases k t
    · have : w = v := by simpa [hk, hw] using hv
      rw [hr, this]
    · rw [h.same.nwrap] at hout
      omega
    · have := hcoefs k hk
      rw [hnone] at this
      cases this

/-- R171, R172. -/
theorem runs_qlpcBody :
    Runs (Midway s) (fun _ => True) (qlpcBody s.currentChannel)
      fun _ t => Midway s t ∧ t.Holds s.currentChannel 0 s.blocksize := by
  refine (runs_midway_of_cursor neverStuck_readOrder keeps_readOrder).bind fun order =>
    (Runs.modify (Q := fun _ => Midway s) fun _ h => h.working rfl).bind fun _ => Runs.get_bind_of fun t ht =>
    runs_check fun hfits => ?_
  have hn : order ≤ s.nwrap := by rw [← ht.same.nwrap]; omega
  refine (runs_readCoefs hn).bind fun _ =>
    (Runs.modify (Q := fun _ t => Midway s t ∧ t.Holds s.currentChannel (-(order : Int)) order ∧ t.HoldsCoefs order)
      fun u h => ⟨h.1.working rfl, h.1.holds_taps hn, h.2⟩).bind fun _ =>
    (runs_offsetHist (by omega) (by omega) _).bind fun _ =>
    (Runs.modify (Q := fun _ t => Midway s t ∧ t.HoldsCoefs order) fun u h => ⟨h.1.working rfl, h.2.2⟩).bind fun _ =>
    (runs_collectCoefs hn).bind fun cv u ⟨hu, hcv⟩ => ?_
  rw [run_get_bind]
  refine ((runs_predict (by rwa [List.length_map, hcv]) u.shift u.initSum).bind fun _ => ?_) u hu
  rw [ht.same.blocksize]
  exact (runs_offsetHist (by omega) (by omega) _).weaken (fun v h => ⟨h.1, h.2, v.holdsCoefs_zero⟩) (fun _ h => h)
    fun _ _ h => ⟨h.1, h.2.1⟩

/-- R160, steps 4 to 7, where the block of the channel is held. -/
theorem runs_postProcess (hs : s.currentChannel = c) :
    Runs (fun t => Midway s t ∧ t.Holds c 0 s.blocksize) (fun _ => True) (postProcess c) fun _ => State.Running := by
  intro t ⟨h, hheld⟩
  have hrun := h.running.run
  obtain ⟨wrap, hwrap⟩ := hrun.holds_wrap.histCells
  rw [← hs, ← h.current, ← h.same.blocksize] at hheld
  obtain ⟨block, hblock⟩ := hheld.histCells
  obtain ⟨means, hmeans⟩ := State.meanCells_of_held (hrun.mean_held _ hrun.currentChannel_lt)
  obtain ⟨u, hpost, hdone, -⟩ := postProcess_runs h.histWf hrun.currentChannel_lt hrun.hist_length hrun.mean_length
    hrun.blocksize_le hwrap hblock hmeans hrun.block_held
  have hframe : AudioFrame true t.currentChannel t (finalState (postProcess t.currentChannel t)) :=
    inFrame_postProcess t rfl
  rw [hpost] at hframe
  rw [← hs, ← h.current, hpost]
  exact hdone.running h.running hframe (State.histCells_iff.1 hwrap).1 (State.histCells_iff.1 hblock).1

theorem Midway.start (hs : s.Running) (hwf : s.MemoriesWf) : Midway s s := ⟨hs, hwf.1, .refl s, rfl⟩

section

variable (hs : s.Running) (hwf : s.MemoriesWf) {body : Nat → M Unit}
  (hbody : Runs (Midway s) (fun _ => True) (body s.currentChannel)
    fun _ t => Midway s t ∧ t.Holds s.currentChannel 0 s.blocksize)

include hs hwf hbody

/-- R160: an audio command whose body decodes the block or raises. -/
theorem runs_audioCommand : Runs (· = s) (fun _ => True) (audioCommand body) fun _ => State.Running := by
  rintro _ rfl
  unfold audioCommand
  rw [run_get_bind]
  exact (runs_readResidualSize.bind fun _ => runs_computeCoffset.bind fun _ => hbody.bind fun _ => runs_postProcess rfl) _
    (.start hs hwf)

/-- R160 for ZERO. -/
theorem runs_zeroCommand : Runs (· = s) (fun _ => True) (zeroCommand body) fun _ => State.Running := by
  rintro _ rfl
  unfold zeroCommand
  rw [run_get_bind]
  exact (runs_computeCoffset.bind fun _ => hbody.bind fun _ => runs_postProcess rfl) _ (.start hs hwf)

end

/-- R163, R166 to R169: a fixed predictor has at most `NWRAP_MIN` taps. -/
theorem fixedCoefs_length_le (k : Nat) : (fixedCoefs k).length ≤ Config.nwrapMin := by
  unfold fixedCoefs
  split <;> decide

/-- R166: the wrap region has room for every fixed predictor. -/
theorem runs_predict_fixed (hs : s.Running) (k shift : Nat) (initSum : Cell) :
    Runs (Midway s) (fun _ => True) (predict s.currentChannel (fixedCoefs k) shift initSum)
      fun _ t => Midway s t ∧ t.Holds s.currentChannel 0 s.blocksize :=
  runs_predict ((fixedCoefs_length_le k).trans hs.run.nwrap_ge) shift initSum

end Sys2Proof.Machine
end

section
/-! PROOFS. The other instructions never stop for good, and what they leave when they do not raise can run: the commands that are
not audio (43_interpreter_control.md R142 to R149) because they touch no cell, the header (41_header.md R101 to R111) because it
fills what a running stream reads. The header is followed through stages, each with what is still missing. -/

namespace Sys2Proof.Machine

variable {α β : Type} {s t u : State} {i : Instr}

/-! ### The other commands -/

theorem neverStuck_verbatimRule (g : Config.General) : NeverStuck (verbatimRule g) :=
  neverStuck_bind (neverStuck_readUnsigned _) fun _ => neverStuck_bind (neverStuck_modify _) fun _ =>
    neverStuck_forRange (fun _ => neverStuck_bind (neverStuck_readUnsigned _) fun _ => neverStuck_pure _) _ _

theorem neverStuck_bitshiftRule : NeverStuck bitshiftRule :=
  neverStuck_bind (neverStuck_readUnsigned _) fun _ => neverStuck_ite (neverStuck_raise _) (neverStuck_modify _)

theorem neverStuck_blocksizeRule : NeverStuck blocksizeRule :=
  neverStuck_get_bind fun _ => neverStuck_bind (neverStuck_readAdaptive _) fun _ =>
    neverStuck_ite (neverStuck_raise _) (neverStuck_ite (neverStuck_raise _) (neverStuck_modify _))

theorem neverStuck_illegal10or11Rule : NeverStuck illegal10or11Rule :=
  neverStuck_bind (neverStuck_readBits _) fun _ => neverStuck_bind (neverStuck_modify _) fun _ => neverStuck_raise _

theorem neverStuck_illegal12upRule : NeverStuck illegal12upRule :=
  neverStuck_bind (neverStuck_readUnsigned _) fun _ => neverStuck_bind (neverStuck_modify _) fun _ => neverStuck_raise _

theorem ControlFrame.running (h : ControlFrame s t) (hs : s.Running) : t.Running := by
  obtain ⟨n, cmd, len, rfl, -⟩ := h
  exact ⟨hs.parsed, { hs.run with }, hs.frame_size⟩

/-- R146: the shift that is written is legal. -/
theorem bitshiftRule_running (hs : s.Running) : (finalState (bitshiftRule s)).Running := by
  obtain ⟨u, hu, heq | ⟨v, hv, heq⟩⟩ := bitshiftRule_frame s <;> rw [heq]
  · exact hu.running hs
  · have hrun := hu.running hs
    exact ⟨hrun.parsed, { hrun.run with bitshift_le := hv }, hrun.frame_size⟩

/-- R147: the block size that is written is legal, and a shorter block is held where a longer one was. -/
theorem blocksizeRule_running (hs : s.Running) : (finalState (blocksizeRule s)).Running := by
  obtain ⟨u, hu, heq | ⟨v, hpos, hv, heq⟩⟩ := blocksizeRule_frame s <;> rw [heq]
  · exact hu.running hs
  · have hrun := hu.running hs
    have hle : v ≤ u.blocksize := by
      obtain ⟨n, cmd, len, rfl, -⟩ := hu
      exact hv
    refine ⟨hrun.parsed, ?_, fun h => by cases h⟩
    exact
      { hrun.run with
        blocksize_pos := hpos
        blocksize_le := hle.trans hrun.run.blocksize_le
        block_held := fun c hc j hlo hhi => hrun.run.block_held c hc j hlo (lt_of_lt_of_le hhi (Int.ofNat_le.2 hle)) }

/-! ### The header -/

/-- A header of which the block parameters of R103 may still be missing: the channel count is read, everything else is fresh. -/
structure State.LacksBlockParameters (s : State) : Prop where
  fresh : State.FreshInv { s with channels := 0 }
  channels_pos : 0 < s.channels
  channels_le : s.channels ≤ Config.maxChannels

/-- R101 to R104: what the parameters of a header are when none of them is refused. -/
structure State.ParametersInv (s : State) : Prop where
  channels_pos : 0 < s.channels
  channels_le : s.channels ≤ Config.maxChannels
  blocksize_pos : 0 < s.blocksize
  blocksize_le : s.blocksize ≤ Config.maxBlocksize
  nmean_v0 : s.version = 0 → s.nmean = -1
  nmean_nonneg : s.version ≠ 0 → 0 ≤ s.nmean
  lpcqoffset : s.lpcqoffset = 0

/-- A header of which only the blob, and the sample format that stands in it, may still be missing (R105 to R107). -/
def State.LacksBlob (s : State) : Prop :=
  ∀ blob : List Byte, Config.headerBlobMin ≤ blob.length → blob.length < Config.headerBlobLim →
    State.RunInv { s with blob := blob, bitsPerSample := 16, currentChannel := 0, bitshift := 0 }

/-- Neither the cursor nor what the blob is parsed into matters to a header that lacks its blob. -/
theorem State.LacksBlob.of_rest (h : s.LacksBlob)
    (hu : u = { s with pos := u.pos, blob := u.blob, sampleRate := u.sampleRate, bitsPerSample := u.bitsPerSample }) :
    u.LacksBlob := by
  rw [hu]
  exact fun blob hmin hlim => { h blob hmin hlim with }

theorem runs_readVersion : Runs State.FreshInv (fun _ => True) readVersion fun _ => State.FreshInv :=
  (runs_of_cursor (neverStuck_readBits _) (keeps_readBits _) fun _ _ h => { h with }).bind fun _ =>
    Runs.modify fun _ h => { h with }

/-- R102, R205: the channel count is in range. -/
theorem runs_readTypeAndChannels (g : Config.General) :
    Runs State.FreshInv (fun _ => True) (readTypeAndChannels g) fun _ => State.LacksBlockParameters :=
  (runs_readAdaptive fun _ _ h => { h with }).bind fun _ =>
  (Runs.modify (Q := fun _ => State.FreshInv) fun _ h => { h with }).bind fun _ =>
  (runs_readAdaptive fun _ _ h => { h with }).bind fun _ =>
  Runs.ite
    (fun _ => (Runs.modify (Q := fun _ _ => True) fun _ _ => trivial).bind fun _ => Runs.raise fun _ _ => trivial)
    fun hn => Runs.modify fun _ h =>
      ⟨{ h with channels := rfl }, Nat.pos_of_ne_zero fun h0 => hn (.inl h0), Nat.le_of_not_lt fun hgt => hn (.inr hgt)⟩

/-- R103: the block size is in range, and `nmean` is what the header gives, or -1 at version 0. -/
theorem runs_readBlockParameters :
    Runs State.LacksBlockParameters (fun _ => True) readBlockParameters fun _ => State.ParametersInv := by
  refine Runs.get_bind fun s => Runs.ite (fun hv => Runs.pure fun t h => ?_) fun hv => ?_
  · obtain ⟨rfl, hfresh, hpos, hle⟩ := h
    exact ⟨hpos, hle, by rw [hfresh.blocksize]; decide, by rw [hfresh.blocksize]; decide, fun _ => hfresh.nmean,
      fun hne => absurd hv hne, hfresh.lpcqoffset⟩
  · refine Runs.weaken (P := fun t => t.LacksBlockParameters ∧ t.version ≠ 0) ?_
      (fun t ⟨heq, h⟩ => ⟨heq ▸ h, heq ▸ hv⟩) (fun _ h => h) fun _ _ h => h
    refine (runs_readAdaptive fun _ _ h =>
      ⟨⟨{ h.1.fresh with }, h.1.channels_pos, h.1.channels_le⟩, h.2⟩).bind fun b =>
      runs_check fun hb => ?_
    refine (Runs.modify (Q := fun _ t => ∀ nmean : Nat, State.ParametersInv { t with nmean := nmean }) ?_).bind fun _ =>
      (runs_readAdaptive fun _ _ h nmean => { h nmean with }).bind fun _ =>
      (runs_readAdaptive fun _ _ h nmean => { h nmean with }).bind fun _ =>
      (Runs.modify (Q := fun _ => State.ParametersInv) fun _ h => h _).bind fun _ =>
      (runs_readAdaptive fun _ _ h => { h with }).bind fun n =>
      (Runs.forRange (fun _ => State.ParametersInv) n 0 fun _ _ =>
        runs_of_cursor (neverStuck_skipBits _) (keeps_skipBits _) fun _ _ h => { h with }).bind fun _ =>
      Runs.pure fun _ h => h
    rintro t ⟨⟨hfresh, hpos, hle⟩, hne⟩ nmean
    exact ⟨hpos, hle, by show 0 < b; omega, by show b ≤ _; omega, fun h0 => absurd h0 hne, fun _ => Int.natCast_nonneg _,
      hfresh.lpcqoffset⟩

/-- R105: the histories are allocated, and their wrap regions are zero. -/
structure State.HistoryInv (s : State) : Prop extends s.ParametersInv where
  nwrap_ge : Config.nwrapMin ≤ s.nwrap
  histBlocksize : s.histBlocksize = s.blocksize
  hist : s.hist = List.replicate s.channels (Memory.filled s.nwrap 0)

theorem runs_allocateHistory (limits : Config.Limits) :
    Runs (fun s => s.ParametersInv ∧ Config.nwrapMin ≤ s.nwrap) (fun _ => True) (allocateHistory limits)
      fun _ => State.HistoryInv := by
  refine Runs.get_bind fun s => runs_check fun _ => Runs.modify ?_
  rintro _ ⟨rfl, h, hn⟩
  exact { h with nwrap_ge := hn, histBlocksize := rfl, hist := rfl }

/-- R106: the mean stores are allocated and filled, and the format type is the supported one. -/
structure State.MeansInv (s : State) : Prop extends s.HistoryInv where
  formatType : s.internalFormatType = Config.general.typeS16HL
  mean : s.mean = List.replicate s.channels (Memory.filled (max 1 s.nmean.toNat) Config.meanInit)

theorem runs_allocateMeans (limits : Config.Limits) :
    Runs State.HistoryInv (fun _ => True) (allocateMeans Config.general limits) fun _ => State.MeansInv := by
  refine Runs.get_bind fun s => runs_check fun _ =>
    (Runs.modify (Q := fun _ t => t.HistoryInv ∧ t.internalFormatType = s.internalFormatType) ?_).bind fun _ =>
    runs_check fun hformat => Runs.modify fun t ⟨h, heq⟩ =>
      { h with formatType := heq.trans (not_not.1 hformat), mean := rfl }
  rintro _ ⟨rfl, h⟩
  exact ⟨{ h with }, rfl⟩

/-- R31: the wrap region of a fresh history. -/
theorem State.HistoryInv.wrap_held (h : s.HistoryInv) {c : Nat} (hc : c < s.channels) {j : Int} (hlo : -(s.nwrap : Int) ≤ j)
    (hhi : j < 0) : (s.histCell c j).isSome = true := by
  have hm : s.hist[c]? = some (Memory.filled s.nwrap 0) := by
    rw [h.hist, List.getElem?_replicate_of_lt hc]
  rw [State.histCell_eq hm hlo (by omega), Memory.read_filled, if_pos (by omega)]
  rfl

/-- R32: a fresh mean store. -/
theorem State.MeansInv.mean_held (h : s.MeansInv) {c k : Nat} (hc : c < s.channels) (hk : k < max 1 s.nmean.toNat) :
    (s.meanCell c k).isSome = true := by
  unfold State.meanCell
  rw [h.mean, List.getElem?_replicate_of_lt hc]
  dsimp only
  rw [if_pos hk, Memory.read_filled, if_pos hk]
  rfl

/-- With the offset of QLPC everything but the blob is there. -/
theorem State.MeansInv.lacksBlob (h : s.MeansInv) {offset : Nat}
    (hoffset : offset = if 1 < s.version.toNat then Config.general.lpcqOffsetV2 else 0) :
    State.LacksBlob { s with lpcqoffset := offset } := fun _ hmin hlim =>
  { h with
    blocksize_le := Nat.le_of_eq h.histBlocksize.symm
    histBlocksize_le := h.histBlocksize ▸ h.blocksize_le
    bitshift_le := Nat.zero_le _
    lpcqoffset := hoffset
    bits := rfl
    blob_ge := hmin
    blob_lt := hlim
    currentChannel_lt := h.channels_pos
    hist_length := (congrArg List.length h.hist).trans List.length_replicate
    mean_length := (congrArg List.length h.mean).trans List.length_replicate
    wrap_held := fun _ hc _ hlo hhi => h.wrap_held hc hlo hhi
    block_held := fun _ hc => absurd hc (Nat.not_lt_zero _)
    mean_held := fun _ hc _ hk => h.mean_held hc hk }

/-- R107. -/
theorem runs_setLpcqOffset :
    Runs State.MeansInv (fun _ => True) (setLpcqOffset Config.general) fun _ => State.LacksBlob := by
  refine Runs.modify fun s h => ?_
  split
  · rename_i hv
    exact h.lacksBlob (if_pos hv).symm
  · rename_i hv
    exact h.lacksBlob (h.lpcqoffset.trans (if_neg hv).symm)

/-- R108: the length of the blob is in range. -/
theorem runs_readBlobLength {P : State → Prop} (hP : ∀ s n, P s → P (s.advance n)) :
    Runs P (fun _ => True) (readBlobLength Config.general)
      fun n s => P s ∧ Config.headerBlobMin ≤ n ∧ n < Config.headerBlobLim :=
  (runs_readUnsigned hP).bind fun _ =>
  runs_check fun _ =>
  (runs_readUnsigned hP).bind fun _ =>
  runs_check fun hn => Runs.pure fun _ h => ⟨h, by omega, by omega⟩

/-- R109: the blob has the length that was read. -/
theorem runs_readBlob (n : Nat) :
    Runs State.LacksBlob (fun _ => True) (readBlob n) fun _ s => s.LacksBlob ∧ s.blob.length = n := by
  refine (Runs.modify (Q := fun _ s => s.LacksBlob ∧ s.blob.length = 0) fun s h => ⟨h.of_rest rfl, rfl⟩).bind fun _ =>
    Runs.forRange (fun k s => s.LacksBlob ∧ s.blob.length = k) n 0 fun k _ => ?_
  refine (runs_readUnsigned fun _ _ h => ⟨h.1.of_rest rfl, h.2⟩).bind fun v =>
    Runs.modify fun s h => ⟨h.1.of_rest rfl, ?_⟩
  rw [List.length_append, h.2]
  rfl

section

variable {P : State → Prop}

theorem runs_getBlob (p n : Nat) : Runs P (fun _ => True) (getBlob p n) fun _ => P := by
  intro s h
  obtain ⟨-, hrun⟩ | ⟨-, hrun⟩ := getBlob_cases p n s <;> rw [hrun]
  · exact h
  · trivial

theorem runs_findFmt (rounds p : Nat) : Runs P (fun _ => True) (findFmt rounds p) fun _ => P := by
  induction rounds generalizing p with
  | zero => exact Runs.raise fun _ _ => trivial
  | succ rounds ih =>
    exact (runs_getBlob _ _).bind fun _ => Runs.ite (fun _ => Runs.pure fun _ h => h) fun _ =>
      (runs_getBlob _ _).bind fun _ => (runs_getBlob _ _).bind fun _ => ih _

/-- R110: 16 bits a sample, or an error. -/
theorem runs_parseFmt (hrate : ∀ s rate, P s → P { s with sampleRate := rate })
    (hbits : ∀ s bits, P s → P { s with bitsPerSample := bits }) (p : Nat) :
    Runs P (fun _ => True) (parseFmt p) fun _ s => P s ∧ s.bitsPerSample = 16 :=
  (runs_getBlob _ _).bind fun _ => runs_check fun _ =>
  (runs_getBlob _ _).bind fun _ => runs_check fun _ =>
  (runs_getBlob _ _).bind fun _ => (runs_getBlob _ _).bind fun _ =>
  (Runs.modify (Q := fun _ => P) fun s h => hrate s _ h).bind fun _ =>
  (runs_getBlob _ _).bind fun _ => (runs_getBlob _ _).bind fun _ => (runs_getBlob _ _).bind fun _ =>
  runs_check fun h16 => Runs.modify fun s h =>
    ⟨hbits s _ h, by show BitVec.ofNat 16 _ = 16; rw [not_not.1 h16]; rfl⟩

theorem runs_parseWave (hrate : ∀ s rate, P s → P { s with sampleRate := rate })
    (hbits : ∀ s bits, P s → P { s with bitsPerSample := bits }) :
    Runs P (fun _ => True) parseWave fun _ s => P s ∧ s.bitsPerSample = 16 :=
  (runs_getBlob _ _).bind fun _ => runs_check fun _ =>
  (runs_getBlob _ _).bind fun _ => (runs_getBlob _ _).bind fun _ =>
  runs_check fun _ =>
  Runs.get_bind_of fun _ _ => (runs_findFmt _ _).bind fun p => runs_parseFmt hrate hbits p

end

/-- R108 to R111: the blob completes the stream. -/
theorem runs_blob :
    Runs State.LacksBlob (fun _ => True) (do
        let blobLen ← readBlobLength Config.general
        readBlob blobLen
        parseWave
        modify fun s => { s with currentChannel := 0, bitshift := 0, headerParsed := true })
      fun _ s => s.headerParsed = true ∧ s.RunInv := by
  refine (runs_readBlobLength fun _ _ h => h.of_rest rfl).bind fun n s ⟨hs, hmin, hlim⟩ => ?_
  have hwave := runs_parseWave (P := fun s => s.LacksBlob ∧ s.blob.length = n)
    (fun _ _ h => ⟨h.1.of_rest rfl, h.2⟩) (fun _ _ h => ⟨h.1.of_rest rfl, h.2⟩)
  exact ((runs_readBlob n).bind fun _ => hwave.bind fun _ => Runs.modify fun t ⟨⟨hlacks, hlen⟩, hbits⟩ =>
    ⟨rfl, { hlacks t.blob (hlen ▸ hmin) (hlen ▸ hlim) with bits := hbits }⟩) s hs

/-- R101 to R111: a header that is not refused leaves a stream that can run. -/
theorem runs_headerPass : Runs State.FreshInv (fun _ => True) (headerPass Config.impl) fun _ => State.Running := by
  have hsequence : Runs State.FreshInv (fun _ => True) (headerSequence Config.impl)
      fun _ s => s.headerParsed = true ∧ s.RunInv :=
    runs_readVersion.bind fun _ => (runs_readTypeAndChannels _).bind fun _ => runs_readBlockParameters.bind fun order =>
    (Runs.modify (Q := fun _ s => s.ParametersInv ∧ Config.nwrapMin ≤ s.nwrap) fun _ h =>
      ⟨{ h with }, Nat.le_max_left _ order⟩).bind fun _ =>
    (runs_allocateHistory _).bind fun _ => (runs_allocateMeans _).bind fun _ => runs_setLpcqOffset.bind fun _ => runs_blob
  exact hsequence.bind fun _ => Runs.modify fun s h => ⟨h.1, { h.2 with }, fun h => by cases h⟩

end Sys2Proof.Machine
end

section
/-! PROOFS. Every step answers and keeps the invariant. `RuleFrame` is what any rule leaves of it, also where it raises; an
instruction in a pass (`State.InPass`) keeps the rest because it leaves a running stream; serving a request, starting a pass and
ending one (42_call_and_input_buffer.md R121 to R128) change the buffer and the place in the call alone. -/

namespace Sys2Proof.Machine

variable {s t u : State} {i : Instr} {n : Nat}

/-! ### What every rule leaves of the invariant -/

/-- What a rule leaves alone, QUIT's flag included, whether it ends or raises. -/
structure RuleFrame (s t : State) : Prop extends InstrFrame s t where
  bitResumeOffset : t.bitResumeOffset = s.bitResumeOffset
  fault : t.fault = s.fault
  quitReceived : t.quitReceived = s.quitReceived
  memories : s.MemoriesWf → t.MemoriesWf

theorem AudioFrame.rule {q : Bool} {c : Nat} (h : AudioFrame q c s t) : RuleFrame s t where
  toInstrFrame := (h.command (i := .diff0)).instr
  bitResumeOffset := h.same.bitResumeOffset
  fault := h.same.fault
  quitReceived := h.same.quitReceived
  memories := h.memories

theorem ControlFrame.rule (h : ControlFrame s t) : RuleFrame s t where
  toInstrFrame := (h.command (i := .verbatim)).instr
  bitResumeOffset := by obtain ⟨n, cmd, len, rfl, -⟩ := h; rfl
  fault := by obtain ⟨n, cmd, len, rfl, -⟩ := h; rfl
  quitReceived := by obtain ⟨n, cmd, len, rfl, -⟩ := h; rfl
  memories := by obtain ⟨n, cmd, len, rfl, -⟩ := h; exact id

theorem HeaderFrame.rule (h : HeaderFrame s t) : RuleFrame s t where
  toInstrFrame := h.instr
  bitResumeOffset := h.bitResumeOffset
  fault := h.fault
  quitReceived := h.quitReceived
  memories := h.memories

theorem bitshiftRule_ruleFrame (s : State) : RuleFrame s (finalState (bitshiftRule s)) := by
  obtain ⟨u, hu, heq | ⟨v, -, heq⟩⟩ := bitshiftRule_frame s <;> rw [heq]
  · exact hu.rule
  · exact { hu.rule with }

theorem blocksizeRule_ruleFrame (s : State) : RuleFrame s (finalState (blocksizeRule s)) := by
  obtain ⟨u, hu, heq | ⟨v, -, -, heq⟩⟩ := blocksizeRule_frame s <;> rw [heq]
  · exact hu.rule
  · exact { hu.rule with }

theorem RuleFrame.bufferInv (h : RuleFrame s t) (hs : s.BufferInv) (hpos : s.pos ≤ s.bitLength) : t.BufferInv where
  cap_pos := Nat.lt_of_lt_of_le hs.cap_pos h.cap_le
  pending_le := by rw [h.pending]; exact hs.pending_le.trans h.cap_le
  resume_lt := by rw [h.bitResumeOffset]; exact hs.resume_lt
  resume_kept := by rw [h.bitResumeOffset, h.pending]; exact hs.resume_kept
  pos_le := fun _ => by
    show t.pos ≤ 8 * t.pending.length
    rw [h.pending]
    exact h.pos_fits hpos

/-! ### Errors -/

theorem State.BufferInv.raise (h : s.BufferInv) (c : Cause) : (s.raise c).BufferInv where
  cap_pos := h.cap_pos
  pending_le := by
    rw [State.raise_pending]
    split
    · exact Nat.zero_le _
    · exact h.pending_le
  resume_lt := by
    rw [State.raise_bitResumeOffset]
    split
    · decide
    · exact h.resume_lt
  resume_kept := by
    rw [State.raise_bitResumeOffset, State.raise_pending]
    split
    · exact fun hpos => absurd hpos (Nat.lt_irrefl 0)
    · exact h.resume_kept
  pos_le := fun hctl => absurd rfl hctl

/-- R204, R210: after an error only the buffer, the canonical forms and the flags matter. -/
theorem raise_inv (hm : s.MemoriesWf) (hb : s.BufferInv) (hq : s.quitReceived = true → s.headerParsed = true) (c : Cause) :
    (s.raise c).Inv where
  memories := hm
  buffer := hb.raise c
  phase := ⟨fun h => absurd rfl h, fun h => (by cases h), hq, fun _ h => by cases h⟩
  fresh := fun _ h => by cases h
  run := fun _ h => by cases h
  frame_size := fun h => by cases h

theorem State.Inv.raise (h : s.Inv) (c : Cause) : (s.raise c).Inv := raise_inv h.memories h.buffer h.phase.quit_run c

/-! ### Instructions -/

/-- A place in a pass: what an instruction finds. -/
structure State.InPass (s : State) : Prop where
  inv : s.Inv
  control : s.control = .pass

section

variable (h : s.InPass)

include h

theorem State.InPass.not_idle : s.control ≠ .idle := by
  rw [h.control]
  exact fun hidle => by cases hidle

theorem State.InPass.fault : s.fault = none := h.inv.phase.running h.not_idle

theorem State.InPass.quitReceived : s.quitReceived = false := h.inv.phase.pass_open h.control

theorem State.InPass.pos_le : s.pos ≤ s.bitLength := h.inv.buffer.pos_le h.not_idle

theorem State.InPass.running (hp : s.headerParsed = true) : s.Running :=
  ⟨hp, h.inv.run hp h.fault, fun hctl => by rw [h.control] at hctl; cases hctl⟩

/-- A rule keeps the invariant when it stays in its frame and, where it does not raise, leaves a stream that can run. -/
theorem State.InPass.perform_inv {m : M Unit} (hframe : RuleFrame s (finalState (m s)))
    (hruns : Runs (· = s) (fun _ => True) m fun _ => State.Running) : ∃ t, perform m s = .next t ∧ t.Inv := by
  obtain ⟨t, hnext, ⟨hok, hrunning⟩ | ⟨c, u, hraise, -, rfl⟩⟩ := hruns.perform rfl
  · rw [hok] at hframe
    change RuleFrame s t at hframe
    refine ⟨t, hnext, ?_⟩
    exact
      { memories := hframe.memories h.inv.memories
        buffer := hframe.bufferInv h.inv.buffer h.pos_le
        phase :=
          { running := fun _ => hframe.fault.trans h.fault
            pass_open := fun _ => hframe.quitReceived.trans h.quitReceived
            quit_run := fun _ => hrunning.parsed
            finish_run := fun _ _ => hrunning.parsed }
        fresh := fun hp => by rw [hrunning.parsed] at hp; cases hp
        run := fun _ _ => hrunning.run
        frame_size := hrunning.frame_size }
  · rw [hraise] at hframe
    change RuleFrame s u at hframe
    refine ⟨_, hnext, raise_inv (hframe.memories h.inv.memories) (hframe.bufferInv h.inv.buffer h.pos_le) (fun hq => ?_) c⟩
    rw [hframe.quitReceived, h.quitReceived] at hq
    cases hq

/-- R126: the header, on a stream that has none. -/
theorem State.InPass.header_inv (hp : s.headerParsed = false) : ∃ t, exec .header s = .next t ∧ t.Inv :=
  h.perform_inv (keeps_headerPass Config.impl s).rule
    (runs_headerPass.weaken (fun _ heq => heq ▸ h.inv.fresh hp h.fault) (fun _ h => h) fun _ _ h => h)

/-- R148: QUIT only sets its flag and ends the pass. -/
theorem State.InPass.quit_inv (hp : s.headerParsed = true) : ∃ t, exec .quit s = .next t ∧ t.Inv := by
  refine ⟨_, perform_ok (m := quitRule) rfl, h.inv.memories, { h.inv.buffer with pos_le := fun _ => h.pos_le }, ?_, ?_, ?_, ?_⟩
  · exact ⟨fun _ => h.fault, fun hctl => (by cases hctl), fun _ => hp, fun _ _ => hp⟩
  · exact fun hfresh => by rw [show s.headerParsed = false from hfresh] at hp; cases hp
  · exact fun _ _ => { (h.running hp).run with }
  · exact fun hctl => by cases hctl

/-- R142 to R149, R160 to R172: every command. -/
theorem State.InPass.command_inv (hp : s.headerParsed = true) (hi : i ≠ .header) : ∃ t, exec i s = .next t ∧ t.Inv := by
  have hs := h.running hp
  have hwf := h.inv.memories
  cases i with
  | diff0 =>
    exact h.perform_inv (diff0Rule_frame s).rule
      (runs_audioCommand hs hwf (Runs.get_bind_of fun _ _ => runs_predict_fixed hs 0 0 _))
  | diff1 => exact h.perform_inv (diff1Rule_frame s).rule (runs_audioCommand hs hwf (runs_predict_fixed hs 1 0 0))
  | diff2 => exact h.perform_inv (diff2Rule_frame s).rule (runs_audioCommand hs hwf (runs_predict_fixed hs 2 0 0))
  | diff3 => exact h.perform_inv (diff3Rule_frame s).rule (runs_audioCommand hs hwf (runs_predict_fixed hs 3 0 0))
  | qlpc => exact h.perform_inv (qlpcRule_frame s).rule (runs_audioCommand hs hwf runs_qlpcBody)
  | zero =>
    refine h.perform_inv (zeroRule_frame s).rule (runs_zeroCommand hs hwf (Runs.get_bind_of fun t ht => ?_))
    rw [ht.same.blocksize]
    exact runs_zeroBlock
  | quit => exact h.quit_inv hp
  | blocksize =>
    exact h.perform_inv (blocksizeRule_ruleFrame s)
      (neverStuck_blocksizeRule.runs fun _ heq => heq ▸ blocksizeRule_running hs)
  | bitshift =>
    exact h.perform_inv (bitshiftRule_ruleFrame s)
      (neverStuck_bitshiftRule.runs fun _ heq => heq ▸ bitshiftRule_running hs)
  | verbatim =>
    exact h.perform_inv (keeps_verbatimRule _ s).rule
      ((neverStuck_verbatimRule _).runs fun _ heq => heq ▸ (keeps_verbatimRule _ s).running hs)
  | illegal10or11 =>
    exact h.perform_inv (keeps_illegal10or11Rule s).rule
      (neverStuck_illegal10or11Rule.runs fun _ heq => heq ▸ (keeps_illegal10or11Rule s).running hs)
  | illegal12up =>
    exact h.perform_inv (keeps_illegal12upRule s).rule
      (neverStuck_illegal12upRule.runs fun _ heq => heq ▸ (keeps_illegal12upRule s).running hs)
  | header => exact absurd rfl hi

end

/-! ### The place in a call -/

/-- A change of the buffer, of the place in the call and of the host's side keeps the invariant when it keeps what the invariant
says of these. -/
theorem State.Inv.of_call (h : s.Inv)
    (ht : t = { s with
      pos := t.pos, bitResumeOffset := t.bitResumeOffset, cmd := t.cmd, pending := t.pending, out := t.out
      accepted := t.accepted, control := t.control, requests := t.requests, results := t.results })
    (hb : t.BufferInv) (hp : t.PhaseInv) (hf : t.control = .finish .frame → t.out.length = t.blocksize * t.channels) :
    t.Inv where
  memories := by rw [ht]; exact h.memories
  buffer := hb
  phase := hp
  fresh := by
    rw [ht]
    exact fun hparsed hfault => { h.fresh hparsed hfault with }
  run := by
    rw [ht]
    exact fun hparsed hfault => { h.run hparsed hfault with }
  frame_size := hf

theorem idle_phaseInv (hctl : t.control = .idle) (hq : t.quitReceived = true → t.headerParsed = true) : t.PhaseInv where
  running := fun h => absurd hctl h
  pass_open := fun h => by rw [hctl] at h; cases h
  quit_run := hq
  finish_run := fun _ h => by rw [hctl] at h; cases h

/-- R120: a result ends the call. -/
theorem State.Inv.answer (h : s.Inv) (r : CallResult) : (s.answer r).Inv :=
  h.of_call rfl { h.buffer with pos_le := fun hctl => absurd rfl hctl } (idle_phaseInv rfl h.phase.quit_run)
    fun hctl => by cases hctl

/-- R123: the bytes that fit under the cap are appended. -/
theorem State.BufferInv.append (h : s.BufferInv) (chunk : List Byte) (accepted : Nat) :
    State.BufferInv { s with
      pending := s.pending ++ chunk.take (min chunk.length (s.cap - s.pending.length)), accepted := accepted } where
  cap_pos := h.cap_pos
  pending_le := by
    have := h.pending_le
    simp only [List.length_append, List.length_take]
    omega
  resume_lt := h.resume_lt
  resume_kept := fun hpos => List.append_ne_nil_of_left_ne_nil (h.resume_kept hpos) _
  pos_le := fun hctl => by
    have : s.pos ≤ 8 * s.pending.length := h.pos_le hctl
    show s.pos ≤ 8 * (s.pending ++ _).length
    rw [List.length_append]
    omega

/-- R125: a pass begins inside the buffer, or it is an Overread. -/
theorem startPass_inv (h : s.Inv) (hfault : s.fault = none) (hquit : s.quitReceived = false) : (startPass s).Inv := by
  unfold startPass skipBits
  by_cases hshort : State.bitLength { s with pos := 0 } < 0 + s.bitResumeOffset
  · rw [if_pos hshort]
    exact raise_inv (s := { s with pos := 0 }) h.memories { h.buffer with pos_le := fun _ => Nat.zero_le _ } h.phase.quit_run _
  · rw [if_neg hshort]
    refine h.of_call rfl { h.buffer with pos_le := fun _ => Nat.le_of_not_lt hshort } ?_ fun hctl => by cases hctl
    exact ⟨fun _ => hfault, fun _ => hquit, h.phase.quit_run, fun _ hctl => by cases hctl⟩

/-- R121 to R125. -/
theorem beginCall_inv (limits : Config.Limits) (chunk : List Byte) (h : s.Inv) (hctl : s.control = .idle) :
    (beginCall limits chunk s).Inv := by
  unfold beginCall
  split
  · exact h.answer _
  · rename_i hfault
    split
    · exact h.answer _
    · rename_i hquit
      split
      · exact h.raise _
      · have happend := h.of_call (t := { s with
            pending := s.pending ++ chunk.take (min chunk.length (s.cap - s.pending.length))
            accepted := min chunk.length (s.cap - s.pending.length) }) rfl (h.buffer.append chunk _)
          (idle_phaseInv hctl h.phase.quit_run) h.frame_size
        dsimp only
        split
        · exact happend.answer _
        · exact startPass_inv happend hfault (Bool.eq_false_iff.2 hquit)

/-- R127, R128: compaction keeps the byte that the resume offset points into. -/
theorem finishPass_inv (o : PassOutcome) (h : s.Inv) (hctl : s.control = .finish o) : (finishPass o s).Inv := by
  have hpos : s.pos ≤ 8 * s.pending.length := h.buffer.pos_le fun hidle => by rw [hctl] at hidle; cases hidle
  unfold finishPass
  dsimp only
  rw [if_neg (by omega)]
  refine h.of_call rfl ?_ (idle_phaseInv rfl h.phase.quit_run) fun hctl => by cases hctl
  constructor
  case cap_pos => exact h.buffer.cap_pos
  case pending_le =>
    have := h.buffer.pending_le
    show (s.pending.drop (s.pos / 8)).length ≤ s.cap
    rw [List.length_drop]
    omega
  case resume_lt => exact Nat.mod_lt _ (by decide)
  case resume_kept =>
    intro hoffset
    change 0 < s.pos % 8 at hoffset
    show s.pending.drop (s.pos / 8) ≠ []
    rw [ne_eq, List.drop_eq_nil_iff]
    omega
  case pos_le => exact fun hidle => absurd rfl hidle

/-- R121, R231: the next request, if there is one. -/
theorem serve_inv (limits : Config.Limits) (h : s.Inv) (hctl : s.control = .idle) : (serve limits s).Inv := by
  unfold serve
  split
  · exact h
  · exact beginCall_inv limits _ (h.of_call rfl { h.buffer with } { h.phase with } h.frame_size) hctl
  · exact resetMeetsInvariant.of_call rfl { reset_bufferInv with } { reset_phaseInv with } fun hctl => by cases hctl

/-! ### The fetch -/

/-- R100: a magic that was compared whole is in the buffer. -/
theorem matchMagic_length {expected : List Byte} {bs : Bits} (h : matchMagic expected bs = .ok ()) :
    8 * expected.length ≤ bs.length := by
  induction expected generalizing bs with
  | nil => exact Nat.zero_le _
  | cons b expected ih =>
    unfold matchMagic at h
    rcases htake : takeBits 8 0 bs with - | ⟨v, rest⟩ <;> rw [htake] at h
    · cases h
    · dsimp only at h
      split at h
      · have hrest := ih h
        obtain ⟨rfl, hlen⟩ := takeBits_rest htake
        rw [List.length_drop] at hrest
        rw [List.length_cons]
        omega
      · cases h

/-- R64, R80: the bits of an opcode that was decoded are in the buffer. -/
theorem decode_length {g : Config.General} {parsed : Bool} {bs : Bits} (h : decode g parsed bs = .ok (i, n)) :
    n ≤ bs.length := by
  unfold decode at h
  split at h
  · unfold decodeCommand at h
    rcases hfind : (opcodeRows g).find? (fun row => row.1.isPrefixOf bs) with - | row <;> rw [hfind] at h
    · cases h
    · cases h
      have hrow := List.find?_some hfind
      exact (List.isPrefixOf_iff_prefix.1 hrow).length_le
  · unfold decodeHeader at h
    rcases hmagic : matchMagic magic bs with r | ⟨⟩ <;> rw [hmagic] at h
    · cases h
    · cases h
      exact matchMagic_length hmagic

/-- R140: consuming the opcode keeps the place in the pass. -/
theorem State.InPass.issue (h : s.InPass) (hn : n ≤ s.unread.length) (i : Instr) :
    (s.issue Config.general i n).InPass := by
  have hpos : s.pos + n ≤ s.bitLength := by
    have := h.pos_le
    rw [State.unread_length] at hn
    omega
  refine ⟨h.inv.of_call rfl { h.inv.buffer with pos_le := fun _ => hpos } { h.inv.phase with } h.inv.frame_size, h.control⟩

/-- Before the header the decoder gives the header only (R126). -/
theorem decode_eq_header {bs : Bits} (h : decode Config.general false bs = .ok (i, n)) : i = .header := by
  change decodeHeader bs = _ at h
  unfold decodeHeader at h
  split at h
  · cases h
    rfl
  · cases h

/-- R126, R140: a step of a pass. -/
theorem State.InPass.step_inv (h : s.InPass) : ∃ t, step s = .next t ∧ t.Inv := by
  unfold step
  rw [h.control]
  dsimp only
  split
  · rename_i hsuspends
    have hparsed : s.headerParsed = true := (Bool.and_eq_true_iff.1 hsuspends).1
    refine ⟨_, rfl, h.inv.of_call rfl { h.inv.buffer with pos_le := fun _ => h.pos_le } ?_ fun hctl => by cases hctl⟩
    exact ⟨fun _ => h.fault, fun hctl => (by cases hctl), h.inv.phase.quit_run, fun _ _ => hparsed⟩
  · unfold fetch
    rcases hd : decode Config.general s.headerParsed s.unread with r | ⟨i, n⟩
    · exact ⟨_, rfl, h.inv.raise _⟩
    · have hissue := h.issue (decode_length hd) i
      cases hparsed : s.headerParsed with
      | true => exact hissue.command_inv hparsed (decode_ne_header (hparsed ▸ hd))
      | false =>
        obtain rfl := decode_eq_header (hparsed ▸ hd)
        exact hissue.header_inv hparsed

end Sys2Proof.Machine

namespace Sys2Proof

open Machine

/-- Settles O57: between calls, at the end of a pass and inside one the step answers, and what it answers has the invariant. -/
theorem invariantKeptAndNothingStops : Obligations.InvariantKeptAndNothingStops := by
  intro s h
  cases hctl : s.control with
  | idle => exact ⟨_, step_idle hctl, serve_inv Config.limits h hctl⟩
  | pass => exact State.InPass.step_inv ⟨h, hctl⟩
  | finish o => exact ⟨_, step_finish hctl, finishPass_inv o h hctl⟩

end Sys2Proof
end

section
/-! PROOFS. The encoding of an instruction (30_encoding.md R61 to R64). The codings first, as equivalences: a string is read as a
value exactly when it begins with that value's code. Then the command table: the fixed bits of its rows are the same for every
numbering of the commands and no row's bits begin another's, so the decoder finds a row exactly when the string begins with its
bits, wherever the row stands. Each statement is then the row that its bits begin with. -/

namespace Sys2Proof

/-! ### Reading is the inverse of writing -/

/-- R41: a byte in stream order is `RAW(8)` of its value. -/
theorem byteBits_eq_encRaw (b : Byte) : byteBits b = encRaw 8 b.toNat := rfl

/-- R71: what `RAW(n)` is read from is the code of the value read. -/
theorem eq_encRaw_of_takeBits {n v w : Nat} {bs rest : Bits} (h : takeBits n v bs = some (w, rest)) :
    bs = encRaw n w ++ rest := by
  induction n generalizing v bs with
  | zero =>
    rw [takeBits, Option.some.injEq, Prod.mk.injEq] at h
    exact h.2
  | succ n ih =>
    cases bs with
    | nil => cases h
    | cons b bs =>
      rw [takeBits] at h
      obtain rfl := ih h
      rw [takeBits_encRaw_acc, Option.some.injEq, Prod.mk.injEq] at h
      have hquot : w / 2 ^ n = 2 * v + b.toNat := by
        rw [← h.1, Nat.mul_comm, Nat.mul_add_div (Nat.two_pow_pos n), Nat.div_eq_of_lt (Nat.mod_lt _ (Nat.two_pow_pos n)),
          Nat.add_zero]
      have hbit : w.testBit n = b := by
        rw [Nat.testBit_eq_decide_div_mod_eq, hquot]
        cases b <;> simp
      rw [encRaw, hbit, List.cons_append]

/-- R85: what a unary part is read from is that many zeros and a one. -/
theorem eq_zeros_of_takeUnary {q w : Nat} {bs rest : Bits} (h : takeUnary q bs = some (w, rest)) :
    bs = List.replicate (w - q) false ++ true :: rest := by
  induction bs generalizing q with
  | nil => cases h
  | cons b bs ih =>
    cases b with
    | true =>
      rw [takeUnary, Option.some.injEq, Prod.mk.injEq] at h
      obtain ⟨rfl, rfl⟩ := h
      simp
    | false =>
      rw [takeUnary] at h
      have hle : q + 1 ≤ w := (takeUnary_rest h).1
      rw [show w - q = (w - (q + 1)) + 1 by omega, List.replicate_succ, List.cons_append, ← ih h]

/-- R71, R85, R89: a string is read as `v` exactly when it begins with the code of `v`. -/
theorem takeUnsigned_eq_some_iff {k v : Nat} {bs rest : Bits} : takeUnsigned k bs = some (v, rest) ↔ bs = encU k v ++ rest := by
  refine ⟨fun h => ?_, fun h => h ▸ takeUnsigned_encU k v rest⟩
  unfold takeUnsigned at h
  rcases hq : takeUnary 0 bs with _ | ⟨q, r1⟩ <;> rw [hq] at h
  · cases h
  · dsimp only at h
    rcases hw : takeBits k 0 r1 with _ | ⟨w, r2⟩ <;> rw [hw] at h
    · cases h
    · cases h
      have hlt : w < 2 ^ k := by simpa using takeBits_lt hw
      obtain ⟨hdiv, hmod⟩ := (Nat.div_mod_unique (Nat.two_pow_pos k)).2
        ⟨show w + 2 ^ k * q = q * 2 ^ k + w by rw [Nat.mul_comm, Nat.add_comm], hlt⟩
      rw [eq_zeros_of_takeUnary hq, eq_encRaw_of_takeBits hw, encU, hdiv, hmod, Nat.sub_zero, List.append_assoc,
        List.cons_append]

/-! ### The header's opcode -/

/-- R100: a string that begins with the bytes expected matches them. -/
theorem matchMagic_bitsOf (expected : List Byte) (rest : Bits) : matchMagic expected (bitsOf expected ++ rest) = .ok () := by
  induction expected with
  | nil => rfl
  | cons b expected ih =>
    rw [bitsOf_cons, List.append_assoc, matchMagic, byteBits_eq_encRaw, takeBits_encRaw b.isLt]
    exact (if_pos rfl).trans ih

theorem decodeHeader_magic (rest : Bits) : decodeHeader (bitsOf magic ++ rest) = .ok (.header, 32) := by
  rw [decodeHeader, matchMagic_bitsOf]

/-! ### The rows of the command table -/

/-- R64: the fixed bits of the rows: the codes of the ten legal numbers, and the two illegal rows. -/
def opcodeCodes : List Bits :=
  (List.range 10).map (encU Config.fnSize) ++ [[false, false, true, true], [false, false, false]]

/-- R64: no row's bits begin another's. -/
theorem opcodeCodes_prefixFree : opcodeCodes.Pairwise fun a b => ¬ a <+: b ∧ ¬ b <+: a := by decide

section

variable {g : Config.General} (hg : g.legal = true)

include hg

theorem Config.General.perm_commands : g.fnId.Perm Config.commands := of_decide_eq_true hg

/-- R63: the legal numbers are 0 to 9. -/
theorem Config.General.fnId_length : g.fnId.length = 10 := (Config.General.perm_commands hg).length_eq

/-- R63: the ten commands have a number. -/
theorem Config.General.mem_fnId {i : Instr} (hi : i ∈ Config.commands) : i ∈ g.fnId :=
  (Config.General.perm_commands hg).mem_iff.2 hi

/-- R64: a numbering says which command has a row, never what the row's bits are. -/
theorem opcodeRows_codes : (opcodeRows g).map Prod.fst = opcodeCodes := by
  have hnumbers : (g.fnId.zipIdx.map fun p => encU Config.fnSize p.2) = (List.range 10).map (encU Config.fnSize) := by
    rw [← Config.General.fnId_length hg, List.range_eq_range', ← List.zipIdx_map_snd, List.map_map]
    rfl
  rw [opcodeRows, List.map_append, List.map_map]
  exact congrArg (· ++ _) hnumbers

/-- R64: two rows whose bits begin the same string are one row. -/
theorem opcodeRows_unique {bs : Bits} {r r' : Bits × Instr} (hr : r ∈ opcodeRows g) (hr' : r' ∈ opcodeRows g)
    (hb : r.1 <+: bs) (hb' : r'.1 <+: bs) : r = r' := by
  have hfree : (opcodeRows g).Pairwise fun a b => ¬ a.1 <+: b.1 ∧ ¬ b.1 <+: a.1 :=
    List.pairwise_map.1 (opcodeRows_codes hg ▸ opcodeCodes_prefixFree)
  have hsymm : Std.Symm fun a b : Bits × Instr => ¬ a.1 <+: b.1 ∧ ¬ b.1 <+: a.1 := ⟨fun _ _ => And.symm⟩
  by_contra hne
  obtain ⟨h, h'⟩ := hfree.forall hr hr' hne
  exact (List.prefix_or_prefix_of_prefix hb hb').elim h h'

/-- R64: the decoder answers the row whose bits the string begins with. -/
theorem decodeCommand_of_row {bs : Bits} {r : Bits × Instr} (hr : r ∈ opcodeRows g) (hb : r.1 <+: bs) :
    decodeCommand g bs = .ok (r.2, r.1.length) := by
  unfold decodeCommand
  rcases hfind : (opcodeRows g).find? (fun row => row.1.isPrefixOf bs) with - | row
  · exact absurd (List.isPrefixOf_iff_prefix.2 hb) (List.find?_eq_none.1 hfind r hr)
  · have hrow := List.find?_some (p := fun row : Bits × Instr => row.1.isPrefixOf bs) hfind
    obtain rfl := opcodeRows_unique hg hr (List.mem_of_find?_eq_some hfind) hb (List.isPrefixOf_iff_prefix.1 hrow)
    rw [hfind]

end

/-! ### Which row an instruction and a number have -/

/-- R63, R64: the row of a legal number. -/
theorem command_mem_opcodeRows {g : Config.General} {n : Nat} {i : Instr} (h : g.fnId[n]? = some i) :
    (encU Config.fnSize n, i) ∈ opcodeRows g :=
  List.mem_append_left _ (List.mem_map.2 ⟨(i, n), List.mk_mem_zipIdx_iff_getElem?.2 h, rfl⟩)

/-- R64, R72: the row of the illegal numbers 10 and 11. -/
theorem illegal10or11_mem_opcodeRows (g : Config.General) : ([false, false, true, true], .illegal10or11) ∈ opcodeRows g :=
  List.mem_append_right _ (by decide)

/-- R64, R72: the row of the illegal numbers from 12 on. -/
theorem illegal12up_mem_opcodeRows (g : Config.General) : ([false, false, false], .illegal12up) ∈ opcodeRows g :=
  List.mem_append_right _ (by decide)

/-- R63: the row of a command that has a number. -/
theorem encFn_mem_opcodeRows {g : Config.General} {i : Instr} (hi : i ∈ g.fnId) : (encFn g i, i) ∈ opcodeRows g := by
  obtain ⟨n, hn⟩ := Option.isSome_iff_exists.1 (List.isSome_idxOf?.2 hi)
  obtain ⟨hlt, hget, -⟩ := List.idxOf?_eq_some_iff.1 hn
  rw [encFn, Instr.fnNumber, hn]
  exact command_mem_opcodeRows (List.getElem?_eq_some_iff.2 ⟨hlt, hget⟩)

/-- R61, R64: but for the header, the encoder writes the fixed bits of the instruction's row. -/
theorem encode_mem_opcodeRows {g : Config.General} (hg : g.legal = true) {i : Instr} (hi : i ≠ .header) :
    (encode g i, i) ∈ opcodeRows g := by
  have hcommand {i : Instr} (h : i ∈ Config.commands) : (encFn g i, i) ∈ opcodeRows g :=
    encFn_mem_opcodeRows (Config.General.mem_fnId hg h)
  cases i with
  | diff0 | diff1 | diff2 | diff3 | quit | blocksize | bitshift | qlpc | zero | verbatim => exact hcommand (by decide)
  | illegal10or11 => exact illegal10or11_mem_opcodeRows g
  | illegal12up => exact illegal12up_mem_opcodeRows g
  | header => exact absurd rfl hi

/-- R64: the code of a number from 12 on begins with three zeros. -/
theorem zeros_prefix_encU {n : Nat} (hn : 12 ≤ n) : [false, false, false] <+: encU Config.fnSize n := by
  have hquot : 3 ≤ n / 2 ^ Config.fnSize := (Nat.le_div_iff_mul_le (Nat.two_pow_pos _)).2 hn
  rw [encU, ← Nat.add_sub_cancel' hquot, List.replicate_add, List.append_assoc]
  exact List.prefix_append _ _

/-- R63, R64, R72: the row of a number has bits that the number's code begins with; a legal number's row has the whole code. -/
theorem exists_row_ofFnNumber {g : Config.General} (hg : g.legal = true) (n : Nat) :
    ∃ code, (code, Instr.ofFnNumber g n) ∈ opcodeRows g ∧ code <+: encU Config.fnSize n ∧
      (n ≤ 9 → code = encU Config.fnSize n) := by
  have hlen := Config.General.fnId_length hg
  rcases Nat.lt_or_ge n 10 with hlegal | hge
  · have hget : g.fnId[n]? = some (g.fnId[n]'(by omega)) := List.getElem?_eq_getElem _
    refine ⟨encU Config.fnSize n, ?_, List.prefix_rfl, fun _ => rfl⟩
    rw [Instr.ofFnNumber, hget]
    exact command_mem_opcodeRows hget
  · have hnone : g.fnId[n]? = none := List.getElem?_eq_none (by omega)
    have hrow : Instr.ofFnNumber g n = if n < 12 then .illegal10or11 else .illegal12up := by rw [Instr.ofFnNumber, hnone]
    rcases Nat.lt_or_ge n 12 with hlt | hge12
    · rw [hrow, if_pos hlt]
      refine ⟨_, illegal10or11_mem_opcodeRows g, ?_, fun h => by omega⟩
      interval_cases n <;> decide
    · rw [hrow, if_neg (by omega)]
      exact ⟨_, illegal12up_mem_opcodeRows g, zeros_prefix_encU hge12, fun h => by omega⟩

/-! ### The words of the opcode table -/

/-- The table's own `match` is one of the words its row matches. -/
theorem row_match_mem_words (i : Instr) : (Laws.OpcodeRow.row i).1 ∈ Laws.OpcodeRow.words i := by
  cases i <;> decide

/-- A row's `match`, as a word, decodes to the row (log 6). -/
theorem decodeTableWord_row {i : Instr} (h : Laws.OpcodeRow.Statement i) :
    decodeTableWord (Laws.OpcodeRow.bits i) (Laws.OpcodeRow.row i).1 = some i := by
  obtain ⟨-, -, hwords⟩ := h
  exact (hwords _ (row_match_mem_words i)).1

/-! ### The statements -/

/-- Settles O3: the string begins with the bits of the instruction's row or, for the header, with the magic. -/
theorem decodeOfEncodedOpcode : Obligations.DecodeOfEncodedOpcode := by
  intro g i rest hg _
  by_cases hi : i = .header
  · subst hi
    exact decodeHeader_magic rest
  · rw [decide_eq_true hi]
    exact decodeCommand_of_row hg (encode_mem_opcodeRows hg hi) (List.prefix_append _ _)

/-- Settles O4: the number's code begins with the bits of the number's row. -/
theorem windowAgreesWithFunctionCode : Obligations.WindowAgreesWithFunctionCode := by
  intro g bs rest n hg hread
  obtain rfl := takeUnsigned_eq_some_iff.1 hread
  obtain ⟨code, hrow, hprefix, hwhole⟩ := exists_row_ofFnNumber hg n
  refine ⟨code.length, decodeCommand_of_row hg hrow (hprefix.trans (List.prefix_append _ _)), fun hlegal => ?_⟩
  rw [hwhole hlegal, List.drop_left]

/-- Settles O1: each word is the `match` of its row. -/
theorem tableWordsDecode : Obligations.TableWordsDecode :=
  open Laws.OpcodeRow in
  ⟨decodeTableWord_row diff0, decodeTableWord_row diff1, decodeTableWord_row diff2, decodeTableWord_row diff3,
    decodeTableWord_row quit, decodeTableWord_row blocksize, decodeTableWord_row bitshift, decodeTableWord_row qlpc,
    decodeTableWord_row zero, decodeTableWord_row verbatim, decodeTableWord_row illegal10or11,
    decodeTableWord_row illegal12up, decodeTableWord_row header⟩

/-- Settles O2: how many rows match depends on the rows' bits alone, and those are the same for every numbering. -/
theorem everyWindowHasOneRow : Obligations.EveryWindowHasOneRow := by
  intro g hg w
  have hcodes : ∀ w : Fin 32, opcodeCodes.countP (fun code => code.isPrefixOf (encRaw 5 w.val)) = 1 := by decide
  rw [← List.countP_eq_length_filter, ← hcodes w, ← opcodeRows_codes hg, List.countP_map]
  rfl

end Sys2Proof
end

section
/-! PROOFS. Codes at the cursor (40_bit_cursor_rice.md R80 to R89). `Reads P code m v Q` says of a rule that it reads a code and
nothing else: over the whole code it gives `v` and moves the cursor over exactly its bits, and where the buffer cuts the code
short it raises Overread (`CutShort`). Rules in sequence read their codes in sequence, since a cut of two codes is a cut of the
first, or of the second after the whole first. -/

namespace Sys2Proof

/-- A proper beginning of two codes is one of the first, or the whole first and a proper beginning of the second. -/
theorem cut_append {bits missing c₁ c₂ : Bits} (h : bits ++ missing = c₁ ++ c₂) :
    (∃ more, more ≠ [] ∧ bits ++ more = c₁) ∨ ∃ rest, bits = c₁ ++ rest ∧ rest ++ missing = c₂ := by
  obtain ⟨more, rfl, hmissing⟩ | ⟨rest, hbits, hrest⟩ := List.append_eq_append_iff.1 h
  · by_cases hmore : more = []
    · subst hmore
      exact .inr ⟨[], by rw [List.append_nil, List.append_nil], hmissing⟩
    · exact .inl ⟨more, hmore, rfl⟩
  · exact .inr ⟨rest, hbits, hrest.symm⟩

/-- R85: no beginning of a code is a code. -/
theorem takeUnsigned_cut {k v : Nat} {bits missing : Bits} (hm : missing ≠ []) (h : bits ++ missing = encU k v) :
    takeUnsigned k bits = none := by
  rcases htake : takeUnsigned k bits with _ | ⟨w, rest⟩
  · rfl
  · have hboth := takeUnsigned_append htake missing
    rw [h, ← List.append_nil (encU k v), takeUnsigned_encU, Option.some.injEq, Prod.mk.injEq] at hboth
    exact absurd (List.append_eq_nil_iff.1 hboth.2.symm).2 hm

/-- R71: bit `j` of `RAW(n)`, the highest first. -/
theorem encRaw_getElem? {n j : Nat} (v : Nat) (hj : j < n) : (encRaw n v)[j]? = some (v.testBit (n - 1 - j)) := by
  induction n generalizing j with
  | zero => omega
  | succ n ih =>
    cases j with
    | zero => rfl
    | succ j =>
      rw [encRaw, List.getElem?_cons_succ, ih (by omega)]
      congr 2
      omega

end Sys2Proof

namespace Sys2Proof.Machine

variable {α β : Type} {s t : State} {P Q R : State → Prop} {code c₁ c₂ rest missing : Bits} {v : Nat}

/-! ### Reading a code -/

/-- Where the unread bits are a proper beginning of the code, the rule raises Overread. -/
def CutShort (P : State → Prop) (code : Bits) (m : M α) : Prop :=
  ∀ s missing, P s → missing ≠ [] → s.unread ++ missing = code → ∃ t, m s = .error (.raise .overread) t

/-- From a state with `P` whose unread bits begin with the code the rule gives `a` and ends with `Q`, the cursor behind the code
in the same buffer; where the code is cut short it raises Overread. -/
structure Reads (P : State → Prop) (code : Bits) (m : M α) (a : α) (Q : State → Prop) : Prop where
  whole : ∀ s rest, P s → s.unread = code ++ rest →
    ∃ t, m s = .ok a t ∧ t.pos = s.pos + code.length ∧ t.pending = s.pending ∧ Q t
  short : CutShort P code m

/-- From a state with `P` the rule ends with `Q` and reads nothing. -/
def Silent (P : State → Prop) (m : M α) (Q : α → State → Prop) : Prop :=
  ∀ s, P s → ∃ a t, m s = .ok a t ∧ t.pos = s.pos ∧ t.pending = s.pending ∧ Q a t

/-- The unread bits depend on the cursor and the buffer alone. -/
theorem State.unread_congr (hpos : t.pos = s.pos) (hpending : t.pending = s.pending) : t.unread = s.unread := by
  unfold State.unread
  rw [hpos, hpending]

/-- Behind a code that was read the rest is unread. -/
theorem State.unread_behind (hu : s.unread = code ++ rest) (hpos : t.pos = s.pos + code.length)
    (hpending : t.pending = s.pending) : t.unread = rest :=
  (State.unread_congr (s := s.advance code.length) hpos hpending).trans (State.unread_advance_append hu)

/-- A code that is cut short does not fit in the buffer. -/
theorem State.cut_overruns (hm : missing ≠ []) (hu : s.unread ++ missing = code) : s.bitLength < s.pos + code.length := by
  have hlen := congrArg List.length hu
  have hpos := List.length_pos_iff.2 hm
  rw [List.length_append, State.unread_length] at hlen
  omega

/-! ### Rules in sequence -/

section

variable {m : M α} {f : α → M β} {a : α} {b : β}

theorem CutShort.nil : CutShort P [] m := fun _ _ _ hm hu => absurd (List.append_eq_nil_iff.1 hu).2 hm

theorem CutShort.of_imp (hPQ : ∀ s, P s → Q s) (h : CutShort Q code m) : CutShort P code m :=
  fun s missing hs => h s missing (hPQ s hs)

theorem CutShort.bind (h : CutShort P code m) : CutShort P code (m >>= f) := fun s missing hs hm hu => by
  obtain ⟨t, ht⟩ := h s missing hs hm hu
  exact ⟨t, run_bind_error ht⟩

theorem CutShort.get_bind {f : State → M β} (h : ∀ s, P s → CutShort P code (f s)) : CutShort P code (get >>= f) :=
  fun s missing hs hm hu => by
    rw [run_get_bind]
    exact h s hs s missing hs hm hu

theorem Reads.of_imp (hPQ : ∀ s, P s → Q s) (h : Reads Q code m a R) : Reads P code m a R where
  whole := fun s rest hs => h.whole s rest (hPQ s hs)
  short := h.short.of_imp hPQ

theorem Reads.bind_cutShort (hm : Reads P c₁ m a Q) (hf : CutShort Q c₂ (f a)) : CutShort P (c₁ ++ c₂) (m >>= f) :=
  fun s missing hs hmissing hu => by
    obtain ⟨more, hmore, hfirst⟩ | ⟨rest, hwhole, hsecond⟩ := cut_append hu
    · exact hm.short.bind s more hs hmore hfirst
    · obtain ⟨t, ht, hpos, hpending, hQ⟩ := hm.whole s rest hs hwhole
      rw [← State.unread_behind hwhole hpos hpending] at hsecond
      rw [run_bind_ok ht]
      exact hf t missing hQ hmissing hsecond

theorem Reads.bind (hm : Reads P c₁ m a Q) (hf : Reads Q c₂ (f a) b R) : Reads P (c₁ ++ c₂) (m >>= f) b R where
  whole := fun s rest hs hu => by
    rw [List.append_assoc] at hu
    obtain ⟨t, ht, hpos, hpending, hQ⟩ := hm.whole s _ hs hu
    obtain ⟨u, hu', hpos', hpending', hR⟩ := hf.whole t rest hQ (State.unread_behind hu hpos hpending)
    exact ⟨u, (run_bind_ok ht).trans hu', by rw [hpos', hpos, List.length_append, Nat.add_assoc], hpending'.trans hpending, hR⟩
  short := hm.bind_cutShort hf.short

theorem Reads.get_bind {f : State → M β} (h : ∀ s, P s → Reads P code (f s) b Q) : Reads P code (get >>= f) b Q where
  whole := fun s rest hs hu => by
    rw [run_get_bind]
    exact (h s hs).whole s rest hs hu
  short := CutShort.get_bind fun s hs => (h s hs).short

theorem Silent.modify {g : State → State} (h : ∀ s, P s → (g s).pos = s.pos ∧ (g s).pending = s.pending ∧ Q (g s)) :
    Silent P (modify g : M PUnit) fun _ => Q := fun s hs => ⟨_, _, run_modify g s, h s hs⟩

theorem Silent.pure (a : α) : Silent P (pure a : M α) fun x s => x = a ∧ P s :=
  fun s hs => ⟨a, s, run_pure a s, rfl, rfl, rfl, hs⟩

/-- A rule that reads nothing reads the empty code. -/
theorem Silent.reads (h : Silent P m fun x s => x = a ∧ Q s) : Reads P [] m a Q where
  whole := fun s _ hs _ => by
    obtain ⟨x, t, ht, hpos, hpending, rfl, hQ⟩ := h s hs
    exact ⟨t, ht, hpos, hpending, hQ⟩
  short := CutShort.nil

theorem Silent.bind_cutShort {Q : α → State → Prop} (hm : Silent P m Q) (hf : ∀ a, CutShort (Q a) code (f a)) :
    CutShort P code (m >>= f) := fun s missing hs hmissing hu => by
  obtain ⟨a, t, ht, hpos, hpending, hQ⟩ := hm s hs
  rw [← State.unread_congr hpos hpending] at hu
  rw [run_bind_ok ht]
  exact hf a t missing hQ hmissing hu

/-- An update that reads nothing and keeps what is known of the state. -/
theorem CutShort.modify_bind {g : State → State} {f : PUnit → M β}
    (h : ∀ s, P s → (g s).pos = s.pos ∧ (g s).pending = s.pending ∧ P (g s)) (hf : CutShort P code (f ⟨⟩)) :
    CutShort P code (modify g >>= f) := (Silent.modify h).bind_cutShort fun _ => hf

theorem Silent.bind_reads {Q : α → State → Prop} (hm : Silent P m Q) (hf : ∀ a, Reads (Q a) code (f a) b R) :
    Reads P code (m >>= f) b R where
  whole := fun s rest hs hu => by
    obtain ⟨a, t, ht, hpos, hpending, hQ⟩ := hm s hs
    rw [← State.unread_congr hpos hpending] at hu
    rw [run_bind_ok ht, ← hpos, ← hpending]
    exact (hf a).whole t rest hQ hu
  short := hm.bind_cutShort fun a => (hf a).short

/-- A rule that reads a code and then goes on without reading. -/
theorem Reads.bind_silent (hm : Reads P code m a Q) (hf : Silent Q (f a) fun x s => x = b ∧ R s) :
    Reads P code (m >>= f) b R := List.append_nil code ▸ hm.bind hf.reads

/-- A loop reads the codes of a list, one in each round. -/
theorem Reads.forRange {γ : Type} {enc : γ → Bits} {body : Int → M Unit} (I : Nat → State → Prop) (xs : List γ) (i : Int)
    (h : ∀ k x, xs[k]? = some x → Reads (I k) (enc x) (body (i + k)) () (I (k + 1))) :
    Reads (I 0) (xs.flatMap enc) (forRange xs.length i body) () (I xs.length) := by
  induction xs generalizing I i with
  | nil => exact (Silent.pure ()).reads
  | cons x xs ih =>
    have hfirst : Reads (I 0) (enc x) (body i) () (I 1) := by simpa using h 0 x rfl
    refine hfirst.bind (ih (fun k => I (k + 1)) (i + 1) fun k y hy => ?_)
    rw [show i + 1 + (k : Int) = i + (k + 1 : Nat) by push_cast; omega]
    exact h (k + 1) y hy

end

/-! ### The field readers -/

section

variable {k n : Nat} (hP : ∀ s n, P s → P (s.advance n))

include hP

/-- A code read by a rule that moves the cursor over it and does nothing else. -/
theorem Reads.of_advance {m : M α} {a : α}
    (hwhole : ∀ s rest, P s → s.unread = code ++ rest → m s = .ok a (s.advance code.length)) (hshort : CutShort P code m) : Reads P code m a P where
  whole := fun s rest hs hu => ⟨_, hwhole s rest hs hu, rfl, rfl, hP s _ hs⟩
  short := hshort

/-- R80. -/
theorem reads_readBits (hn : 0 < n) (hv : v < 2 ^ n) : Reads P (encRaw n v) (readBits n) v P := by
  refine Reads.of_advance hP (fun s rest _ hu => ?_) fun s missing _ hm hu => ?_
  · have hfits := State.fits_of_unread hu (List.ne_nil_of_length_pos (by rwa [encRaw_length]))
    rw [encRaw_length] at hfits ⊢
    exact readBits_ok (by rw [hu]; exact takeBits_encRaw hv rest) hfits
  · have hover := State.cut_overruns hm hu
    rw [encRaw_length] at hover
    exact ⟨s, readBits_short hover⟩

/-- R82: a code is skipped by its length. -/
theorem reads_skipBits (hc : code ≠ []) : Reads P code (skipBits code.length) () P := by
  refine Reads.of_advance hP (fun s rest _ hu => ?_) fun s missing _ hm hu => ?_
  · exact if_neg (Nat.not_lt.2 (State.fits_of_unread hu hc))
  · exact ⟨s, if_pos (State.cut_overruns hm hu)⟩

/-- R85. -/
theorem reads_readUnsigned : Reads P (encU k v) (readUnsigned k) v P := by
  refine Reads.of_advance hP (fun s rest _ hu => ?_) fun s missing _ hm hu => ?_
  · rw [encU_length]
    exact (readUnsigned_ok (by rw [hu]; exact takeUnsigned_encU k v rest)).1
  · obtain ⟨n, hshort⟩ := readUnsigned_short (takeUnsigned_cut hm hu)
    exact ⟨_, hshort⟩

/-- R86. -/
theorem reads_readSigned {k r : Int} (hk : 0 ≤ k + Config.srKBias) : Reads P (encS k r) (readSigned k) r P := by
  have hunsigned := reads_readUnsigned (k := (k + Config.srKBias).toNat) (v := zigzag r) hP
  rw [Int.toNat_of_nonneg hk] at hunsigned
  refine hunsigned.bind_silent ?_
  rw [unzigzag_zigzag]
  exact Silent.pure r

variable {version : Byte} (hversion : ∀ s, P s → s.version = version) {f : Adaptive}

include hversion

/-- R87. -/
theorem reads_readAdaptive {hint : Nat} : Reads P (encA version hint f) (readAdaptive hint) f.value P := by
  refine Reads.get_bind fun s hs => ?_
  rw [hversion s hs, encA]
  by_cases hv : version = 0
  · rw [if_pos hv, if_pos hv]
    exact reads_readUnsigned hP
  · rw [if_neg hv, if_neg hv]
    exact (reads_readUnsigned hP).bind (reads_readUnsigned hP)

/-- R161, first field. -/
theorem reads_readEnergy : Reads P (encEnergy version f) readEnergy f.value P := reads_readAdaptive hP hversion

/-- R171, the order. -/
theorem reads_readOrder : Reads P (encOrder version f) readOrder f.value P := reads_readAdaptive hP hversion

end

/-- A field reader at the cursor of `s` gives the value and moves the cursor over the code, no further. -/
theorem Reads.eq_advance {m : M α} {a : α} (h : Reads (fun t => ∃ n, t = s.advance n) code m a fun t => ∃ n, t = s.advance n)
    (hu : s.unread = code ++ rest) : m s = .ok a (s.advance code.length) ∧ (s.advance code.length).unread = rest := by
  obtain ⟨t, ht, hpos, -, n, rfl⟩ := h.whole s rest ⟨0, rfl⟩ hu
  obtain rfl : n = code.length := Nat.add_left_cancel hpos
  exact ⟨ht, State.unread_advance_append hu⟩

/-- The states that differ from `s` in the cursor alone stay such when the cursor moves. -/
theorem exists_advance_advance (t : State) (n : Nat) : (∃ k, t = s.advance k) → ∃ k, t.advance n = s.advance k := by
  rintro ⟨k, rfl⟩
  exact ⟨k + n, State.advance_advance s k n⟩

end Sys2Proof.Machine

namespace Sys2Proof

open Machine

/-- Settles O5: the code at the cursor is read, and its length is that of R89. -/
theorem unsignedCodeRoundTrip : Obligations.UnsignedCodeRoundTrip := by
  intro s k v rest hu
  rw [← encU_length]
  exact (reads_readUnsigned exists_advance_advance).eq_advance hu

/-- Settles O6: R86 undoes the fold of the encoder. -/
theorem signedCodeRoundTrip : Obligations.SignedCodeRoundTrip := fun _ _ _ _ hk hu =>
  (reads_readSigned exists_advance_advance hk).eq_advance hu

/-- Settles O7: at version 0 one code, at any other the code of `k` and then a code with that `k`. -/
theorem adaptiveCodeRoundTrip : Obligations.AdaptiveCodeRoundTrip := by
  intro s hint f rest hu
  refine (reads_readAdaptive (version := s.version) exists_advance_advance ?_).eq_advance hu
  rintro _ ⟨n, rfl⟩
  rfl

/-- Settles O9: the bits that are taken are `RAW(n)` of the value, and bit `j` of them is stream bit `pos + j`. -/
theorem readBitsMostSignificantFirst : Obligations.ReadBitsMostSignificantFirst := by
  intro s n
  refine ⟨fun hfits => ?_, fun hshort => ?_⟩
  · obtain ⟨v, rest, htake, -, hrun⟩ | ⟨hshort, -⟩ := readBits_cases n s
    · refine ⟨v, hrun, by rw [peekBits, hrun], by simpa using takeBits_lt htake, fun j hj => ?_⟩
      have hstream : s.unread[j]? = some ((s.pending.getD ((s.pos + j) / 8) 0).getLsbD (7 - (s.pos + j) % 8)) := by
        have hin : s.pos + j < s.bitLength := by omega
        rw [State.unread, List.getElem?_drop, bitsOf_getElem? _ _ hin]
      rw [eq_encRaw_of_takeBits htake, List.getElem?_append_left (by rwa [encRaw_length]), encRaw_getElem? v hj] at hstream
      exact Option.some.inj hstream
    · omega
  · have hrun := readBits_short hshort
    exact ⟨hrun, by rw [peekBits, hrun]⟩

/-- Settles O10: R82 tests what is left before it moves the cursor; R83 and R84 write nothing. -/
theorem cursorPrimitives : Obligations.CursorPrimitives := fun _ _ =>
  ⟨fun hfits => if_neg (Nat.not_lt.2 hfits), fun hshort => if_pos hshort, rfl, rfl⟩

end Sys2Proof
end

section
/-! PROOFS. Where the buffer ends inside a command (43_interpreter_control.md R141). Up to its last field an audio command keeps
what the decode loop needs (`BeforeBlock`), so that no other error and no stop comes before the cut: every rule is the sequence of
its field readers. -/

namespace Sys2Proof.Machine

variable {s t u : State} {missing : Bits} {n : Nat}

/-- R204, R206: a rule that is cut short, and that writes no result itself, ends the call with an Overread. -/
theorem CutShort.overreads {P : State → Prop} {code : Bits} {m : M Unit} (h : CutShort P code m) (hs : P s) (hm : missing ≠ [])
    (hu : s.unread ++ missing = code) (hresults : (finalState (m s)).results = s.results) : s.Overreads (perform m s) := by
  obtain ⟨t, ht⟩ := h s missing hs hm hu
  rw [ht] at hresults
  exact ⟨_, perform_raise ht, rfl, rfl, congrArg (· ++ _) hresults, rfl, rfl⟩

/-! ### The commands that are not audio -/

theorem ControlFrame.results (h : ControlFrame s t) : t.results = s.results := by
  obtain ⟨n, cmd, len, rfl, -⟩ := h
  rfl

/-- R145. -/
theorem cutShort_verbatimRule (g : Config.General) (bytes : List Nat) :
    CutShort (fun _ => True) (encVerbatim g bytes) (verbatimRule g) := by
  have hbyte (v : Nat) : Reads (fun _ => True) (encU Config.verbatimByteSize v)
      (do let _ ← readUnsigned Config.verbatimByteSize; pure ()) () fun _ => True :=
    (reads_readUnsigned fun _ _ h => h).bind_silent (Silent.pure ())
  exact (reads_readUnsigned fun _ _ h => h).bind_cutShort
    (CutShort.modify_bind (fun _ h => ⟨rfl, rfl, h⟩) (Reads.forRange (fun _ _ => True) bytes 0 fun _ v _ => hbyte v).short)

/-- R146. -/
theorem cutShort_bitshiftRule (shift : Nat) : CutShort (fun _ => True) (encShift shift) bitshiftRule :=
  (reads_readUnsigned fun _ _ h => h).short.bind

/-- R147. -/
theorem cutShort_blocksizeRule (size : Adaptive) :
    CutShort (· = s) (encBlocksize s.version s.blocksize size) blocksizeRule := by
  refine CutShort.get_bind ?_
  rintro _ rfl t missing rfl hm hu
  exact (reads_readAdaptive exists_advance_advance (by rintro _ ⟨n, rfl⟩; rfl)).short.bind _ missing ⟨0, rfl⟩ hm hu

/-- R142. -/
theorem cutShort_illegal12upRule (v : Nat) : CutShort (fun _ => True) (encU 2 v) illegal12upRule :=
  (reads_readUnsigned fun _ _ h => h).short.bind

/-- R142: with no bit left the last bit of the code is missing. -/
theorem illegal10or11_overreads (hend : s.unread = []) : s.Overreads (exec .illegal10or11 s) := by
  have hcut : CutShort (fun _ => True) (encRaw 1 0) illegal10or11Rule :=
    (reads_readBits (fun _ _ h => h) Nat.one_pos (by decide)).short.bind
  exact hcut.overreads (missing := encRaw 1 0) trivial (by decide) (by rw [hend]; rfl) (keeps_illegal10or11Rule s).results

/-! ### The audio commands -/

/-- Inside an audio command that began at `s`, before its block: the stream is the same, the wrap region of the channel is held,
and the residuals have the parameter `k`. -/
structure BeforeBlock (s : State) (k : Int) (t : State) : Prop where
  same : s.SameStream t
  histWf : ∀ m ∈ t.hist, m.wf
  channel : s.currentChannel < t.hist.length
  room : s.blocksize ≤ s.histBlocksize
  wrap : t.Holds s.currentChannel (-(s.nwrap : Int)) s.nwrap
  residualSize : t.residualSize = k

variable {k : Int}

/-- The cursor, the working registers but one and the coefficient file may change. -/
theorem BeforeBlock.working (h : BeforeBlock s k t)
    (hu : u = { t with
      pos := u.pos, coffset := u.coffset, order := u.order, shift := u.shift, initSum := u.initSum, sum := u.sum
      coef := u.coef }) : BeforeBlock s k u := by
  rw [hu]
  exact { h with same := h.same.trans (by constructor <;> rfl) }

theorem BeforeBlock.advance (t : State) (n : Nat) (h : BeforeBlock s k t) : BeforeBlock s k (t.advance n) := h.working rfl

theorem BeforeBlock.histWrite {i : Int} {vs : List Cell} (h : BeforeBlock s k t)
    (hw : HistWrite t u s.currentChannel i vs) : BeforeBlock s k u where
  same := h.same.trans (by rw [hw.rest]; constructor <;> rfl)
  histWf := hw.wf h.histWf
  channel := by rw [hw.length]; exact h.channel
  room := h.room
  wrap := fun j hj => hw.keeps_held (h.wrap j hj)
  residualSize := by rw [hw.rest]; exact h.residualSize

/-- R170: the residuals are read one a sample, so a cut among them stops the decode loop with its Overread. -/
theorem predictRun_cut {cv : List Int} {shift : Nat} {initSum : Cell} {residuals : List Int} {recent : List Cell}
    (hcv : cv.length ≤ recent.length) (hk : 0 ≤ t.residualSize + Config.srKBias) (hm : missing ≠ [])
    (hu : t.unread ++ missing = residuals.flatMap (encS t.residualSize)) :
    (predictRun cv shift initSum residuals.length recent t).stop = some (.raise .overread) := by
  induction residuals generalizing recent t with
  | nil => exact absurd (List.append_eq_nil_iff.1 hu).2 hm
  | cons r residuals ih =>
    obtain ⟨sum, hsum⟩ := sumTaps_isSome initSum hcv
    have hread := reads_readSigned (P := fun u => ∃ n, u = State.advance { t with sum := sum } n) (r := r)
      exists_advance_advance hk
    rw [List.length_cons, predictRun, hsum]
    dsimp only
    obtain ⟨more, hmore, hfirst⟩ | ⟨rest, hwhole, hrest⟩ := cut_append hu
    · obtain ⟨u, hrun⟩ := hread.short { t with sum := sum } more ⟨0, rfl⟩ hmore hfirst
      rw [hrun]
    · obtain ⟨hrun, hunread⟩ := hread.eq_advance hwhole
      rw [hrun]
      exact ih (by rw [List.length_cons]; omega) hk (by rw [hunread]; exact hrest)

/-- R170. -/
theorem cutShort_predict {cv : List Int} (hcv : cv.length ≤ s.nwrap) (hk : 0 ≤ k + Config.srKBias) (shift : Nat)
    (initSum : Cell) {residuals : List Int} (hn : residuals.length = s.blocksize) :
    CutShort (BeforeBlock s k) (residuals.flatMap (encS k)) (predict s.currentChannel cv shift initSum) := by
  intro t missing h hm hu
  obtain ⟨wrap, hwrap⟩ := h.wrap.histCells
  have hlen := (State.histCells_iff.1 hwrap).1
  rw [← h.same.nwrap] at hwrap hcv hlen
  obtain ⟨u, -, hrun⟩ := predict_runs (shift := shift) (initSum := initSum) h.histWf h.channel
    (by rw [h.same.blocksize, h.same.histBlocksize]; exact h.room) hcv hwrap
  rw [← h.residualSize] at hk hu
  have hstop := predictRun_cut (cv := cv) (shift := shift) (initSum := initSum)
    (recent := (wrap.drop (t.nwrap - cv.length)).reverse)
    (by rw [List.length_reverse, List.length_drop]; omega) hk hm hu
  rw [hn, ← h.same.blocksize] at hstop
  rw [hstop] at hrun
  exact ⟨u, hrun⟩

/-- R161, R162. -/
theorem reads_readResidualSize (energy : Adaptive) :
    Reads (fun t => ∃ n, t = s.advance n) (encEnergy s.version energy) readResidualSize ⟨⟩
      fun t => ∃ n, t = { s.advance n with residualSize := residualSizeOf s.version energy.value } := by
  refine (reads_readEnergy exists_advance_advance (by rintro _ ⟨n, rfl⟩; rfl)).bind_silent fun t ht => ?_
  obtain ⟨n, rfl⟩ := ht
  exact ⟨_, _, rfl, rfl, rfl, rfl, n, rfl⟩

section

variable (hrun : s.RunInv) (hwf : s.MemoriesWf)

include hrun hwf

/-- R163: the entries of the mean store hold values. -/
theorem silent_computeCoffset :
    Silent (fun t => ∃ n, t = { s.advance n with residualSize := k }) (computeCoffset s.currentChannel)
      fun _ => BeforeBlock s k := by
  rintro _ ⟨n, rfl⟩
  obtain ⟨means, hmeans⟩ := State.meanCells_of_held (hrun.mean_held _ hrun.currentChannel_lt)
  refine ⟨_, _, computeCoffset_runs (s := { s.advance n with residualSize := k }) hmeans, rfl, rfl, ?_⟩
  exact ⟨by constructor <;> rfl, hwf.1, hrun.channel_hist, hrun.blocksize_le, hrun.holds_wrap, rfl⟩

/-- R160: an audio command is cut short in its energy field or in its body. -/
theorem cutShort_audioCommand {body : Nat → M Unit} {energy : Adaptive} {code : Bits}
    (hbody : CutShort (BeforeBlock s (residualSizeOf s.version energy.value)) code (body s.currentChannel)) :
    CutShort (· = s) (encEnergy s.version energy ++ code) (audioCommand body) := by
  refine CutShort.get_bind ?_
  rintro _ rfl t missing rfl hm hu
  exact (reads_readResidualSize energy).bind_cutShort
    ((silent_computeCoffset hrun hwf).bind_cutShort fun _ => hbody.bind) _ missing ⟨0, rfl⟩ hm hu

end

/-- R165 to R169: the residuals of a fixed predictor. -/
theorem cutShort_predict_fixed (hrun : s.RunInv) {f : DiffFields} (hf : f.wf s.version s.blocksize = true) (order : Nat)
    (initSum : Cell) :
    CutShort (BeforeBlock s (residualSizeOf s.version f.energy.value)) (encResiduals s.version f.energy.value f.residuals)
      (predict s.currentChannel (fixedCoefs order) 0 initSum) := by
  obtain ⟨hlen, hk⟩ := Bool.and_eq_true_iff.1 hf
  exact cutShort_predict ((fixedCoefs_length_le order).trans hrun.nwrap_ge) (of_decide_eq_true hk) 0 initSum (eq_of_beq hlen)

/-- R171: the coefficients, each read and stored. -/
theorem reads_readCoefs {coefs : List Int} (hn : coefs.length ≤ s.nwrap) :
    Reads (BeforeBlock s k) (coefs.flatMap (encS Config.lpcQuant)) (readCoefs coefs.length) ()
      fun t => BeforeBlock s k t ∧ t.HoldsCoefs coefs.length := by
  have hstart (t : State) (h : BeforeBlock s k t) : BeforeBlock s k t ∧ t.HoldsCoefs 0 := ⟨h, t.holdsCoefs_zero⟩
  refine Reads.of_imp hstart (Reads.forRange (fun j t => BeforeBlock s k t ∧ t.HoldsCoefs j) coefs 0 fun j r hr => ?_)
  have hj : j < s.nwrap := (List.getElem?_eq_some_iff.1 hr).1.trans_le hn
  refine (reads_readSigned (fun t n h => ⟨h.1.advance t n, h.2⟩) (by decide)).bind_silent fun t ⟨h, hcoefs⟩ => ?_
  rw [show (0 + (j : Int)).toNat = j by omega]
  obtain ⟨-, hw⟩ | ⟨hout, -⟩ := writeCoef_cases j (wrap32 r) t
  · exact ⟨_, _, hw, rfl, rfl, rfl, h.working rfl, hcoefs.write _⟩
  · rw [h.same.nwrap] at hout
    omega

/-- R171: coefficients that are held are collected. -/
theorem silent_collectCoefs (hn : n ≤ s.nwrap) :
    Silent (fun t => BeforeBlock s k t ∧ t.HoldsCoefs n) (collectRange n 0 fun j => readCoef j.toNat)
      fun cv t => cv.length = n ∧ BeforeBlock s k t := by
  intro t ⟨h, hcoefs⟩
  have hlen : ((List.range n).map fun j => (t.coef.read j).getD 0).length = n := by simp
  refine ⟨_, t, collectRange_runs hlen fun j v hv => ?_, rfl, rfl, hlen, h⟩
  have hj : j < n := hlen ▸ (List.getElem?_eq_some_iff.1 hv).1
  obtain ⟨w, hw⟩ := Option.isSome_iff_exists.1 (hcoefs j hj)
  obtain rfl : w = v := by simpa [hj, hw] using hv
  rw [show (0 + (j : Int)).toNat = j by omega, readCoef, if_pos (by rw [h.same.nwrap]; omega), hw]

/-- R171: the offset is added to cells of the wrap region. -/
theorem silent_offsetHist (hn : n ≤ s.nwrap) (d : Int) :
    Silent (fun t => BeforeBlock s k t ∧ t.HoldsCoefs n) (offsetHist s.currentChannel (-(n : Int)) n d)
      fun _ t => BeforeBlock s k t ∧ t.HoldsCoefs n := by
  intro t ⟨h, hcoefs⟩
  unfold offsetHist
  by_cases hd : d = 0
  · rw [if_pos hd]
    exact ⟨(), t, rfl, rfl, rfl, h, hcoefs⟩
  · have hrange : t.histRange (-(n : Int)) n = true := by
      rw [State.histRange_iff, h.same.nwrap]
      omega
    obtain ⟨vs, hread, rfl, -⟩ := readHist_runs h.histWf h.channel hrange fun j hj => h.wrap.cell (by omega) (by omega)
    obtain ⟨u, hwrite, hw⟩ := writeHist_runs (vs := vs.map fun v => wrap32 (v.toInt + d)) h.channel (by rwa [List.length_map])
    rw [if_neg hd, run_bind_ok hread]
    exact ⟨(), u, hwrite, by rw [hw.rest], by rw [hw.rest], h.histWrite hw, by rw [hw.rest]; exact hcoefs⟩

/-- R171, R172: the order, the coefficients and the residuals. -/
theorem cutShort_qlpcBody {f : QlpcFields} (hf : f.wf s.version s.blocksize s.nwrap = true) :
    CutShort (BeforeBlock s (residualSizeOf s.version f.energy.value))
      (encOrder s.version ⟨f.orderK, f.coefs.length⟩ ++
        (f.coefs.flatMap (encS Config.lpcQuant) ++ encResiduals s.version f.energy.value f.residuals))
      (qlpcBody s.currentChannel) := by
  obtain ⟨hblock, horder⟩ := Bool.and_eq_true_iff.1 hf
  obtain ⟨hlen, hk⟩ := Bool.and_eq_true_iff.1 hblock
  have hn : f.coefs.length ≤ s.nwrap := of_decide_eq_true horder
  refine (reads_readOrder BeforeBlock.advance fun t h => h.same.version).bind_cutShort ?_
  refine CutShort.modify_bind (fun t h => ⟨rfl, rfl, h.working rfl⟩) ?_
  refine CutShort.get_bind fun t ht => ?_
  rw [if_neg (by rw [ht.same.nwrap]; exact Nat.not_lt.2 hn)]
  refine (reads_readCoefs hn).bind_cutShort ?_
  refine CutShort.modify_bind (fun t h => ⟨rfl, rfl, h.1.working rfl, h.2⟩) ?_
  refine (silent_offsetHist hn _).bind_cutShort fun _ => ?_
  refine CutShort.modify_bind (fun t h => ⟨rfl, rfl, h.1.working rfl, h.2⟩) ?_
  refine (silent_collectCoefs hn).bind_cutShort fun cv => ?_
  refine CutShort.get_bind fun t ⟨hcv, _⟩ => CutShort.bind ?_
  exact (cutShort_predict (by rwa [List.length_map, hcv]) (of_decide_eq_true hk) _ _ (eq_of_beq hlen)).of_imp fun _ h => h.2

section

variable (hrun : s.RunInv) (hwf : s.MemoriesWf)

include hrun hwf

/-- R165 to R169. -/
theorem diff_overreads {f : DiffFields} (hf : f.wf s.version s.blocksize = true) (hm : missing ≠ [])
    (hu : s.unread ++ missing = encDiff s.version f) {i : Instr} (hi : i ∈ [Instr.diff0, .diff1, .diff2, .diff3]) :
    s.Overreads (exec i s) := by
  have hfixed := cutShort_predict_fixed hrun hf
  have hdiff0 : CutShort (BeforeBlock s (residualSizeOf s.version f.energy.value))
      (encResiduals s.version f.energy.value f.residuals)
      (get >>= fun t => predict s.currentChannel (fixedCoefs 0) 0 t.coffset) := CutShort.get_bind fun t _ => hfixed 0 t.coffset
  simp only [List.mem_cons, List.not_mem_nil, or_false] at hi
  obtain rfl | rfl | rfl | rfl := hi
  · exact (cutShort_audioCommand hrun hwf hdiff0).overreads rfl hm hu (diff0Rule_frame s).same.results
  · exact (cutShort_audioCommand hrun hwf (hfixed 1 0)).overreads rfl hm hu (diff1Rule_frame s).same.results
  · exact (cutShort_audioCommand hrun hwf (hfixed 2 0)).overreads rfl hm hu (diff2Rule_frame s).same.results
  · exact (cutShort_audioCommand hrun hwf (hfixed 3 0)).overreads rfl hm hu (diff3Rule_frame s).same.results

/-- R171. -/
theorem cutShort_qlpcRule {f : QlpcFields} (hf : f.wf s.version s.blocksize s.nwrap = true) :
    CutShort (· = s) (encQlpc s.version f) qlpcRule := by
  rw [encQlpc, List.append_assoc, List.append_assoc]
  exact cutShort_audioCommand hrun hwf (cutShort_qlpcBody hf)

end

end Sys2Proof.Machine
end

section
/-! PROOFS. Where the buffer ends inside the header (41_header.md R101 to R112). The header holds the fields it has read
(`State.HeaderAt`), so with legal fields and the capacity for them no check raises before the cut. With it every rule that reads
fields has its cut. -/

namespace Sys2Proof

/-- R61: what the fields of a legal header satisfy. -/
theorem HeaderFields.wf_iff {g : Config.General} {f : HeaderFields} : f.wf g = true ↔
    (0 < f.channelCount.value ∧ f.channelCount.value ≤ Config.maxChannels) ∧
    (f.version = 0 ∨
      (0 < f.blocksize.value ∧ f.blocksize.value ≤ Config.maxBlocksize) ∧ f.skipped.length = f.skipCount.value) ∧
    f.formatType.value = g.typeS16HL ∧ Config.headerBlobMin ≤ f.blob.length ∧ f.blob.length < Config.headerBlobLim := by
  simp only [HeaderFields.wf, HeaderFields.parametersWf, Bool.and_eq_true, Bool.or_eq_true, decide_eq_true_eq, beq_iff_eq,
    and_assoc]

/-- R63: the number of a command selects it. -/
theorem ofFnNumber_fnNumber {g : Config.General} {i : Instr} (hi : i ∈ g.fnId) :
    Instr.ofFnNumber g ((i.fnNumber g).getD 0) = i := by
  obtain ⟨n, hn⟩ := Option.isSome_iff_exists.1 (List.isSome_idxOf?.2 hi)
  obtain ⟨hlt, hget, -⟩ := List.idxOf?_eq_some_iff.1 hn
  rw [Instr.fnNumber, hn, Option.getD_some, Instr.ofFnNumber, List.getElem?_eq_some_iff.2 ⟨hlt, hget⟩]

/-- R61, fields 5 to 9: the block parameters, which version 0 has not. -/
def encBlockParameters (f : HeaderFields) : Bits :=
  if f.version = 0 then []
  else encA f.version 0 f.blocksize ++ (encA f.version 0 f.maxLpcOrder ++ (encA f.version 0 f.nmean ++
    (encA f.version 0 f.skipCount ++ bitsOf f.skipped)))

/-- R61: the fields of the header, grouped as its rules read them. -/
theorem encHeader_eq (g : Config.General) (f : HeaderFields) : encHeader g f =
    encRaw 8 f.version.toNat ++ ((encA f.version g.typeSize f.formatType ++ encA f.version g.chanSize f.channelCount) ++
      (encBlockParameters f ++ ((encFn g .verbatim ++ encU g.verbatimCkSize f.blob.length) ++
        f.blob.flatMap (encU Config.verbatimByteSize)))) := by
  simp only [encHeader, encHeaderParameters, encBlockParameters, encVerbatim, List.append_assoc]

end Sys2Proof

namespace Sys2Proof.Machine

variable {f : HeaderFields} {blocksize : Nat} {nmean : Int}

/-- The header's registers up to R103; the block size and `nmean` may still be those of stream open (R36). -/
structure State.HeaderAt (f : HeaderFields) (blocksize : Nat) (nmean : Int) (s : State) : Prop where
  version : s.version = f.version
  formatType : s.internalFormatType = f.formatType.value
  channels : s.channels = f.channelCount.value
  blocksize : s.blocksize = blocksize
  nmean : s.nmean = nmean

theorem State.HeaderAt.advance (s : State) (n : Nat) (h : s.HeaderAt f blocksize nmean) :
    (s.advance n).HeaderAt f blocksize nmean := { h with }

/-- R101. -/
theorem reads_readVersion (f : HeaderFields) :
    Reads State.FreshInv (encRaw 8 f.version.toNat) readVersion ⟨⟩
      fun s => s.version = f.version ∧ s.blocksize = Config.defaultBlocksize ∧ s.nmean = -1 :=
  (reads_readBits (fun _ _ h => { h with }) (by decide) f.version.isLt).bind_silent fun _ h =>
    ⟨_, _, rfl, rfl, rfl, rfl, (BitVec.ofNat_toNat 8 f.version).trans (BitVec.setWidth_eq f.version), h.blocksize, h.nmean⟩

/-- R102: a legal channel count. -/
theorem reads_readTypeAndChannels (g : Config.General)
    (hf : 0 < f.channelCount.value ∧ f.channelCount.value ≤ Config.maxChannels) :
    Reads (fun s => s.version = f.version ∧ s.blocksize = blocksize ∧ s.nmean = nmean)
      (encA f.version g.typeSize f.formatType ++ encA f.version g.chanSize f.channelCount) (readTypeAndChannels g) ⟨⟩
      (State.HeaderAt f blocksize nmean) := by
  refine (reads_readAdaptive (fun _ _ h => h) fun _ h => h.1).bind ?_
  refine Silent.bind_reads (Q := fun _ s => s.internalFormatType = f.formatType.value ∧ s.version = f.version ∧
    s.blocksize = blocksize ∧ s.nmean = nmean) (Silent.modify fun _ h => ⟨rfl, rfl, rfl, h⟩) fun _ => ?_
  refine (reads_readAdaptive (fun _ _ h => h) fun _ h => h.2.1).bind_silent fun s h => ?_
  rw [if_neg (by omega)]
  obtain ⟨hformat, hversion, hblocksize, hnmean⟩ := h
  exact ⟨_, _, rfl, rfl, rfl, rfl, hversion, hformat, rfl, hblocksize, hnmean⟩

/-- R103: the bytes to skip. -/
theorem reads_skipBytes {P : State → Prop} (hP : ∀ s n, P s → P (s.advance n)) (bytes : List Byte) :
    Reads P (bitsOf bytes) (forRange bytes.length 0 fun _ => skipBits 8) () P := by
  refine Reads.forRange (fun _ => P) bytes 0 fun _ b _ => ?_
  have hbyte := reads_skipBits hP (List.ne_nil_of_length_pos (by rw [byteBits_length b]; decide))
  rwa [byteBits_length] at hbyte

/-- R103: legal block parameters, or none at version 0. -/
theorem reads_readBlockParameters (hf : f.version = 0 ∨
      (0 < f.blocksize.value ∧ f.blocksize.value ≤ Config.maxBlocksize) ∧ f.skipped.length = f.skipCount.value) :
    Reads (State.HeaderAt f Config.defaultBlocksize (-1)) (encBlockParameters f) readBlockParameters
      (if f.version = 0 then 0 else f.maxLpcOrder.value) (State.HeaderAt f f.blocksizeValue f.nmeanValue) := by
  refine Reads.get_bind fun s hs => ?_
  rw [hs.version, encBlockParameters, HeaderFields.blocksizeValue, HeaderFields.nmeanValue]
  by_cases hv : f.version = 0
  · simp only [if_pos hv]
    exact (Silent.pure 0).reads
  · obtain ⟨hblocksize, hskipped⟩ := hf.resolve_left hv
    simp only [if_neg hv]
    have hread {blocksize : Nat} {nmean : Int} (field : Adaptive) :
        Reads (State.HeaderAt f blocksize nmean) (encA f.version 0 field) (readAdaptive 0) field.value
          (State.HeaderAt f blocksize nmean) := reads_readAdaptive State.HeaderAt.advance fun _ h => h.version
    refine (hread f.blocksize).bind ?_
    rw [if_neg (by omega)]
    refine Silent.bind_reads (Q := fun _ => State.HeaderAt f f.blocksize.value (-1))
      (Silent.modify fun s h => ⟨rfl, rfl, { h with blocksize := rfl }⟩) fun _ => ?_
    refine (hread f.maxLpcOrder).bind ((hread f.nmean).bind ?_)
    refine Silent.bind_reads (Q := fun _ => State.HeaderAt f f.blocksize.value f.nmean.value)
      (Silent.modify fun s h => ⟨rfl, rfl, { h with nmean := rfl }⟩) fun _ => ?_
    refine (hread f.skipCount).bind ?_
    rw [← hskipped]
    exact (reads_skipBytes State.HeaderAt.advance f.skipped).bind_silent (Silent.pure _)

section

variable {limits : Config.Limits} (hfits : headerFits limits f = true)

include hfits

/-- R105: the capacity is there. -/
theorem silent_allocateHistory :
    Silent (fun s => s.nwrap = f.nwrap ∧ s.HeaderAt f f.blocksizeValue f.nmeanValue) (allocateHistory limits)
      fun _ => State.HeaderAt f f.blocksizeValue f.nmeanValue := by
  intro s ⟨hnwrap, h⟩
  simp only [headerFits, Bool.and_eq_true, Bool.not_eq_true'] at hfits
  obtain ⟨⟨⟨hexceeds, hstorage⟩, -⟩, -⟩ := hfits
  rw [allocateHistory, run_get_bind, hnwrap, h.channels, h.blocksize, hexceeds, hstorage]
  exact ⟨_, _, rfl, rfl, rfl, { h with }⟩

/-- R106: the capacity is there, and the format type is the supported one. -/
theorem silent_allocateMeans {g : Config.General} (hformat : f.formatType.value = g.typeS16HL) :
    Silent (State.HeaderAt f f.blocksizeValue f.nmeanValue) (allocateMeans g limits) fun _ _ => True := by
  intro s h
  simp only [headerFits, Bool.and_eq_true, Bool.not_eq_true'] at hfits
  obtain ⟨⟨-, hexceeds⟩, hstorage⟩ := hfits
  rw [allocateMeans, run_get_bind, h.channels, h.nmean, hexceeds, hstorage, if_neg (by decide), run_modify_bind,
    h.formatType, hformat, if_neg (not_not.2 rfl)]
  exact ⟨_, _, rfl, rfl, rfl, trivial⟩

end

/-- R108: the command that carries the blob, and a legal length. -/
theorem reads_readBlobLength {g : Config.General} (hg : g.legal = true)
    (hf : Config.headerBlobMin ≤ f.blob.length ∧ f.blob.length < Config.headerBlobLim) :
    Reads (fun _ => True) (encFn g .verbatim ++ encU g.verbatimCkSize f.blob.length) (readBlobLength g) f.blob.length
      fun _ => True := by
  refine (reads_readUnsigned fun _ _ h => h).bind ?_
  rw [ofFnNumber_fnNumber (Config.General.mem_fnId hg (by decide)), if_neg (not_not.2 rfl)]
  refine (reads_readUnsigned fun _ _ h => h).bind_silent ?_
  rw [if_neg (by omega)]
  exact Silent.pure _

/-- R109. -/
theorem cutShort_readBlob (blob : List Nat) :
    CutShort (fun _ => True) (blob.flatMap (encU Config.verbatimByteSize)) (readBlob blob.length) := by
  refine CutShort.modify_bind (fun _ h => ⟨rfl, rfl, h⟩) (Reads.forRange (fun _ _ => True) blob 0 fun _ v _ => ?_).short
  exact (reads_readUnsigned fun _ _ h => h).bind_silent fun _ h => ⟨_, _, rfl, rfl, rfl, rfl, h⟩

/-- R101 to R109: the header's fields in order. -/
theorem cutShort_headerPass {impl : Config.Impl} (hg : impl.general.legal = true) (hf : f.wf impl.general = true)
    (hfits : headerFits impl.limits f = true) :
    CutShort State.FreshInv (encHeader impl.general f) (headerPass impl) := by
  obtain ⟨hchannels, hparameters, hformat, hblob⟩ := HeaderFields.wf_iff.1 hf
  rw [encHeader_eq]
  refine CutShort.bind ?_
  refine (reads_readVersion f).bind_cutShort ((reads_readTypeAndChannels _ hchannels).bind_cutShort
    ((reads_readBlockParameters hparameters).bind_cutShort ?_))
  refine Silent.bind_cutShort (Q := fun _ s => s.nwrap = f.nwrap ∧ s.HeaderAt f f.blocksizeValue f.nmeanValue)
    (Silent.modify fun s h => ⟨rfl, rfl, rfl, { h with }⟩) fun _ => ?_
  refine (silent_allocateHistory hfits).bind_cutShort fun _ => (silent_allocateMeans hfits hformat).bind_cutShort fun _ => ?_
  refine CutShort.modify_bind (fun s h => ⟨by split <;> rfl, by split <;> rfl, h⟩) ?_
  exact (reads_readBlobLength hg hblob).bind_cutShort (cutShort_readBlob f.blob).bind

end Sys2Proof.Machine

namespace Sys2Proof

open Machine

/-- Settles O8: each rule reads its fields in order, and its frame says that it writes no result on the way to the cut. -/
theorem truncatedCodeOverreads : Obligations.TruncatedCodeOverreads := by
  refine ⟨fun s k v missing hm hu => ?_, fun s missing hm _ => ?_⟩
  · exact (reads_readUnsigned (P := fun _ => True) fun _ _ h => h).short s missing trivial hm hu
  · exact
      ⟨fun hrun hwf =>
        ⟨fun _ hf hu _ hi => diff_overreads hrun hwf hf hm hu hi,
          fun _ hf hu => (cutShort_qlpcRule hrun hwf hf).overreads rfl hm hu (qlpcRule_frame s).same.results⟩,
        fun bytes hu => (cutShort_verbatimRule _ bytes).overreads trivial hm hu (keeps_verbatimRule _ s).results,
        fun shift hu => (cutShort_bitshiftRule shift).overreads trivial hm hu (bitshiftRule_command s).same.results,
        fun size hu => (cutShort_blocksizeRule size).overreads rfl hm hu (blocksizeRule_command s).same.results,
        illegal10or11_overreads,
        fun v hu => (cutShort_illegal12upRule v).overreads trivial hm hu (keeps_illegal12upRule s).results,
        rfl,
        fun impl _ hfresh hg hf hfits hu =>
          (cutShort_headerPass hg hf hfits).overreads hfresh hm hu (keeps_headerPass impl s).results⟩

end Sys2Proof
end

section
/-! PROOFS. Before the header's fields: the magic (41_header.md R100), and the storage an implementation may not have (decision
D17, log 11). -/

namespace Sys2Proof

/-! ### The magic -/

/-- R100: bytes that match are gone over. -/
theorem matchMagic_append (good more : List Byte) (bs : Bits) :
    matchMagic (good ++ more) (bitsOf good ++ bs) = matchMagic more bs := by
  induction good with
  | nil => rfl
  | cons b good ih =>
    rw [bitsOf_cons, List.append_assoc, List.cons_append, matchMagic, byteBits_eq_encRaw, takeBits_encRaw b.isLt]
    exact (if_pos rfl).trans ih

/-- R100: the first byte that differs. -/
theorem matchMagic_bad {m : Byte} {bad : Nat} (more : List Byte) (rest : Bits) (hbad : bad < 256) (hne : bad ≠ m.toNat) :
    matchMagic (m :: more) (encRaw 8 bad ++ rest) = .error .badMagic := by
  rw [matchMagic, takeBits_encRaw hbad]
  exact if_neg hne

/-- R100: fewer bits than a byte has, where one is expected. -/
theorem matchMagic_truncated {more : List Byte} {part : Bits} (hmore : more ≠ []) (hpart : part.length < 8) :
    matchMagic more part = .error .truncated := by
  obtain ⟨m, more, rfl⟩ := List.exists_cons_of_ne_nil hmore
  rw [matchMagic, takeBits_eq_none.2 hpart]

end Sys2Proof

namespace Sys2Proof.Machine

/-- R100, R126: in a pass before the header a step raises what the comparison with the magic rejects. -/
theorem step_rejects_magic {s : State} {r : Reject} (hctl : s.control = .pass) (hparsed : s.headerParsed = false)
    (h : matchMagic magic s.unread = .error r) : step s = .next (s.raise (Reject.cause r)) := by
  have hsuspends : s.suspends = false := by rw [State.suspends, hparsed, Bool.false_and]
  have hdecode : decode Config.general s.headerParsed s.unread = .error r := by
    rw [hparsed]
    show decodeHeader s.unread = _
    rw [decodeHeader, h]
  have hfetch : fetch Config.general s = .error (.raise (Reject.cause r)) s := by rw [fetch, hdecode]
  rw [step, hctl]
  dsimp only
  rw [hsuspends, if_neg Bool.false_ne_true, hfetch]

/-! ### Storage -/

variable {limits : Config.Limits} {s : State}

/-- R105. -/
theorem allocateHistory_raises
    (h : exceeds s.nwrap limits.nwrapMax = true ∨ limits.histStorage s.channels s.blocksize s.nwrap = false) :
    allocateHistory limits s = .error (.raise .allocFail) s := by
  rw [allocateHistory, run_get_bind, if_pos (by simpa using h), run_raise]

/-- R106. -/
theorem allocateMeans_raises (g : Config.General)
    (h : exceeds s.nmean.toNat limits.nmeanMax = true ∨ limits.meanStorage s.channels (max 1 s.nmean.toNat) = false) :
    allocateMeans g limits s = .error (.raise .allocFail) s := by
  rw [allocateMeans, run_get_bind, if_pos (by simpa using h), run_raise]

/-- R123: a call that passes the entry checks of R121 and cannot have its buffer. -/
theorem beginCall_raises {chunk : List Byte} (hfault : s.fault = none) (hquit : s.quitReceived = false)
    (h : limits.pendingStorage s.cap = false) : beginCall limits chunk s = s.raise .allocFail := by
  rw [beginCall, hfault]
  dsimp only
  rw [hquit, if_neg Bool.false_ne_true, h, Bool.not_false, if_pos rfl]

end Sys2Proof.Machine

namespace Sys2Proof

open Machine

/-- Settles O14: the bytes that match are gone over, and what follows them differs or is too short. -/
theorem badMagicRaises : Obligations.BadMagicRaises := by
  refine fun s good more hctl hparsed => ⟨fun m bad rest hmagic hbad hne hu => ?_, fun part hmagic hmore hpart hu => ?_⟩
  · refine step_rejects_magic (r := .badMagic) hctl hparsed ?_
    rw [hmagic, hu, List.append_assoc, matchMagic_append, matchMagic_bad more rest hbad hne]
  · refine step_rejects_magic (r := .truncated) hctl hparsed ?_
    rw [hmagic, hu, matchMagic_append, matchMagic_truncated hmore hpart]

/-- Settles O48: each rule tests its capacity and its storage before it writes anything. -/
theorem allocationFailureRaises : Obligations.AllocationFailureRaises := by
  refine fun g limits s => ⟨allocateHistory_raises, allocateMeans_raises g, fun chunk more _ hreq hfault hquit hstorage => ?_⟩
  rw [serve, hreq]
  exact beginCall_raises (s := { s with requests := more }) hfault hquit hstorage

end Sys2Proof
end

section
/-! PROOFS. The WAVE parse (41_header.md R110). It reads the blob forwards, so each rule is described from a place `p` of the blob
and the bytes that stand from there on (`State.BlobFrom`); what `get(n)` does there is the one fact about the blob that the rest
uses. -/

namespace Sys2Proof.Machine

variable {s : State} {p n : Nat} {part rest : List Byte} {β : Type}

/-! ### A place in the blob -/

/-- From the byte index `p` on the blob holds `rest`, and nothing after it. -/
def State.BlobFrom (s : State) (p : Nat) (rest : List Byte) : Prop :=
  ∃ before : List Byte, s.blob = before ++ rest ∧ before.length = p

theorem State.blobFrom_start (h : s.blob = rest) : s.BlobFrom 0 rest := ⟨[], h, rfl⟩

theorem State.BlobFrom.skip (h : s.BlobFrom p (part ++ rest)) (hn : part.length = n) : s.BlobFrom (p + n) rest := by
  obtain ⟨before, hblob, hp⟩ := h
  exact ⟨before ++ part, by rw [hblob, List.append_assoc], by rw [List.length_append, hp, hn]⟩

theorem State.BlobFrom.drop (h : s.BlobFrom p rest) (hn : n ≤ rest.length) : s.BlobFrom (p + n) (rest.drop n) := by
  rw [← List.take_append_drop n rest] at h
  exact h.skip (List.length_take_of_le hn)

/-- R110: `get(n)` gives the next `n` bytes, or the blob ends first. -/
theorem getBlob_at (h : s.BlobFrom p rest) :
    getBlob p n s = if rest.length < n then .error (.raise .blobOverrun) s else .ok (rest.take n) s := by
  obtain ⟨before, hblob, hp⟩ := h
  rw [getBlob, hblob, List.length_append, hp, ← hp, List.drop_left]
  simp only [Nat.add_lt_add_iff_left]

theorem getBlob_bind_take {f : List Byte → M β} (h : s.BlobFrom p rest) (hn : n ≤ rest.length) :
    (getBlob p n >>= f) s = f (rest.take n) s := by
  refine run_bind_ok ?_
  rw [getBlob_at h, if_neg (Nat.not_lt.2 hn)]

theorem getBlob_bind {f : List Byte → M β} (h : s.BlobFrom p (part ++ rest)) (hn : part.length = n) :
    (getBlob p n >>= f) s = f part s := by
  rw [getBlob_bind_take h (by rw [List.length_append]; omega), ← hn, List.take_left]

theorem getBlob_bind_short {f : List Byte → M β} (h : s.BlobFrom p rest) (hn : rest.length < n) :
    (getBlob p n >>= f) s = .error (.raise .blobOverrun) s := by
  refine run_bind_error ?_
  rw [getBlob_at h, if_pos hn]

theorem tagRiff_length : tagRiff.length = 4 := rfl
theorem tagWave_length : tagWave.length = 4 := rfl
theorem tagFmt_length : tagFmt.length = 4 := rfl

/-! ### The scan for the `fmt ` sub-chunk -/

/-- A sub-chunk that the scan skips: its tag, its length and its body. -/
def IsSkippedChunk (k : List Byte × List Byte × List Byte) : Prop :=
  k.1.length = 4 ∧ k.1 ≠ tagFmt ∧ k.2.1.length = 4 ∧ k.2.2.length = leBytes k.2.1

/-- The bytes of a sub-chunk. -/
def chunkBytes (k : List Byte × List Byte × List Byte) : List Byte := k.1 ++ k.2.1 ++ k.2.2

/-- The head of a WAVE blob and the sub-chunks before its `fmt ` sub-chunk. -/
def waveHead (size : List Byte) (chunks : List (List Byte × List Byte × List Byte)) : List Byte :=
  tagRiff ++ size ++ tagWave ++ chunks.flatMap chunkBytes

/-- No sub-chunk is empty. -/
theorem chunks_length_le {chunks : List (List Byte × List Byte × List Byte)} (hchunks : ∀ k ∈ chunks, IsSkippedChunk k) :
    chunks.length ≤ (chunks.flatMap chunkBytes).length := by
  induction chunks with
  | nil => exact Nat.zero_le _
  | cons k chunks ih =>
    have htag := (hchunks k List.mem_cons_self).1
    have hrest := ih fun k hk => hchunks k (List.mem_cons_of_mem _ hk)
    simp only [List.flatMap_cons, List.length_append, List.length_cons, chunkBytes] at hrest ⊢
    omega

theorem findFmt_found (rounds : Nat) (h : s.BlobFrom p (tagFmt ++ rest)) : findFmt (rounds + 1) p s = .ok (p + 4) s := by
  rw [findFmt, getBlob_bind h tagFmt_length, if_pos rfl, run_pure]

theorem findFmt_skip (rounds : Nat) {k : List Byte × List Byte × List Byte} (hk : IsSkippedChunk k)
    (h : s.BlobFrom p (chunkBytes k ++ rest)) :
    findFmt (rounds + 1) p s = findFmt rounds (p + 8 + leBytes k.2.1) s ∧ s.BlobFrom (p + 8 + leBytes k.2.1) rest := by
  obtain ⟨htag, hne, hsize, hbody⟩ := hk
  rw [chunkBytes, List.append_assoc, List.append_assoc] at h
  have h4 := h.skip htag
  have h8 := h4.skip hsize
  refine ⟨?_, h8.skip hbody⟩
  rw [findFmt, getBlob_bind h htag, if_neg hne, getBlob_bind h4 hsize, getBlob_bind h8 hbody]

/-- Any number of sub-chunks is skipped, and the rounds left are enough for one more. -/
theorem findFmt_skips {chunks : List (List Byte × List Byte × List Byte)} (hchunks : ∀ k ∈ chunks, IsSkippedChunk k)
    {rounds : Nat} (hrounds : chunks.length ≤ rounds) (h : s.BlobFrom p (chunks.flatMap chunkBytes ++ rest)) :
    ∃ left q, findFmt (rounds + 1) p s = findFmt (left + 1) q s ∧ s.BlobFrom q rest := by
  induction chunks generalizing p rounds with
  | nil => exact ⟨rounds, p, rfl, h⟩
  | cons k chunks ih =>
    obtain ⟨rounds, rfl⟩ : ∃ r, rounds = r + 1 := ⟨rounds - 1, by rw [List.length_cons] at hrounds; omega⟩
    rw [List.flatMap_cons, List.append_assoc] at h
    obtain ⟨hskip, hrest⟩ := findFmt_skip (rounds + 1) (hchunks k List.mem_cons_self) h
    rw [hskip]
    exact ih (fun k hk => hchunks k (List.mem_cons_of_mem _ hk)) (Nat.le_of_succ_le_succ hrounds) hrest

/-- The blob ends inside the tag of a sub-chunk. -/
theorem findFmt_short_tag (rounds : Nat) (h : s.BlobFrom p rest) (hrest : rest.length < 4) :
    findFmt (rounds + 1) p s = .error (.raise .blobOverrun) s := by
  rw [findFmt, getBlob_bind_short h hrest]

section

variable {tag size : List Byte} (htag : tag.length = 4) (hne : tag ≠ tagFmt)

include htag hne

/-- The blob ends inside the length of a sub-chunk. -/
theorem findFmt_short_size (rounds : Nat) (h : s.BlobFrom p (tag ++ rest)) (hrest : rest.length < 4) :
    findFmt (rounds + 1) p s = .error (.raise .blobOverrun) s := by
  rw [findFmt, getBlob_bind h htag, if_neg hne, getBlob_bind_short (h.skip htag) hrest]

/-- The blob ends inside the body of a sub-chunk. -/
theorem findFmt_short_body (rounds : Nat) (hsize : size.length = 4) (h : s.BlobFrom p (tag ++ (size ++ rest)))
    (hrest : rest.length < leBytes size) : findFmt (rounds + 1) p s = .error (.raise .blobOverrun) s := by
  have h4 := h.skip htag
  rw [findFmt, getBlob_bind h htag, if_neg hne, getBlob_bind h4 hsize, getBlob_bind_short (h4.skip hsize) hrest]

end

/-! ### The head -/

theorem parseWave_badRiffTag {a : List Byte} (ha : a.length = 4) (hne : a ≠ tagRiff) (h : s.blob = a ++ rest) :
    parseWave s = .error (.raise .badRiffTag) s := by
  rw [parseWave, getBlob_bind (State.blobFrom_start h) ha, if_pos hne, run_raise]

theorem parseWave_short_riff (hrest : rest.length < 4) (h : s.blob = rest) : parseWave s = .error (.raise .blobOverrun) s := by
  rw [parseWave, getBlob_bind_short (State.blobFrom_start h) hrest]

/-- The blob ends inside the size or inside the `WAVE` tag. -/
theorem parseWave_short_head (hrest : rest.length < 8) (h : s.blob = tagRiff ++ rest) :
    parseWave s = .error (.raise .blobOverrun) s := by
  have h0 := State.blobFrom_start h
  have h4 : s.BlobFrom 4 rest := h0.skip tagRiff_length
  rw [parseWave, getBlob_bind h0 tagRiff_length, if_neg (not_not.2 rfl)]
  by_cases hsize : rest.length < 4
  · rw [getBlob_bind_short h4 hsize]
  · have h8 : s.BlobFrom 8 (rest.drop 4) := h4.drop (Nat.le_of_not_lt hsize)
    rw [← List.take_append_drop 4 rest] at h4
    rw [getBlob_bind h4 (List.length_take_of_le (Nat.le_of_not_lt hsize)),
      getBlob_bind_short h8 (by rw [List.length_drop]; omega)]

section

variable {size : List Byte} (hsize : size.length = 4)

include hsize

theorem parseWave_badWaveTag {b : List Byte} (hb : b.length = 4) (hne : b ≠ tagWave)
    (h : s.blob = tagRiff ++ size ++ b ++ rest) : parseWave s = .error (.raise .badWaveTag) s := by
  rw [List.append_assoc, List.append_assoc] at h
  have h0 := State.blobFrom_start h
  have h4 : s.BlobFrom 4 _ := h0.skip tagRiff_length
  have h8 : s.BlobFrom 8 _ := h4.skip hsize
  rw [parseWave, getBlob_bind h0 tagRiff_length, if_neg (not_not.2 rfl), getBlob_bind h4 hsize, getBlob_bind h8 hb,
    if_pos hne, run_raise]

/-- Past the head and any number of skipped sub-chunks the parse is the scan and the `fmt ` sub-chunk, from the next one on. -/
theorem parseWave_from_chunk {chunks : List (List Byte × List Byte × List Byte)} (hchunks : ∀ k ∈ chunks, IsSkippedChunk k)
    (h : s.blob = waveHead size chunks ++ rest) :
    ∃ left q, parseWave s = (findFmt (left + 1) q >>= parseFmt) s ∧ s.BlobFrom q rest := by
  have hrounds : chunks.length ≤ s.blob.length := by
    have := chunks_length_le hchunks
    rw [h, waveHead]
    simp only [List.length_append]
    omega
  simp only [waveHead, List.append_assoc] at h
  have h0 := State.blobFrom_start h
  have h4 : s.BlobFrom 4 _ := h0.skip tagRiff_length
  have h8 : s.BlobFrom 8 _ := h4.skip hsize
  have h12 : s.BlobFrom 12 _ := h8.skip tagWave_length
  obtain ⟨left, q, hscan, hq⟩ := findFmt_skips hchunks hrounds h12
  refine ⟨left, q, ?_, hq⟩
  rw [parseWave, getBlob_bind h0 tagRiff_length, if_neg (not_not.2 rfl), getBlob_bind h4 hsize, getBlob_bind h8 tagWave_length,
    if_neg (not_not.2 rfl), run_get_bind, run_bind, run_bind, hscan]

/-- Past the `fmt ` tag the parse is that of its sub-chunk. -/
theorem parseWave_from_fmt {chunks : List (List Byte × List Byte × List Byte)} (hchunks : ∀ k ∈ chunks, IsSkippedChunk k)
    (h : s.blob = waveHead size chunks ++ (tagFmt ++ rest)) :
    ∃ q, parseWave s = parseFmt q s ∧ s.BlobFrom q rest := by
  obtain ⟨left, q, hparse, hq⟩ := parseWave_from_chunk hsize hchunks h
  exact ⟨q + 4, hparse.trans (run_bind_ok (findFmt_found left hq)), hq.skip tagFmt_length⟩

end

/-! ### The `fmt ` sub-chunk -/

theorem parseFmt_short_size (h : s.BlobFrom p rest) (hrest : rest.length < 4) :
    parseFmt p s = .error (.raise .blobOverrun) s := by
  rw [parseFmt, getBlob_bind_short h hrest]

section

variable {size : List Byte} (hsize : size.length = 4)

include hsize

theorem parseFmt_tooShort (h16 : leBytes size < 16) (h : s.BlobFrom p (size ++ rest)) :
    parseFmt p s = .error (.raise .fmtChunkTooShort) s := by
  rw [parseFmt, getBlob_bind h hsize, if_pos h16, run_raise]

variable (h16 : 16 ≤ leBytes size)

include h16

theorem parseFmt_short_code (h : s.BlobFrom p (size ++ rest)) (hrest : rest.length < 2) :
    parseFmt p s = .error (.raise .blobOverrun) s := by
  rw [parseFmt, getBlob_bind h hsize, if_neg (Nat.not_lt.2 h16), getBlob_bind_short (h.skip hsize) hrest]

theorem parseFmt_notPcm {code : List Byte} (hcode : code.length = 2) (hne : leBytes code ≠ 1)
    (h : s.BlobFrom p (size ++ (code ++ rest))) : parseFmt p s = .error (.raise .notPcm) s := by
  rw [parseFmt, getBlob_bind h hsize, if_neg (Nat.not_lt.2 h16), getBlob_bind (h.skip hsize) hcode, if_pos hne, run_raise]

/-- R110: the fields behind the format code, from the byte index `p` on. -/
def parseFmtFields (p : Nat) : M Unit := do
  let _ ← getBlob p 2
  let rate ← getBlob (p + 2) 4
  modify fun s => { s with sampleRate := BitVec.ofNat 32 (leBytes rate) }
  let _ ← getBlob (p + 6) 4
  let _ ← getBlob (p + 10) 2
  let bits ← getBlob (p + 12) 2
  if leBytes bits ≠ 16 then raise .badBitsPerSample
  else modify fun s => { s with bitsPerSample := BitVec.ofNat 16 (leBytes bits) }

/-- Past a good length and the code of PCM the parse is that of the fields. -/
theorem parseFmt_from_fields (h : s.BlobFrom p (size ++ ([1, 0] ++ rest))) :
    parseFmt p s = parseFmtFields (p + 6) s ∧ s.BlobFrom (p + 6) rest := by
  have h4 := h.skip hsize
  refine ⟨?_, h4.skip rfl⟩
  have hcode : ([1, 0] : List Byte).length = 2 := rfl
  rw [parseFmt, getBlob_bind h hsize, if_neg (Nat.not_lt.2 h16), getBlob_bind h4 hcode, if_neg (by decide)]
  rfl

end

/-- The state in which the sample rate has been read from the fields. -/
def State.withRateOf (s : State) (fields : List Byte) : State :=
  { s with sampleRate := BitVec.ofNat 32 (leBytes ((fields.drop 2).take 4)) }

/-- The blob ends inside the fields, before the sample rate was written or after it. -/
theorem parseFmtFields_short (h : s.BlobFrom p rest) (hrest : rest.length < 14) :
    parseFmtFields p s = .error (.raise .blobOverrun) (if rest.length < 6 then s else s.withRateOf rest) := by
  have hdrop (k : Nat) : (rest.drop k).length = rest.length - k := List.length_drop
  unfold parseFmtFields
  by_cases h2 : rest.length < 2
  · rw [getBlob_bind_short h h2, if_pos (by omega)]
  rw [getBlob_bind_take h (by omega)]
  by_cases h6 : rest.length < 6
  · rw [getBlob_bind_short (h.drop (by omega)) (by rw [hdrop]; omega), if_pos h6]
  rw [getBlob_bind_take (h.drop (by omega)) (by rw [hdrop]; omega), run_modify_bind, if_neg h6]
  have ht : (s.withRateOf rest).BlobFrom p rest := h
  change (getBlob (p + 6) 4 >>= _) (s.withRateOf rest) = _
  by_cases h10 : rest.length < 10
  · rw [getBlob_bind_short (ht.drop (by omega)) (by rw [hdrop]; omega)]
  rw [getBlob_bind_take (ht.drop (by omega)) (by rw [hdrop]; omega)]
  by_cases h12 : rest.length < 12
  · rw [getBlob_bind_short (ht.drop (by omega)) (by rw [hdrop]; omega)]
  rw [getBlob_bind_take (ht.drop (by omega)) (by rw [hdrop]; omega),
    getBlob_bind_short (ht.drop (by omega)) (by rw [hdrop]; omega)]

/-- All fields are there: 16 bits a sample, or an error. -/
theorem parseFmtFields_whole (h : s.BlobFrom p rest) (hrest : 14 ≤ rest.length) :
    parseFmtFields p s =
      if leBytes ((rest.drop 12).take 2) ≠ 16 then .error (.raise .badBitsPerSample) (s.withRateOf rest)
      else .ok () { s.withRateOf rest with bitsPerSample := 16 } := by
  have hdrop (k : Nat) : (rest.drop k).length = rest.length - k := List.length_drop
  unfold parseFmtFields
  rw [getBlob_bind_take h (by omega), getBlob_bind_take (h.drop (by omega)) (by rw [hdrop]; omega), run_modify_bind]
  have ht : (s.withRateOf rest).BlobFrom p rest := h
  change (getBlob (p + 6) 4 >>= _) (s.withRateOf rest) = _
  rw [getBlob_bind_take (ht.drop (by omega)) (by rw [hdrop]; omega), getBlob_bind_take (ht.drop (by omega)) (by rw [hdrop]; omega),
    getBlob_bind_take (ht.drop (by omega)) (by rw [hdrop]; omega)]
  by_cases hbits : leBytes ((rest.drop 12).take 2) = 16
  · rw [if_neg (not_not.2 hbits), if_neg (not_not.2 hbits), hbits]
    rfl
  · rw [if_pos hbits, if_pos hbits, run_raise]

/-! ### A blob that is accepted -/

/-- R110: the parse writes the sample rate and the bits per sample, and nothing else. -/
theorem parseWave_of_isWave {rate : BitVec 32} (h : IsWave s.blob rate) :
    parseWave s = .ok () { s with sampleRate := rate, bitsPerSample := 16 } := by
  obtain ⟨size, chunks, fmtSize, channelCount, rateBytes, byteRate, blockAlign, rest, hsize, hfmtSize, hchannelCount, hrateBytes,
    hbyteRate, hblockAlign, h16, rfl, hchunks, hblob⟩ := h
  change s.blob = waveHead size chunks ++ tagFmt ++ _ ++ _ ++ _ ++ _ ++ _ ++ _ ++ _ ++ _ at hblob
  obtain ⟨q, hparse, hq⟩ := parseWave_from_fmt hsize hchunks
    (rest := fmtSize ++ ([1, 0] ++ (channelCount ++ (rateBytes ++ (byteRate ++ (blockAlign ++ ([16, 0] ++ rest)))))))
    (by simpa only [List.append_assoc] using hblob)
  obtain ⟨hfields, hbytes⟩ := parseFmt_from_fields hfmtSize h16 hq
  have hbits : (channelCount ++ (rateBytes ++ (byteRate ++ (blockAlign ++ ([16, 0] ++ rest))))).drop 12 = [16, 0] ++ rest := by
    simp only [← List.append_assoc]
    rw [List.append_assoc _ [16, 0]]
    exact List.drop_left' (by simp only [List.length_append]; omega)
  rw [hparse, hfields, parseFmtFields_whole hbytes (by simp; omega), hbits, if_neg (by simp [leBytes]),
    State.withRateOf, List.drop_left' hchannelCount, List.take_left' hrateBytes]

end Sys2Proof.Machine

namespace Sys2Proof

open Machine

/-- Settles O47: each clause is the parse from the place where its fault stands. -/
theorem waveParseErrors : Obligations.WaveParseErrors := by
  intro s a size b mid rest chunks ha hsize hb hchunks pre
  have fromChunk {more : List Byte} (h : s.blob = pre ++ more) :
      ∃ left q, parseWave s = (findFmt (left + 1) q >>= parseFmt) s ∧ s.BlobFrom q more := parseWave_from_chunk hsize hchunks h
  have fromFmt {more : List Byte} (h : s.blob = pre ++ (tagFmt ++ more)) :
      ∃ q, parseWave s = parseFmt q s ∧ s.BlobFrom q more := parseWave_from_fmt hsize hchunks h
  refine ⟨?badRiffTag, ?badWaveTag, ?tooShort, ?notPcm, ?badBits, ?shortRiff, ?shortHead, ?shortTag, ?shortSize, ?shortBody,
    ?shortFmtSize, ?shortCode, ?shortFields⟩
  case badRiffTag => exact fun hne h => parseWave_badRiffTag ha hne h
  case badWaveTag => exact fun hne h => parseWave_badWaveTag hsize hb hne h
  case tooShort =>
    intro h16 h
    obtain ⟨q, hparse, hq⟩ := fromFmt (more := a ++ rest) (by simpa only [List.append_assoc] using h)
    rw [hparse, parseFmt_tooShort ha h16 hq]
  case notPcm =>
    intro code hcode hne h16 h
    obtain ⟨q, hparse, hq⟩ := fromFmt (more := a ++ (code ++ rest)) (by simpa only [List.append_assoc] using h)
    rw [hparse, parseFmt_notPcm ha h16 hcode hne hq]
  case badBits =>
    intro bits hbits hne h16 hmid h
    obtain ⟨q, hparse, hq⟩ := fromFmt (more := a ++ ([1, 0] ++ (mid ++ (bits ++ rest))))
      (by simpa only [List.append_assoc] using h)
    obtain ⟨hfields, hbytes⟩ := parseFmt_from_fields ha h16 hq
    rw [hparse, hfields, parseFmtFields_whole hbytes (by simp only [List.length_append]; omega), List.drop_left' hmid,
      List.take_left' hbits, if_pos hne, State.withRateOf, List.drop_append_of_le_length (by omega),
      List.take_append_of_le_length (by rw [List.length_drop]; omega)]
  case shortRiff => exact fun hrest h => parseWave_short_riff hrest h
  case shortHead => exact fun hrest h => parseWave_short_head hrest h
  case shortTag =>
    intro hrest h
    obtain ⟨left, q, hparse, hq⟩ := fromChunk h
    rw [hparse, run_bind_error (findFmt_short_tag left hq hrest)]
  case shortSize =>
    intro hne hrest h
    obtain ⟨left, q, hparse, hq⟩ := fromChunk (h.trans (List.append_assoc ..))
    rw [hparse, run_bind_error (findFmt_short_size hb hne left hq hrest)]
  case shortBody =>
    intro hne hrest h
    obtain ⟨left, q, hparse, hq⟩ := fromChunk (more := b ++ (a ++ rest)) (by simpa only [List.append_assoc] using h)
    rw [hparse, run_bind_error (findFmt_short_body hb hne left ha hq hrest)]
  case shortFmtSize =>
    intro hrest h
    obtain ⟨q, hparse, hq⟩ := fromFmt (h.trans (List.append_assoc ..))
    rw [hparse, parseFmt_short_size hq hrest]
  case shortCode =>
    intro h16 hrest h
    obtain ⟨q, hparse, hq⟩ := fromFmt (more := a ++ rest) (by simpa only [List.append_assoc] using h)
    rw [hparse, parseFmt_short_code ha h16 hq hrest]
  case shortFields =>
    intro h16 hrest h
    obtain ⟨q, hparse, hq⟩ := fromFmt (more := a ++ ([1, 0] ++ rest)) (by simpa only [List.append_assoc] using h)
    obtain ⟨hfields, hbytes⟩ := parseFmt_from_fields ha h16 hq
    rw [hparse, hfields, parseFmtFields_short hbytes hrest]
    rfl

end Sys2Proof
end

section
/-! PROOFS. What the header leaves (41_header.md R101 to R111), and the errors of its fields. `s.Moved` is `s` but for the
cursor, so a rule that reads its fields is described by the state it moves to, every other register included. `Raises` says of a
rule that behind a code it raises an error, whatever follows; it composes with `Reads` as the rules do. The header is cut into the
parameters (R101 to R103), the storage (R104 to R107) and the blob (R108 to R111). -/

namespace Sys2Proof

/-- R61, R102, R103: what legal parameters satisfy. -/
theorem HeaderFields.parametersWf_iff {f : HeaderFields} : f.parametersWf = true ↔
    (0 < f.channelCount.value ∧ f.channelCount.value ≤ Config.maxChannels) ∧
    (f.version = 0 ∨
      (0 < f.blocksize.value ∧ f.blocksize.value ≤ Config.maxBlocksize) ∧ f.skipped.length = f.skipCount.value) := by
  simp only [HeaderFields.parametersWf, Bool.and_eq_true, Bool.or_eq_true, decide_eq_true_eq, beq_iff_eq]

theorem HeaderFields.parametersWf_of_wf {g : Config.General} {f : HeaderFields} (h : f.wf g = true) : f.parametersWf = true := by
  obtain ⟨hchannels, hblock, -⟩ := HeaderFields.wf_iff.1 h
  exact HeaderFields.parametersWf_iff.2 ⟨hchannels, hblock⟩

/-- R61, fields 2 to 9, grouped as the rules read them. -/
theorem encHeaderParameters_eq (g : Config.General) (f : HeaderFields) : encHeaderParameters g f =
    encRaw 8 f.version.toNat ++ ((encA f.version g.typeSize f.formatType ++ encA f.version g.chanSize f.channelCount) ++
      encBlockParameters f) := by
  simp only [encHeaderParameters, encBlockParameters, List.append_assoc]

/-- R63: a number other than the command's does not select it. -/
theorem ofFnNumber_ne {g : Config.General} (hg : g.legal = true) {fn : Nat} {i : Instr} (hi : i ∈ Config.commands)
    (hfn : some fn ≠ i.fnNumber g) : Instr.ofFnNumber g fn ≠ i := by
  intro heq
  rw [Instr.ofFnNumber] at heq
  rcases hget : g.fnId[fn]? with - | j <;> rw [hget] at heq
  · have hillegal : i = .illegal10or11 ∨ i = .illegal12up := by
      rw [← heq]
      dsimp only
      split
      · exact .inl rfl
      · exact .inr rfl
    obtain rfl | rfl := hillegal <;> exact absurd hi (by decide)
  · obtain rfl : j = i := heq
    obtain ⟨hlt, hval⟩ := List.getElem?_eq_some_iff.1 hget
    have hnodup : g.fnId.Nodup := (Config.General.perm_commands hg).nodup_iff.2 (by decide)
    refine hfn (List.idxOf?_eq_some_iff.2 ⟨hlt, hval, fun k hk hk' => ?_⟩).symm
    exact Nat.ne_of_lt hk (hnodup.getElem_inj_iff.1 (hk'.trans hval.symm))

end Sys2Proof

namespace Sys2Proof.Machine

variable {α β : Type} {s t u : State} {P Q R : State → Prop} {code c₁ c₂ rest : Bits} {m : M α} {a : α} {c : Cause}

/-! ### Moving the cursor, and raising behind a code -/

/-- `t` is `s` but for the cursor. -/
def State.Moved (s t : State) : Prop := ∃ n, t = s.advance n

theorem State.Moved.refl (s : State) : s.Moved s := ⟨0, rfl⟩

/-- A rule that reads nothing answers alike wherever the cursor stands. -/
theorem Silent.of_moved (hpos : u.pos = s.pos) (hpending : u.pending = s.pending)
    (h : ∀ n, m (s.advance n) = .ok a (u.advance n)) : Silent s.Moved m fun x t => x = a ∧ u.Moved t := by
  rintro _ ⟨n, rfl⟩
  exact ⟨a, _, h n, by rw [State.advance_pos, State.advance_pos, hpos], hpending, rfl, n, rfl⟩

/-- R87. -/
theorem reads_adaptive {version : Byte} (hv : s.version = version) (hint : Nat) (f : Adaptive) :
    Reads s.Moved (encA version hint f) (readAdaptive hint) f.value s.Moved :=
  reads_readAdaptive exists_advance_advance (by rintro _ ⟨n, rfl⟩; exact hv)

/-- From a state with `P` whose unread bits begin with the code the rule raises `c` in a state with `Q`. -/
def Raises (P : State → Prop) (code : Bits) (m : M α) (c : Cause) (Q : State → Prop) : Prop :=
  ∀ s rest, P s → s.unread = code ++ rest → ∃ t, m s = .error (.raise c) t ∧ Q t

theorem Raises.raise : Raises P [] (raise c : M α) c P := fun s _ hs _ => ⟨s, run_raise c s, hs⟩

section

variable {f : α → M β}

theorem Raises.bind (h : Raises P code m c Q) : Raises P code (m >>= f) c Q := fun s rest hs hu => by
  obtain ⟨t, ht, hQ⟩ := h s rest hs hu
  exact ⟨t, run_bind_error ht, hQ⟩

theorem Raises.weaken (h : Raises P code m c Q) (hQ : ∀ t, Q t → R t) : Raises P code m c R := fun s rest hs hu => by
  obtain ⟨t, ht, hQt⟩ := h s rest hs hu
  exact ⟨t, ht, hQ t hQt⟩

theorem Reads.bind_raises (hm : Reads P c₁ m a Q) (hf : Raises Q c₂ (f a) c R) : Raises P (c₁ ++ c₂) (m >>= f) c R :=
  fun s rest hs hu => by
    rw [List.append_assoc] at hu
    obtain ⟨t, ht, hpos, hpending, hQ⟩ := hm.whole s _ hs hu
    rw [run_bind_ok ht]
    exact hf t rest hQ (State.unread_behind hu hpos hpending)

theorem Silent.bind_raises (hm : Silent P m fun x t => x = a ∧ Q t) (hf : Raises Q code (f a) c R) :
    Raises P code (m >>= f) c R := hm.reads.bind_raises hf

theorem Reads.bind_raise (hm : Reads P code m a Q) (hf : f a = Machine.raise c) : Raises P code (m >>= f) c Q := by
  rw [← List.append_nil code]
  exact hm.bind_raises (hf ▸ Raises.raise)

end

section

variable {g : State → State} {f : PUnit → M β} {b : β} (u) (hg : ∀ n, g (s.advance n) = u.advance n) (hpos : u.pos = s.pos)
  (hpending : u.pending = s.pending)

include hg hpos hpending

theorem silent_modify : Silent s.Moved (modify g : M PUnit) fun x t => x = ⟨⟩ ∧ u.Moved t :=
  Silent.of_moved hpos hpending fun n => by rw [run_modify, hg]

/-- The registers are updated, and the rest goes on from there. -/
theorem Reads.modify_bind (hf : Reads u.Moved code (f ⟨⟩) b Q) : Reads s.Moved code (modify g >>= f) b Q :=
  List.nil_append code ▸ (silent_modify u hg hpos hpending).reads.bind hf

theorem Raises.modify_bind (hf : Raises u.Moved code (f ⟨⟩) c Q) : Raises s.Moved code (modify g >>= f) c Q :=
  (silent_modify u hg hpos hpending).bind_raises hf

end

/-- R204: the error is taken in the state it was raised in. -/
theorem Raises.performs {m : M Unit} (h : Raises P code m c Q) (hs : P s) (hu : s.unread = code ++ rest) :
    ∃ t, perform m s = .next (t.raise c) ∧ Q t := by
  obtain ⟨t, ht, hQ⟩ := h s rest hs hu
  exact ⟨t, perform_raise ht, hQ⟩

/-! ### The parameters -/

/-- R101. -/
theorem reads_version (s : State) (version : Byte) :
    Reads s.Moved (encRaw 8 version.toNat) readVersion ⟨⟩ (s.atVersion version).Moved := by
  have hvalue : BitVec.ofNat 8 version.toNat = version := (BitVec.ofNat_toNat 8 version).trans (BitVec.setWidth_eq version)
  refine (reads_readBits exists_advance_advance (by decide) version.isLt).bind_silent (Silent.of_moved rfl rfl fun n => ?_)
  rw [hvalue]
  rfl

section

variable (s) (g : Config.General) (formatType channelCount : Adaptive)

/-- R102: a legal channel count. -/
theorem reads_typeAndChannels (hpos : 0 < channelCount.value) (hle : channelCount.value ≤ Config.maxChannels) :
    Reads s.Moved (encA s.version g.typeSize formatType ++ encA s.version g.chanSize channelCount) (readTypeAndChannels g) ⟨⟩
      ({ s with internalFormatType := formatType.value, channels := channelCount.value } : State).Moved := by
  refine (reads_adaptive rfl _ _).bind
    (Reads.modify_bind { s with internalFormatType := formatType.value } (fun _ => rfl) rfl rfl ?_)
  refine (reads_adaptive rfl _ _).bind_silent ?_
  rw [if_neg (by omega)]
  exact silent_modify _ (fun _ => rfl) rfl rfl

/-- R102, R205: no channel, or too many. -/
theorem raises_badChannelCount (hbad : channelCount.value = 0 ∨ Config.maxChannels < channelCount.value) :
    Raises s.Moved (encA s.version g.typeSize formatType ++ encA s.version g.chanSize channelCount) (readTypeAndChannels g)
      .badChannelCount ({ s with internalFormatType := formatType.value, channels := 0 } : State).Moved := by
  refine (reads_adaptive rfl _ _).bind_raises
    (Raises.modify_bind { s with internalFormatType := formatType.value } (fun _ => rfl) rfl rfl ?_)
  rw [← List.append_nil (encA s.version g.chanSize channelCount)]
  refine (reads_adaptive rfl _ _).bind_raises ?_
  rw [if_pos hbad]
  exact Raises.modify_bind { s with internalFormatType := formatType.value, channels := 0 } (fun _ => rfl) rfl rfl Raises.raise

end

/-- R103: a block size of 0, or one too large. -/
theorem raises_badHeaderBlocksize {blocksize : Adaptive} (hv : s.version ≠ 0)
    (hbad : blocksize.value = 0 ∨ Config.maxBlocksize < blocksize.value) :
    Raises s.Moved (encA s.version 0 blocksize) readBlockParameters .badHeaderBlocksize s.Moved := by
  intro t rest ht hu
  have hversion : t.version ≠ 0 := by
    obtain ⟨n, rfl⟩ := ht
    exact hv
  rw [readBlockParameters, run_get_bind, if_neg hversion]
  exact (reads_adaptive rfl 0 blocksize).bind_raise (if_pos hbad) t rest ht hu

/-- R101 to R103. -/
def readParameters (g : Config.General) : M Nat := do
  readVersion
  readTypeAndChannels g
  readBlockParameters

/-- R104 to R107. -/
def allocateStorage (impl : Config.Impl) (maxLpcOrder : Nat) : M Unit := do
  modify fun s => { s with nwrap := max Config.nwrapMin maxLpcOrder }
  allocateHistory impl.limits
  allocateMeans impl.general impl.limits
  setLpcqOffset impl.general

/-- The header is these two, and then the blob and the end. -/
theorem headerSequence_eq (impl : Config.Impl) : headerSequence impl = (do
    let maxLpcOrder ← readParameters impl.general
    allocateStorage impl maxLpcOrder
    let blobLen ← readBlobLength impl.general
    readBlob blobLen
    parseWave
    modify fun s => { s with currentChannel := 0, bitshift := 0, headerParsed := true }) := by
  simp only [headerSequence, readParameters, allocateStorage, bind_assoc]

variable {f : HeaderFields} {g : Config.General}

/-- R101 to R103: a fresh state with the parameters of a header. -/
def State.withParameters (s : State) (f : HeaderFields) : State :=
  { s with
    version := f.version
    internalFormatType := f.formatType.value
    channels := f.channelCount.value
    blocksize := f.blocksizeValue
    nmean := f.nmeanValue }

/-- R103: legal block parameters; at version 0 the registers are those of stream open. -/
theorem reads_blockParameters (hv : s.version = f.version)
    (hfresh : f.version = 0 → s.blocksize = f.blocksizeValue ∧ s.nmean = f.nmeanValue)
    (hf : f.version = 0 ∨
      (0 < f.blocksize.value ∧ f.blocksize.value ≤ Config.maxBlocksize) ∧ f.skipped.length = f.skipCount.value) :
    Reads s.Moved (encBlockParameters f) readBlockParameters (if f.version = 0 then 0 else f.maxLpcOrder.value)
      ({ s with blocksize := f.blocksizeValue, nmean := f.nmeanValue } : State).Moved := by
  refine Reads.get_bind ?_
  rintro _ ⟨n, rfl⟩
  rw [encBlockParameters]
  by_cases h0 : f.version = 0
  · obtain ⟨hblocksize, hnmean⟩ := hfresh h0
    have ht : (s.advance n).version = 0 := hv.trans h0
    rw [if_pos ht, if_pos h0, if_pos h0, ← hblocksize, ← hnmean]
    exact (Silent.pure 0).reads
  · obtain ⟨hblocksize, hskipped⟩ := hf.resolve_left h0
    have ht : (s.advance n).version ≠ 0 := fun ht => h0 (hv.symm.trans ht)
    rw [if_neg ht, if_neg h0, if_neg h0, HeaderFields.blocksizeValue, HeaderFields.nmeanValue, if_neg h0, if_neg h0]
    refine (reads_adaptive hv 0 f.blocksize).bind ?_
    rw [if_neg (by omega)]
    refine Reads.modify_bind { s with blocksize := f.blocksize.value } (fun _ => rfl) rfl rfl ?_
    refine (reads_adaptive (by exact hv) 0 f.maxLpcOrder).bind ((reads_adaptive (by exact hv) 0 f.nmean).bind ?_)
    refine Reads.modify_bind { s with blocksize := f.blocksize.value, nmean := f.nmean.value } (fun _ => rfl) rfl rfl ?_
    refine (reads_adaptive (by exact hv) 0 f.skipCount).bind ?_
    rw [← hskipped]
    exact (reads_skipBytes exists_advance_advance f.skipped).bind_silent (Silent.pure _)

/-- R101 to R103: legal parameters on a fresh state. -/
theorem reads_parameters (hs : s.FreshInv) (g : Config.General) (hf : f.parametersWf = true) :
    Reads s.Moved (encHeaderParameters g f) (readParameters g) (if f.version = 0 then 0 else f.maxLpcOrder.value)
      (s.withParameters f).Moved := by
  obtain ⟨⟨hpos, hle⟩, hblock⟩ := HeaderFields.parametersWf_iff.1 hf
  rw [encHeaderParameters_eq]
  refine (reads_version s f.version).bind ((reads_typeAndChannels _ g f.formatType f.channelCount hpos hle).bind ?_)
  refine reads_blockParameters rfl (fun h0 => ?_) hblock
  rw [HeaderFields.blocksizeValue, HeaderFields.nmeanValue, if_pos h0, if_pos h0]
  exact ⟨hs.blocksize, hs.nmean⟩

/-! ### The storage -/

/-- R105, R106: the capacity and the storage a header asks for. -/
theorem headerFits_iff {limits : Config.Limits} : headerFits limits f = true ↔
    (exceeds f.nwrap limits.nwrapMax = false ∧ limits.histStorage f.channelCount.value f.blocksizeValue f.nwrap = true) ∧
    exceeds f.nmeanValue.toNat limits.nmeanMax = false ∧
    limits.meanStorage f.channelCount.value (max 1 f.nmeanValue.toNat) = true := by
  simp only [headerFits, Bool.and_eq_true, Bool.not_eq_true', and_assoc]

/-- R105. -/
theorem allocateHistory_runs {limits : Config.Limits} (hmax : exceeds s.nwrap limits.nwrapMax = false)
    (hstorage : limits.histStorage s.channels s.blocksize s.nwrap = true) :
    allocateHistory limits s = .ok ()
      { s with
        histBlocksize := s.blocksize, hist := List.replicate s.channels (Memory.filled s.nwrap 0), coef := [] } := by
  rw [allocateHistory, run_get_bind, hmax, hstorage]
  rfl

/-- R106: the mean stores are there, and then the format type is looked at. -/
theorem allocateMeans_runs {limits : Config.Limits} (g : Config.General) (hmax : exceeds s.nmean.toNat limits.nmeanMax = false)
    (hstorage : limits.meanStorage s.channels (max 1 s.nmean.toNat) = true) :
    allocateMeans g limits s =
      if s.internalFormatType ≠ g.typeS16HL then
        .error (.raise .unknownAudioType) { s with mean := List.replicate s.channels [] }
      else .ok ()
        { s with mean := List.replicate s.channels (Memory.filled (max 1 s.nmean.toNat) Config.meanInit) } := by
  rw [allocateMeans, run_get_bind, hmax, hstorage, if_neg (by decide), run_modify_bind]
  by_cases hformat : s.internalFormatType = g.typeS16HL
  · rw [if_neg (not_not.2 hformat), if_neg (not_not.2 hformat), run_modify]
  · rw [if_pos hformat, if_pos hformat, run_raise]

/-- R104 to R107: the storage of a header whose parameters are there. -/
def State.withStorage (s : State) (g : Config.General) (f : HeaderFields) : State :=
  { s with
    nwrap := f.nwrap
    histBlocksize := f.blocksizeValue
    hist := List.replicate f.channelCount.value (Memory.filled f.nwrap 0)
    coef := []
    mean := List.replicate f.channelCount.value (Memory.filled (max 1 f.nmeanValue.toNat) Config.meanInit)
    lpcqoffset := if 1 < f.version.toNat then g.lpcqOffsetV2 else s.lpcqoffset }

section

variable {impl : Config.Impl}

/-- R104 to R107: an implementation with the capacity, and the supported format type. -/
theorem silent_allocateStorage (hfits : headerFits impl.limits f = true) (hformat : f.formatType.value = impl.general.typeS16HL) :
    Silent (s.withParameters f).Moved (allocateStorage impl (if f.version = 0 then 0 else f.maxLpcOrder.value))
      fun x t => x = () ∧ ((s.withParameters f).withStorage impl.general f).Moved t := by
  obtain ⟨⟨hwrap, hhist⟩, hmean, hmeanStorage⟩ := headerFits_iff.1 hfits
  refine Silent.of_moved rfl rfl fun n => ?_
  rw [allocateStorage, run_modify_bind, run_bind_ok (allocateHistory_runs hwrap hhist),
    run_bind_ok ((allocateMeans_runs impl.general hmean hmeanStorage).trans (if_neg (not_not.2 hformat))),
    setLpcqOffset, run_modify]
  by_cases hv : 1 < f.version.toNat
  · simp only [State.withStorage, if_pos hv]
    exact congrArg _ (if_pos hv)
  · simp only [State.withStorage, if_neg hv]
    exact congrArg _ (if_neg hv)

/-- R106: the supported format type is asked for after the storage. -/
theorem allocateStorage_unknownAudioType (hfits : headerFits impl.limits f = true)
    (hformat : f.formatType.value ≠ impl.general.typeS16HL) :
    Raises (s.withParameters f).Moved [] (allocateStorage impl (if f.version = 0 then 0 else f.maxLpcOrder.value))
      .unknownAudioType fun t => t.headerParsed = s.headerParsed ∧ t.results = s.results := by
  obtain ⟨⟨hwrap, hhist⟩, hmean, hmeanStorage⟩ := headerFits_iff.1 hfits
  rintro _ _ ⟨n, rfl⟩ -
  rw [allocateStorage, run_modify_bind, run_bind_ok (allocateHistory_runs hwrap hhist),
    run_bind_error ((allocateMeans_runs impl.general hmean hmeanStorage).trans (if_pos hformat))]
  exact ⟨_, rfl, rfl, rfl⟩

/-- R105, R106: the storage is not to be had. -/
theorem allocateStorage_allocFail (hfits : headerFits impl.limits f ≠ true) :
    Raises (s.withParameters f).Moved [] (allocateStorage impl (if f.version = 0 then 0 else f.maxLpcOrder.value))
      .allocFail fun t => t.headerParsed = s.headerParsed ∧ t.results = s.results := by
  rintro _ _ ⟨n, rfl⟩ -
  rw [allocateStorage, run_modify_bind]
  by_cases hhist : exceeds f.nwrap impl.limits.nwrapMax = false ∧
      impl.limits.histStorage f.channelCount.value f.blocksizeValue f.nwrap = true
  · have hmean : exceeds f.nmeanValue.toNat impl.limits.nmeanMax = true ∨
        impl.limits.meanStorage f.channelCount.value (max 1 f.nmeanValue.toNat) = false := by
      by_contra hno
      rw [not_or, Bool.not_eq_true, Bool.not_eq_false] at hno
      exact hfits (headerFits_iff.2 ⟨hhist, hno⟩)
    rw [run_bind_ok (allocateHistory_runs hhist.1 hhist.2), run_bind_error (allocateMeans_raises impl.general hmean)]
    exact ⟨_, rfl, rfl, rfl⟩
  · rw [not_and_or, Bool.not_eq_false, Bool.not_eq_true] at hhist
    rw [run_bind_error (allocateHistory_raises hhist)]
    exact ⟨_, rfl, rfl, rfl⟩

end

/-! ### The blob -/

/-- R108: another command than VERBATIM. -/
theorem raises_missingHeaderVerbatim (hg : g.legal = true) {fn : Nat} (hfn : some fn ≠ Instr.fnNumber g .verbatim) :
    Raises s.Moved (encU Config.fnSize fn) (readBlobLength g) .missingHeaderVerbatim s.Moved :=
  (reads_readUnsigned exists_advance_advance).bind_raise (if_pos (ofFnNumber_ne hg (by decide) hfn))

/-- R108: a length out of range. -/
theorem raises_badHeaderBlobSize (hg : g.legal = true) {len : Nat}
    (hlen : len < Config.headerBlobMin ∨ Config.headerBlobLim ≤ len) :
    Raises s.Moved (encFn g .verbatim ++ encU g.verbatimCkSize len) (readBlobLength g) .badHeaderBlobSize s.Moved := by
  refine (reads_readUnsigned exists_advance_advance).bind_raises ?_
  rw [ofFnNumber_fnNumber (Config.General.mem_fnId hg (by decide)), if_neg (not_not.2 rfl)]
  exact (reads_readUnsigned exists_advance_advance).bind_raise (if_pos hlen)

/-- R108: the command that carries the blob, and a legal length. -/
theorem reads_blobLength (hg : g.legal = true) {len : Nat} (hmin : Config.headerBlobMin ≤ len)
    (hlim : len < Config.headerBlobLim) :
    Reads s.Moved (encFn g .verbatim ++ encU g.verbatimCkSize len) (readBlobLength g) len s.Moved := by
  refine (reads_readUnsigned exists_advance_advance).bind ?_
  rw [ofFnNumber_fnNumber (Config.General.mem_fnId hg (by decide)), if_neg (not_not.2 rfl)]
  refine (reads_readUnsigned exists_advance_advance).bind_silent ?_
  rw [if_neg (by omega)]
  exact Silent.pure len

/-- R109: the low 8 bits of each value are kept. -/
theorem reads_blob (values : List Nat) :
    Reads s.Moved (values.flatMap (encU Config.verbatimByteSize)) (readBlob values.length) ()
      ({ s with blob := values.map (BitVec.ofNat 8) } : State).Moved := by
  refine Reads.modify_bind { s with blob := [] } (fun _ => rfl) rfl rfl ?_
  have hloop := Reads.forRange (enc := encU Config.verbatimByteSize)
    (body := fun _ => do
      let v ← readUnsigned Config.verbatimByteSize
      modify fun s => { s with blob := s.blob ++ [BitVec.ofNat 8 v] })
    (fun k => ({ s with blob := (values.take k).map (BitVec.ofNat 8) } : State).Moved) values 0 fun k v hv => by
      refine (reads_readUnsigned exists_advance_advance).bind_silent (silent_modify _ (fun n => ?_) rfl rfl)
      rw [List.take_add_one, hv, List.map_append]
      rfl
  rwa [List.take_length] at hloop

/-- R101 to R111: the header on a fresh state. -/
def State.withHeader (s : State) (g : Config.General) (f : HeaderFields) (rate : BitVec 32) : State :=
  { (s.withParameters f).withStorage g f with
    blob := f.blob.map (BitVec.ofNat 8)
    sampleRate := rate
    bitsPerSample := 16
    currentChannel := 0
    bitshift := 0
    headerParsed := true }

/-- R101 to R111: a legal header, on an implementation with the capacity for it. -/
theorem reads_headerSequence {impl : Config.Impl} {rate : BitVec 32} (hs : s.FreshInv) (hg : impl.general.legal = true)
    (hf : f.wf impl.general = true) (hwave : IsWave (f.blob.map (BitVec.ofNat 8)) rate) (hfits : headerFits impl.limits f = true) :
    Reads s.Moved (encHeader impl.general f) (headerSequence impl) () (s.withHeader impl.general f rate).Moved := by
  obtain ⟨-, -, hformat, hmin, hlim⟩ := HeaderFields.wf_iff.1 hf
  rw [headerSequence_eq, encHeader, encVerbatim, List.append_assoc, ← List.append_assoc (encFn _ _)]
  refine (reads_parameters hs _ (HeaderFields.parametersWf_of_wf hf)).bind ?_
  rw [← List.nil_append (_ ++ _)]
  refine (silent_allocateStorage hfits hformat).reads.bind ?_
  refine (reads_blobLength hg hmin hlim).bind ((reads_blob f.blob).bind_silent ?_)
  exact Silent.of_moved rfl rfl fun n => run_bind_ok (parseWave_of_isWave hwave)

/-- R126, R130: with the pass ended and the cap grown, what the header leaves is what the rules name. -/
theorem headerPass_done {impl : Config.Impl} {rate : BitVec 32} (hs : s.FreshInv) (hg : impl.general.legal = true)
    (hf : f.wf impl.general = true) (hwave : IsWave (f.blob.map (BitVec.ofNat 8)) rate) (hfits : headerFits impl.limits f = true)
    (hu : s.unread = encHeader impl.general f ++ rest) :
    ∃ t, perform (headerPass impl) s = .next t ∧ HeaderDone impl s t f rate := by
  obtain ⟨_, ht, hpos, -, n, rfl⟩ := (reads_headerSequence hs hg hf hwave hfits).whole s rest (.refl s) hu
  obtain ⟨-, -, hformat, -⟩ := HeaderFields.wf_iff.1 hf
  refine ⟨_, perform_ok (run_bind_ok ht), ?_⟩
  exact
    { version := rfl, channels := rfl, blocksize := rfl, nwrap := rfl, nmean := rfl, histBlocksize := rfl, hist := rfl
      mean := rfl, coef := rfl, blob := rfl, sampleRate := rfl, bitsPerSample := rfl, currentChannel := rfl, bitshift := rfl
      headerParsed := rfl, control := rfl, cap := rfl, pending := rfl, bitResumeOffset := rfl, fault := rfl
      quitReceived := rfl, out := rfl, cmd := rfl, residualSize := rfl, coffset := rfl, order := rfl, shift := rfl
      initSum := rfl, sum := rfl, len := rfl, accepted := rfl, requests := rfl, results := rfl
      formatType := hformat
      lpcqoffset := congrArg (ite _ _) hs.lpcqoffset
      pos := hpos }

/-! ### The errors of the header -/

section

variable {impl : Config.Impl} (hs : s.FreshInv) (hf : f.parametersWf = true)

include hs hf

/-- R105, R106: the header on an implementation without the capacity. -/
theorem headerPass_allocFail (hfits : headerFits impl.limits f ≠ true) :
    Raises s.Moved (encHeaderParameters impl.general f) (headerPass impl) .allocFail
      fun t => t.headerParsed = s.headerParsed ∧ t.results = s.results := by
  rw [headerPass, headerSequence_eq, ← List.append_nil (encHeaderParameters _ _)]
  exact ((reads_parameters hs _ hf).bind_raises (allocateStorage_allocFail hfits).bind).bind

variable (hfits : headerFits impl.limits f = true)

include hfits

/-- R106. -/
theorem headerPass_unknownAudioType (hformat : f.formatType.value ≠ impl.general.typeS16HL) :
    Raises s.Moved (encHeaderParameters impl.general f) (headerPass impl) .unknownAudioType
      fun t => t.headerParsed = s.headerParsed ∧ t.results = s.results := by
  rw [headerPass, headerSequence_eq, ← List.append_nil (encHeaderParameters _ _)]
  exact ((reads_parameters hs _ hf).bind_raises (allocateStorage_unknownAudioType hfits hformat).bind).bind

/-- R108: an error of the blob's length, behind parameters that are accepted. -/
theorem headerPass_blobLength (hformat : f.formatType.value = impl.general.typeS16HL)
    (h : ∀ u : State, Raises u.Moved code (readBlobLength impl.general) c u.Moved) :
    Raises s.Moved (encHeaderParameters impl.general f ++ code) (headerPass impl) c
      fun t => t.headerParsed = s.headerParsed ∧ t.results = s.results := by
  rw [headerPass, headerSequence_eq]
  refine Raises.bind ((reads_parameters hs _ hf).bind_raises
    (Silent.bind_raises (silent_allocateStorage hfits hformat) (Raises.bind ((h _).weaken ?_))))
  rintro _ ⟨n, rfl⟩
  exact ⟨rfl, rfl⟩

end

section

variable (s) (impl : Config.Impl) (version : Byte) (formatType channelCount : Adaptive)

/-- R102, R205: the version and the format type are what was read, and there is no channel. -/
theorem headerPass_badChannelCount (hbad : channelCount.value = 0 ∨ Config.maxChannels < channelCount.value) :
    Raises s.Moved
      (encRaw 8 version.toNat ++ (encA version impl.general.typeSize formatType ++ encA version impl.general.chanSize channelCount))
      (headerPass impl) .badChannelCount
      ({ s with version := version, internalFormatType := formatType.value, channels := 0 } : State).Moved := by
  rw [headerPass, headerSequence]
  exact ((reads_version s version).bind_raises
    (raises_badChannelCount (s.atVersion version) impl.general formatType channelCount hbad).bind).bind

/-- R103: the block size is not written. -/
theorem headerPass_badHeaderBlocksize {blocksize : Adaptive} (hv : version ≠ 0) (hpos : 0 < channelCount.value)
    (hle : channelCount.value ≤ Config.maxChannels) (hbad : blocksize.value = 0 ∨ Config.maxBlocksize < blocksize.value) :
    Raises s.Moved
      (encRaw 8 version.toNat ++
        ((encA version impl.general.typeSize formatType ++ encA version impl.general.chanSize channelCount) ++
          encA version 0 blocksize))
      (headerPass impl) .badHeaderBlocksize
      ({ s with
          version := version, internalFormatType := formatType.value, channels := channelCount.value } : State).Moved := by
  rw [headerPass, headerSequence]
  exact ((reads_version s version).bind_raises
    ((reads_typeAndChannels (s.atVersion version) impl.general formatType channelCount hpos hle).bind_raises
      (raises_badHeaderBlocksize hv hbad).bind)).bind

end

end Sys2Proof.Machine

namespace Sys2Proof

open Machine

/-- Settles O43: the header's rules read its fields in order and write what they name; without the storage they raise. -/
theorem headerParsesStream : Obligations.HeaderParsesStream := by
  refine fun s f rate rest hs hwave => ⟨fun hf hu => ?_, fun impl hg hf hu hfits => headerPass_done hs hg hf hwave hfits hu⟩
  by_cases hfits : headerFits Config.limits f = true
  · simp only [if_pos hfits]
    exact headerPass_done (impl := Config.impl) hs (by decide) hf hwave hfits hu
  · simp only [if_neg hfits]
    rw [encHeader, List.append_assoc, List.append_assoc] at hu
    obtain ⟨t, hnext, hparsed, -⟩ := (headerPass_allocFail (impl := Config.impl) hs (HeaderFields.parametersWf_of_wf hf)
      hfits).performs (.refl s) hu
    exact ⟨_, hnext, rfl, rfl, hparsed⟩

/-- Settles O44: the count is looked at once it is read, behind the version and the format type. -/
theorem badChannelCountRaises : Obligations.BadChannelCountRaises := by
  intro s version formatType channelCount rest hu hbad
  rw [List.append_assoc (encRaw _ _)] at hu
  obtain ⟨_, hnext, n, rfl⟩ :=
    (headerPass_badChannelCount s Config.impl version formatType channelCount hbad).performs (.refl s) hu
  exact ⟨_, hnext, rfl, rfl, rfl, rfl, rfl, rfl, rfl, rfl, rfl, rfl⟩

/-- Settles O45: the block size is looked at once it is read, before it is written. -/
theorem badHeaderBlocksizeRaises : Obligations.BadHeaderBlocksizeRaises := by
  intro s version formatType channelCount blocksize rest hv hu hpos hle hbad
  rw [List.append_assoc (encRaw _ _), List.append_assoc (encRaw _ _)] at hu
  obtain ⟨_, hnext, n, rfl⟩ :=
    (headerPass_badHeaderBlocksize s Config.impl version formatType channelCount hv hpos hle hbad).performs (.refl s) hu
  exact ⟨_, hnext, rfl, rfl, rfl, rfl, rfl, rfl, rfl⟩

/-- Settles O46: each check comes before the next field is read. -/
theorem headerChecksRaise : Obligations.HeaderChecksRaise := by
  refine fun s f rest hs hf => ⟨rfl, fun impl hg hfits => ?_⟩
  intro parameters Raises
  have answers {code : Bits} {c : Cause}
      (h : Machine.Raises s.Moved code (headerPass impl) c fun t => t.headerParsed = s.headerParsed ∧ t.results = s.results)
      (hu : s.unread = code ++ rest) : Raises c := by
    obtain ⟨t, hnext, hparsed, hresults⟩ := h.performs (.refl s) hu
    exact ⟨_, hnext, rfl, rfl, hparsed, congrArg (· ++ _) hresults⟩
  refine ⟨fun hformat hu => answers (headerPass_unknownAudioType hs hf hfits hformat) hu, fun hformat fn hfn hu => ?_,
    fun hformat len hlen hu => ?_⟩
  · exact answers (headerPass_blobLength hs hf hfits hformat fun _ => raises_missingHeaderVerbatim hg hfn) hu
  · rw [List.append_assoc parameters] at hu
    exact answers (headerPass_blobLength hs hf hfits hformat fun _ => raises_badHeaderBlobSize hg hlen) hu

end Sys2Proof
end

section
/-! PROOFS. The decode call around a pass (42_call_and_input_buffer.md R120 to R128). One equation for each place of a call: what
the entry checks answer, what taking a chunk (`State.takeChunk`) and starting a pass leave, and what the end of a pass leaves.
From the same places, how the list of results grows; and the unread bits, which compaction keeps and appended bytes only
lengthen. -/

namespace Sys2Proof.Machine

variable {s t u : State} {limits : Config.Limits} {chunk extra : List Byte}

/-! ### The unread bits -/

/-- The state with more bytes behind the buffer. -/
def State.appended (s : State) (extra : List Byte) : State := { s with pending := s.pending ++ extra }

/-- R41: bytes behind the buffer come after every bit that is unread. -/
theorem State.unread_appended (h : s.pos ≤ s.bitLength) : (s.appended extra).unread = s.unread ++ bitsOf extra := by
  show (bitsOf (s.pending ++ extra)).drop s.pos = _
  rw [bitsOf_append, List.drop_append_of_le_length (by rwa [bitsOf_length])]
  rfl

/-- R127: the state with the whole bytes before the cursor dropped. -/
def State.compacted (s : State) : State := { s with pending := s.pending.drop (s.pos / 8), pos := s.pos % 8 }

/-- R127: what is unread stays unread, in the same order. -/
theorem State.unread_compacted (s : State) : s.compacted.unread = s.unread := by
  show (bitsOf (s.pending.drop (s.pos / 8))).drop (s.pos % 8) = (bitsOf s.pending).drop s.pos
  rw [bitsOf_drop, List.drop_drop, Nat.div_add_mod]

/-- R127: the cursor stays inside the buffer. -/
theorem State.compacted_pos_le (h : s.pos ≤ s.bitLength) : s.compacted.pos ≤ s.compacted.bitLength := by
  show s.pos % 8 ≤ 8 * (s.pending.drop (s.pos / 8)).length
  change s.pos ≤ 8 * s.pending.length at h
  rw [List.length_drop]
  omega

/-! ### The start of a call -/

/-- A decode call that the host has asked for begins (R121). -/
theorem serve_decode {more : List Request} (h : s.requests = .decode chunk :: more) :
    serve limits s = beginCall limits chunk { s with requests := more } := by
  rw [serve, h]

/-- R121: the first entry check. -/
theorem beginCall_fault {c : Cause} (h : s.fault = some c) : beginCall limits chunk s = s.answer (.error c) := by
  rw [beginCall, h]

/-- R121: the second entry check. -/
theorem beginCall_postQuit (hfault : s.fault = none) (hquit : s.quitReceived = true) :
    beginCall limits chunk s = s.answer (.postQuit chunk.length) := by
  rw [beginCall, hfault]
  exact if_pos hquit

/-- R123: the chunk's bytes that fit under the cap are taken. -/
def State.takeChunk (s : State) (chunk : List Byte) : State :=
  { s with
    pending := s.pending ++ chunk.take (min chunk.length (s.cap - s.pending.length))
    accepted := min chunk.length (s.cap - s.pending.length) }

/-- R123: a chunk that fits is taken whole. -/
theorem State.takeChunk_of_fits (h : s.pending.length + chunk.length ≤ s.cap) :
    s.takeChunk chunk = { s with pending := s.pending ++ chunk, accepted := chunk.length } := by
  rw [State.takeChunk, Nat.min_eq_left (by omega), List.take_length]

/-- R123: how long the buffer is then. -/
theorem State.takeChunk_pending_length (s : State) (chunk : List Byte) :
    (s.takeChunk chunk).pending.length = s.pending.length + min chunk.length (s.cap - s.pending.length) := by
  rw [State.takeChunk, List.length_append, List.length_take, Nat.min_eq_left (Nat.min_le_left _ _)]

/-- R123 to R125: behind the entry checks, with storage for the buffer, the chunk is taken, and then more is asked for or a pass
begins. -/
theorem beginCall_takes (hfault : s.fault = none) (hquit : s.quitReceived = false)
    (hstorage : limits.pendingStorage s.cap = true) :
    beginCall limits chunk s =
      if (s.takeChunk chunk).pending.length < s.cap ∧ 0 < chunk.length
      then (s.takeChunk chunk).answer (.needMoreInput (s.takeChunk chunk).accepted)
      else startPass (s.takeChunk chunk) := by
  rw [State.takeChunk, beginCall, hfault]
  dsimp only
  rw [hquit, if_neg Bool.false_ne_true, hstorage, Bool.not_true, if_neg Bool.false_ne_true]

/-- R125: a pass begins at the saved offset where that is inside the buffer. -/
theorem startPass_of_le (h : s.bitResumeOffset ≤ s.bitLength) :
    startPass s = { s with pos := s.bitResumeOffset, control := .pass } := by
  have hskip : skipBits s.bitResumeOffset { s with pos := 0 } = .ok () (State.advance { s with pos := 0 } s.bitResumeOffset) :=
    if_neg (by rw [Nat.zero_add]; exact Nat.not_lt.2 h)
  rw [startPass, hskip, State.advance, Nat.zero_add]

/-- R25: the saved offset is inside the buffer, also after more bytes were taken. -/
theorem State.BufferInv.resume_le_takeChunk (h : s.BufferInv) (chunk : List Byte) :
    s.bitResumeOffset ≤ (s.takeChunk chunk).bitLength := by
  rw [State.bitLength, State.takeChunk_pending_length]
  rcases Nat.eq_zero_or_pos s.bitResumeOffset with hzero | hpos
  · omega
  · have hkept := List.length_pos_iff.2 (h.resume_kept hpos)
    have hlt := h.resume_lt
    omega

/-! ### The end of a pass -/

/-- R127, R128: with the cursor inside the buffer the end of a pass compacts it and answers. -/
theorem finishPass_of_le (o : PassOutcome) (h : s.pos ≤ s.bitLength) :
    finishPass o s =
      State.answer { s with bitResumeOffset := s.pos % 8, pending := s.pending.drop (s.pos / 8), out := [] } (resultOf o s) := by
  change s.pos ≤ 8 * s.pending.length at h
  exact if_neg (by show ¬ s.pending.length < s.pos / 8; omega)

/-! ### How the results grow -/

/-- R120: no result was added, or one was, and the core is idle. -/
def ResultsGrow (s t : State) : Prop := t.results = s.results ∨ ∃ r, t.results = s.results ++ [r] ∧ t.control = .idle

theorem State.answer_resultsGrow (s : State) (r : CallResult) : ResultsGrow s (s.answer r) := .inr ⟨r, rfl, rfl⟩

/-- R204: an error that is taken is one result. -/
theorem Ends.resultsGrow (h : Ends u t) (hu : u.results = s.results) : ResultsGrow s t := by
  obtain ⟨-, hkept⟩ | ⟨c, -, hidle, hadded⟩ := h.error
  · exact .inl (hkept.trans hu)
  · exact .inr ⟨.error c, by rw [hadded, hu], hidle⟩

/-- R121 to R125. -/
theorem beginCall_resultsGrow (limits : Config.Limits) (chunk : List Byte) (s : State) :
    ResultsGrow s (beginCall limits chunk s) := by
  rcases hfault : s.fault with - | c
  · cases hquit : s.quitReceived with
    | true =>
      rw [beginCall_postQuit hfault hquit]
      exact s.answer_resultsGrow _
    | false =>
      cases hstorage : limits.pendingStorage s.cap with
      | false =>
        rw [beginCall_raises hfault hquit hstorage]
        exact .inr ⟨_, rfl, rfl⟩
      | true =>
        rw [beginCall_takes hfault hquit hstorage]
        split
        · exact (s.takeChunk chunk).answer_resultsGrow _
        · obtain ⟨pos, control, hends⟩ := startPass_ends (s.takeChunk chunk)
          exact hends.resultsGrow rfl
  · rw [beginCall_fault hfault]
    exact s.answer_resultsGrow _

/-- R127, R128. -/
theorem finishPass_resultsGrow (o : PassOutcome) (s : State) : ResultsGrow s (finishPass o s) := by
  unfold finishPass
  dsimp only
  split <;> exact .inr ⟨_, rfl, rfl⟩

/-- R204: an instruction adds no result but that of its error. -/
theorem exec_resultsGrow {i : Instr} (h : exec i s = .next t) : ResultsGrow s t := by
  by_cases hi : i = .header
  · subst hi
    exact (perform_ends h).resultsGrow (keeps_headerPass Config.impl s).results
  · obtain ⟨u, hu, hends⟩ := exec_command_next hi h
    exact hends.resultsGrow hu.same.results

end Sys2Proof.Machine

namespace Sys2Proof

open Machine

/-- Settles O15: the entry checks come first, and each answers at once. -/
theorem entryChecksAnswerWithoutParsing : Obligations.EntryChecksAnswerWithoutParsing := by
  intro s chunk more hidle hreq
  rw [step_idle hidle, serve_decode hreq]
  refine ⟨fun c hfault => ?_, fun hfault hquit => ?_⟩
  · rw [beginCall_fault (s := { s with requests := more }) hfault, State.answer, hidle]
  · rw [beginCall_postQuit (s := { s with requests := more }) hfault hquit, State.answer, hidle]

/-- Settles O16: the chunk fits below the cap, so it is taken whole and the buffer is not full. -/
theorem shortChunkAsksForMore : Obligations.ShortChunkAsksForMore := by
  refine fun s chunk more hidle hreq hfault hquit hpos hshort => ⟨step_idle hidle, fun limits hstorage => ?_⟩
  rw [serve_decode hreq, beginCall_takes (s := { s with requests := more }) hfault hquit hstorage,
    State.takeChunk_of_fits (s := { s with requests := more }) (Nat.le_of_lt hshort),
    if_pos ⟨by rwa [List.length_append], hpos⟩, State.answer, hidle]

/-- Settles O17: a flush has no byte to wait for, any other chunk fills the buffer; the invariant keeps the saved offset
inside. -/
theorem fullBufferOrFlushStartsPass : Obligations.FullBufferOrFlushStartsPass := by
  refine fun s chunk more hinv hidle hreq hfault hquit hfull => ⟨step_idle hidle, fun limits hstorage => ?_⟩
  have hready : ¬ ((State.takeChunk { s with requests := more } chunk).pending.length < s.cap ∧ 0 < chunk.length) := by
    rw [State.takeChunk_pending_length]
    rintro ⟨hlt, hpos⟩
    rcases hfull with rfl | hfull
    · exact absurd hpos (Nat.lt_irrefl 0)
    · change s.pending.length + min chunk.length (s.cap - s.pending.length) < s.cap at hlt
      omega
  rw [serve_decode hreq, beginCall_takes (s := { s with requests := more }) hfault hquit hstorage, if_neg hready,
    startPass_of_le (hinv.buffer.resume_le_takeChunk chunk),
    List.take_eq_take_min (i := s.cap - s.pending.length), Nat.min_comm (s.cap - s.pending.length)]
  rfl

/-- Settles O18: the cursor is inside the buffer, so the end of the pass does not overrun it. -/
theorem passFinishCompacts : Obligations.PassFinishCompacts := by
  intro s o hctl hpos
  rw [step_finish hctl, finishPass_of_le o hpos]
  cases o <;> rfl

/-- Settles O19: compaction keeps the unread bits and the cursor inside the buffer, and the new bytes come behind them. -/
theorem compactionKeepsUnreadBits : Obligations.CompactionKeepsUnreadBits := by
  intro s extra hpos
  rw [← s.unread_compacted, ← State.unread_appended (State.compacted_pos_le hpos)]
  rfl

/-- Settles O21: by the place in the call; a new stream keeps the results. -/
theorem resultsOnlyGrow : Obligations.ResultsOnlyGrow := by
  intro s t h
  cases hctl : s.control with
  | idle =>
    cases (step_idle hctl).symm.trans h
    rcases hreq : s.requests with - | ⟨chunk | -, more⟩
    · rw [serve, hreq]
      exact .inl rfl
    · rw [serve_decode hreq]
      exact beginCall_resultsGrow Config.limits chunk { s with requests := more }
    · rw [serve, hreq]
      exact .inl rfl
  | pass =>
    obtain rfl | ⟨c, rfl⟩ | ⟨i, n, -, hexec⟩ := step_pass_next hctl h
    · exact .inl rfl
    · exact .inr ⟨_, rfl, rfl⟩
    · have hgrow := exec_resultsGrow hexec
      exact hgrow
  | finish o =>
    cases (step_finish hctl).symm.trans h
    exact finishPass_resultsGrow o s

end Sys2Proof
end

section
/-! PROOFS. A rule that completes does the same when more bytes stand behind the buffer (43_interpreter_control.md R132;
20_memory.md R52). A rule `LooksNoFurther` when its whole run to an end, cursor and all, is the same on the longer buffer. The
property goes through every construct the rules are written with; a raised error is no run to an end, so only the readers of the
cursor need an argument of their own: the bits they took are still there. -/

namespace Sys2Proof.Machine

variable {α β : Type} {s t : State} {extra : List Byte}

section

variable (s : State) (extra : List Byte)

@[simp] theorem State.appended_nwrap : (s.appended extra).nwrap = s.nwrap := rfl
@[simp] theorem State.appended_nmean : (s.appended extra).nmean = s.nmean := rfl
@[simp] theorem State.appended_blocksize : (s.appended extra).blocksize = s.blocksize := rfl
@[simp] theorem State.appended_hist : (s.appended extra).hist = s.hist := rfl
@[simp] theorem State.appended_mean : (s.appended extra).mean = s.mean := rfl
@[simp] theorem State.appended_coef : (s.appended extra).coef = s.coef := rfl
@[simp] theorem State.appended_histRange (i : Int) (n : Nat) : (s.appended extra).histRange i n = s.histRange i n := rfl

/-- The buffer is not shorter. -/
theorem State.bitLength_le_appended : s.bitLength ≤ (s.appended extra).bitLength := by
  show 8 * s.pending.length ≤ 8 * (s.pending ++ extra).length
  rw [List.length_append]
  omega

end

/-- Where the rule runs to its end, it does the same with more bytes behind the buffer. -/
def LooksNoFurther (m : M α) : Prop :=
  ∀ (s t : State) (a : α) (extra : List Byte), m s = .ok a t → m (s.appended extra) = .ok a (t.appended extra)

/-! ### The constructs of rules -/

theorem noFurther_pure (a : α) : LooksNoFurther (pure a : M α) := fun _ _ _ _ h => by
  cases h
  rfl

/-- An error is no run to an end. -/
theorem noFurther_throw (e : Stop) : LooksNoFurther (throw e : M α) := fun _ _ _ _ h => by cases h

theorem noFurther_raise (c : Cause) : LooksNoFurther (raise c : M α) := noFurther_throw _

theorem noFurther_modify {f : State → State}
    (h : ∀ (s : State) (extra : List Byte), f (s.appended extra) = (f s).appended extra) :
    LooksNoFurther (modify f : M PUnit) := fun s _ _ extra hrun => by
  cases hrun
  rw [run_modify, h]

theorem noFurther_bind {m : M α} {f : α → M β} (hm : LooksNoFurther m) (hf : ∀ a, LooksNoFurther (f a)) :
    LooksNoFurther (m >>= f) := fun s t b extra h => by
  rw [run_bind] at h
  rcases hms : m s with ⟨a, u⟩ | ⟨e, u⟩ <;> rw [hms] at h
  · rw [run_bind_ok (hm s u a extra hms)]
    exact hf a u t b extra h
  · cases h

/-- After `get`, what the rest takes from the state must not be the buffer. -/
theorem noFurther_get_bind {f : State → M β} (h : ∀ (s : State) (extra : List Byte), f (s.appended extra) = f s)
    (hf : ∀ s, LooksNoFurther (f s)) : LooksNoFurther (get >>= f) := fun s t b extra hrun => by
  rw [run_get_bind] at hrun ⊢
  rw [h]
  exact hf s s t b extra hrun

theorem noFurther_ite {c : Prop} [Decidable c] {m m' : M α} (h : LooksNoFurther m) (h' : LooksNoFurther m') :
    LooksNoFurther (if c then m else m') := by
  split
  · exact h
  · exact h'

theorem noFurther_forRange {body : Int → M Unit} (h : ∀ i, LooksNoFurther (body i)) (n : Nat) (i : Int) :
    LooksNoFurther (forRange n i body) := by
  induction n generalizing i with
  | zero => exact noFurther_pure ()
  | succ n ih => exact noFurther_bind (h i) fun _ => ih (i + 1)

theorem noFurther_collectRange {body : Int → M α} (h : ∀ i, LooksNoFurther (body i)) (n : Nat) (i : Int) :
    LooksNoFurther (collectRange n i body) := by
  induction n generalizing i with
  | zero => exact noFurther_pure []
  | succ n ih => exact noFurther_bind (h i) fun _ => noFurther_bind (ih (i + 1)) fun _ => noFurther_pure _

/-! ### The cursor and the operands -/

/-- R80: the bits that were there are the first of the longer buffer. -/
theorem noFurther_readBits (n : Nat) : LooksNoFurther (readBits n) := by
  intro s t v extra h
  rcases readBits_cases n s with ⟨w, rest, hw, hfits, hrun⟩ | ⟨-, hrun⟩ <;> rw [hrun] at h <;> cases h
  refine readBits_ok (s := s.appended extra) (rest := rest ++ bitsOf extra) ?_
    (hfits.trans (s.bitLength_le_appended extra))
  rw [State.unread_appended (by omega)]
  exact takeBits_append hw _

/-- R82. -/
theorem noFurther_skipBits (n : Nat) : LooksNoFurther (skipBits n) := by
  intro s t v extra h
  unfold skipBits at h
  split at h
  · cases h
  · rename_i hfits
    cases h
    exact if_neg (Nat.not_lt.2 ((Nat.not_lt.1 hfits).trans (s.bitLength_le_appended extra)))

/-- R85: the run of zeros ended inside the buffer. -/
theorem noFurther_readUnary : LooksNoFurther readUnary := by
  intro s t v extra h
  rcases readUnary_cases s with ⟨q, rest, hq, hfits, hrun⟩ | ⟨-, hrun⟩ <;> rw [hrun] at h <;> cases h
  rw [readUnary, State.unread_appended (by omega), takeUnary_append hq]
  rfl

/-- R85. -/
theorem noFurther_readUnsigned (k : Int) : LooksNoFurther (readUnsigned k) :=
  noFurther_ite (noFurther_raise _)
    (noFurther_bind noFurther_readUnary fun _ => noFurther_bind (noFurther_readBits _) fun _ => noFurther_pure _)

/-- R86. -/
theorem noFurther_readSigned (k : Int) : LooksNoFurther (readSigned k) :=
  noFurther_bind (noFurther_readUnsigned _) fun _ => noFurther_pure _

/-- R87. -/
theorem noFurther_readAdaptive (hint : Nat) : LooksNoFurther (readAdaptive hint) :=
  noFurther_get_bind (fun _ _ => rfl) fun _ => noFurther_ite (noFurther_readUnsigned _)
    (noFurther_bind (noFurther_readUnsigned _) fun _ => noFurther_readUnsigned _)

theorem noFurther_readEnergy : LooksNoFurther readEnergy :=
  noFurther_ite (noFurther_readAdaptive _) (noFurther_readUnsigned _)

theorem noFurther_readOrder : LooksNoFurther readOrder :=
  noFurther_ite (noFurther_readAdaptive _) (noFurther_readUnsigned _)

/-- R162. -/
theorem noFurther_readResidualSize : LooksNoFurther readResidualSize :=
  noFurther_bind noFurther_readEnergy fun _ => noFurther_modify fun _ _ => rfl

/-! ### The memory spaces -/

theorem noFurther_readHist (c : Nat) (i : Int) (n : Nat) : LooksNoFurther (readHist c i n) := by
  intro s t vs extra h
  obtain rfl : s = t := by simpa only [h, finalState] using keeps_readHist c i n s
  unfold readHist at h ⊢
  simp only [State.appended_hist, State.appended_histRange, State.appended_nwrap]
  split at h
  · cases h
  · split at h
    · split at h
      · cases h
        simp only [*, if_true]
      · cases h
    · cases h

theorem noFurther_writeHist (c : Nat) (i : Int) (vs : List Cell) : LooksNoFurther (writeHist c i vs) := by
  intro s t _ extra h
  rcases writeHist_cases c i vs s with ⟨m, hm, hr, hrun⟩ | ⟨-, hrun⟩ <;> rw [hrun] at h <;> cases h
  simp only [writeHist, State.appended_hist, State.appended_histRange, hm, hr, if_true]
  rfl

theorem noFurther_readMean (c i : Nat) : LooksNoFurther (readMean c i) := by
  intro s t v extra h
  rcases readMean_cases c i s with ⟨w, hw, hrun⟩ | ⟨-, f, hrun⟩ <;> rw [hrun] at h <;> cases h
  exact readMean_runs (s := s.appended extra) hw

theorem noFurther_writeMean (c i : Nat) (v : Cell) : LooksNoFurther (writeMean c i v) := by
  intro s t _ extra h
  rcases writeMean_cases c i v s with ⟨m, hm, hi, hrun⟩ | ⟨-, hrun⟩ <;> rw [hrun] at h <;> cases h
  simp only [writeMean, State.appended_mean, State.appended_nmean, hm, hi, if_true]
  rfl

theorem noFurther_readCoef (j : Nat) : LooksNoFurther (readCoef j) := by
  intro s t v extra h
  rcases readCoef_cases j s with ⟨w, hj, hw, hrun⟩ | ⟨-, f, hrun⟩ <;> rw [hrun] at h <;> cases h
  simp only [readCoef, State.appended_nwrap, State.appended_coef, hj, hw, if_true]

theorem noFurther_writeCoef (j : Nat) (v : Cell) : LooksNoFurther (writeCoef j v) := by
  intro s t _ extra h
  rcases writeCoef_cases j v s with ⟨hj, hrun⟩ | ⟨-, hrun⟩ <;> rw [hrun] at h <;> cases h
  exact if_pos hj

theorem noFurther_getBlob (p n : Nat) : LooksNoFurther (getBlob p n) := by
  intro s t _ extra h
  rcases getBlob_cases p n s with ⟨hp, hrun⟩ | ⟨-, hrun⟩ <;> rw [hrun] at h <;> cases h
  exact if_neg (Nat.not_lt.2 hp)

/-! ### The steps of an audio command -/

/-- R163. -/
theorem noFurther_computeCoffset (c : Nat) : LooksNoFurther (computeCoffset c) :=
  noFurther_bind
    (noFurther_get_bind (fun _ _ => rfl) fun _ => noFurther_ite (noFurther_readMean _ _)
      (noFurther_bind (noFurther_collectRange (fun _ => noFurther_readMean _ _) _ _) fun _ => noFurther_pure _))
    fun _ => noFurther_modify fun _ _ => rfl

/-- R170: a decode loop that reads every residual. -/
theorem predictRun_appended {cv : List Int} {shift : Nat} {initSum : Cell} (n : Nat) (recent : List Cell) (s : State)
    (extra : List Byte) (h : (predictRun cv shift initSum n recent s).stop = none) :
    predictRun cv shift initSum n recent (s.appended extra) =
      { predictRun cv shift initSum n recent s with
        state := (predictRun cv shift initSum n recent s).state.appended extra } := by
  induction n generalizing recent s with
  | zero => rfl
  | succ n ih =>
    unfold predictRun at h ⊢
    cases hsum : sumTaps cv recent initSum with
    | none => rfl
    | some sum =>
      rw [hsum] at h
      dsimp only at h ⊢
      rcases hread : readSigned s.residualSize { s with sum := sum } with ⟨r, t⟩ | ⟨e, t⟩ <;> rw [hread] at h
      · have hlonger := noFurther_readSigned _ _ _ _ extra hread
        rw [show readSigned (s.appended extra).residualSize { s.appended extra with sum := sum } = _ from hlonger]
        simp only [ih _ _ h]
      · cases h

/-- R170: where the rule completes every residual was read. -/
theorem noFurther_predict (c : Nat) (cv : List Int) (shift : Nat) (initSum : Cell) :
    LooksNoFurther (predict c cv shift initSum) := by
  intro s t _ extra h
  unfold predict at h ⊢
  rw [run_get_bind, run_bind] at h
  rw [run_get_bind]
  rcases hctx : readHist c (-(cv.length : Int)) cv.length s with ⟨context, u⟩ | ⟨e, u⟩ <;> rw [hctx] at h
  · rw [run_bind_ok (noFurther_readHist _ _ _ _ _ _ extra hctx)]
    simp only [run_set_bind, State.appended_blocksize] at h ⊢
    cases hstop : (predictRun cv shift initSum s.blocksize context.reverse s).stop with
    | none =>
      rw [predictRun_appended _ _ _ extra hstop]
      simp only [hstop] at h ⊢
      exact noFurther_bind (noFurther_writeHist _ _ _) (fun _ => noFurther_pure _) _ _ _ extra h
    | some e =>
      simp only [hstop] at h
      rw [run_bind] at h
      split at h <;> cases h
  · cases h

/-- R178. -/
theorem noFurther_updateMean (c : Nat) : LooksNoFurther (updateMean c) :=
  noFurther_get_bind (fun _ _ => rfl) fun _ => noFurther_ite
    (noFurther_bind
      (noFurther_get_bind (fun _ _ => rfl) fun _ => noFurther_bind (noFurther_readHist _ _ _) fun _ => noFurther_pure _) fun _ =>
      noFurther_bind
        (noFurther_forRange (fun _ => noFurther_bind (noFurther_readMean _ _) fun _ => noFurther_writeMean _ _ _) _ _) fun _ =>
      noFurther_writeMean _ _ _)
    (noFurther_pure _)

/-- R179. -/
theorem noFurther_wrapCopy (c : Nat) : LooksNoFurther (wrapCopy c) :=
  noFurther_get_bind (fun _ _ => rfl) fun _ => noFurther_bind (noFurther_readHist _ _ _) fun _ => noFurther_writeHist _ _ _

/-- R180. -/
theorem noFurther_shiftBlock (c : Nat) : LooksNoFurther (shiftBlock c) :=
  noFurther_get_bind (fun _ _ => rfl) fun _ => noFurther_ite (noFurther_pure _)
    (noFurther_bind (noFurther_readHist _ _ _) fun _ => noFurther_writeHist _ _ _)

/-- R143, R190. -/
theorem noFurther_completeFrame : LooksNoFurther completeFrame :=
  noFurther_bind
    (noFurther_get_bind (fun _ _ => rfl) fun _ =>
      noFurther_bind (noFurther_collectRange (fun _ => noFurther_readHist _ _ _) _ _) fun _ => noFurther_modify fun _ _ => rfl)
    fun _ => noFurther_modify fun _ _ => rfl

/-- R181. -/
theorem noFurther_advanceChannel : LooksNoFurther advanceChannel :=
  noFurther_bind (noFurther_modify fun _ _ => rfl) fun _ => noFurther_get_bind (fun _ _ => rfl) fun _ =>
    noFurther_ite noFurther_completeFrame (noFurther_pure _)

theorem noFurther_postProcess (c : Nat) : LooksNoFurther (postProcess c) :=
  noFurther_bind (noFurther_updateMean c) fun _ => noFurther_bind (noFurther_wrapCopy c) fun _ =>
    noFurther_bind (noFurther_shiftBlock c) fun _ => noFurther_advanceChannel

/-- R160. -/
theorem noFurther_audioCommand {body : Nat → M Unit} (hb : ∀ c, LooksNoFurther (body c)) :
    LooksNoFurther (audioCommand body) :=
  noFurther_get_bind (fun _ _ => rfl) fun _ => noFurther_bind noFurther_readResidualSize fun _ =>
    noFurther_bind (noFurther_computeCoffset _) fun _ => noFurther_bind (hb _) fun _ => noFurther_postProcess _

/-! ### The commands -/

/-- R165. -/
theorem noFurther_diff0Rule : LooksNoFurther diff0Rule :=
  noFurther_audioCommand fun _ => noFurther_get_bind (fun _ _ => rfl) fun _ => noFurther_predict _ _ _ _

/-- R164. -/
theorem noFurther_zeroRule : LooksNoFurther zeroRule :=
  noFurther_get_bind (fun _ _ => rfl) fun _ => noFurther_bind (noFurther_computeCoffset _) fun _ =>
    noFurther_bind (noFurther_get_bind (fun _ _ => rfl) fun _ => noFurther_writeHist _ _ _) fun _ => noFurther_postProcess _

theorem noFurther_readCoefs (order : Nat) : LooksNoFurther (readCoefs order) :=
  noFurther_forRange (fun _ => noFurther_bind (noFurther_readSigned _) fun _ => noFurther_writeCoef _ _) _ _

theorem noFurther_offsetHist (c : Nat) (first : Int) (n : Nat) (d : Int) : LooksNoFurther (offsetHist c first n d) :=
  noFurther_ite (noFurther_pure _) (noFurther_bind (noFurther_readHist _ _ _) fun _ => noFurther_writeHist _ _ _)

/-- R171, R172. -/
theorem noFurther_qlpcBody (c : Nat) : LooksNoFurther (qlpcBody c) :=
  noFurther_bind noFurther_readOrder fun _ => noFurther_bind (noFurther_modify fun _ _ => rfl) fun _ =>
    noFurther_get_bind (fun _ _ => rfl) fun _ => noFurther_ite (noFurther_raise _)
      (noFurther_bind (noFurther_readCoefs _) fun _ => noFurther_bind (noFurther_modify fun _ _ => rfl) fun _ =>
        noFurther_bind (noFurther_offsetHist _ _ _ _) fun _ => noFurther_bind (noFurther_modify fun _ _ => rfl) fun _ =>
        noFurther_bind (noFurther_collectRange (fun _ => noFurther_readCoef _) _ _) fun _ =>
        noFurther_get_bind (fun _ _ => rfl) fun _ =>
        noFurther_bind (noFurther_predict _ _ _ _) fun _ => noFurther_offsetHist _ _ _ _)

/-- R145. -/
theorem noFurther_verbatimRule (g : Config.General) : LooksNoFurther (verbatimRule g) :=
  noFurther_bind (noFurther_readUnsigned _) fun _ => noFurther_bind (noFurther_modify fun _ _ => rfl) fun _ =>
    noFurther_forRange (fun _ => noFurther_bind (noFurther_readUnsigned _) fun _ => noFurther_pure _) _ _

/-- R146. -/
theorem noFurther_bitshiftRule : LooksNoFurther bitshiftRule :=
  noFurther_bind (noFurther_readUnsigned _) fun _ => noFurther_ite (noFurther_raise _) (noFurther_modify fun _ _ => rfl)

/-- R147. -/
theorem noFurther_blocksizeRule : LooksNoFurther blocksizeRule :=
  noFurther_get_bind (fun _ _ => rfl) fun _ => noFurther_bind (noFurther_readAdaptive _) fun _ =>
    noFurther_ite (noFurther_raise _) (noFurther_ite (noFurther_raise _) (noFurther_modify fun _ _ => rfl))

/-- R142. -/
theorem noFurther_illegal10or11Rule : LooksNoFurther illegal10or11Rule :=
  noFurther_bind (noFurther_readBits _) fun _ => noFurther_bind (noFurther_modify fun _ _ => rfl) fun _ => noFurther_raise _

/-- R142. -/
theorem noFurther_illegal12upRule : LooksNoFurther illegal12upRule :=
  noFurther_bind (noFurther_readUnsigned _) fun _ => noFurther_bind (noFurther_modify fun _ _ => rfl) fun _ => noFurther_raise _

/-- Every command performs a rule that looks no further than it reads. -/
theorem exec_performs_noFurther {i : Instr} (hi : i ≠ .header) : ∃ m, LooksNoFurther m ∧ exec i = perform m := by
  cases i with
  | diff0 => exact ⟨diff0Rule, noFurther_diff0Rule, rfl⟩
  | diff1 => exact ⟨diff1Rule, noFurther_audioCommand fun _ => noFurther_predict _ _ _ _, rfl⟩
  | diff2 => exact ⟨diff2Rule, noFurther_audioCommand fun _ => noFurther_predict _ _ _ _, rfl⟩
  | diff3 => exact ⟨diff3Rule, noFurther_audioCommand fun _ => noFurther_predict _ _ _ _, rfl⟩
  | quit => exact ⟨quitRule, noFurther_modify fun _ _ => rfl, rfl⟩
  | blocksize => exact ⟨blocksizeRule, noFurther_blocksizeRule, rfl⟩
  | bitshift => exact ⟨bitshiftRule, noFurther_bitshiftRule, rfl⟩
  | qlpc => exact ⟨qlpcRule, noFurther_audioCommand noFurther_qlpcBody, rfl⟩
  | zero => exact ⟨zeroRule, noFurther_zeroRule, rfl⟩
  | verbatim => exact ⟨verbatimRule Config.general, noFurther_verbatimRule _, rfl⟩
  | illegal10or11 => exact ⟨illegal10or11Rule, noFurther_illegal10or11Rule, rfl⟩
  | illegal12up => exact ⟨illegal12upRule, noFurther_illegal12upRule, rfl⟩
  | header => exact absurd rfl hi

/-! ### The header -/

/-- R101. -/
theorem noFurther_readVersion : LooksNoFurther readVersion :=
  noFurther_bind (noFurther_readBits _) fun _ => noFurther_modify fun _ _ => rfl

/-- R102. -/
theorem noFurther_readTypeAndChannels (g : Config.General) : LooksNoFurther (readTypeAndChannels g) :=
  noFurther_bind (noFurther_readAdaptive _) fun _ => noFurther_bind (noFurther_modify fun _ _ => rfl) fun _ =>
    noFurther_bind (noFurther_readAdaptive _) fun _ => noFurther_ite
      (noFurther_bind (noFurther_modify fun _ _ => rfl) fun _ => noFurther_raise _) (noFurther_modify fun _ _ => rfl)

/-- R103. -/
theorem noFurther_readBlockParameters : LooksNoFurther readBlockParameters :=
  noFurther_get_bind (fun _ _ => rfl) fun _ => noFurther_ite (noFurther_pure _)
    (noFurther_bind (noFurther_readAdaptive _) fun _ => noFurther_ite (noFurther_raise _)
      (noFurther_bind (noFurther_modify fun _ _ => rfl) fun _ => noFurther_bind (noFurther_readAdaptive _) fun _ =>
        noFurther_bind (noFurther_readAdaptive _) fun _ => noFurther_bind (noFurther_modify fun _ _ => rfl) fun _ =>
        noFurther_bind (noFurther_readAdaptive _) fun _ =>
        noFurther_bind (noFurther_forRange (fun _ => noFurther_skipBits _) _ _) fun _ => noFurther_pure _))

/-- R105. -/
theorem noFurther_allocateHistory (limits : Config.Limits) : LooksNoFurther (allocateHistory limits) :=
  noFurther_get_bind (fun _ _ => rfl) fun _ => noFurther_ite (noFurther_raise _) (noFurther_modify fun _ _ => rfl)

/-- R106. -/
theorem noFurther_allocateMeans (g : Config.General) (limits : Config.Limits) : LooksNoFurther (allocateMeans g limits) :=
  noFurther_get_bind (fun _ _ => rfl) fun _ => noFurther_ite (noFurther_raise _)
    (noFurther_bind (noFurther_modify fun _ _ => rfl) fun _ =>
      noFurther_ite (noFurther_raise _) (noFurther_modify fun _ _ => rfl))

/-- R107. -/
theorem noFurther_setLpcqOffset (g : Config.General) : LooksNoFurther (setLpcqOffset g) :=
  noFurther_modify fun s extra => by
    show (if 1 < s.version.toNat then _ else _) = _
    split <;> rfl

/-- R108. -/
theorem noFurther_readBlobLength (g : Config.General) : LooksNoFurther (readBlobLength g) :=
  noFurther_bind (noFurther_readUnsigned _) fun _ => noFurther_ite (noFurther_raise _)
    (noFurther_bind (noFurther_readUnsigned _) fun _ => noFurther_ite (noFurther_raise _) (noFurther_pure _))

/-- R109. -/
theorem noFurther_readBlob (blobLen : Nat) : LooksNoFurther (readBlob blobLen) :=
  noFurther_bind (noFurther_modify fun _ _ => rfl) fun _ =>
    noFurther_forRange (fun _ => noFurther_bind (noFurther_readUnsigned _) fun _ => noFurther_modify fun _ _ => rfl) _ _

/-- R110: the scan reads the blob, not the buffer. -/
theorem noFurther_findFmt (rounds p : Nat) : LooksNoFurther (findFmt rounds p) := by
  induction rounds generalizing p with
  | zero => exact noFurther_raise _
  | succ rounds ih =>
    exact noFurther_bind (noFurther_getBlob _ _) fun _ => noFurther_ite (noFurther_pure _)
      (noFurther_bind (noFurther_getBlob _ _) fun _ => noFurther_bind (noFurther_getBlob _ _) fun _ => ih _)

/-- R110. -/
theorem noFurther_parseFmt (p : Nat) : LooksNoFurther (parseFmt p) :=
  noFurther_bind (noFurther_getBlob _ _) fun _ => noFurther_ite (noFurther_raise _)
    (noFurther_bind (noFurther_getBlob _ _) fun _ => noFurther_ite (noFurther_raise _)
      (noFurther_bind (noFurther_getBlob _ _) fun _ => noFurther_bind (noFurther_getBlob _ _) fun _ =>
        noFurther_bind (noFurther_modify fun _ _ => rfl) fun _ => noFurther_bind (noFurther_getBlob _ _) fun _ =>
        noFurther_bind (noFurther_getBlob _ _) fun _ => noFurther_bind (noFurther_getBlob _ _) fun _ =>
        noFurther_ite (noFurther_raise _) (noFurther_modify fun _ _ => rfl)))

/-- R110. -/
theorem noFurther_parseWave : LooksNoFurther parseWave :=
  noFurther_bind (noFurther_getBlob _ _) fun _ => noFurther_ite (noFurther_raise _)
    (noFurther_bind (noFurther_getBlob _ _) fun _ => noFurther_bind (noFurther_getBlob _ _) fun _ =>
      noFurther_ite (noFurther_raise _)
        (noFurther_get_bind (fun _ _ => rfl) fun _ => noFurther_bind (noFurther_findFmt _ _) fun _ => noFurther_parseFmt _))

/-- R101 to R111. -/
theorem noFurther_headerSequence (impl : Config.Impl) : LooksNoFurther (headerSequence impl) :=
  noFurther_bind noFurther_readVersion fun _ => noFurther_bind (noFurther_readTypeAndChannels _) fun _ =>
    noFurther_bind noFurther_readBlockParameters fun _ => noFurther_bind (noFurther_modify fun _ _ => rfl) fun _ =>
    noFurther_bind (noFurther_allocateHistory _) fun _ => noFurther_bind (noFurther_allocateMeans _ _) fun _ =>
    noFurther_bind (noFurther_setLpcqOffset _) fun _ => noFurther_bind (noFurther_readBlobLength _) fun _ =>
    noFurther_bind (noFurther_readBlob _) fun _ => noFurther_bind noFurther_parseWave fun _ =>
    noFurther_modify fun _ _ => rfl

/-- R126, R130: the header pass is the header, and then the growth of the cap, which may look at the buffer. -/
theorem headerPass_eq_ok {impl : Config.Impl} :
    headerPass impl s = .ok () t ↔
      ∃ u, headerSequence impl s = .ok () u ∧
        t = ({ u with cap := max u.cap (impl.capNext u.core) } : State).endPass .noFrame := by
  rw [headerPass, run_bind]
  rcases headerSequence impl s with ⟨⟨⟩, u⟩ | ⟨e, u⟩
  · simp [eq_comm]
  · simp

/-- R126, R130: on the longer buffer the header pass completes too, and only the cap may differ. -/
theorem headerPass_appended {impl : Config.Impl} (extra : List Byte) (h : headerPass impl s = .ok () t) :
    ∃ cap, s.cap ≤ cap ∧ headerPass impl (s.appended extra) = .ok () { t.appended extra with cap := cap } := by
  obtain ⟨u, hu, rfl⟩ := headerPass_eq_ok.1 h
  have hlonger := headerPass_eq_ok.2 ⟨_, noFurther_headerSequence impl s u () extra hu, rfl⟩
  have hcap := (keeps_headerPass impl (s.appended extra)).cap_le
  rw [hlonger] at hcap
  exact ⟨_, hcap, hlonger⟩

/-! ### What a performed rule answers -/

/-- R204: without an error a performed rule ran to its end. -/
theorem run_of_perform {m : M Unit} (h : perform m s = .next t) (hfault : t.fault = none) : m s = .ok () t := by
  obtain hok | ⟨c, u, -, rfl⟩ := perform_next h
  · exact hok
  · cases hfault

end Sys2Proof.Machine

namespace Sys2Proof

open Machine

/-- Settles O59: every command performs a rule that looks no further than it reads, and so does the header but for the cap. -/
theorem longerBufferSameEffect : Obligations.LongerBufferSameEffect := by
  refine ⟨fun i s t extra hi _ _ h hfault => ?_, fun impl s t extra _ _ h hfault => ?_⟩
  · obtain ⟨m, hm, hexec⟩ := exec_performs_noFurther hi
    rw [hexec] at h ⊢
    exact perform_ok (hm s t () extra (run_of_perform h hfault))
  · obtain ⟨cap, hcap, hrun⟩ := headerPass_appended extra (run_of_perform h hfault)
    exact ⟨cap, hcap, perform_ok hrun⟩

end Sys2Proof
end

section
/-! PROOFS. The non-audio commands and the illegal function codes (43_interpreter_control.md R142, R145 to R149). Each rule reads
one code at the cursor, VERBATIM more in a loop, and then its checks on the value decide what it writes or raises; so each
statement is the reader's equation and the branch of the check. What the four commands leave alone is one relation,
`NonAudioFrame`. -/

namespace Sys2Proof.Machine

variable {s t : State}

/-! ### A rule that completes behind its codes -/

/-- A rule that reads its code and moves to `u`, up to the cursor, answers `u` with the cursor behind the code. -/
theorem Reads.performs {u : State} {code rest : Bits} {m : M Unit} (h : Reads s.Moved code m () u.Moved) (hpos : u.pos = s.pos)
    (hu : s.unread = code ++ rest) : perform m s = .next (u.advance code.length) := by
  obtain ⟨_, ht, hcursor, -, n, rfl⟩ := h.whole s rest (.refl s) hu
  obtain rfl : n = code.length := by
    rw [State.advance_pos, hpos] at hcursor
    exact Nat.add_left_cancel hcursor
  exact perform_ok ht

/-- R145: the count is kept in `len`, and a loop reads as many codes. -/
theorem reads_verbatimRule (s : State) (g : Config.General) (bytes : List Nat) :
    Reads s.Moved (encVerbatim g bytes) (verbatimRule g) () ({ s with len := bytes.length } : State).Moved := by
  refine (reads_readUnsigned exists_advance_advance).bind
    (Reads.modify_bind { s with len := bytes.length } (fun _ => rfl) rfl rfl ?_)
  exact Reads.forRange (fun _ => State.Moved _) bytes 0 fun _ _ _ =>
    (reads_readUnsigned exists_advance_advance).bind_silent (Silent.pure ())

/-- R80: a single bit at the cursor. -/
theorem readBits_one {x : Bool} {rest : Bits} (hu : s.unread = x :: rest) : readBits 1 s = .ok x.toNat (s.advance 1) := by
  have htake : takeBits 1 0 s.unread = some (x.toNat, rest) := by rw [hu, takeBits, takeBits, Nat.mul_zero, Nat.zero_add]
  exact readBits_ok htake (State.fits_of_unread (code := [x]) hu (List.cons_ne_nil x []))

/-! ### What the non-audio commands leave alone -/

/-- R149: what VERBATIM, BITSHIFT, BLOCKSIZE and QUIT may write when they take no error. -/
def NonAudioFrame (s t : State) : Prop :=
  ∃ pos cmd len bitshift blocksize quit control,
    t =
      { s with
        pos := pos
        cmd := cmd
        len := len
        bitshift := bitshift
        blocksize := blocksize
        quitReceived := quit
        control := control }

theorem ControlFrame.nonAudio (h : ControlFrame s t) : NonAudioFrame s t := by
  obtain ⟨n, cmd, len, rfl, -⟩ := h
  exact ⟨_, cmd, len, _, _, _, _, rfl⟩

/-- R146. -/
theorem bitshiftRule_nonAudio (s : State) : NonAudioFrame s (finalState (bitshiftRule s)) := by
  obtain ⟨u, hu, heq | ⟨v, -, heq⟩⟩ := bitshiftRule_frame s <;> rw [heq]
  · exact hu.nonAudio
  · obtain ⟨n, cmd, len, rfl, -⟩ := hu
    exact ⟨_, cmd, len, v, _, _, _, rfl⟩

/-- R147. -/
theorem blocksizeRule_nonAudio (s : State) : NonAudioFrame s (finalState (blocksizeRule s)) := by
  obtain ⟨u, hu, heq | ⟨v, -, -, heq⟩⟩ := blocksizeRule_frame s <;> rw [heq]
  · exact hu.nonAudio
  · obtain ⟨n, cmd, len, rfl, -⟩ := hu
    exact ⟨_, cmd, len, _, v, _, .finish .noFrame, rfl⟩

/-- R148. -/
theorem quitRule_nonAudio (s : State) : NonAudioFrame s (finalState (quitRule s)) :=
  ⟨_, _, _, _, _, true, .finish .noFrame, rfl⟩

/-- R149: each of the four commands performs a rule within the frame. -/
theorem exec_performs_nonAudio {i : Instr} (hi : i ∈ [Instr.verbatim, .bitshift, .blocksize, .quit]) :
    ∃ m, exec i = perform m ∧ ∀ s, NonAudioFrame s (finalState (m s)) := by
  simp only [List.mem_cons, List.not_mem_nil, or_false] at hi
  obtain rfl | rfl | rfl | rfl := hi
  · exact ⟨verbatimRule Config.general, rfl, fun s => (keeps_verbatimRule _ s).nonAudio⟩
  · exact ⟨bitshiftRule, rfl, bitshiftRule_nonAudio⟩
  · exact ⟨blocksizeRule, rfl, blocksizeRule_nonAudio⟩
  · exact ⟨quitRule, rfl, quitRule_nonAudio⟩

end Sys2Proof.Machine

namespace Sys2Proof

open Machine

/-- Settles O35: the rule reads its count and its bytes in order and keeps the count alone. -/
theorem verbatimSkipsBytes : Obligations.VerbatimSkipsBytes := fun s bytes _ hu =>
  (reads_verbatimRule s Config.general bytes).performs rfl hu

/-- Settles O36: the operand is read, and then compared with 31. -/
theorem bitshiftWritesOrRaises : Obligations.BitshiftWritesOrRaises := by
  intro s shift rest hu
  have hread : readUnsigned Config.bitshiftSize s = .ok shift (s.advance (encShift shift).length) :=
    ((reads_readUnsigned exists_advance_advance).eq_advance hu).1
  refine ⟨fun hle => perform_ok ?_, fun hgt => perform_raise ?_⟩ <;> rw [bitshiftRule, run_bind_ok hread]
  · rw [if_neg (Nat.not_lt.2 hle)]
    rfl
  · rw [if_pos hgt, run_raise]

/-- Settles O37: the size is read, and then compared with the current one and with 0. -/
theorem blocksizeShrinksOrRaises : Obligations.BlocksizeShrinksOrRaises := by
  intro s size rest (hmax : s.blocksize ≤ Config.maxBlocksize) hu t
  have hread : readAdaptive (log2floor s.blocksize) s = .ok size.value t :=
    ((reads_adaptive rfl s.blocksize.log2 size).eq_advance hu).1
  refine ⟨fun hpos hle => perform_ok ?_, fun hlarger => perform_raise ?_, fun hzero => perform_raise ?_⟩ <;>
    rw [blocksizeRule, run_get_bind, run_bind_ok hread]
  · rw [if_neg (by omega), if_neg (by omega)]
    rfl
  · rw [if_pos hlarger, run_raise]
  · rw [if_neg (by omega), if_pos (.inl hzero), run_raise]

/-- Settles O39: the rest of the code is read, and the error is raised whatever it is. -/
theorem unknownCommandRaises : Obligations.UnknownCommandRaises := by
  refine ⟨fun s x rest hu => perform_raise ?_, fun s v rest hu => perform_raise ?_⟩
  · rw [illegal10or11Rule, run_bind_ok (readBits_one hu), run_modify_bind, run_raise]
  · have hread : readUnsigned Config.fnSize s = .ok v (s.advance (encU 2 v).length) :=
      ((reads_readUnsigned exists_advance_advance).eq_advance hu).1
    rw [illegal12upRule, run_bind_ok hread, run_modify_bind]
    rfl

/-- Settles O40: the frame of the four commands, and what an error changes on top of it. -/
theorem nonAudioCommandsFrame : Obligations.NonAudioCommandsFrame := by
  intro i hi s t h
  obtain ⟨m, hexec, hm⟩ := exec_performs_nonAudio hi
  rw [hexec] at h
  have hends := perform_ends h
  obtain ⟨pos, cmd, len, bitshift, blocksize, quit, control, heq⟩ := hm s
  rw [heq] at hends
  obtain rfl | ⟨c, rfl⟩ := hends <;>
    exact ⟨rfl, rfl, rfl, rfl, rfl, rfl, rfl, rfl, rfl, rfl, rfl, rfl, rfl, rfl, rfl, rfl⟩

/-- Settles O38: the rule is the one update. -/
theorem quitEndsStream : Obligations.QuitEndsStream := fun _ => perform_ok rfl

end Sys2Proof
end

section
/-! PROOFS. The head of the command loop (43_interpreter_control.md R140, R141): when a pass suspends, that five bits are always
an instruction, and what a step of a pass does in either case. -/

namespace Sys2Proof

/-- R64: five bits or more begin with the bits of a row. -/
theorem decodeCommand_of_five_bits {g : Config.General} (hg : g.legal = true) {bs : Bits} (hlen : 5 ≤ bs.length) :
    ∃ i n, decodeCommand g bs = .ok (i, n) := by
  rcases htake : takeBits 5 0 bs with - | ⟨w, rest⟩
  · rw [takeBits_eq_none] at htake
    omega
  · have hw : w < 32 := by simpa using takeBits_lt htake
    have hone : 0 < ((opcodeRows g).filter fun row => row.1.isPrefixOf (encRaw 5 w)).length := by
      rw [everyWindowHasOneRow g hg ⟨w, hw⟩]
      exact Nat.one_pos
    obtain ⟨row, hrow⟩ := List.exists_mem_of_length_pos hone
    obtain ⟨hmem, hprefix⟩ := List.mem_filter.1 hrow
    refine ⟨row.2, row.1.length, decodeCommand_of_row hg hmem ?_⟩
    rw [eq_encRaw_of_takeBits htake]
    exact (List.isPrefixOf_iff_prefix.1 hprefix).trans (List.prefix_append _ _)

end Sys2Proof

namespace Sys2Proof.Machine

variable {s : State}

/-- R140: after the header a pass suspends when no channel is due or fewer than five bits are left. -/
theorem State.suspends_iff (hparsed : s.headerParsed = true) :
    s.suspends = true ↔ s.channels ≤ s.currentChannel ∨ s.bitLength < s.pos + 5 := by
  rw [State.suspends, hparsed, Bool.true_and, Bool.or_eq_true, decide_eq_true_iff, decide_eq_true_iff]

/-- R141: a step of a pass that suspends. -/
theorem step_of_suspends (hc : s.control = .pass) (h : s.suspends = true) : step s = .next (s.endPass .noFrame) := by
  rw [step, hc]
  exact if_pos h

/-- R140: a step of a pass that does not. -/
theorem step_of_decode {i : Instr} {n : Nat} (hc : s.control = .pass) (h : s.suspends = false)
    (hd : decode Config.general s.headerParsed s.unread = .ok (i, n)) : step s = exec i (s.issue Config.general i n) := by
  have hfetch : fetch Config.general s = .ok i (s.issue Config.general i n) := by rw [fetch, hd]
  rw [step, hc]
  dsimp only
  rw [h, if_neg Bool.false_ne_true, hfetch]

end Sys2Proof.Machine

namespace Sys2Proof

open Machine

/-- Settles O12: the fetch gives the decoded instruction, and the state in which its opcode is consumed. -/
theorem stepRunsDecodedInstruction : Obligations.StepRunsDecodedInstruction := fun _ _ _ => step_of_decode

/-- Settles O13: the suspension test, and a row for every five bits. -/
theorem passSuspends : Obligations.PassSuspends := by
  refine fun s hc hparsed => ⟨fun h => ?_, fun hbits hdue => ⟨?_, ?_⟩⟩
  · exact step_of_suspends hc ((State.suspends_iff hparsed).2 h.symm)
  · rw [← Bool.not_eq_true, State.suspends_iff hparsed]
    omega
  · rw [hparsed]
    refine decodeCommand_of_five_bits (by decide) ?_
    rw [State.unread_length]
    omega

end Sys2Proof
end

section
/-! PROOFS. What a command leaves of the memories (44_audio_commands.md R160; 43_interpreter_control.md R149). Every command
performs a rule that writes at most the current channel's stores, before the end of the block, and under QLPC the coefficient file;
taking an error afterwards touches no memory. -/

namespace Sys2Proof.Machine

variable {i : Instr} {s t u : State}

/-- From `s` the command `i` came to `t`, and the memories that are not its to write are as they were. -/
structure MemoryFrame (i : Instr) (s t : State) : Prop where
  otherHist : ∀ c, c ≠ s.currentChannel → t.hist[c]? = s.hist[c]?
  otherMean : ∀ c, c ≠ s.currentChannel → t.mean[c]? = s.mean[c]?
  beyond : ∀ a : Int, s.blocksize ≤ a → t.histCell s.currentChannel a = s.histCell s.currentChannel a
  coef : i ≠ .qlpc → t.coef = s.coef
  histLength : t.hist.length = s.hist.length
  meanLength : t.mean.length = s.mean.length

/-- R160. -/
theorem AudioFrame.memory {q : Bool} (h : AudioFrame q s.currentChannel s t) (hq : i ≠ .qlpc → q = false) :
    MemoryFrame i s t :=
  ⟨h.otherHist, h.otherMean, h.beyond, fun hi => h.coef (hq hi), h.histLength, h.meanLength⟩

/-- R149. -/
theorem NonAudioFrame.memory (h : NonAudioFrame s t) : MemoryFrame i s t := by
  obtain ⟨pos, cmd, len, bitshift, blocksize, quit, control, rfl⟩ := h
  exact ⟨fun _ _ => rfl, fun _ _ => rfl, fun _ _ => rfl, fun _ => rfl, rfl, rfl⟩

/-- Every command performs a rule within the frame. -/
theorem exec_performs_memory (hi : i ≠ .header) :
    ∃ m, exec i = perform m ∧ ∀ s, MemoryFrame i s (finalState (m s)) := by
  cases i with
  | diff0 => exact ⟨diff0Rule, rfl, fun s => (diff0Rule_frame s).memory fun _ => rfl⟩
  | diff1 => exact ⟨diff1Rule, rfl, fun s => (diff1Rule_frame s).memory fun _ => rfl⟩
  | diff2 => exact ⟨diff2Rule, rfl, fun s => (diff2Rule_frame s).memory fun _ => rfl⟩
  | diff3 => exact ⟨diff3Rule, rfl, fun s => (diff3Rule_frame s).memory fun _ => rfl⟩
  | zero => exact ⟨zeroRule, rfl, fun s => (zeroRule_frame s).memory fun _ => rfl⟩
  | qlpc => exact ⟨qlpcRule, rfl, fun s => (qlpcRule_frame s).memory fun h => absurd rfl h⟩
  | quit => exact ⟨quitRule, rfl, fun s => (quitRule_nonAudio s).memory⟩
  | blocksize => exact ⟨blocksizeRule, rfl, fun s => (blocksizeRule_nonAudio s).memory⟩
  | bitshift => exact ⟨bitshiftRule, rfl, fun s => (bitshiftRule_nonAudio s).memory⟩
  | verbatim => exact ⟨verbatimRule Config.general, rfl, fun s => (keeps_verbatimRule _ s).nonAudio.memory⟩
  | illegal10or11 => exact ⟨illegal10or11Rule, rfl, fun s => (keeps_illegal10or11Rule s).nonAudio.memory⟩
  | illegal12up => exact ⟨illegal12upRule, rfl, fun s => (keeps_illegal12upRule s).nonAudio.memory⟩
  | header => exact absurd rfl hi

/-- R204: what was written before an error stays, and the error writes no memory. -/
theorem MemoryFrame.of_ends (hu : MemoryFrame i s u) (ht : Ends u t) : MemoryFrame i s t := by
  obtain rfl | ⟨c, rfl⟩ := ht
  · exact hu
  · exact ⟨hu.otherHist, hu.otherMean, hu.beyond, hu.coef, hu.histLength, hu.meanLength⟩

end Sys2Proof.Machine

namespace Sys2Proof

open Machine

/-- Settles O42: the frame of the command's rule, kept by an error. -/
theorem commandsLeaveOtherChannels : Obligations.CommandsLeaveOtherChannels := by
  intro i s t hi h
  obtain ⟨m, hexec, hm⟩ := exec_performs_memory hi
  rw [hexec] at h
  have hframe := (hm s).of_ends (perform_ends h)
  exact ⟨fun c hc => ⟨hframe.otherHist c hc, hframe.otherMean c hc⟩, hframe.beyond, hframe.coef, hframe.histLength,
    hframe.meanLength⟩

end Sys2Proof
end

section
/-! PROOFS. When the arithmetic of the audio commands is exact (44_audio_commands.md R183, R185). A value that a cell holds as it is
survives the narrowing, and division and right shift never leave the range; so where the sums and products fit, each function on
cells is its counterpart on integers. The fixed predictors are then linear recurrences on integers. -/

namespace Sys2Proof.Machine

variable {s : State} {v : Int}

/-! ### Values that a cell holds -/

theorem fits32_iff : fits32 v = true ↔ -2147483648 ≤ v ∧ v < 2147483648 := by
  rw [fits32, Bool.and_eq_true, decide_eq_true_iff, decide_eq_true_iff]

/-- R183: narrowing keeps what fits. -/
theorem toInt_wrap32 (h : fits32 v = true) : (wrap32 v).toInt = v := by
  obtain ⟨hlo, hhi⟩ := fits32_iff.1 h
  rw [wrap32, BitVec.toInt_ofInt]
  exact Int.bmod_eq_of_le (by omega) (by omega)

theorem fits32_toInt (v : Cell) : fits32 v.toInt = true := fits32_iff.2 ⟨v.le_toInt, v.toInt_lt⟩

@[simp] theorem wrap32_toInt (v : Cell) : wrap32 v.toInt = v := BitVec.ofInt_toInt

@[simp] theorem toInt_zeroCell : (0 : Cell).toInt = 0 := rfl

/-- R184: a quotient is not farther from zero than the dividend. -/
theorem fits32_tdiv (h : fits32 v = true) {n : Int} (hn : 0 ≤ n) : fits32 (tdiv v n) = true := by
  obtain ⟨hlo, hhi⟩ := fits32_iff.1 h
  rw [fits32_iff, tdiv]
  obtain hv | hv := Int.le_total 0 v
  · have hle : v.tdiv n ≤ v := Int.tdiv_le_self n hv
    have hnonneg : 0 ≤ v.tdiv n := Int.tdiv_nonneg hv hn
    omega
  · have hle : (-v).tdiv n ≤ -v := Int.tdiv_le_self n (by omega)
    have hnonneg : 0 ≤ (-v).tdiv n := Int.tdiv_nonneg (by omega) hn
    rw [Int.neg_tdiv] at hle hnonneg
    omega

/-- R184: a right shift moves a value toward 0 or -1. -/
theorem fits32_asr (h : fits32 v = true) (n : Nat) : fits32 (asr v n) = true := by
  obtain ⟨hlo, hhi⟩ := fits32_iff.1 h
  have hpow : (0 : Int) < (2 ^ n : Nat) := by exact_mod_cast Nat.two_pow_pos n
  have hone : (1 : Int) ≤ (2 ^ n : Nat) := hpow
  rw [fits32_iff, asr]
  refine ⟨(Int.le_ediv_iff_mul_le hpow).2 (by nlinarith), Int.ediv_lt_of_lt_mul hpow (by nlinarith)⟩

/-! ### The sums -/

/-- R163, R178: a sum whose partial sums fit. -/
theorem toInt_sumCells {start : Cell} {cells : List Cell} (h : sumFits start.toInt (cells.map BitVec.toInt) = true) :
    (sumCells start cells).toInt = (cells.map BitVec.toInt).foldl (· + ·) start.toInt := by
  induction cells generalizing start with
  | nil => rfl
  | cons w cells ih =>
    obtain ⟨hfit, hrest⟩ := Bool.and_eq_true_iff.1 h
    rw [← toInt_wrap32 hfit] at hrest
    have := ih hrest
    rw [toInt_wrap32 hfit] at this
    exact this

/-- R163, R178: the start value of a sum. -/
theorem toInt_bias {n : Int} (h : fits32 (exactBias s n) = true) :
    (if s.version.toNat < 2 then 0 else wrap32 (n / 2) : Cell).toInt = exactBias s n := by
  unfold exactBias at h ⊢
  split at h
  · rw [if_pos ‹_›, if_pos ‹_›]
    rfl
  · rw [if_neg ‹_›, if_neg ‹_›, toInt_wrap32 h]

/-- R170: taps whose products and partial sums fit. -/
theorem sumTaps_exact {cv : List Int} {recent : List Cell} {sum : Cell} (hlen : cv.length ≤ recent.length)
    (h : tapsFit cv (recent.map BitVec.toInt) sum.toInt = true) :
    ∃ v, sumTaps cv recent sum = some v ∧ v.toInt = exactTaps cv (recent.map BitVec.toInt) sum.toInt := by
  induction cv generalizing recent sum with
  | nil => exact ⟨sum, rfl, rfl⟩
  | cons a cv ih =>
    cases recent with
    | nil => exact absurd hlen (by simp)
    | cons x recent =>
      obtain ⟨hhead, hrest⟩ := Bool.and_eq_true_iff.1 h
      have hfit := (Bool.and_eq_true_iff.1 hhead).2
      rw [← toInt_wrap32 hfit] at hrest
      obtain ⟨v, hv, hexact⟩ := ih (Nat.le_of_succ_le_succ hlen) hrest
      rw [toInt_wrap32 hfit] at hexact
      exact ⟨v, hv, hexact⟩

/-- R170: the samples where nothing overflows. -/
theorem toInt_samplesOf {cv : List Int} {shift : Nat} {initSum : Cell} {recent : List Cell} {residuals : List Int}
    (hlen : cv.length ≤ recent.length)
    (h : predictFits cv shift initSum.toInt (recent.map BitVec.toInt) residuals = true) :
    (samplesOf cv shift initSum recent residuals).map BitVec.toInt =
      exactSamples cv shift initSum.toInt (recent.map BitVec.toInt) residuals := by
  induction residuals generalizing recent with
  | nil => rfl
  | cons r residuals ih =>
    obtain ⟨hhead, hrest⟩ := Bool.and_eq_true_iff.1 h
    obtain ⟨htaps, hfit⟩ := Bool.and_eq_true_iff.1 hhead
    obtain ⟨sum, hsum, hexact⟩ := sumTaps_exact hlen htaps
    rw [← hexact] at hrest hfit
    have htail := ih (recent := wrap32 (r + asr sum.toInt shift) :: recent) (Nat.le_succ_of_le hlen)
      (by rw [List.map_cons, toInt_wrap32 hfit]; exact hrest)
    rw [List.map_cons, toInt_wrap32 hfit] at htail
    rw [samplesOf, hsum, exactSamples, ← hexact, List.map_cons, htail, toInt_wrap32 hfit]

/-- R163: the offset where its sum does not overflow. The one divisor below 0 is -1, and its sum has the bias alone. -/
theorem toInt_offsetValue {means : List Cell} (hn : -1 ≤ s.nmean) (h : coffsetFits s (means.map BitVec.toInt) = true) :
    (offsetValue s means).toInt = exactOffset s (means.map BitVec.toInt) := by
  unfold offsetValue exactOffset
  by_cases hz : s.nmean = 0
  · rw [if_pos hz, if_pos hz]
    cases means <;> rfl
  · rw [coffsetFits, beq_eq_false_iff_ne.2 hz, Bool.false_or, Bool.and_eq_true] at h
    obtain ⟨hbias, hsum⟩ := h
    rw [← toInt_bias hbias, ← List.map_take] at hsum
    have hcells := toInt_sumCells hsum
    rw [toInt_bias hbias, List.map_take] at hcells
    have hquot : fits32 (tdiv (((means.map BitVec.toInt).take s.nmean.toNat).foldl (· + ·) (exactBias s s.nmean))
        s.nmean) = true := by
      obtain hpos | hneg := lt_or_ge 0 s.nmean
      · rw [← hcells]
        exact fits32_tdiv (fits32_toInt _) hpos.le
      · have hminus : s.nmean = -1 := by omega
        rw [hminus, show (-1 : Int).toNat = 0 from rfl, List.take_zero, List.foldl_nil, exactBias]
        split <;> decide
    rw [if_neg hz, if_neg hz]
    dsimp only
    rw [hcells]
    split
    · exact toInt_wrap32 (fits32_asr hquot _)
    · exact toInt_wrap32 hquot

/-- R178: the mean store where neither the sum nor the shift overflows. -/
theorem toInt_meanAfter {means block : List Cell} (h : meanFits s (block.map BitVec.toInt) = true) :
    (meanAfter s means block).map BitVec.toInt = exactMeanAfter s (means.map BitVec.toInt) (block.map BitVec.toInt) := by
  obtain ⟨hhead, hshift⟩ := Bool.and_eq_true_iff.1 h
  obtain ⟨hbias, hsum⟩ := Bool.and_eq_true_iff.1 hhead
  rw [← toInt_bias hbias] at hsum
  have hcells := toInt_sumCells hsum
  rw [toInt_bias hbias] at hcells
  have hmean : tdiv (sumCells (if s.version.toNat < 2 then 0 else wrap32 ((s.blocksize : Int) / 2)) block).toInt
      s.blocksize = exactMean s (block.map BitVec.toInt) := by
    rw [hcells]
    rfl
  have hfit : fits32 (exactMean s (block.map BitVec.toInt)) = true :=
    hmean ▸ fits32_tdiv (fits32_toInt _) (Int.natCast_nonneg _)
  unfold meanAfter exactMeanAfter
  dsimp only
  rw [Int.natCast_ediv, Nat.cast_ofNat, hmean, List.map_append, List.map_tail, List.map_singleton]
  split
  · rw [toInt_wrap32 hfit]
  · rename_i hv
    rw [decide_eq_false hv, Bool.false_or] at hshift
    rw [shl32, toInt_wrap32 hshift]

/-- R180, R171: an operation on every cell whose results fit. -/
theorem map_toInt_wrap32 {α : Type} {f : α → Int} {xs : List α} (h : ∀ x ∈ xs, fits32 (f x) = true) :
    (xs.map fun x => (wrap32 (f x)).toInt) = xs.map f :=
  List.map_congr_left fun x hx => toInt_wrap32 (h x hx)

/-! ### A mean store of zeros -/

theorem sumCells_zeros {start : Cell} {cells : List Cell} (h : ∀ v ∈ cells, v = 0) : sumCells start cells = start := by
  induction cells with
  | nil => rfl
  | cons v cells ih =>
    have hstep : wrap32 (start.toInt + v.toInt) = start := by
      rw [h v List.mem_cons_self, toInt_zeroCell, Int.add_zero, wrap32_toInt]
    rw [sumCells, List.foldl_cons, hstep]
    exact ih fun w hw => h w (List.mem_cons_of_mem v hw)

/-- R163: the bias is less than half of the divisor it is divided by. -/
theorem tdiv_bias_eq_zero (hrun : s.RunInv) (hn : s.nmean < 2147483648) :
    tdiv (if s.version.toNat < 2 then 0 else wrap32 (s.nmean / 2) : Cell).toInt s.nmean = 0 := by
  split
  · exact Int.zero_tdiv _
  · rename_i hv
    have hnonneg := hrun.nmean_nonneg (version_ne_zero_of_two_le (Nat.not_lt.1 hv))
    rw [toInt_wrap32 (fits32_iff.2 (by omega))]
    obtain hz | hpos := hnonneg.eq_or_lt
    · rw [← hz]
      rfl
    · exact Int.tdiv_eq_zero_of_lt (by omega) (by omega)

/-- R233. -/
theorem offsetValue_zeros (hrun : s.RunInv) (hn : s.nmean < 2147483648) {means : List Cell} (h : ∀ m ∈ means, m = 0) :
    offsetValue s means = 0 := by
  unfold offsetValue
  split
  · cases means with
    | nil => rfl
    | cons m means => exact h m List.mem_cons_self
  · dsimp only
    rw [sumCells_zeros fun m hm => h m (List.mem_of_mem_take hm), tdiv_bias_eq_zero hrun hn]
    split
    · rw [asr, Int.zero_ediv]
      rfl
    · rfl

/-! ### The fixed predictors -/

theorem asr_zero (v : Int) : asr v 0 = v := Int.ediv_one v

/-- R166, R185: order 1 repeats the last sample; a cell is never narrowed to another. -/
theorem samplesOf_constant (n : Nat) (a : Cell) (recent : List Cell) :
    samplesOf [1] 0 0 (a :: recent) (List.replicate n 0) = List.replicate n a := by
  induction n generalizing recent with
  | zero => rfl
  | succ n ih =>
    have hsum : sumTaps [1] (a :: recent) 0 = some a := by
      simp only [sumTaps, toInt_zeroCell, Int.zero_add, Int.one_mul, wrap32_toInt]
    rw [List.replicate_succ, samplesOf, hsum]
    simp only [asr_zero, Int.zero_add, wrap32_toInt, ih, List.replicate_succ]

/-- R166, R185: order 2 keeps the first difference. -/
theorem exactSamples_line {n i : Nat} (hi : i < n) (a b : Int) (recent : List Int) :
    (exactSamples [2, -1] 0 0 (a :: b :: recent) (List.replicate n 0))[i]? = some (a + (i + 1) * (a - b)) := by
  induction n generalizing i a b recent with
  | zero => omega
  | succ n ih =>
    have hnext : 0 + asr (exactTaps [2, -1] (a :: b :: recent) 0) 0 = 2 * a - b := by
      simp only [exactTaps, List.zipWith_cons_cons, List.zipWith_nil_left, List.foldl_cons, List.foldl_nil, asr_zero]
      ring
    rw [List.replicate_succ, exactSamples, hnext]
    cases i with
    | zero =>
      rw [List.getElem?_cons_zero]
      congr 1
      push_cast
      ring
    | succ i =>
      rw [List.getElem?_cons_succ, ih (by omega)]
      congr 1
      push_cast
      ring

/-- R166, R185: order 3 keeps the second difference. -/
theorem exactSamples_parabola {n i : Nat} (hi : i < n) (a b c : Int) (recent : List Int) :
    ((exactSamples [3, -3, 1] 0 0 (a :: b :: c :: recent) (List.replicate n 0))[i]?).map (2 * ·) =
      some (2 * a + (i + 1) * (3 * a - 4 * b + c) + (i + 1) * (i + 1) * (a - 2 * b + c)) := by
  induction n generalizing i a b c recent with
  | zero => omega
  | succ n ih =>
    have hnext : 0 + asr (exactTaps [3, -3, 1] (a :: b :: c :: recent) 0) 0 = 3 * a - 3 * b + c := by
      simp only [exactTaps, List.zipWith_cons_cons, List.zipWith_nil_left, List.foldl_cons, List.foldl_nil, asr_zero]
      ring
    rw [List.replicate_succ, exactSamples, hnext]
    cases i with
    | zero =>
      rw [List.getElem?_cons_zero, Option.map_some]
      congr 1
      push_cast
      ring
    | succ i =>
      rw [List.getElem?_cons_succ, ih (by omega)]
      congr 1
      push_cast
      ring

end Sys2Proof.Machine

namespace Sys2Proof

open Machine

/-- Settles O27: the sum is its bias, and the quotient of the bias is 0. -/
theorem zeroMeansGiveZeroOffset : Obligations.ZeroMeansGiveZeroOffset := fun _ _ hrun hn h => offsetValue_zeros hrun hn h

/-- Settles O28: place by place, what fits is not changed by the narrowing. -/
theorem noOverflowGivesExactSamples : Obligations.NoOverflowGivesExactSamples := by
  refine ⟨fun _ _ _ _ _ => toInt_samplesOf, fun _ _ => toInt_offsetValue, fun coefs h => ?_, fun d cells h => ?_,
    fun _ _ _ => toInt_meanAfter, fun n block h => ?_⟩
  · exact (map_toInt_wrap32 (f := id) (List.all_eq_true.1 h)).trans (List.map_id coefs)
  · exact map_toInt_wrap32 fun v hv => List.all_eq_true.1 h _ (List.mem_map_of_mem hv)
  · exact map_toInt_wrap32 fun v hv => List.all_eq_true.1 h _ (List.mem_map_of_mem hv)

/-- Settles O29: order 1 on cells; orders 2 and 3 by way of the exact samples. -/
theorem fixedPredictorsExtrapolate : Obligations.FixedPredictorsExtrapolate := by
  refine ⟨samplesOf_constant, fun n a b recent h i hi => ?_, fun n a b c recent h i hi => ?_⟩
  · rw [← List.getElem?_map, toInt_samplesOf (by simp) h]
    exact exactSamples_line hi _ _ _
  · rw [show (fun v : Cell => 2 * v.toInt) = (2 * ·) ∘ BitVec.toInt from rfl, ← Option.map_map, ← List.getElem?_map,
      toInt_samplesOf (by simp) h]
    exact exactSamples_parabola hi _ _ _ _

end Sys2Proof
end

section
/-! PROOFS. Cell by cell and range by range (44_audio_commands.md R164, R170, R178 to R180; 45_output.md R190). In canonical form
two writes of adjoining ranges are one write of both, so a loop that writes a cell in each round is one write of a range, provided
that no round reads a cell an earlier one wrote (`forRange_writes`). The decode loop does read what it wrote: there the samples
before the one due are carried along, and a residual is read alike whatever the history holds (`IgnoresHist`). -/

namespace Sys2Proof

/-! ### Ranges of a memory -/

section

variable {m : Memory} (h : m.wf) {a : Nat}

include h

/-- Writing what is there already changes nothing. -/
theorem Memory.writeFrom_of_read {vs : List Cell} (hr : ∀ k < vs.length, m.read (a + k) = vs[k]?) : m.writeFrom a vs = m := by
  refine Memory.ext_of_wf (Memory.wf_writeFrom h a vs) h fun b => ?_
  rw [Memory.read_writeFrom]
  split
  · rw [← hr (b - a) (by omega), show a + (b - a) = b by omega]
  · rfl

/-- Writing two adjoining ranges is writing both as one. -/
theorem Memory.writeFrom_append (xs ys : List Cell) :
    (m.writeFrom a xs).writeFrom (a + xs.length) ys = m.writeFrom a (xs ++ ys) := by
  have hxs := Memory.wf_writeFrom h a xs
  refine Memory.ext_of_wf (Memory.wf_writeFrom hxs _ ys) (Memory.wf_writeFrom h a _) fun b => ?_
  rw [Memory.read_writeFrom, Memory.read_writeFrom, Memory.read_writeFrom, List.length_append]
  by_cases hlow : b < a + xs.length
  · rw [if_neg (by omega)]
    by_cases hin : a ≤ b
    · rw [if_pos (by omega), if_pos (by omega), List.getElem?_append_left (by omega)]
    · rw [if_neg (by omega), if_neg (by omega)]
  · rw [if_neg (show ¬ (a ≤ b ∧ b < a + xs.length) by omega)]
    by_cases hin : b < a + xs.length + ys.length
    · rw [if_pos (by omega), if_pos (by omega), List.getElem?_append_right (by omega), Nat.sub_add_eq]
    · rw [if_neg (by omega), if_neg (by omega)]

end

end Sys2Proof

namespace Sys2Proof.Machine

variable {α β : Type} {s t u : State} {c : Nat} {i : Int} {vs xs ys : List Cell}

/-! ### Ranges of the history -/

/-- A write is determined by where it starts and what it writes. -/
theorem HistWrite.writeHist_eq (h : HistWrite s t c i vs) : writeHist c i vs s = .ok () t := by
  obtain ⟨m, hm, hr, rfl⟩ := h
  rw [writeHist, hm]
  exact if_pos hr

theorem HistWrite.unique (h : HistWrite s t c i vs) (h' : HistWrite s u c i vs) : t = u :=
  (EStateM.Result.ok.inj (h.writeHist_eq.symm.trans h'.writeHist_eq)).2

/-- Cells that hold the values already. -/
theorem HistWrite.same (hwf : ∀ m ∈ s.hist, m.wf) (hc : c < s.hist.length) (hr : s.histRange i vs.length = true)
    (hk : ∀ k : Nat, k < vs.length → s.histCell c (i + k) = vs[k]?) : HistWrite s s c i vs := by
  have hm : s.hist[c]? = some s.hist[c] := List.getElem?_eq_getElem hc
  obtain ⟨hlo, hhi⟩ := State.histRange_iff.1 hr
  refine ⟨s.hist[c], hm, hr, ?_⟩
  rw [Memory.writeFrom_of_read (hwf _ (List.getElem_mem hc)) fun k hkl => ?_, State.setHist, List.set_getElem_self]
  rw [← hk k hkl, State.histCell_eq hm (by omega) (by omega), show (i + k + s.nwrap).toNat = (i + s.nwrap).toNat + k by omega]

/-- A write of no cell. -/
theorem HistWrite.nil (hwf : ∀ m ∈ s.hist, m.wf) (hc : c < s.hist.length) (hr : s.histRange i 0 = true) :
    HistWrite s s c i [] := .same hwf hc hr fun _ hk => absurd hk (Nat.not_lt_zero _)

/-- Two adjoining writes are one. -/
theorem HistWrite.append (hwf : ∀ m ∈ s.hist, m.wf) (h : HistWrite s t c i xs) (h' : HistWrite t u c (i + xs.length) ys) :
    HistWrite s u c i (xs ++ ys) := by
  obtain ⟨m, hm, hr, rfl⟩ := h
  obtain ⟨m', hm', hr', rfl⟩ := h'
  have hc : c < s.hist.length := (List.getElem?_eq_some_iff.1 hm).1
  obtain rfl : m.writeFrom (i + s.nwrap).toNat xs = m' := by simpa [hc] using hm'
  obtain ⟨hlo, hhi⟩ := State.histRange_iff.1 hr
  obtain ⟨-, hhi'⟩ := State.histRange_iff.1 hr'
  rw [State.setHist_histBlocksize] at hhi'
  refine ⟨m, hm, State.histRange_iff.2 ⟨hlo, by rw [List.length_append]; omega⟩, ?_⟩
  rw [State.setHist_nwrap, show (i + xs.length + s.nwrap).toNat = (i + s.nwrap).toNat + xs.length by omega,
    Memory.writeFrom_append (hwf m (List.mem_of_getElem? hm)), State.setHist, State.setHist, State.setHist, List.set_set]

/-- From `s` to `t` the history and its range are the same. -/
structure SameHist (s t : State) : Prop where
  hist : t.hist = s.hist
  nwrap : t.nwrap = s.nwrap
  histBlocksize : t.histBlocksize = s.histBlocksize

theorem SameHist.histCell (h : SameHist s t) : t.histCell c i = s.histCell c i :=
  State.histCell_congr (congrArg (·[c]?) h.hist) h.nwrap h.histBlocksize

theorem SameHist.histRange (h : SameHist s t) (n : Nat) : t.histRange i n = s.histRange i n := by
  rw [State.histRange, State.histRange, h.nwrap, h.histBlocksize]

theorem CursorOnly.sameHist (h : CursorOnly s t) : SameHist s t := by
  obtain ⟨n, rfl, -⟩ := h
  exact ⟨rfl, rfl, rfl⟩

/-- A write does the same to another state with the same history. -/
theorem HistWrite.transport (h : HistWrite s u c i vs) (hst : SameHist s t) : HistWrite t { t with hist := u.hist } c i vs := by
  obtain ⟨m, hm, hr, rfl⟩ := h
  exact ⟨m, hst.hist.symm ▸ hm, (hst.histRange _).trans hr, by rw [State.setHist, State.setHist, hst.hist, hst.nwrap]⟩

/-! ### Loops over the history -/

/-- A cell that holds a value is in the allocated range of a channel. -/
theorem State.range_of_histCell {v : Cell} (h : s.histCell c i = some v) :
    c < s.hist.length ∧ -(s.nwrap : Int) ≤ i ∧ i < s.histBlocksize := by
  constructor
  · by_contra hc
    rw [State.histCell, List.getElem?_eq_none (Nat.not_lt.1 hc)] at h
    cases h
  · by_contra hi
    rw [State.histCell_none_of_range hi] at h
    cases h

theorem readCell_runs {v : Cell} (hwf : ∀ m ∈ s.hist, m.wf) (h : s.histCell c i = some v) :
    Reference.readCell c i s = .ok v s := by
  obtain ⟨hc, hlo, hhi⟩ := State.range_of_histCell h
  have hread : readHist c i 1 s = .ok [v] s :=
    readHist_list (vs := [v]) hwf hc (State.histRange_iff.2 ⟨hlo, hhi⟩) fun k hk => by
      obtain rfl : k = 0 := Nat.lt_one_iff.1 hk
      rw [Nat.cast_zero, Int.add_zero, h]
      rfl
  rw [Reference.readCell, run_bind_ok hread]
  rfl

/-- A loop that in each round writes the next cell of a list writes the list. -/
theorem forRange_writes {body : Int → M Unit} (hwf : ∀ m ∈ s.hist, m.wf) (hc : c < s.hist.length)
    (hr : s.histRange i vs.length = true)
    (h : ∀ (k : Nat) (v : Cell) (t : State), vs[k]? = some v → HistWrite s t c i (vs.take k) →
      body (i + k) t = Reference.writeCell c (i + k) v t) :
    forRange vs.length i body s = writeHist c i vs s := by
  induction vs generalizing s i with
  | nil => exact (HistWrite.nil hwf hc hr).writeHist_eq.symm
  | cons v vs ih =>
    obtain ⟨hlo, hhi⟩ := State.histRange_iff.1 hr
    rw [List.length_cons] at hhi
    have hfirst : body i s = writeHist c i [v] s := by
      have := h 0 v s rfl (.nil hwf hc (State.histRange_iff.2 (by omega)))
      rwa [Nat.cast_zero, Int.add_zero] at this
    obtain ⟨t, ht, hw⟩ := writeHist_runs (vs := [v]) hc
      (State.histRange_iff.2 ⟨hlo, by rw [List.length_singleton]; omega⟩)
    have hrange : t.histRange (i + 1) vs.length = true := by
      rw [hw.rest, State.histRange_iff]
      dsimp only
      omega
    have hct : c < t.hist.length := hw.length.symm ▸ hc
    obtain ⟨u, hu, hwu⟩ := writeHist_runs hct hrange
    have hrest : forRange vs.length (i + 1) body t = writeHist c (i + 1) vs t := by
      refine ih (hw.wf hwf) hct hrange fun k w t' hk hwt => ?_
      rw [show i + 1 + (k : Int) = i + (k + 1 : Nat) by push_cast; omega]
      exact h (k + 1) w t' hk (hw.append hwf hwt)
    rw [List.length_cons, forRange, run_bind_ok (hfirst.trans ht), hrest, hu]
    exact (hw.append hwf hwu).writeHist_eq.symm

/-- A loop that in each round reads a cell that no round before wrote, and writes what becomes of it. -/
theorem forRange_copies {source : Int → Int} {g : Cell → Cell} (hwf : ∀ m ∈ s.hist, m.wf) (hc : c < s.hist.length)
    (hr : s.histRange i vs.length = true) (hsource : ∀ j, j ≤ source j)
    (hcell : ∀ k : Nat, k < vs.length → s.histCell c (source (i + k)) = vs[k]?) :
    (forRange vs.length i fun j => do
        let v ← Reference.readCell c (source j)
        Reference.writeCell c j (g v)) s = writeHist c i (vs.map g) s := by
  rw [← List.length_map g]
  refine forRange_writes hwf hc (by rwa [List.length_map]) fun k w t hk hw => ?_
  obtain ⟨v, hv, rfl⟩ : ∃ v, vs[k]? = some v ∧ g v = w := by simpa using hk
  have hkl : k < vs.length := (List.getElem?_eq_some_iff.1 hv).1
  have hread : t.histCell c (source (i + k)) = some v := by
    have hbehind := hsource (i + k)
    rw [hw.cell, if_neg (by rw [List.length_take, List.length_map]; omega), hcell k hkl, hv]
  rw [run_bind_ok (readCell_runs (hw.wf hwf) hread)]

/-- A loop that folds the cells of a range. -/
theorem foldRange_cells {g : α → Cell → α} {acc : α} (hwf : ∀ m ∈ s.hist, m.wf)
    (hcell : ∀ k : Nat, k < vs.length → s.histCell c (i + k) = vs[k]?) :
    foldRange vs.length i acc (fun j acc => do
        let v ← Reference.readCell c j
        pure (g acc v)) s = .ok (vs.foldl g acc) s := by
  induction vs generalizing i acc with
  | nil => rfl
  | cons v vs ih =>
    have hfirst : s.histCell c i = some v := by simpa using hcell 0 (Nat.succ_pos _)
    have hstep : (do let v ← Reference.readCell c i; pure (g acc v)) s = .ok (g acc v) s :=
      run_bind_ok (readCell_runs hwf hfirst)
    rw [List.length_cons, foldRange, run_bind_ok hstep]
    refine ih fun k hk => ?_
    rw [show i + 1 + (k : Int) = i + (k + 1 : Nat) by push_cast; omega, hcell (k + 1) (by simpa using hk)]
    rfl

/-! ### The block operations -/

/-- The values of the cells `i .. i+n-1` of a channel's history. -/
def State.cellValues (s : State) (c : Nat) (i : Int) (n : Nat) : List Cell :=
  (List.range n).map fun k : Nat => (s.histCell c (i + k)).getD 0

@[simp] theorem State.cellValues_length (s : State) (c : Nat) (i : Int) (n : Nat) : (s.cellValues c i n).length = n := by
  rw [State.cellValues, List.length_map, List.length_range]

theorem State.Holds.cell_eq {n k : Nat} (h : s.Holds c i n) (hk : k < n) :
    s.histCell c (i + k) = (s.cellValues c i n)[k]? := by
  obtain ⟨v, hv⟩ := Option.isSome_iff_exists.1 (h k hk)
  rw [State.cellValues, List.getElem?_map, List.getElem?_range hk, Option.map_some, hv]
  rfl

theorem State.Holds.readHist_eq {n : Nat} (h : s.Holds c i n) (hwf : ∀ m ∈ s.hist, m.wf) (hc : c < s.hist.length)
    (hr : s.histRange i n = true) : readHist c i n s = .ok (s.cellValues c i n) s :=
  (readHist_eq_ok hwf).2 ⟨rfl, hc, hr, s.cellValues_length c i n, fun _ => h.cell_eq⟩

/-- R179: every source lies behind its destination. -/
theorem wrapCopy_eq (hwf : ∀ m ∈ s.hist, m.wf) (hc : c < s.hist.length) (hb : s.blocksize ≤ s.histBlocksize)
    (h : s.Holds c (-(s.nwrap : Int) + s.blocksize) s.nwrap) : wrapCopy c s = Reference.wrapCopy c s := by
  have hlen := s.cellValues_length c (-(s.nwrap : Int) + s.blocksize) s.nwrap
  have hloop := forRange_copies (s := s) (c := c) (i := -(s.nwrap : Int)) (source := (· + (s.blocksize : Int))) (g := id) hwf hc
    (vs := s.cellValues c (-(s.nwrap : Int) + s.blocksize) s.nwrap)
    (by rw [hlen, State.histRange_iff]; omega) (fun j => by omega) fun k hk => by
      rw [hlen] at hk
      rw [← h.cell_eq hk, Int.add_right_comm]
  rw [hlen, List.map_id] at hloop
  rw [wrapCopy, run_get_bind, run_bind_ok (h.readHist_eq hwf hc (State.histRange_iff.2 (by omega))), Reference.wrapCopy,
    run_get_bind]
  exact hloop.symm

section

variable (hwf : ∀ m ∈ s.hist, m.wf) (hc : c < s.hist.length) (hb : s.blocksize ≤ s.histBlocksize)

include hwf hc hb

/-- R180. -/
theorem shiftBlock_eq (h : s.Holds c 0 s.blocksize) : shiftBlock c s = Reference.shiftBlock c s := by
  rw [shiftBlock, run_get_bind, Reference.shiftBlock, run_get_bind]
  split
  · rfl
  · have hlen := s.cellValues_length c 0 s.blocksize
    have hloop := forRange_copies (s := s) (c := c) (i := 0) (source := id) (g := fun v => shl32 v.toInt s.bitshift) hwf hc
      (vs := s.cellValues c 0 s.blocksize) (by rw [hlen, State.histRange_iff]; omega) (fun _ => le_rfl) fun k hk => by
        rw [hlen] at hk
        exact h.cell_eq hk
    rw [hlen] at hloop
    rw [run_bind_ok (h.readHist_eq hwf hc (State.histRange_iff.2 (by omega)))]
    exact hloop.symm

/-- R164. -/
theorem zeroBlock_eq : writeHist c 0 (List.replicate s.blocksize 0) s = Reference.zeroBlock c s := by
  have hloop := forRange_writes (s := s) (c := c) (i := 0) (vs := List.replicate s.blocksize 0)
    (body := fun i => Reference.writeCell c i 0) hwf hc (by rw [List.length_replicate, State.histRange_iff]; omega)
    fun k v t hk _ => by
      obtain rfl := List.eq_of_mem_replicate (List.mem_of_getElem? hk)
      rfl
  rw [List.length_replicate] at hloop
  rw [Reference.zeroBlock, run_get_bind]
  exact hloop.symm

/-- R178. -/
theorem blockMean_eq (h : s.Holds c 0 s.blocksize) : blockMean c s = Reference.blockMean c s := by
  have hfold := foldRange_cells (s := s) (c := c) (i := 0) (vs := s.cellValues c 0 s.blocksize)
    (g := fun (sum v : Cell) => wrap32 (sum.toInt + v.toInt))
    (acc := if s.version.toNat < 2 then 0 else wrap32 (s.blocksize / 2 : Nat)) hwf fun k hk => by
      rw [s.cellValues_length] at hk
      exact h.cell_eq hk
  rw [s.cellValues_length] at hfold
  rw [blockMean, run_get_bind, run_bind_ok (h.readHist_eq hwf hc (State.histRange_iff.2 (by omega))), Reference.blockMean,
    run_get_bind, run_bind_ok hfold]
  rfl

end

/-- R190: the frame, row by row. -/
theorem interleave_eq_flatten (n : Nat) (blocks : List (List Cell)) :
    interleave n blocks =
      ((List.range n).map fun i => blocks.map fun b => toSample (b.getD i 0).toInt).flatten := by
  induction n generalizing blocks with
  | zero => rfl
  | succ n ih =>
    have hhead (b : List Cell) : b.headD 0 = b.getD 0 0 := by cases b <;> rfl
    have htail (b : List Cell) (i : Nat) : b.tail.getD i 0 = b.getD (i + 1) 0 := by cases b <;> rfl
    simp only [interleave, ih, List.range_succ_eq_map, List.map_cons, List.flatten_cons, List.map_map, Function.comp_def,
      hhead, htail, Nat.succ_eq_add_one]

section

variable (hwf : ∀ m ∈ s.hist, m.wf) (h : ∀ c < s.channels, s.Holds c 0 s.blocksize)

include hwf h

/-- R190: the blocks of the channels, each read as a range. -/
theorem collectBlocks_runs (hc : s.channels ≤ s.hist.length) (hb : s.blocksize ≤ s.histBlocksize) :
    collectRange s.channels 0 (fun c => readHist c.toNat 0 s.blocksize) s =
      .ok ((List.range s.channels).map fun c => s.cellValues c 0 s.blocksize) s := by
  refine collectRange_runs (by simp) fun c block hblock => ?_
  obtain ⟨hcs, rfl⟩ : c < s.channels ∧ s.cellValues c 0 s.blocksize = block := by
    simpa [List.getElem?_eq_some_iff] using hblock
  rw [show (0 + (c : Int)).toNat = c by omega]
  exact (h c hcs).readHist_eq hwf (hcs.trans_le hc) (State.histRange_iff.2 (by omega))

/-- R190: sample `i` of every channel, each read as a cell. -/
theorem collectRow_runs {i : Nat} (hi : i < s.blocksize) :
    collectRange s.channels 0 (fun c => do
        let v ← Reference.readCell c.toNat i
        pure (toSample v.toInt)) s =
      .ok ((List.range s.channels).map fun c => toSample ((s.cellValues c 0 s.blocksize).getD i 0).toInt) s := by
  refine collectRange_runs (by simp) fun c v hv => ?_
  obtain ⟨hcs, rfl⟩ : c < s.channels ∧ toSample ((s.cellValues c 0 s.blocksize).getD i 0).toInt = v := by
    simpa [List.getElem?_eq_some_iff] using hv
  have hcell := (h c hcs).cell_eq hi
  obtain ⟨w, hw⟩ : ∃ w, (s.cellValues c 0 s.blocksize)[i]? = some w :=
    ⟨_, List.getElem?_eq_getElem (by rwa [s.cellValues_length])⟩
  rw [hw, Int.zero_add] at hcell
  rw [show (0 + (c : Int)).toNat = c by omega, run_bind_ok (readCell_runs hwf hcell), List.getD_eq_getElem?_getD, hw]
  rfl

/-- R190. -/
theorem assembleFrame_eq (hc : s.channels ≤ s.hist.length) (hb : s.blocksize ≤ s.histBlocksize) :
    assembleFrame s = Reference.assembleFrame s := by
  have hrows : collectRange s.blocksize 0 (fun i => collectRange s.channels 0 fun c => do
      let v ← Reference.readCell c.toNat i
      pure (toSample v.toInt)) s =
      .ok ((List.range s.blocksize).map fun i =>
        (List.range s.channels).map fun c => toSample ((s.cellValues c 0 s.blocksize).getD i 0).toInt) s := by
    refine collectRange_runs (by simp) fun i row hi => ?_
    obtain ⟨hib, rfl⟩ := by simpa [List.getElem?_eq_some_iff] using hi
    rw [Int.zero_add]
    exact collectRow_runs hwf h hib
  rw [assembleFrame, run_get_bind, run_bind_ok (collectBlocks_runs hwf h hc hb), Reference.assembleFrame, run_get_bind,
    run_bind_ok hrows, run_modify, run_modify, interleave_eq_flatten]
  simp only [List.map_map, Function.comp_def]

end

/-! ### The decode loop -/

/-- What a rule came to, with other histories. -/
def resultWithHist (hist : List Memory) : EStateM.Result Stop State α → EStateM.Result Stop State α
  | .ok a t => .ok a { t with hist := hist }
  | .error e t => .error e { t with hist := hist }

/-- The rule neither reads nor writes the history. -/
def IgnoresHist (m : M α) : Prop :=
  ∀ (s : State) (hist : List Memory), m { s with hist := hist } = resultWithHist hist (m s)

theorem ignoresHist_bind {m : M α} {f : α → M β} (hm : IgnoresHist m) (hf : ∀ a, IgnoresHist (f a)) :
    IgnoresHist (m >>= f) := by
  intro s hist
  rw [run_bind, run_bind, hm s hist]
  rcases m s with ⟨a, t⟩ | ⟨e, t⟩
  · exact hf a t hist
  · rfl

theorem ignoresHist_readUnary : IgnoresHist readUnary := by
  intro s hist
  unfold readUnary
  rw [show State.unread { s with hist := hist } = s.unread from rfl]
  cases takeUnary 0 s.unread <;> rfl

theorem ignoresHist_readBits (n : Nat) : IgnoresHist (readBits n) := by
  intro s hist
  obtain ⟨v, rest, hv, hfits, h⟩ | ⟨hshort, h⟩ := readBits_cases n s <;> rw [h]
  · exact readBits_ok (s := { s with hist := hist }) hv hfits
  · exact readBits_short (s := { s with hist := hist }) hshort

/-- R85. -/
theorem ignoresHist_readUnsigned (k : Int) : IgnoresHist (readUnsigned k) := by
  unfold readUnsigned
  split
  · exact fun _ _ => rfl
  · exact ignoresHist_bind ignoresHist_readUnary fun _ => ignoresHist_bind (ignoresHist_readBits _) fun _ _ _ => rfl

/-- R86. -/
theorem ignoresHist_readSigned (k : Int) : IgnoresHist (readSigned k) :=
  ignoresHist_bind (ignoresHist_readUnsigned _) fun _ _ _ => rfl

section

variable {cv : List Int} {shift : Nat} {initSum sum : Cell} {n : Nat} {recent : List Cell}
  (hsum : sumTaps cv recent initSum = some sum)

include hsum

/-- R170: a sample whose residual is read. -/
theorem predictRun_of_read {r : Int} (hread : readSigned s.residualSize { s with sum := sum } = .ok r t) :
    let x := wrap32 (r + asr sum.toInt shift)
    let run := predictRun cv shift initSum n (x :: recent) t
    predictRun cv shift initSum (n + 1) recent s = ⟨x :: run.samples, run.stop, run.state⟩ := by
  rw [predictRun, hsum]
  dsimp only
  rw [hread]

/-- R170: a residual that is not read. -/
theorem predictRun_of_error {e : Stop} (hread : readSigned s.residualSize { s with sum := sum } = .error e t) :
    predictRun cv shift initSum (n + 1) recent s = ⟨[], some e, t⟩ := by
  rw [predictRun, hsum]
  dsimp only
  rw [hread]

end

/-- R170: a run of the decode loop on lists does not touch the history. -/
theorem predictRun_withHist {cv : List Int} {shift : Nat} {initSum : Cell} (n : Nat) (recent : List Cell) (s : State)
    (hist : List Memory) :
    let run := predictRun cv shift initSum n recent s
    predictRun cv shift initSum n recent { s with hist := hist } =
      ⟨run.samples, run.stop, { run.state with hist := hist }⟩ := by
  induction n generalizing recent s with
  | zero => rfl
  | succ n ih =>
    dsimp only
    unfold predictRun
    rcases sumTaps cv recent initSum with - | sum
    · rfl
    · have hread := ignoresHist_readSigned s.residualSize { s with sum := sum } hist
      dsimp only at hread ⊢
      rw [hread]
      rcases readSigned s.residualSize { s with sum := sum } with ⟨r, t⟩ | ⟨e, t⟩
      · dsimp only [resultWithHist]
        rw [ih]
      · rfl

/-- A rule that stops, or does nothing. -/
def stopWith : Option Stop → M Unit
  | none => pure ()
  | some e => throw e

/-- What `predict` does with a run: the samples are written, and a stop is thrown. -/
def endRun (c : Nat) (i : Int) (run : PredictRun) : M Unit := do
  writeHist c i run.samples
  stopWith run.stop

theorem HistWrite.endRun_eq {run : PredictRun} (h : HistWrite s t c i run.samples) :
    endRun c i run s = stopWith run.stop t := run_bind_ok h.writeHist_eq

theorem predict_eq_endRun {cv : List Int} {context : List Cell}
    (h : readHist c (-(cv.length : Int)) cv.length s = .ok context s) (shift : Nat) (initSum : Cell) :
    let run := predictRun cv shift initSum s.blocksize context.reverse s
    predict c cv shift initSum s = endRun c 0 run run.state := by
  dsimp only
  rw [predict, run_get_bind, run_bind_ok h, run_set_bind]
  rfl

/-- `recent` holds the cells before index `i`, the newest first. -/
def State.HoldsBefore (s : State) (c : Nat) (i : Int) (recent : List Cell) : Prop :=
  ∀ (k : Nat) (v : Cell), recent[k]? = some v → s.histCell c (i - k - 1) = some v

theorem State.HoldsBefore.sameHist {recent : List Cell} (h : s.HoldsBefore c i recent) (hst : SameHist s t) :
    t.HoldsBefore c i recent := fun k v hk => hst.histCell.trans (h k v hk)

theorem State.HoldsBefore.write {recent : List Cell} {x : Cell} (h : s.HoldsBefore c i recent) (hw : HistWrite s t c i [x]) :
    t.HoldsBefore c (i + 1) (x :: recent) := by
  intro k v hk
  rw [hw.cell, List.length_singleton]
  cases k with
  | zero => rwa [if_pos (by omega), show (i + 1 - (0 : Nat) - 1 - i).toNat = 0 by omega, List.getElem?_cons_zero]
  | succ k =>
    rw [if_neg (by omega), show i + 1 - (k + 1 : Nat) - 1 = i - k - 1 by omega]
    exact h k v hk

/-- R170, the inner loop. -/
theorem reference_sumTaps_runs {cv : List Int} {recent : List Cell} {j : Nat} {sum v : Cell} (hwf : ∀ m ∈ s.hist, m.wf)
    (hrecent : s.HoldsBefore c (i - j) recent) (h : sumTaps cv recent sum = some v) :
    Reference.sumTaps c i cv j sum s = .ok v s := by
  induction cv generalizing recent j sum with
  | nil =>
    cases h
    rfl
  | cons a cv ih =>
    cases recent with
    | nil => cases h
    | cons x recent =>
      have hx : s.histCell c (i - j - 1) = some x := by simpa using hrecent 0 x rfl
      rw [Reference.sumTaps, run_bind_ok (readCell_runs hwf hx)]
      refine ih (fun k w hk => ?_) h
      have := hrecent (k + 1) w hk
      push_cast at this ⊢
      rwa [show i - (j + 1) - (k : Int) - 1 = i - j - (k + 1) - 1 by omega]

/-- The body of the outer loop of R170 in Machine/Reference.lean. -/
def referenceSample (c : Nat) (cv : List Int) (shift : Nat) (initSum : Cell) (i : Int) : M Unit := do
  let sum ← Reference.sumTaps c i cv 0 initSum
  modify fun s => { s with sum := sum }
  let s ← get
  let r ← readSigned s.residualSize
  Reference.writeCell c i (wrap32 (r + asr sum.toInt shift))

theorem reference_predict_eq (c : Nat) (cv : List Int) (shift : Nat) (initSum : Cell) (s : State) :
    Reference.predict c cv shift initSum s = forRange s.blocksize 0 (referenceSample c cv shift initSum) s := rfl

theorem predictRun_sameHist (cv : List Int) (shift : Nat) (initSum : Cell) (n : Nat) (recent : List Cell) (s : State) :
    SameHist s (predictRun cv shift initSum n recent s).state := by
  obtain ⟨-, -, k, sum, hstate, -⟩ := predictRun_spec (cv := cv) (shift := shift) (initSum := initSum) n recent s
  rw [hstate]
  exact ⟨rfl, rfl, rfl⟩

/-- A write before the samples of a run is one with theirs. -/
theorem endRun_after_write {cv : List Int} {shift : Nat} {initSum : Cell} {n : Nat} {recent : List Cell} {x : Cell}
    (hwf : ∀ m ∈ s.hist, m.wf) (hc : c < s.hist.length) (hr : s.histRange i (n + 1) = true) (hw : HistWrite s t c i [x]) :
    let after := predictRun cv shift initSum n recent t
    let run := predictRun cv shift initSum n recent s
    endRun c (i + 1) after after.state = endRun c i ⟨x :: run.samples, run.stop, run.state⟩ run.state := by
  dsimp only
  have hlen := (predictRun_spec (cv := cv) (shift := shift) (initSum := initSum) n recent s).1
  have hsame := predictRun_sameHist cv shift initSum n recent s
  rw [hw.rest, predictRun_withHist]
  generalize predictRun cv shift initSum n recent s = run at hlen hsame
  obtain ⟨hlo, hhi⟩ := State.histRange_iff.1 hr
  have hfirst : HistWrite run.state { run.state with hist := t.hist } c i [x] := hw.transport hsame
  obtain ⟨u, -, hwu⟩ := writeHist_runs (s := { run.state with hist := t.hist }) (c := c) (i := i + 1) (vs := run.samples)
    (hw.length.symm ▸ hc) (by rw [State.histRange_iff]; dsimp only; rw [hsame.nwrap, hsame.histBlocksize]; omega)
  have hboth := hfirst.append (by rw [hsame.hist]; exact hwf) hwu
  exact hwu.endRun_eq.trans (HistWrite.endRun_eq (run := ⟨x :: run.samples, run.stop, run.state⟩) hboth).symm

/-- R170: from sample `i` on the pseudocode writes the samples of the run on lists and stops as it does. -/
theorem reference_loop_eq {cv : List Int} {shift : Nat} {initSum : Cell} (n : Nat) {recent : List Cell}
    (hcv : cv.length ≤ recent.length) (hrecent : s.HoldsBefore c i recent) (hwf : ∀ m ∈ s.hist, m.wf)
    (hc : c < s.hist.length) (hr : s.histRange i n = true) :
    let run := predictRun cv shift initSum n recent s
    forRange n i (referenceSample c cv shift initSum) s = endRun c i run run.state := by
  induction n generalizing s i recent with
  | zero => exact (HistWrite.endRun_eq (run := ⟨[], none, s⟩) (.nil hwf hc hr)).symm
  | succ n ih =>
    dsimp only
    obtain ⟨hlo, hhi⟩ := State.histRange_iff.1 hr
    obtain ⟨sum, hsum⟩ := sumTaps_isSome initSum hcv
    have htaps : Reference.sumTaps c i cv 0 initSum s = .ok sum s :=
      reference_sumTaps_runs hwf (by rwa [Nat.cast_zero, Int.sub_zero]) hsum
    have hsame : SameHist s (finalState (readSigned s.residualSize { s with sum := sum })) :=
      have := (keeps_readSigned s.residualSize { s with sum := sum }).sameHist
      ⟨this.hist, this.nwrap, this.histBlocksize⟩
    rcases hread : readSigned s.residualSize { s with sum := sum } with ⟨r, t⟩ | ⟨e, t⟩ <;> rw [hread] at hsame <;>
      dsimp only [finalState] at hsame
    · rw [← hsame.hist] at hwf hc
      rw [← hsame.histRange] at hr
      obtain ⟨u, hwrite, hw⟩ := writeHist_runs (s := t) (i := i) (vs := [wrap32 (r + asr sum.toInt shift)]) hc
        (by rw [hsame.histRange, List.length_singleton, State.histRange_iff]; omega)
      have hbody : referenceSample c cv shift initSum i s = .ok () u := by
        rw [referenceSample, run_bind_ok htaps, run_modify_bind, run_get_bind, run_bind_ok hread]
        exact hwrite
      have hrange : u.histRange (i + 1) n = true := by
        rw [hw.rest, State.histRange_iff]
        dsimp only
        rw [hsame.nwrap, hsame.histBlocksize]
        omega
      rw [predictRun_of_read hsum hread, forRange, run_bind_ok hbody,
        ih (by rw [List.length_cons]; omega) ((hrecent.sameHist hsame).write hw) (hw.wf hwf) (hw.length.symm ▸ hc) hrange]
      exact endRun_after_write hwf hc hr hw
    · have hbody : referenceSample c cv shift initSum i s = .error e t := by
        rw [referenceSample, run_bind_ok htaps, run_modify_bind, run_get_bind, run_bind_error hread]
      have hnil : HistWrite t t c i [] := .nil (hsame.hist.symm ▸ hwf) (hsame.hist.symm ▸ hc)
        (by rw [hsame.histRange, State.histRange_iff]; omega)
      rw [predictRun_of_error hsum hread, forRange, run_bind_error hbody]
      exact (HistWrite.endRun_eq (run := ⟨[], some e, t⟩) hnil).symm

/-- R170. -/
theorem predict_eq {cv : List Int} {shift : Nat} {initSum : Cell} (hwf : ∀ m ∈ s.hist, m.wf) (hc : c < s.hist.length)
    (hcv : cv.length ≤ s.nwrap) (hb : s.blocksize ≤ s.histBlocksize) (h : s.Holds c (-(cv.length : Int)) cv.length) :
    predict c cv shift initSum s = Reference.predict c cv shift initSum s := by
  have hread := h.readHist_eq hwf hc (State.histRange_iff.2 (by omega))
  have hlen := s.cellValues_length c (-(cv.length : Int)) cv.length
  have hrecent : s.HoldsBefore c 0 (s.cellValues c (-(cv.length : Int)) cv.length).reverse := by
    intro k v hk
    have hkl : k < cv.length := by simpa using (List.getElem?_eq_some_iff.1 hk).1
    rw [List.getElem?_reverse (by omega), hlen] at hk
    rw [show (0 : Int) - k - 1 = -(cv.length : Int) + (cv.length - 1 - k : Nat) by omega, h.cell_eq (by omega), hk]
  rw [predict_eq_endRun hread, reference_predict_eq]
  exact (reference_loop_eq s.blocksize (by simp) hrecent hwf hc (State.histRange_iff.2 (by omega))).symm

end Sys2Proof.Machine

namespace Sys2Proof

open Machine

/-- Settles O30: the taps before the block are held, and from there sample by sample. -/
theorem predictMatchesPseudocode : Obligations.PredictMatchesPseudocode := fun _ _ _ _ _ hwf hc hcv hb hwrap =>
  predict_eq hwf.1 hc hcv hb fun _ _ => hwrap _ (by omega) (by omega)

/-- Settles O31: the sources lie between the wrap region's start and the block's end. -/
theorem wrapCopyMatchesPseudocode : Obligations.WrapCopyMatchesPseudocode := fun _ _ hwf hc _ hb hheld =>
  wrapCopy_eq hwf.1 hc hb fun _ _ => hheld _ (by omega) (by omega)

/-- Settles O32: each block operation by its own loop. -/
theorem blockLoopsMatchPseudocode : Obligations.BlockLoopsMatchPseudocode := by
  intro s hwf hchannels hb _ hheld
  have hblock (c : Nat) (hc : c < s.channels) : s.Holds c 0 s.blocksize := fun k hk => hheld c hc _ (by omega) (by omega)
  refine ⟨fun c hc => ⟨?_, ?_, ?_⟩, assembleFrame_eq hwf.1 hblock hchannels hb⟩
  · exact blockMean_eq hwf.1 (hc.trans_le hchannels) hb (hblock c hc)
  · exact shiftBlock_eq hwf.1 (hc.trans_le hchannels) hb (hblock c hc)
  · exact zeroBlock_eq hwf.1 (hc.trans_le hchannels) hb

end Sys2Proof
end

section
/-! PROOFS. What the audio commands leave (44_audio_commands.md R160 to R181). An audio command is cut at two places: `State.atBody`,
where its body begins, and `BodyFrame`, what the body has left alone where the post-processing begins (`BodyFrame.postProcess`). In
between stand the decode loop on the codes of the residuals (`predict_decodes`), and for QLPC the way from the order field to the
decode loop (`qlpcBody_ready`), which a negative Rice parameter stops at the first residual. -/

namespace Sys2Proof.Machine

variable {s t u v : State} {c n : Nat} {i : Int} {rest : Bits} {wrap means block vs : List Cell} {energy : Adaptive}
  {body : Nat → M Unit}

/-! ### Cells after a write -/

/-- What was written. -/
theorem HistWrite.histCells (h : HistWrite s t c i vs) : t.histCells c i vs.length = vs.map some :=
  State.histCells_iff.2 ⟨rfl, fun k hk => by
    rw [h.cell, if_pos ⟨rfl, by omega, by omega⟩, show (i + k - i).toNat = k by omega]⟩

/-- What lies before what was written. -/
theorem HistWrite.histCells_before {j : Int} (h : HistWrite s t c i vs) (hj : j + n ≤ i) :
    t.histCells c j n = s.histCells c j n :=
  List.map_congr_left fun k hk => by
    have := List.mem_range.1 hk
    rw [h.cell, if_neg (by omega)]

theorem SameHist.histCells (h : SameHist s t) : t.histCells c i n = s.histCells c i n :=
  List.map_congr_left fun _ _ => h.histCell

/-- The last `n` cells of the wrap region. -/
theorem State.histCells_drop (h : s.histCells c (-(s.nwrap : Int)) s.nwrap = wrap.map some) (hn : n ≤ s.nwrap) :
    s.histCells c (-(n : Int)) n = (wrap.drop (s.nwrap - n)).map some := by
  obtain ⟨hlen, hcell⟩ := State.histCells_iff.1 h
  refine State.histCells_iff.2 ⟨by rw [List.length_drop]; omega, fun k hk => ?_⟩
  rw [List.getElem?_drop, ← hcell _ (by omega)]
  congr 1
  omega

/-- The wrap region after its last cells were overwritten. -/
theorem HistWrite.histCells_wrap (h : HistWrite s t c (-(n : Int)) vs) (hvs : vs.length = n) (hn : n ≤ s.nwrap)
    (hw : s.histCells c (-(s.nwrap : Int)) s.nwrap = wrap.map some) :
    t.histCells c (-(s.nwrap : Int)) s.nwrap = (wrap.take (s.nwrap - n) ++ vs).map some := by
  obtain ⟨hlen, hcell⟩ := State.histCells_iff.1 hw
  have htake : (wrap.take (s.nwrap - n)).length = s.nwrap - n := by rw [List.length_take]; omega
  refine State.histCells_iff.2 ⟨by rw [List.length_append, htake]; omega, fun k hk => ?_⟩
  rw [h.cell]
  by_cases hin : s.nwrap - n ≤ k
  · rw [if_pos ⟨rfl, by omega, by omega⟩, List.getElem?_append_right (by omega)]
    congr 1
    omega
  · rw [if_neg (by omega), List.getElem?_append_left (by omega), List.getElem?_take_of_lt (by omega), hcell k hk]

/-! ### The start of the body -/

/-- Where the body of an audio command begins: `n` bits further, with `residual_size` and `coffset` written (R161 to R163). -/
def State.atBody (s : State) (n : Nat) (residualSize : Int) (coffset : Cell) : State :=
  { s.advance n with residualSize := residualSize, coffset := coffset }

@[simp] theorem State.atBody_pos (s : State) (n : Nat) (residualSize : Int) (coffset : Cell) :
    (s.atBody n residualSize coffset).pos = s.pos + n := rfl

/-- R160, steps 1 and 2. -/
theorem audioCommand_eq (hm : s.meanCells s.currentChannel = means.map some)
    (hu : s.unread = encEnergy s.version energy ++ rest) :
    let start := s.atBody (encEnergy s.version energy).length (residualSizeOf s.version energy.value) (offsetValue s means)
    audioCommand body s = (body s.currentChannel >>= fun _ => postProcess s.currentChannel) start ∧ start.unread = rest := by
  dsimp only
  obtain ⟨t, hread, hpos, -, k, rfl⟩ := (reads_readResidualSize energy).whole s rest ⟨0, rfl⟩ hu
  obtain rfl : k = (encEnergy s.version energy).length := Nat.add_left_cancel hpos
  have hoff := computeCoffset_runs (s := { s.advance (encEnergy s.version energy).length with
    residualSize := residualSizeOf s.version energy.value }) (c := s.currentChannel) hm
  refine ⟨?_, State.unread_behind hu hpos rfl⟩
  rw [audioCommand, run_get_bind, run_bind_ok hread, run_bind_ok hoff]
  rfl

/-- R160 for ZERO. -/
theorem zeroCommand_eq (hm : s.meanCells s.currentChannel = means.map some) :
    zeroCommand body s =
      (body s.currentChannel >>= fun _ => postProcess s.currentChannel)
        (s.atBody 0 s.residualSize (offsetValue s means)) := by
  rw [zeroCommand, run_get_bind, run_bind_ok (computeCoffset_runs hm)]
  rfl

/-! ### The end of the body -/

/-- From `s` to `t`, inside an audio command: nothing has changed but the cursor, the working registers, the coefficient file and
cells of the current channel's history before the end of the block. -/
structure BodyFrame (s t : State) : Prop where
  rest : t = { s with
    pos := t.pos, residualSize := t.residualSize, coffset := t.coffset, order := t.order, shift := t.shift
    initSum := t.initSum, sum := t.sum, coef := t.coef, hist := t.hist }
  histWf : ∀ m ∈ t.hist, m.wf
  histLength : t.hist.length = s.hist.length
  otherHist : ∀ d, d ≠ s.currentChannel → t.hist[d]? = s.hist[d]?
  beyond : ∀ i : Int, s.blocksize ≤ i → t.histCell s.currentChannel i = s.histCell s.currentChannel i

/-- The cursor, the working registers and the coefficient file may change. -/
theorem BodyFrame.working (h : BodyFrame s t)
    (hu : u = { t with
      pos := u.pos, residualSize := u.residualSize, coffset := u.coffset, order := u.order, shift := u.shift
      initSum := u.initSum, sum := u.sum, coef := u.coef }) : BodyFrame s u := by
  have hhist : SameHist t u := by rw [hu]; exact ⟨rfl, rfl, rfl⟩
  refine ⟨by rw [hu, h.rest], ?_, ?_, ?_, fun i hi => hhist.histCell.trans (h.beyond i hi)⟩ <;> rw [hhist.hist]
  · exact h.histWf
  · exact h.histLength
  · exact h.otherHist

theorem BodyFrame.histWrite (h : BodyFrame s t) (hw : HistWrite t u s.currentChannel i vs)
    (hend : i + vs.length ≤ s.blocksize) : BodyFrame s u where
  rest := by rw [hw.rest, h.rest]
  histWf := hw.wf h.histWf
  histLength := hw.length.trans h.histLength
  otherHist := fun d hd => (hw.other hd).trans (h.otherHist d hd)
  beyond := fun j hj => by rw [hw.cell, if_neg (by omega), h.beyond j hj]

theorem BodyFrame.refl (hwf : s.MemoriesWf) : BodyFrame s s :=
  ⟨rfl, hwf.1, rfl, fun _ _ => rfl, fun _ _ => rfl⟩

theorem BodyFrame.atBody (hwf : s.MemoriesWf) (n : Nat) (k : Int) (off : Cell) : BodyFrame s (s.atBody n k off) :=
  (BodyFrame.refl hwf).working rfl

theorem BodyFrame.same (h : BodyFrame s t) : s.SameStream t := by
  rw [h.rest]
  constructor <;> rfl

/-- R160, steps 4 to 7, behind a body that decoded `block` and left `wrap` before it. -/
theorem BodyFrame.postProcess (h : BodyFrame s t) (hrun : s.RunInv)
    (hw : t.histCells s.currentChannel (-(s.nwrap : Int)) s.nwrap = wrap.map some)
    (hb : t.histCells s.currentChannel 0 s.blocksize = block.map some)
    (hm : s.meanCells s.currentChannel = means.map some) :
    ∃ u, Machine.postProcess s.currentChannel t = .ok () u ∧ AudioDone s u wrap block ∧ SameWork t u := by
  have same := h.same
  have hcur : t.currentChannel = s.currentChannel := by rw [h.rest]
  have hmean : t.mean = s.mean := by rw [h.rest]
  rw [← same.nwrap, ← hcur] at hw
  rw [← same.blocksize, ← hcur] at hb
  have hmt : t.meanCells t.currentChannel = means.map some := by
    rw [hcur, ← hm, State.meanCells, State.meanCells, same.nmean]
    exact List.map_congr_left fun _ _ => State.meanCell_congr (by rw [hmean]) same.nmean
  obtain ⟨u, hpost, hdone, hwork⟩ := postProcess_runs h.histWf (by rw [hcur, same.channels]; exact hrun.currentChannel_lt)
    (by rw [h.histLength, same.channels]; exact hrun.hist_length) (by rw [hmean, same.channels]; exact hrun.mean_length)
    (by rw [same.blocksize, same.histBlocksize]; exact hrun.blocksize_le) hw hb hmt fun d hd j h0 hj => by
      rw [hcur] at hd
      rw [State.histCell_congr (h.otherHist d (Nat.ne_of_lt hd)) same.nwrap same.histBlocksize]
      exact hrun.block_held d hd j h0 (same.blocksize ▸ hj)
  rw [hcur] at hpost
  exact ⟨u, hpost, hdone.transport same hcur (by rw [h.rest]) (by rw [h.rest]) h.otherHist hmean h.beyond, hwork⟩

/-- A body that runs, and the post-processing after it. -/
theorem perform_of_body {m b : M Unit} (hm : m s = (b >>= fun _ => postProcess c) t) (hbody : b t = .ok () u)
    (hpost : postProcess c u = .ok () v) : perform m s = .next v :=
  perform_ok (hm.trans ((run_bind_ok hbody).trans hpost))

/-- A body that raises. -/
theorem perform_of_body_raise {m b : M Unit} {cause : Cause} (hm : m s = (b >>= fun _ => postProcess c) t)
    (hbody : b t = .error (.raise cause) u) : perform m s = .next (u.raise cause) :=
  perform_raise (hm.trans (run_bind_error hbody))

/-! ### The decode loop -/

section

variable {cv residuals : List Int} (shift : Nat) (initSum : Cell)

/-- R170: on the codes of the residuals the run gives the samples and does not stop. -/
theorem predictRun_residuals {recent : List Cell} (hcv : cv.length ≤ recent.length)
    (hk : 0 ≤ t.residualSize + Config.srKBias) (hu : t.unread = residuals.flatMap (encS t.residualSize) ++ rest) :
    ∃ sum, predictRun cv shift initSum residuals.length recent t =
      ⟨samplesOf cv shift initSum recent residuals, none,
        { t.advance (residuals.flatMap (encS t.residualSize)).length with sum := sum }⟩ := by
  induction residuals generalizing recent t with
  | nil => exact ⟨t.sum, rfl⟩
  | cons r residuals ih =>
    obtain ⟨sum, hsum⟩ := sumTaps_isSome initSum hcv
    rw [List.flatMap_cons, List.append_assoc] at hu
    obtain ⟨hread, hrest⟩ := (reads_readSigned exists_advance_advance hk).eq_advance (s := { t with sum := sum }) hu
    obtain ⟨last, hrun⟩ := ih (t := State.advance { t with sum := sum } (encS t.residualSize r).length)
      (recent := wrap32 (r + asr sum.toInt shift) :: recent) (by rw [List.length_cons]; omega) hk hrest
    refine ⟨last, ?_⟩
    rw [List.length_cons, predictRun_of_read hsum hread, hrun, samplesOf, hsum, List.flatMap_cons, List.length_append]
    simp only [State.advance, Nat.add_assoc]

variable (hwf : ∀ m ∈ t.hist, m.wf) (hc : c < t.hist.length) (hb : t.blocksize ≤ t.histBlocksize) (hcv : cv.length ≤ t.nwrap)
  (hw : t.histCells c (-(t.nwrap : Int)) t.nwrap = wrap.map some)

include hwf hc hb hcv hw

/-- R170: on the codes of the residuals the loop writes the samples. -/
theorem predict_decodes (hk : 0 ≤ t.residualSize + Config.srKBias) (hlen : residuals.length = t.blocksize)
    (hu : t.unread = residuals.flatMap (encS t.residualSize) ++ rest) :
    ∃ sum u, predict c cv shift initSum t = .ok () u ∧
      HistWrite { t.advance (residuals.flatMap (encS t.residualSize)).length with sum := sum } u c 0
        (samplesOf cv shift initSum wrap.reverse residuals) := by
  have hwl := (State.histCells_iff.1 hw).1
  have hrecent : cv.length ≤ (wrap.drop (t.nwrap - cv.length)).reverse.length := by
    rw [List.length_reverse, List.length_drop]
    omega
  obtain ⟨u, hwrite, hpredict⟩ := predict_runs (shift := shift) (initSum := initSum) hwf hc hb hcv hw
  obtain ⟨sum, hrun⟩ := predictRun_residuals shift initSum hrecent hk hu
  rw [← hlen, hrun] at hwrite hpredict
  have hsplit : wrap.reverse = (wrap.drop (t.nwrap - cv.length)).reverse ++ (wrap.take (t.nwrap - cv.length)).reverse := by
    rw [← List.reverse_append, List.take_append_drop]
  rw [hsplit, samplesOf_append _ hrecent]
  exact ⟨sum, u, hpredict, hwrite⟩

/-- R85, R170: a negative Rice parameter raises at the first residual, before any sample is written. -/
theorem predict_raises (hk : t.residualSize + Config.srKBias < 0) (hpos : 0 < t.blocksize) :
    ∃ sum, predict c cv shift initSum t = .error (.raise .negativeRiceParameter) { t with sum := sum } := by
  have hwl := (State.histCells_iff.1 hw).1
  obtain ⟨u, hwrite, hpredict⟩ := predict_runs (shift := shift) (initSum := initSum) hwf hc hb hcv hw
  obtain ⟨sum, hsum⟩ := sumTaps_isSome (cv := cv) (recent := (wrap.drop (t.nwrap - cv.length)).reverse) initSum
    (by rw [List.length_reverse, List.length_drop]; omega)
  have hread : readSigned t.residualSize { t with sum := sum } =
      .error (.raise .negativeRiceParameter) { t with sum := sum } := by
    rw [readSigned, readUnsigned, if_pos hk]
    rfl
  have hrun (n : Nat) (hn : 0 < n) : predictRun cv shift initSum n (wrap.drop (t.nwrap - cv.length)).reverse t =
      ⟨[], some (.raise .negativeRiceParameter), { t with sum := sum }⟩ := by
    cases n with
    | zero => omega
    | succ n => exact predictRun_of_error hsum hread
  rw [hrun _ hpos] at hwrite hpredict
  have hnil : HistWrite { t with sum := sum } { t with sum := sum } c 0 [] := .nil hwf hc (State.histRange_iff.2 (by omega))
  exact ⟨sum, hpredict.trans (congrArg _ (hwrite.unique hnil))⟩

end

/-- From `t` to `u` the decode loop ran over `n` bits: of the other registers it writes `sum` alone (log 36). -/
structure RanOver (n : Nat) (t u : State) : Prop where
  pos : u.pos = t.pos + n
  residualSize : u.residualSize = t.residualSize
  coffset : u.coffset = t.coffset
  order : u.order = t.order
  shift : u.shift = t.shift
  initSum : u.initSum = t.initSum
  coef : u.coef = t.coef

/-- R170: the decode loop inside a command, on the codes of the residuals. -/
theorem BodyFrame.predict (h : BodyFrame s t) (hrun : s.RunInv) {cv residuals : List Int} (shift : Nat) (initSum : Cell)
    (hcv : cv.length ≤ s.nwrap) (hw : t.histCells s.currentChannel (-(s.nwrap : Int)) s.nwrap = wrap.map some)
    (hk : 0 ≤ t.residualSize + Config.srKBias) (hlen : residuals.length = s.blocksize)
    (hu : t.unread = residuals.flatMap (encS t.residualSize) ++ rest) :
    ∃ u, Machine.predict s.currentChannel cv shift initSum t = .ok () u ∧ BodyFrame s u ∧
      RanOver (residuals.flatMap (encS t.residualSize)).length t u ∧
      u.histCells s.currentChannel (-(s.nwrap : Int)) s.nwrap = wrap.map some ∧
      u.histCells s.currentChannel 0 s.blocksize = (samplesOf cv shift initSum wrap.reverse residuals).map some := by
  have same := h.same
  rw [← same.nwrap] at hw hcv
  obtain ⟨sum, u, hrunp, hwrite⟩ := predict_decodes shift initSum h.histWf (h.histLength.symm ▸ hrun.channel_hist)
    (by rw [same.blocksize, same.histBlocksize]; exact hrun.blocksize_le) hcv hw hk (by rw [hlen, same.blocksize]) hu
  have hsamples : (samplesOf cv shift initSum wrap.reverse residuals).length = s.blocksize := by
    rw [samplesOf_length (by rw [List.length_reverse, (State.histCells_iff.1 hw).1]; exact hcv), hlen]
  have hsame : SameHist t { t.advance (residuals.flatMap (encS t.residualSize)).length with sum := sum } := ⟨rfl, rfl, rfl⟩
  refine ⟨u, hrunp, (h.working rfl).histWrite hwrite (by omega), ?_, ?_, hsamples ▸ hwrite.histCells⟩
  · rw [hwrite.rest]
    exact ⟨rfl, rfl, rfl, rfl, rfl, rfl, rfl⟩
  · rw [← same.nwrap, hwrite.histCells_before (by omega), hsame.histCells, hw]

/-- R85, R170: the decode loop inside a command, with a negative Rice parameter. -/
theorem BodyFrame.predict_raises (h : BodyFrame s t) (hrun : s.RunInv) {cv : List Int} (shift : Nat) (initSum : Cell)
    (hcv : cv.length ≤ s.nwrap) (hw : t.histCells s.currentChannel (-(s.nwrap : Int)) s.nwrap = wrap.map some)
    (hk : t.residualSize + Config.srKBias < 0) :
    ∃ u, Machine.predict s.currentChannel cv shift initSum t = .error (.raise .negativeRiceParameter) u ∧
      BodyFrame s u ∧ RanOver 0 t u ∧ u.hist = t.hist := by
  have same := h.same
  rw [← same.nwrap] at hw hcv
  obtain ⟨sum, hraise⟩ := Machine.predict_raises shift initSum h.histWf (h.histLength.symm ▸ hrun.channel_hist)
    (by rw [same.blocksize, same.histBlocksize]; exact hrun.blocksize_le) hcv hw hk
    (by rw [same.blocksize]; exact hrun.blocksize_pos)
  exact ⟨_, hraise, h.working rfl, ⟨rfl, rfl, rfl, rfl, rfl, rfl, rfl⟩, rfl⟩

end Sys2Proof.Machine
end

section
/-! PROOFS. DIFF0 to DIFF3 and ZERO (44_audio_commands.md R164 to R169): from the start of the body to the end of the
post-processing. -/

namespace Sys2Proof.Machine

/-- R165 to R169: the four commands with their coefficient vectors and start values, where the offset is `off`. -/
def diffCommands (off : Cell) : List (Instr × List Int × Cell) :=
  [(.diff0, [], off), (.diff1, [1], 0), (.diff2, [2, -1], 0), (.diff3, [3, -3, 1], 0)]

variable {s : State} {rest : Bits} {wrap means : List Cell} {p : Instr × List Int × Cell} {off : Cell}

/-- R165 to R169: the body of a DIFF command is the decode loop with the command's vector and start value. -/
theorem exec_diff (hp : p ∈ diffCommands off) :
    p.2.1.length ≤ Config.nwrapMin ∧ ∃ body, exec p.1 = perform (audioCommand body) ∧
      ∀ c t, t.coffset = off → body c t = predict c p.2.1 0 p.2.2 t := by
  simp only [diffCommands, List.mem_cons, List.not_mem_nil, or_false] at hp
  obtain rfl | rfl | rfl | rfl := hp
  · refine ⟨Nat.zero_le _, fun c => get >>= fun s => predict c (fixedCoefs 0) 0 s.coffset, rfl, fun c t ht => ?_⟩
    rw [← ht]
    exact run_get_bind _ t
  · exact ⟨by decide, fun c => predict c (fixedCoefs 1) 0 0, rfl, fun _ _ _ => rfl⟩
  · exact ⟨by decide, fun c => predict c (fixedCoefs 2) 0 0, rfl, fun _ _ _ => rfl⟩
  · exact ⟨by decide, fun c => predict c (fixedCoefs 3) 0 0, rfl, fun _ _ _ => rfl⟩

variable (hrun : s.RunInv) (hwf : s.MemoriesWf) (hm : s.meanCells s.currentChannel = means.map some)

include hrun hwf hm

/-- R165 to R169. -/
theorem diff_decodes {f : DiffFields} (hf : f.wf s.version s.blocksize = true) (hu : s.unread = encDiff s.version f ++ rest)
    (hw : s.histCells s.currentChannel (-(s.nwrap : Int)) s.nwrap = wrap.map some)
    (hp : p ∈ diffCommands (offsetValue s means)) :
    ∃ t, exec p.1 s = .next t ∧ AudioDone s t wrap (samplesOf p.2.1 0 p.2.2 wrap.reverse f.residuals) ∧
      t.pos = s.pos + (encDiff s.version f).length ∧ t.residualSize = residualSizeOf s.version f.energy.value ∧
      t.coffset = offsetValue s means ∧ t.coef = s.coef ∧ t.order = s.order ∧ t.shift = s.shift ∧ t.initSum = s.initSum := by
  obtain ⟨hlen, hk⟩ := Bool.and_eq_true_iff.1 hf
  obtain ⟨hcv, body, hexec, hbody⟩ := exec_diff hp
  rw [encDiff, List.append_assoc] at hu
  obtain ⟨hcommand, hunread⟩ := audioCommand_eq (body := body) hm hu
  obtain ⟨u, hpredict, hframe, hran, hwrap, hblock⟩ := (BodyFrame.atBody hwf (encEnergy s.version f.energy).length
    (residualSizeOf s.version f.energy.value) (offsetValue s means)).predict hrun 0 p.2.2
    (hcv.trans hrun.nwrap_ge) hw (of_decide_eq_true hk) (eq_of_beq hlen) hunread
  obtain ⟨t, hpost, hdone, hwork⟩ := hframe.postProcess hrun hwrap hblock hm
  rw [hexec]
  refine ⟨t, perform_of_body hcommand ((hbody _ _ rfl).trans hpredict) hpost, hdone, ?_,
    hwork.residualSize.trans hran.residualSize, hwork.coffset.trans hran.coffset, hwork.coef.trans hran.coef,
    hwork.order.trans hran.order, hwork.shift.trans hran.shift, hwork.initSum.trans hran.initSum⟩
  rw [hwork.pos, hran.pos, State.atBody_pos, Nat.add_assoc, ← List.length_append]
  rfl

omit hrun hwf in
/-- R164: ZERO writes its block where the body begins. -/
theorem zeroRule_eq : zeroRule s = (writeHist s.currentChannel 0 (List.replicate s.blocksize 0) >>= fun _ =>
    postProcess s.currentChannel) (s.atBody 0 s.residualSize (offsetValue s means)) := zeroCommand_eq hm

/-- R164. -/
theorem zero_decodes (hw : s.histCells s.currentChannel (-(s.nwrap : Int)) s.nwrap = wrap.map some) :
    ∃ t, exec .zero s = .next t ∧ AudioDone s t wrap (List.replicate s.blocksize 0) ∧
      SameWork (s.atBody 0 s.residualSize (offsetValue s means)) t := by
  have hzeros : (List.replicate s.blocksize (0 : Cell)).length = s.blocksize := List.length_replicate
  obtain ⟨u, hrunz, hwrite⟩ := writeHist_runs (s := s.atBody 0 s.residualSize (offsetValue s means)) (c := s.currentChannel)
    (i := 0) (vs := List.replicate s.blocksize 0) hrun.channel_hist
    (State.histRange_iff.2 ⟨by omega, by rw [hzeros, Int.zero_add]; exact Int.ofNat_le.2 hrun.blocksize_le⟩)
  have hframe : BodyFrame s u := (BodyFrame.atBody hwf 0 _ _).histWrite hwrite (by omega)
  obtain ⟨t, hpost, hdone, hwork⟩ := hframe.postProcess hrun ((hwrite.histCells_before (by omega)).trans hw)
    (hzeros ▸ hwrite.histCells) hm
  refine ⟨t, perform_of_body (zeroRule_eq hm) hrunz hpost, hdone, ?_⟩
  rw [hwrite.rest] at hwork
  exact { hwork with }

/-- R85, R162: a DIFF command with a negative Rice parameter. -/
theorem diff_raises {energy : Adaptive} (hu : s.unread = encEnergy s.version energy ++ rest)
    (hneg : residualSizeOf s.version energy.value + Config.srKBias < 0) (hp : p ∈ diffCommands (offsetValue s means)) :
    ∃ t : State, exec p.1 s = .next (t.raise .negativeRiceParameter) ∧ BodyFrame s t ∧ t.hist = s.hist ∧
      t.pos = s.pos + (encEnergy s.version energy).length ∧ t.residualSize = residualSizeOf s.version energy.value := by
  obtain ⟨hcv, body, hexec, hbody⟩ := exec_diff hp
  obtain ⟨wrap, hw⟩ := hrun.holds_wrap.histCells
  obtain ⟨t, hpredict, hframe, hran, hhist⟩ := (BodyFrame.atBody hwf (encEnergy s.version energy).length
    (residualSizeOf s.version energy.value) (offsetValue s means)).predict_raises hrun 0 p.2.2 (hcv.trans hrun.nwrap_ge) hw hneg
  rw [hexec]
  exact ⟨t, perform_of_body_raise (audioCommand_eq hm hu).1 ((hbody _ _ rfl).trans hpredict), hframe, hhist, hran.pos,
    hran.residualSize⟩

end Sys2Proof.Machine

namespace Sys2Proof

open Machine

/-- Settles O22: the four commands differ in the coefficient vector and the start value alone. -/
theorem diffCommandsDecodeBlock : Obligations.DiffCommandsDecodeBlock := fun _ _ _ _ _ hrun hwf hf hu hw hm _ hp =>
  diff_decodes hrun hwf hm hf hu hw hp

/-- Settles O23: the block is written without reading the stream. -/
theorem zeroDecodesZeros : Obligations.ZeroDecodesZeros := by
  intro s wrap means hrun hwf hw hm
  obtain ⟨t, hexec, hdone, hwork⟩ := zero_decodes hrun hwf hm hw
  exact ⟨t, hexec, hdone, hwork.pos, hwork.coffset, hwork.residualSize, hwork.sum, hwork.coef, hwork.order, hwork.shift,
    hwork.initSum⟩

end Sys2Proof
end

section
/-! PROOFS. QLPC (44_audio_commands.md R171, R172). Between the order field and the decode loop nothing can go wrong once the order
fits: the coefficients are read and stored, the wrap region's last cells are lowered by the offset, and the coefficients are read
back. `QlpcReady` says what the decode loop then finds; an energy of 0 at version 0 stops it there. -/

namespace Sys2Proof.Machine

variable {s t u : State} {c n : Nat} {i : Int} {rest : Bits} {wrap means vs : List Cell} {coefs : List Int} {orderK : Nat}

/-! ### The steps before the decode loop -/

/-- R171: with an offset of 0 nothing is written, which is what writing the same cells again comes to. -/
theorem offsetHist_runs (hwf : ∀ m ∈ t.hist, m.wf) (hc : c < t.hist.length) (hr : t.histRange i n = true)
    (hcells : t.histCells c i n = vs.map some) (d : Int) :
    ∃ u, offsetHist c i n d t = .ok () u ∧ HistWrite t u c i (vs.map fun v => wrap32 (v.toInt + d)) := by
  obtain ⟨rfl, hk⟩ := State.histCells_iff.1 hcells
  unfold offsetHist
  by_cases hd : d = 0
  · have hsame : (vs.map fun v => wrap32 (v.toInt + d)) = vs := by
      simp only [hd, Int.add_zero, wrap32_toInt, List.map_id']
    rw [if_pos hd, hsame]
    exact ⟨t, rfl, .same hwf hc hr hk⟩
  · rw [if_neg hd, run_bind_ok (readHist_list hwf hc hr hk)]
    exact writeHist_runs hc (by rwa [List.length_map])

/-- From `t` to `u` the first `n` of the coefficients were read from the stream and stored. -/
structure CoefsRead (coefs : List Int) (t : State) (n : Nat) (u : State) : Prop where
  rest : ∃ p, u = { t.advance p with coef := u.coef }
  read : ∀ j : Nat, u.coef.read j = if j < n then (coefs[j]?).map wrap32 else t.coef.read j

theorem CoefsRead.start (h : t.Moved u) : CoefsRead coefs t 0 u := by
  obtain ⟨p, rfl⟩ := h
  exact ⟨⟨p, rfl⟩, fun j => (if_neg (Nat.not_lt_zero j)).symm⟩

theorem CoefsRead.advance (u : State) (k : Nat) (h : CoefsRead coefs t n u) : CoefsRead coefs t n (u.advance k) := by
  obtain ⟨p, hp⟩ := h.rest
  exact ⟨⟨p + k, by rw [hp]; simp only [State.advance, Nat.add_assoc]⟩, h.read⟩

theorem CoefsRead.write (h : CoefsRead coefs t n u) {a : Int} (ha : coefs[n]? = some a) :
    CoefsRead coefs t (n + 1) { u with coef := u.coef.write n (wrap32 a) } := by
  obtain ⟨p, hp⟩ := h.rest
  refine ⟨⟨p, by rw [hp]⟩, fun j => ?_⟩
  show (u.coef.write n (wrap32 a)).read j = _
  by_cases hj : j = n
  · rw [hj, Memory.read_write_same, if_pos (Nat.lt_succ_self n), ha]
    rfl
  · rw [Memory.read_write_other _ _ hj, h.read j]
    exact if_congr (by omega) rfl rfl

/-- R171: the coefficients are read one by one, each stored in its cell. -/
theorem reads_coefs (hn : coefs.length ≤ t.nwrap) :
    Reads t.Moved (coefs.flatMap (encS Config.lpcQuant)) (readCoefs coefs.length) () (CoefsRead coefs t coefs.length) := by
  refine Reads.of_imp (fun _ => CoefsRead.start) (Reads.forRange (CoefsRead coefs t) coefs 0 fun j a ha => ?_)
  refine (reads_readSigned CoefsRead.advance (by decide)).bind_silent fun u h => ?_
  rw [show (0 + (j : Int)).toNat = j by omega]
  obtain ⟨-, hw⟩ | ⟨hout, -⟩ := writeCoef_cases j (wrap32 a) u
  · exact ⟨(), _, hw, rfl, rfl, rfl, h.write ha⟩
  · obtain ⟨p, hp⟩ := h.rest
    have hj := (List.getElem?_eq_some_iff.1 ha).1
    rw [hp] at hout
    exact absurd (hj.trans_le hn) (Nat.not_lt.2 hout)

/-- R171: the coefficients are read back. -/
theorem collectCoefs_runs (hn : coefs.length ≤ t.nwrap)
    (h : ∀ j < coefs.length, t.coef.read j = (coefs[j]?).map wrap32) :
    collectRange coefs.length 0 (fun j => readCoef j.toNat) t = .ok (coefs.map wrap32) t := by
  refine collectRange_runs (List.length_map _) fun j v hv => ?_
  rw [List.getElem?_map] at hv
  have hj : j < coefs.length := by
    obtain ⟨a, ha, -⟩ := Option.map_eq_some_iff.1 hv
    exact (List.getElem?_eq_some_iff.1 ha).1
  rw [show (0 + (j : Int)).toNat = j by omega, readCoef, if_pos (hj.trans_le hn), h j hj, hv]

/-- Inside QLPC on channel `c`, from the start `t` of the body to the start `u` of the decode loop. -/
structure QlpcReady (coefs : List Int) (c : Nat) (wrap : List Cell) (t u : State) : Prop where
  residualSize : u.residualSize = t.residualSize
  coffset : u.coffset = t.coffset
  order : u.order = coefs.length
  shift : u.shift = Config.lpcQuant
  initSum : u.initSum = if 0 < coefs.length then wrap32 t.lpcqoffset else t.coffset
  coef : ∀ j : Nat, u.coef.read j = if j < coefs.length then (coefs[j]?).map wrap32 else t.coef.read j
  lowered : HistWrite t { t with hist := u.hist } c (-(coefs.length : Int))
    ((wrap.drop (t.nwrap - coefs.length)).map fun v => wrap32 (v.toInt - t.coffset.toInt))

/-- R171: the order field, behind which the check of the order stands. -/
theorem qlpcBody_order {order : Adaptive} (hu : t.unread = encOrder t.version order ++ rest) :
    readOrder t = .ok order.value (t.advance (encOrder t.version order).length) ∧
      (t.advance (encOrder t.version order).length).unread = rest :=
  (reads_readOrder exists_advance_advance (by rintro _ ⟨n, rfl⟩; rfl)).eq_advance hu

/-- R171: an order above `nwrap` is refused. -/
theorem qlpcBody_raises (h : BodyFrame s t) {order : Adaptive} (hu : t.unread = encOrder t.version order ++ rest)
    (hn : t.nwrap < order.value) :
    ∃ u, qlpcBody c t = .error (.raise .lpcOrderTooLarge) u ∧ BodyFrame s u ∧ u.hist = t.hist ∧ u.coef = t.coef ∧
      u.pos = t.pos + (encOrder t.version order).length := by
  have hrefused : State.nwrap { t.advance (encOrder t.version order).length with order := order.value } < order.value := hn
  refine ⟨_, ?_, h.working (u := { t.advance (encOrder t.version order).length with order := order.value }) rfl, rfl, rfl, rfl⟩
  rw [qlpcBody, run_bind_ok (qlpcBody_order hu).1, run_modify_bind, run_get_bind, if_pos hrefused, run_raise]

/-- R171, R172: with an order of at most `nwrap` the decode loop is reached. -/
theorem qlpcBody_ready (h : BodyFrame s t) (hrun : s.RunInv) (hn : coefs.length ≤ t.nwrap)
    (hw : t.histCells s.currentChannel (-(t.nwrap : Int)) t.nwrap = wrap.map some)
    (hu : t.unread = encOrder t.version ⟨orderK, coefs.length⟩ ++ (coefs.flatMap (encS Config.lpcQuant) ++ rest)) :
    ∃ u, qlpcBody s.currentChannel t =
        (predict s.currentChannel (coefs.map fun a => (wrap32 a).toInt) u.shift u.initSum >>= fun _ =>
          offsetHist s.currentChannel 0 t.blocksize t.coffset.toInt) u ∧
      QlpcReady coefs s.currentChannel wrap t u ∧ BodyFrame s u ∧ u.unread = rest ∧
      u.pos = t.pos + (encOrder t.version ⟨orderK, coefs.length⟩).length + (coefs.flatMap (encS Config.lpcQuant)).length := by
  obtain ⟨horder, hunread⟩ := qlpcBody_order hu
  generalize hn1 : (encOrder t.version ⟨orderK, coefs.length⟩).length = n1 at horder hunread
  have haccepted : ¬ State.nwrap { t.advance n1 with order := coefs.length } < coefs.length := Nat.not_lt.2 hn
  dsimp only at horder
  obtain ⟨t2, hcoefs, hpos, hpending, hread⟩ :=
    (reads_coefs (t := { t.advance n1 with order := coefs.length }) hn).whole _ rest (.refl _) hunread
  obtain ⟨p, hrest⟩ := hread.rest
  have hsame : SameHist t { t2 with shift := Config.lpcQuant } := by rw [hrest]; exact ⟨rfl, rfl, rfl⟩
  have hframe : BodyFrame s { t2 with shift := Config.lpcQuant } := h.working (by rw [hrest]; rfl)
  obtain ⟨t3, hlower, hwrite⟩ := offsetHist_runs (t := { t2 with shift := Config.lpcQuant }) (c := s.currentChannel)
    hframe.histWf (hframe.histLength.symm ▸ hrun.channel_hist)
    (by rw [hsame.histRange, State.histRange_iff]; omega) (hsame.histCells.trans (State.histCells_drop hw hn))
    (-t.coffset.toInt)
  have hlen : (wrap.drop (t.nwrap - coefs.length)).length = coefs.length := by
    rw [List.length_drop, (State.histCells_iff.1 hw).1]
    omega
  refine ⟨{ t3 with initSum := if 0 < coefs.length then wrap32 t3.lpcqoffset else t3.coffset }, ?_, ?_, ?_, ?_, ?_⟩
  · have hcollect := collectCoefs_runs (coefs := coefs)
      (t := { t3 with initSum := if 0 < coefs.length then wrap32 t3.lpcqoffset else t3.coffset })
      (by rw [hwrite.rest, hrest]; exact hn) fun j hj => by
        rw [hwrite.rest]
        exact (hread.read j).trans (if_pos hj)
    rw [qlpcBody, run_bind_ok horder, run_modify_bind, run_get_bind, if_neg haccepted, run_bind_ok hcoefs,
      run_modify_bind]
    refine (run_bind_ok hlower).trans ?_
    rw [run_modify_bind, run_bind_ok hcollect, run_get_bind, List.map_map]
    rfl
  · have hlowered := hwrite.transport ⟨hsame.hist.symm, hsame.nwrap.symm, hsame.histBlocksize.symm⟩
    simp only [← sub_eq_add_neg] at hlowered
    rw [hwrite.rest]
    exact ⟨(congrArg State.residualSize hrest :), (congrArg State.coffset hrest :), (congrArg State.order hrest :), rfl,
      by rw [hrest]; rfl, hread.read, hlowered⟩
  · exact (hframe.histWrite hwrite (by rw [List.length_map, hlen]; omega)).working rfl
  · refine State.unread_behind hunread ?_ ?_ <;> rw [hwrite.rest]
    · exact hpos
    · exact hpending
  · rw [hwrite.rest]
    exact hpos

/-- R171: the wrap region the decode loop finds. -/
theorem QlpcReady.histCells_wrap (h : QlpcReady coefs c wrap t u) (hnwrap : u.nwrap = t.nwrap)
    (hblocksize : u.histBlocksize = t.histBlocksize) (hn : coefs.length ≤ t.nwrap)
    (hw : t.histCells c (-(t.nwrap : Int)) t.nwrap = wrap.map some) :
    u.histCells c (-(t.nwrap : Int)) t.nwrap =
      (wrap.take (t.nwrap - coefs.length) ++ (wrap.drop (t.nwrap - coefs.length)).map fun v =>
        wrap32 (v.toInt - t.coffset.toInt)).map some := by
  have hlen := (State.histCells_iff.1 hw).1
  have hsame : SameHist { t with hist := u.hist } u := ⟨rfl, hnwrap, hblocksize⟩
  exact hsame.histCells.trans
    (h.lowered.histCells_wrap (by rw [List.length_map, List.length_drop]; omega) hn hw)

/-- R171: an offset of 0 leaves the history as it was. -/
theorem QlpcReady.hist_eq (h : QlpcReady coefs c wrap t u) (hz : t.coffset = 0) (hwf : ∀ m ∈ t.hist, m.wf)
    (hc : c < t.hist.length) (hn : coefs.length ≤ t.nwrap)
    (hw : t.histCells c (-(t.nwrap : Int)) t.nwrap = wrap.map some) : u.hist = t.hist := by
  have hlowered := h.lowered
  simp only [hz, toInt_zeroCell, Int.sub_zero, wrap32_toInt, List.map_id'] at hlowered
  obtain ⟨hlen, hcells⟩ := State.histCells_iff.1 (State.histCells_drop hw hn)
  have hsame : HistWrite t t c (-(coefs.length : Int)) (wrap.drop (t.nwrap - coefs.length)) :=
    .same hwf hc (by rw [State.histRange_iff]; omega) fun k hk => hcells k (hlen ▸ hk)
  exact (congrArg State.hist (hlowered.unique hsame) :)

/-! ### The command -/

section

variable (hrun : s.RunInv) (hwf : s.MemoriesWf) (hm : s.meanCells s.currentChannel = means.map some)

include hrun hwf hm

/-- R171, R172: the offset is given back to the block and not to the wrap region. -/
theorem qlpc_decodes {f : QlpcFields} (hf : f.wf s.version s.blocksize s.nwrap = true)
    (hu : s.unread = encQlpc s.version f ++ rest)
    (hw : s.histCells s.currentChannel (-(s.nwrap : Int)) s.nwrap = wrap.map some) :
    let order := f.coefs.length
    let off := offsetValue s means
    let initSum := if 0 < order then wrap32 s.lpcqoffset else off
    let lowered := wrap.take (s.nwrap - order) ++
      (wrap.drop (s.nwrap - order)).map fun v => wrap32 (v.toInt - off.toInt)
    let raw := samplesOf (f.coefs.map fun a => (wrap32 a).toInt) Config.lpcQuant initSum lowered.reverse f.residuals
    ∃ t, exec .qlpc s = .next t ∧ AudioDone s t lowered (raw.map fun v => wrap32 (v.toInt + off.toInt)) ∧
      t.pos = s.pos + (encQlpc s.version f).length ∧ t.residualSize = residualSizeOf s.version f.energy.value ∧
      t.coffset = off ∧ t.order = order ∧ t.shift = Config.lpcQuant ∧ t.initSum = initSum ∧
      ∀ j : Nat, t.coef.read j = if j < order then (f.coefs[j]?).map wrap32 else s.coef.read j := by
  intro order off initSum lowered raw
  obtain ⟨hwfBlock, horder⟩ := Bool.and_eq_true_iff.1 hf
  obtain ⟨hlen, hk⟩ := Bool.and_eq_true_iff.1 hwfBlock
  have hn : f.coefs.length ≤ s.nwrap := of_decide_eq_true horder
  rw [encQlpc, List.append_assoc, List.append_assoc, List.append_assoc] at hu
  obtain ⟨hcommand, hunread⟩ := audioCommand_eq (body := qlpcBody) hm hu
  obtain ⟨u, hbody, hready, hframe, hrest, hpos⟩ := qlpcBody_ready (BodyFrame.atBody hwf _ _ _) hrun hn hw hunread
  have hsize : u.residualSize = residualSizeOf s.version f.energy.value := hready.residualSize
  obtain ⟨v, hpredict, hframev, hran, hwrapv, hblockv⟩ := hframe.predict hrun
    (cv := f.coefs.map fun a => (wrap32 a).toInt) (residuals := f.residuals) u.shift u.initSum (by rwa [List.length_map])
    (hready.histCells_wrap hframe.same.nwrap hframe.same.histBlocksize hn hw) (by rw [hsize]; exact of_decide_eq_true hk)
    (eq_of_beq hlen) (by rw [hsize]; exact hrest)
  rw [hready.shift, hready.initSum] at hblockv
  have hraw : v.histCells s.currentChannel 0 s.blocksize = raw.map some := hblockv
  have same := hframev.same
  obtain ⟨x, hraised, hwrite⟩ := offsetHist_runs hframev.histWf (hframev.histLength.symm ▸ hrun.channel_hist)
    (State.histRange_iff.2 ⟨by omega, by rw [same.histBlocksize, Int.zero_add]; exact Int.ofNat_le.2 hrun.blocksize_le⟩)
    hraw off.toInt
  have hlenRaised : (raw.map fun v => wrap32 (v.toInt + off.toInt)).length = s.blocksize :=
    (List.length_map _).trans (State.histCells_iff.1 hraw).1
  obtain ⟨t, hpost, hdone, hwork⟩ := (hframev.histWrite hwrite (by omega)).postProcess hrun
    ((hwrite.histCells_before (by omega)).trans hwrapv) (hlenRaised ▸ hwrite.histCells) hm
  have hranx : RanOver (f.residuals.flatMap (encS u.residualSize)).length u x := by
    rw [hwrite.rest]
    exact { hran with }
  refine ⟨t, perform_of_body hcommand (hbody.trans ((run_bind_ok hpredict).trans hraised)) hpost, hdone, ?_,
    hwork.residualSize.trans (hranx.residualSize.trans hsize), hwork.coffset.trans (hranx.coffset.trans hready.coffset),
    hwork.order.trans (hranx.order.trans hready.order), hwork.shift.trans (hranx.shift.trans hready.shift),
    hwork.initSum.trans (hranx.initSum.trans hready.initSum), fun j => ?_⟩
  · rw [hwork.pos, hranx.pos, hpos, hsize, encQlpc, encResiduals, State.atBody_pos]
    simp only [List.length_append, Nat.add_assoc]
    rfl
  · rw [hwork.coef, hranx.coef]
    exact hready.coef j

omit hrun in
/-- R171: nothing is stored before the check of the order. -/
theorem qlpc_refuses {energy order : Adaptive} (hn : s.nwrap < order.value)
    (hu : s.unread = encEnergy s.version energy ++ (encOrder s.version order ++ rest)) :
    ∃ t : State, exec .qlpc s = .next (t.raise .lpcOrderTooLarge) ∧ BodyFrame s t ∧ t.hist = s.hist ∧ t.coef = s.coef ∧
      t.pos = s.pos + (encEnergy s.version energy).length + (encOrder s.version order).length := by
  obtain ⟨hcommand, hunread⟩ := audioCommand_eq (body := qlpcBody) hm hu
  obtain ⟨t, hbody, hframe, hhist, hcoef, hpos⟩ := qlpcBody_raises (BodyFrame.atBody hwf _ _ _) hunread hn
  exact ⟨t, perform_of_body_raise hcommand hbody, hframe, hhist, hcoef, hpos⟩

/-- R85, R171: with a negative Rice parameter and an offset of 0, QLPC reads its coefficients and stops at the first residual. -/
theorem qlpc_raises {energy : Adaptive} (hneg : residualSizeOf s.version energy.value + Config.srKBias < 0)
    (hz : offsetValue s means = 0) (hn : coefs.length ≤ s.nwrap)
    (hu : s.unread = encEnergy s.version energy ++
      (encOrder s.version ⟨orderK, coefs.length⟩ ++ (coefs.flatMap (encS Config.lpcQuant) ++ rest))) :
    ∃ t : State, exec .qlpc s = .next (t.raise .negativeRiceParameter) ∧ BodyFrame s t ∧ t.hist = s.hist ∧
      t.pos = s.pos + (encEnergy s.version energy).length + (encOrder s.version ⟨orderK, coefs.length⟩).length +
        (coefs.flatMap (encS Config.lpcQuant)).length ∧
      t.residualSize = residualSizeOf s.version energy.value ∧ t.order = coefs.length ∧ t.coffset = 0 ∧
      ∀ j : Nat, t.coef.read j = if j < coefs.length then (coefs[j]?).map wrap32 else s.coef.read j := by
  obtain ⟨wrap, hw⟩ := hrun.holds_wrap.histCells
  obtain ⟨hcommand, hunread⟩ := audioCommand_eq (body := qlpcBody) hm hu
  obtain ⟨u, hbody, hready, hframe, -, hpos⟩ := qlpcBody_ready (BodyFrame.atBody hwf _ _ _) hrun hn hw hunread
  have hsize : u.residualSize = residualSizeOf s.version energy.value := hready.residualSize
  obtain ⟨v, hpredict, hframev, hran, hhist⟩ := hframe.predict_raises hrun
    (cv := coefs.map fun a => (wrap32 a).toInt) u.shift u.initSum (by rwa [List.length_map]) (hready.histCells_wrap hframe.same.nwrap hframe.same.histBlocksize hn hw) (hsize ▸ hneg)
  exact ⟨v, perform_of_body_raise hcommand (hbody.trans (run_bind_error hpredict)), hframev,
    hhist.trans (hready.hist_eq hz hwf.1 hrun.channel_hist hn hw), hran.pos.trans hpos, hran.residualSize.trans hsize,
    hran.order.trans hready.order, hran.coffset.trans (hready.coffset.trans hz),
    fun j => (congrArg (·.read j) hran.coef).trans (hready.coef j)⟩

end

/-- R204: an error taken inside a body that has left the history alone. -/
theorem BodyFrame.raised (h : BodyFrame s t) (cause : Cause) (hhist : t.hist = s.hist) :
    (t.raise cause).results = s.results ++ [.error cause] ∧ (t.raise cause).mean = s.mean ∧
      (t.raise cause).currentChannel = s.currentChannel ∧ ∀ c i, (t.raise cause).histCell c i = s.histCell c i := by
  have hsame : SameHist s (t.raise cause) := ⟨hhist, h.same.nwrap, h.same.histBlocksize⟩
  exact ⟨congrArg (· ++ [_]) h.same.results, (congrArg State.mean h.rest :), (congrArg State.currentChannel h.rest :),
    fun _ _ => hsame.histCell⟩

/-- R163: at version 0 there are no means to sum. -/
theorem offsetValue_version_zero (hrun : s.RunInv) (hv : s.version = 0) (means : List Cell) : offsetValue s means = 0 := by
  rw [offsetValue, hrun.nmean_v0 hv, if_neg (by decide)]
  dsimp only
  rw [hv, show (-1 : Int).toNat = 0 from rfl, List.take_zero]
  rfl

end Sys2Proof.Machine

namespace Sys2Proof

open Machine

/-- Settles O24: the decode loop runs on the lowered wrap region, and what it wrote is raised again. -/
theorem qlpcDecodesBlock : Obligations.QlpcDecodesBlock := fun _ _ _ _ _ hrun hwf hf hu hw hm =>
  qlpc_decodes hrun hwf hm hf hu hw

/-- Settles O25: the check stands behind the order field and before everything that is stored. -/
theorem qlpcOrderTooLargeRaises : Obligations.QlpcOrderTooLargeRaises := by
  intro s energy order rest hrun hwf hn hu
  obtain ⟨means, hm⟩ := State.meanCells_of_held (hrun.mean_held _ hrun.currentChannel_lt)
  rw [List.append_assoc] at hu
  obtain ⟨t, hexec, hframe, hhist, hcoef, hpos⟩ := qlpc_refuses hwf hm hn hu
  obtain ⟨hresults, hmean, hcurrent, -⟩ := hframe.raised .lpcOrderTooLarge hhist
  exact ⟨_, hexec, rfl, rfl, hresults, hpos, hhist, hmean, hcoef, hcurrent, hframe.same.pending⟩

/-- Settles O26: an energy of 0 gives the parameter -1, and the offset at version 0 is 0, so the decode loop is reached with the
history as it was. -/
theorem versionZeroEnergyZeroRaises : Obligations.VersionZeroEnergyZeroRaises := by
  intro s k rest hrun hwf hv hbias
  obtain ⟨means, hm⟩ := State.meanCells_of_held (hrun.mean_held _ hrun.currentChannel_lt)
  have hsize : residualSizeOf s.version 0 = -1 := by rw [hv]; rfl
  have hneg : residualSizeOf s.version (⟨k, 0⟩ : Adaptive).value + Config.srKBias < 0 := by
    rw [hsize, hbias]
    decide
  refine ⟨fun hu i hi => ?_, ?_⟩
  · obtain ⟨p, hp, rfl⟩ : ∃ p ∈ diffCommands (offsetValue s means), p.1 = i := List.mem_map.1 hi
    obtain ⟨t, hexec, hframe, hhist, hpos, hres⟩ := diff_raises hrun hwf hm hu hneg hp
    obtain ⟨hresults, hmean, hcurrent, hcells⟩ := hframe.raised .negativeRiceParameter hhist
    exact ⟨_, hexec, rfl, hres.trans hsize, hpos, hresults, hmean, hcurrent, hcells⟩
  · intro orderK coefs hn operands hu
    rw [List.append_assoc, List.append_assoc] at hu
    obtain ⟨t, hexec, hframe, hhist, hpos, hres, horder, hoff, hcoef⟩ :=
      qlpc_raises hrun hwf hm hneg (offsetValue_version_zero hrun hv means) hn hu
    obtain ⟨hresults, hmean, hcurrent, hcells⟩ := hframe.raised .negativeRiceParameter hhist
    refine ⟨_, hexec, rfl, hres.trans hsize, ?_, hresults, hmean, hcurrent, hcells, horder, hoff, hcoef⟩
    rw [State.raise_pos, hpos]
    simp only [operands, List.length_append, Nat.add_assoc]

end Sys2Proof
end

section
/-! PROOFS. The output (45_output.md R190, R191). `clip16` by its three cases and by its range, so that the 16-bit cell narrows nothing
(`toInt_toSample`); frame assembly is `assembleFrame_runs`. -/

namespace Sys2Proof.Machine

variable {v : Int}

theorem clip16_of_lt (h : v < -32768) : clip16 v = -32768 := if_pos h

theorem clip16_of_gt (h : 32767 < v) : clip16 v = 32767 := by
  rw [clip16, if_neg (by omega), if_pos h]

theorem clip16_of_mem (hlo : -32768 ≤ v) (hhi : v ≤ 32767) : clip16 v = v := by
  rw [clip16, if_neg (by omega), if_neg (by omega)]

theorem clip16_mem (v : Int) : -32768 ≤ clip16 v ∧ clip16 v ≤ 32767 := by
  rcases lt_or_ge v (-32768) with hlt | hlo
  · rw [clip16_of_lt hlt]; decide
  · rcases lt_or_ge 32767 v with hgt | hhi
    · rw [clip16_of_gt hgt]; decide
    · rw [clip16_of_mem hlo hhi]; exact ⟨hlo, hhi⟩

/-- R191: a clipped value fits the output cell. -/
@[simp] theorem toInt_toSample (v : Int) : (toSample v).toInt = clip16 v := by
  obtain ⟨hlo, hhi⟩ := clip16_mem v
  rw [toSample, BitVec.toInt_ofInt]
  exact Int.bmod_eq_of_le (by omega) (by omega)

end Sys2Proof.Machine

namespace Sys2Proof

open Machine

/-- Settles O34: the blocks are read channel by channel, and entry `i * channels + c` of their interleaving is sample `i` of block
`c`. -/
theorem frameInterleavesChannels : Obligations.FrameInterleavesChannels := by
  intro s hwf hchannels hblocksize hheld
  obtain ⟨out, hrun, hlength, hcell⟩ := assembleFrame_runs hwf.1 hchannels hblocksize hheld
  exact ⟨{ s with out := out }, hrun, rfl, hlength, hcell⟩

/-- Settles O33: the cell holds `clip16 v`, case by case. -/
theorem clipSaturates : Obligations.ClipSaturates := by
  intro v
  rw [toInt_toSample]
  exact ⟨clip16_of_lt, clip16_of_gt, clip16_of_mem⟩

end Sys2Proof
end

section
/-! PROOFS. Errors and phases (60_exceptions.md R204 to R212). The phase is a function of the three flags (10_state.md R23), so
what may happen to it is read off the frames: the header alone writes `header_parsed`, QUIT alone `quit_received`, and the fault is
written where an error is taken. -/

namespace Sys2Proof.Machine

variable {s t u : State} {i : Instr}

/-! ### The phase by the flags -/

/-- R23: a fault hides the other flags. -/
theorem State.phase_of_fault {c : Cause} (h : s.fault = some c) : s.phase = .failed := by
  rw [State.phase, h, Option.isSome_some, if_pos rfl]

/-- R23: a stream that has ended. -/
theorem State.phase_of_quit (hfault : s.fault = none) (hquit : s.quitReceived = true) : s.phase = .quit := by
  rw [State.phase, hfault, hquit]
  rfl

/-- R23: a stream that has neither failed nor ended. -/
theorem State.phase_of_open (hfault : s.fault = none) (hquit : s.quitReceived = false) :
    s.phase = if s.headerParsed then .run else .header := by
  rw [State.phase, hfault, hquit]
  rfl

/-- R23, R121: the phase inside a pass. -/
theorem State.InPass.phase (h : s.InPass) : s.phase = if s.headerParsed then .run else .header :=
  State.phase_of_open h.fault h.quitReceived

/-! ### Where a phase may lead -/

/-- R212: the phase stays, or moves forward. -/
def PhaseForward (s t : State) : Prop :=
  t.phase = s.phase ∨ t.phase = .failed ∨ (s.phase = .header ∧ t.phase = .run) ∨ (s.phase = .run ∧ t.phase = .quit)

/-- R204: an error leads to FAILED from wherever it is taken. -/
theorem Ends.phaseForward (ht : Ends u t) (hu : PhaseForward s u) : PhaseForward s t := by
  obtain rfl | ⟨c, rfl⟩ := ht
  · exact hu
  · exact .inr (.inl (State.phase_of_fault (State.raise_fault u c)))

/-- R111: the header, on a stream that has none, may set `header_parsed` and no other flag. -/
theorem HeaderFrame.phaseForward (hframe : HeaderFrame s u) (h : s.InPass) (hparsed : s.headerParsed = false) :
    PhaseForward s u := by
  have hs : s.phase = .header := by rw [h.phase, hparsed, if_neg Bool.false_ne_true]
  have hu := State.phase_of_open (hframe.fault.trans h.fault) (hframe.quitReceived.trans h.quitReceived)
  cases hset : u.headerParsed with
  | true => exact .inr (.inr (.inl ⟨hs, by rw [hu, hset, if_pos rfl]⟩))
  | false => exact .inl (by rw [hu, hset, if_neg Bool.false_ne_true, hs])

/-- R148: a command may set `quit_received` and no other flag. -/
theorem CommandFrame.phaseForward (hframe : CommandFrame i s u) (h : s.InPass) (hparsed : s.headerParsed = true) :
    PhaseForward s u := by
  have hs : s.phase = .run := by rw [h.phase, hparsed, if_pos rfl]
  have hfault : u.fault = none := hframe.same.fault.trans h.fault
  cases hquit : u.quitReceived with
  | true => exact .inr (.inr (.inr ⟨hs, State.phase_of_quit hfault hquit⟩))
  | false =>
    have hkept : u.headerParsed = true := hframe.same.headerParsed.trans hparsed
    exact .inl (by rw [State.phase_of_open hfault hquit, hkept, if_pos rfl, hs])

/-- R126: before the header the decoder gives the header, and after it commands. -/
theorem State.InPass.exec_phaseForward {bs : Bits} {n : Nat} (h : s.InPass)
    (hd : decode Config.general s.headerParsed bs = .ok (i, n)) (hexec : exec i s = .next t) : PhaseForward s t := by
  cases hparsed : s.headerParsed with
  | true =>
    obtain ⟨u, hframe, hends⟩ := exec_command_next (decode_ne_header (hparsed ▸ hd)) hexec
    exact hends.phaseForward (hframe.phaseForward h hparsed)
  | false =>
    obtain rfl := decode_eq_header (hparsed ▸ hd)
    exact (perform_ends hexec).phaseForward ((keeps_headerPass Config.impl s).phaseForward h hparsed)

/-- R126, R140: a step of a pass. -/
theorem State.InPass.step_phaseForward (h : s.InPass) (hstep : step s = .next t) : PhaseForward s t := by
  obtain rfl | ⟨c, rfl⟩ | ⟨i, n, hd, hexec⟩ := step_pass_next h.control hstep
  · exact .inl rfl
  · exact .inr (.inl (State.phase_of_fault (State.raise_fault s c)))
  · exact (h.issue (decode_length hd) i).exec_phaseForward hd hexec

/-- R121 to R125: a request that opens no stream writes no flag but the fault. -/
theorem serve_phaseForward (limits : Config.Limits) (h : ∀ more, s.requests ≠ .streamOpen :: more) :
    PhaseForward s (serve limits s) := by
  rcases hreq : s.requests with - | ⟨chunk | -, more⟩
  · rw [serve, hreq]
    exact .inl rfl
  · rw [serve_decode hreq]
    obtain ⟨extra, accepted, pos, control, results, hends⟩ := beginCall_ends limits chunk { s with requests := more }
    exact hends.phaseForward (.inl rfl)
  · exact absurd hreq (h more)

/-! ### A failed stream -/

/-- R210: no call runs on a stream that has failed. -/
theorem State.PhaseInv.idle_of_fault {c : Cause} (h : s.PhaseInv) (hfault : s.fault = some c) : s.control = .idle := by
  by_contra hrunning
  rw [h.running hrunning] at hfault
  cases hfault

end Sys2Proof.Machine

namespace Sys2Proof

open Machine

/-- Settles O51: between calls and at the end of a pass no flag is written but the fault; inside a pass the instruction's frame
says which one may be. -/
theorem phasesMoveForward : Obligations.PhasesMoveForward := by
  intro s t hinv hstep hlives
  show PhaseForward s t
  cases hctl : s.control with
  | idle =>
    cases (step_idle hctl).symm.trans hstep
    exact serve_phaseForward Config.limits fun more hopen => hlives more hopen hctl
  | pass => exact State.InPass.step_phaseForward ⟨hinv, hctl⟩ hstep
  | finish o =>
    cases (step_finish hctl).symm.trans hstep
    obtain ⟨n, offset, out, control, results, hends⟩ := finishPass_ends o s
    exact hends.phaseForward (.inl rfl)

/-- Settles O50: a failed stream is idle, and a decode call on it is answered with its fault at the first entry check. -/
theorem errorIsSticky : Obligations.ErrorIsSticky := by
  intro s t c hinv hfault hstep
  have hidle := hinv.phase.idle_of_fault hfault
  cases (step_idle hidle).symm.trans hstep
  rcases hreq : s.requests with - | ⟨chunk | -, more⟩
  · rw [serve, hreq]
    exact .inr ⟨rfl, hreq⟩
  · rw [serve_decode hreq, beginCall_fault (s := { s with requests := more }) hfault, State.answer, hidle]
    exact .inr ⟨rfl, rfl⟩
  · exact .inl ⟨more, rfl⟩

/-- Settles O49: the update of the buffer is conditional on the cause. -/
theorem raiseRecordsCause : Obligations.RaiseRecordsCause :=
  fun _ _ => ⟨fun hc => by rw [State.raise, if_neg hc, if_neg hc], rfl⟩

end Sys2Proof
end

section
/-! PROOFS. Stream open, and the canonical form of the memories (10_state.md R36; 20_memory.md R43; 70_reset_and_hazards.md R230,
R231). Every rule keeps the canonical form, whether it ends or raises; taking an error and the bookkeeping of a call touch no
memory; a new stream has none. -/

namespace Sys2Proof.Machine

variable {s t u : State} {i : Instr}

/-- R121, R231: a stream that the host has asked for opens. -/
theorem serve_streamOpen {limits : Config.Limits} {more : List Request} (h : s.requests = .streamOpen :: more) :
    serve limits s = { State.reset with requests := more, results := s.results } := by
  rw [serve, h]

/-- Every instruction performs a rule that keeps the canonical form of the memories. -/
theorem exec_performs_memoriesWf (i : Instr) :
    ∃ m, exec i = perform m ∧ Keeps (fun s t => s.MemoriesWf → t.MemoriesWf) m := by
  cases i with
  | diff0 => exact ⟨diff0Rule, rfl, fun s => (diff0Rule_frame s).memories⟩
  | diff1 => exact ⟨diff1Rule, rfl, fun s => (diff1Rule_frame s).memories⟩
  | diff2 => exact ⟨diff2Rule, rfl, fun s => (diff2Rule_frame s).memories⟩
  | diff3 => exact ⟨diff3Rule, rfl, fun s => (diff3Rule_frame s).memories⟩
  | quit => exact ⟨quitRule, rfl, fun _ h => h⟩
  | blocksize => exact ⟨blocksizeRule, rfl, fun s => (blocksizeRule_ruleFrame s).memories⟩
  | bitshift => exact ⟨bitshiftRule, rfl, fun s => (bitshiftRule_ruleFrame s).memories⟩
  | qlpc => exact ⟨qlpcRule, rfl, fun s => (qlpcRule_frame s).memories⟩
  | zero => exact ⟨zeroRule, rfl, fun s => (zeroRule_frame s).memories⟩
  | verbatim => exact ⟨verbatimRule Config.general, rfl, fun s => (keeps_verbatimRule _ s).rule.memories⟩
  | illegal10or11 => exact ⟨illegal10or11Rule, rfl, fun s => (keeps_illegal10or11Rule s).rule.memories⟩
  | illegal12up => exact ⟨illegal12upRule, rfl, fun s => (keeps_illegal12upRule s).rule.memories⟩
  | header => exact ⟨headerPass Config.impl, rfl, fun s => (keeps_headerPass Config.impl s).memories⟩

/-- R204: taking an error writes no memory. -/
theorem Ends.memoriesWf (h : Ends u t) (hu : u.MemoriesWf) : t.MemoriesWf := by
  obtain rfl | ⟨c, rfl⟩ := h <;> exact hu

theorem exec_memoriesWf (hs : s.MemoriesWf) (h : exec i s = .next t) : t.MemoriesWf := by
  obtain ⟨m, hexec, hm⟩ := exec_performs_memoriesWf i
  rw [hexec] at h
  exact (perform_ends h).memoriesWf (hm s hs)

/-- R121 to R125, R231. -/
theorem serve_memoriesWf (limits : Config.Limits) (hs : s.MemoriesWf) : (serve limits s).MemoriesWf := by
  rcases hreq : s.requests with - | ⟨chunk | -, more⟩
  · rwa [serve, hreq]
  · rw [serve_decode hreq]
    obtain ⟨extra, accepted, pos, control, results, hends⟩ := beginCall_ends limits chunk { s with requests := more }
    exact hends.memoriesWf hs
  · rw [serve_streamOpen hreq]
    exact reset_memoriesWf

end Sys2Proof.Machine

namespace Sys2Proof

open Machine

/-- Settles O54: the request is served between calls. -/
theorem streamOpenResets : Obligations.StreamOpenResets := by
  intro s more hidle hreq
  rw [step_idle hidle, serve_streamOpen hreq]

/-- Settles O56: by the place in the call; in a pass the instruction's rule keeps the form. -/
theorem memoriesStayCanonical : Obligations.MemoriesStayCanonical := by
  intro s t hs hstep
  cases hctl : s.control with
  | idle =>
    cases (step_idle hctl).symm.trans hstep
    exact serve_memoriesWf Config.limits hs
  | pass =>
    obtain rfl | ⟨c, rfl⟩ | ⟨i, n, -, hexec⟩ := step_pass_next hctl hstep
    · exact hs
    · exact hs
    · exact exec_memoriesWf (s := s.issue Config.general i n) hs hexec
  | finish o =>
    cases (step_finish hctl).symm.trans hstep
    obtain ⟨n, offset, out, control, results, hends⟩ := finishPass_ends o s
    exact hends.memoriesWf hs

end Sys2Proof
end

section
/-! PROOFS. Every call ends (42_call_and_input_buffer.md R120; R241). A rule that takes no error leaves the core in its call and
answers nothing (`StaysInCall`), and every opcode has bits; so each step of a call answers it or lowers the steps that its place
and the unread bits leave (`State.stepsLeft`). -/

namespace Sys2Proof.Machine

variable {s t u : State} {i : Instr} {n : Nat} {α β : Type}

/-! ### A rule stays in its call -/

/-- From `s` a rule came to `t`: no result was given, and a running call still runs. -/
def StaysInCall (s t : State) : Prop := t.results = s.results ∧ (s.control ≠ .idle → t.control ≠ .idle)

theorem StaysInCall.of_eq (hresults : t.results = s.results) (hcontrol : t.control = s.control) : StaysInCall s t :=
  ⟨hresults, fun h => hcontrol ▸ h⟩

theorem StaysInCall.refl (s : State) : StaysInCall s s := .of_eq rfl rfl

theorem StaysInCall.trans (s t u : State) (h : StaysInCall s t) (h' : StaysInCall t u) : StaysInCall s u :=
  ⟨h'.1.trans h.1, fun hs => h'.2 (h.2 hs)⟩

theorem staysInCall_get_bind {f : State → M α} (hf : ∀ s, Keeps StaysInCall (f s)) : Keeps StaysInCall (get >>= f) :=
  keeps_get_bind fun s => hf s s

theorem staysInCall_bind {m : M β} {f : β → M α} (hm : Keeps StaysInCall m) (hf : ∀ b, Keeps StaysInCall (f b)) :
    Keeps StaysInCall (m >>= f) :=
  keeps_bind StaysInCall.trans hm hf

/-- An update of registers alone. -/
theorem staysInCall_modify {f : State → State} (hresults : ∀ s, (f s).results = s.results)
    (hcontrol : ∀ s, (f s).control = s.control) : Keeps StaysInCall (modify f : M PUnit) :=
  keeps_modify fun s => .of_eq (hresults s) (hcontrol s)

theorem ControlFrame.staysInCall (h : ControlFrame s t) : StaysInCall s t := by
  obtain ⟨n, cmd, len, rfl, -⟩ := h
  exact .of_eq rfl rfl

theorem staysInCall_of_cursor {m : M α} (h : Keeps CursorOnly m) : Keeps StaysInCall m :=
  keeps_mono (.of_cursor h) fun _ _ => ControlFrame.staysInCall

theorem staysInCall_of_eq {m : M α} (h : Keeps Eq m) : Keeps StaysInCall m :=
  keeps_mono h fun s _ heq => heq ▸ .refl s

theorem staysInCall_writeHist (c : Nat) (i : Int) (vs : List Cell) : Keeps StaysInCall (writeHist c i vs) := by
  intro s
  obtain ⟨m, -, -, h⟩ | ⟨-, h⟩ := writeHist_cases c i vs s <;> rw [h]
  · exact .of_eq rfl rfl
  · exact .refl s

theorem staysInCall_writeMean (c i : Nat) (v : Cell) : Keeps StaysInCall (writeMean c i v) := by
  intro s
  obtain ⟨m, -, -, h⟩ | ⟨-, h⟩ := writeMean_cases c i v s <;> rw [h]
  · exact .of_eq rfl rfl
  · exact .refl s

theorem staysInCall_writeCoef (j : Nat) (v : Cell) : Keeps StaysInCall (writeCoef j v) := by
  intro s
  obtain ⟨-, h⟩ | ⟨-, h⟩ := writeCoef_cases j v s <;> rw [h]
  · exact .of_eq rfl rfl
  · exact .refl s

/-- R170. -/
theorem staysInCall_predict (c : Nat) (cv : List Int) (shift : Nat) (initSum : Cell) :
    Keeps StaysInCall (predict c cv shift initSum) := by
  refine keeps_get_bind fun s => ?_
  rcases hread : readHist c (-(cv.length : Int)) cv.length s with ⟨context, t⟩ | ⟨e, t⟩ <;>
    obtain rfl : s = t := by simpa [hread, finalState] using keeps_readHist c (-(cv.length : Int)) cv.length s
  · rw [run_bind_ok hread, run_set_bind]
    obtain ⟨-, -, k, sum, hstate, -⟩ :=
      predictRun_spec (cv := cv) (shift := shift) (initSum := initSum) s.blocksize context.reverse s
    have hrun : StaysInCall s (predictRun cv shift initSum s.blocksize context.reverse s).state := by
      rw [hstate]
      exact .of_eq rfl rfl
    refine hrun.trans _ _ _ (staysInCall_bind (staysInCall_writeHist _ _ _) (fun _ => ?_) _)
    split
    · exact keeps_pure StaysInCall.refl _
    · exact keeps_throw StaysInCall.refl _
  · rw [run_bind_error hread]
    exact .refl s

/-- R163. -/
theorem staysInCall_computeCoffset (c : Nat) : Keeps StaysInCall (computeCoffset c) :=
  staysInCall_bind (staysInCall_of_eq (keeps_coffsetOf c)) fun _ => staysInCall_modify (fun _ => rfl) fun _ => rfl

/-- R178: the mean of the block reads only. -/
theorem keeps_blockMean (c : Nat) : Keeps Eq (blockMean c) :=
  keeps_get_bind fun s => keeps_bind (R := Eq) (fun _ _ _ h h' => h.trans h') (keeps_readHist _ _ _)
    (fun _ => keeps_pure (fun _ => rfl) _) s

/-- R178. -/
theorem staysInCall_updateMean (c : Nat) : Keeps StaysInCall (updateMean c) := by
  refine staysInCall_get_bind fun s => ?_
  split
  · exact staysInCall_bind (staysInCall_of_eq (keeps_blockMean c)) fun _ =>
      staysInCall_bind (keeps_forRange StaysInCall.refl StaysInCall.trans (fun _ =>
        staysInCall_bind (staysInCall_of_eq (keeps_readMean _ _)) fun _ => staysInCall_writeMean _ _ _) _ _) fun _ =>
      staysInCall_writeMean _ _ _
  · exact keeps_pure StaysInCall.refl _

/-- Cells are read, and what is formed of them is written: R171, R179, R180. -/
theorem staysInCall_rewrite (c : Nat) (i j : Int) (n : Nat) (f : List Cell → List Cell) :
    Keeps StaysInCall (readHist c i n >>= fun vs => writeHist c j (f vs)) :=
  staysInCall_bind (staysInCall_of_eq (keeps_readHist _ _ _)) fun _ => staysInCall_writeHist _ _ _

/-- R179. -/
theorem staysInCall_wrapCopy (c : Nat) : Keeps StaysInCall (wrapCopy c) :=
  staysInCall_get_bind fun _ => staysInCall_rewrite _ _ _ _ id

/-- R180. -/
theorem staysInCall_shiftBlock (c : Nat) : Keeps StaysInCall (shiftBlock c) := by
  refine staysInCall_get_bind fun s => ?_
  split
  · exact keeps_pure StaysInCall.refl _
  · exact staysInCall_rewrite _ _ _ _ _

/-- R171. -/
theorem staysInCall_offsetHist (c : Nat) (i : Int) (n : Nat) (d : Int) : Keeps StaysInCall (offsetHist c i n d) := by
  unfold offsetHist
  split
  · exact keeps_pure StaysInCall.refl _
  · exact staysInCall_rewrite _ _ _ _ _

/-- R190. -/
theorem staysInCall_assembleFrame : Keeps StaysInCall assembleFrame :=
  staysInCall_get_bind fun _ => staysInCall_bind
    (keeps_collectRange StaysInCall.refl StaysInCall.trans (fun _ => staysInCall_of_eq (keeps_readHist _ _ _)) _ _)
    fun _ => staysInCall_modify (fun _ => rfl) fun _ => rfl

/-- The end of a pass is a place in the call (R126). -/
theorem State.endPass_staysInCall (s : State) (o : PassOutcome) : StaysInCall s (s.endPass o) :=
  ⟨rfl, fun _ h => by cases h⟩

/-- R181, R143: the one place where an audio command leaves the pass. -/
theorem staysInCall_advanceChannel : Keeps StaysInCall advanceChannel := by
  refine staysInCall_bind (staysInCall_modify (fun _ => rfl) fun _ => rfl) fun _ => staysInCall_get_bind fun s => ?_
  split
  · exact staysInCall_bind staysInCall_assembleFrame fun _ =>
      keeps_modify fun t => State.endPass_staysInCall { t with currentChannel := 0 } .frame
  · exact keeps_pure StaysInCall.refl _

/-- R160, steps 4 to 7. -/
theorem staysInCall_postProcess (c : Nat) : Keeps StaysInCall (postProcess c) :=
  staysInCall_bind (staysInCall_updateMean c) fun _ => staysInCall_bind (staysInCall_wrapCopy c) fun _ =>
    staysInCall_bind (staysInCall_shiftBlock c) fun _ => staysInCall_advanceChannel

section

variable {body : Nat → M Unit} (hbody : ∀ c, Keeps StaysInCall (body c))

include hbody

/-- R160 for ZERO. -/
theorem staysInCall_zeroCommand : Keeps StaysInCall (zeroCommand body) :=
  staysInCall_get_bind fun _ => staysInCall_bind (staysInCall_computeCoffset _) fun _ =>
    staysInCall_bind (hbody _) fun _ => staysInCall_postProcess _

/-- R160 for the commands that read `residual_size`. -/
theorem staysInCall_audioCommand : Keeps StaysInCall (audioCommand body) := by
  have hresidualSize : Keeps StaysInCall readResidualSize :=
    staysInCall_bind (staysInCall_of_cursor keeps_readEnergy) fun _ => staysInCall_modify (fun _ => rfl) fun _ => rfl
  exact staysInCall_get_bind fun _ => staysInCall_bind hresidualSize fun _ =>
    staysInCall_bind (staysInCall_computeCoffset _) fun _ => staysInCall_bind (hbody _) fun _ => staysInCall_postProcess _

end

/-- R171. -/
theorem staysInCall_readCoefs (order : Nat) : Keeps StaysInCall (readCoefs order) :=
  keeps_forRange StaysInCall.refl StaysInCall.trans (fun _ =>
    staysInCall_bind (staysInCall_of_cursor (keeps_readSigned _)) fun _ => staysInCall_writeCoef _ _) _ _

/-- R171, R172. -/
theorem staysInCall_qlpcBody (c : Nat) : Keeps StaysInCall (qlpcBody c) := by
  refine staysInCall_bind (staysInCall_of_cursor keeps_readOrder) fun order =>
    staysInCall_bind (staysInCall_modify (fun _ => rfl) fun _ => rfl) fun _ => staysInCall_get_bind fun s => ?_
  split
  · exact keeps_raise StaysInCall.refl _
  · exact staysInCall_bind (staysInCall_readCoefs order) fun _ =>
      staysInCall_bind (staysInCall_modify (fun _ => rfl) fun _ => rfl) fun _ =>
      staysInCall_bind (staysInCall_offsetHist _ _ _ _) fun _ =>
      staysInCall_bind (staysInCall_modify (fun _ => rfl) fun _ => rfl) fun _ =>
      staysInCall_bind (keeps_collectRange StaysInCall.refl StaysInCall.trans
        (fun _ => staysInCall_of_eq (keeps_readCoef _)) _ _) fun _ => staysInCall_get_bind fun _ =>
      staysInCall_bind (staysInCall_predict _ _ _ _) fun _ => staysInCall_offsetHist _ _ _ _

/-- R146. -/
theorem staysInCall_bitshiftRule : Keeps StaysInCall bitshiftRule := by
  intro s
  obtain ⟨u, hu, heq | ⟨v, -, heq⟩⟩ := bitshiftRule_frame s <;> rw [heq] <;> exact hu.staysInCall

/-- R147. -/
theorem staysInCall_blocksizeRule : Keeps StaysInCall blocksizeRule := by
  intro s
  obtain ⟨u, hu, heq | ⟨v, -, -, heq⟩⟩ := blocksizeRule_frame s <;> rw [heq]
  · exact hu.staysInCall
  · exact hu.staysInCall.trans _ _ _ (State.endPass_staysInCall { u with blocksize := v } .noFrame)

/-- Every command performs a rule that stays in the call. -/
theorem exec_performs_staysInCall (hi : i ≠ .header) : ∃ m, exec i = perform m ∧ Keeps StaysInCall m := by
  cases i with
  | diff0 =>
    exact ⟨diff0Rule, rfl, staysInCall_audioCommand fun _ => staysInCall_get_bind fun _ => staysInCall_predict _ _ _ _⟩
  | diff1 => exact ⟨diff1Rule, rfl, staysInCall_audioCommand fun _ => staysInCall_predict _ _ _ _⟩
  | diff2 => exact ⟨diff2Rule, rfl, staysInCall_audioCommand fun _ => staysInCall_predict _ _ _ _⟩
  | diff3 => exact ⟨diff3Rule, rfl, staysInCall_audioCommand fun _ => staysInCall_predict _ _ _ _⟩
  | quit => exact ⟨quitRule, rfl, fun s => State.endPass_staysInCall { s with quitReceived := true } .noFrame⟩
  | blocksize => exact ⟨blocksizeRule, rfl, staysInCall_blocksizeRule⟩
  | bitshift => exact ⟨bitshiftRule, rfl, staysInCall_bitshiftRule⟩
  | qlpc => exact ⟨qlpcRule, rfl, staysInCall_audioCommand staysInCall_qlpcBody⟩
  | zero =>
    exact ⟨zeroRule, rfl, staysInCall_zeroCommand fun _ => staysInCall_get_bind fun _ => staysInCall_writeHist _ _ _⟩
  | verbatim => exact ⟨verbatimRule Config.general, rfl, fun s => (keeps_verbatimRule _ s).staysInCall⟩
  | illegal10or11 => exact ⟨illegal10or11Rule, rfl, fun s => (keeps_illegal10or11Rule s).staysInCall⟩
  | illegal12up => exact ⟨illegal12upRule, rfl, fun s => (keeps_illegal12upRule s).staysInCall⟩
  | header => exact absurd rfl hi

/-! ### A step answers the call or comes closer to its end -/

/-- R120: the call has ended with one more result. -/
def Answered (s t : State) : Prop := t.control = .idle ∧ ∃ r, t.results = s.results ++ [r]

theorem State.raise_answered (s : State) (c : Cause) : Answered s (s.raise c) := ⟨rfl, _, rfl⟩

/-- R204: an error that is taken inside a call answers it. -/
theorem Ends.staysInCall_or_answered (ht : Ends u t) (hu : StaysInCall s u) : StaysInCall s t ∨ Answered s t := by
  obtain rfl | ⟨c, rfl⟩ := ht
  · exact .inl hu
  · exact .inr ⟨rfl, _, congrArg (· ++ _) hu.1⟩

/-- An instruction stays in the call, or its error answers the call. -/
theorem exec_staysInCall_or_answered (h : exec i s = .next t) : StaysInCall s t ∨ Answered s t := by
  by_cases hi : i = .header
  · subst hi
    have hresults := (keeps_headerPass Config.impl s).results
    obtain hok | ⟨c, u, hraise, rfl⟩ := perform_next h
    · rw [hok] at hresults
      obtain ⟨u, -, rfl⟩ := headerPass_eq_ok.1 hok
      exact .inl ⟨hresults, fun _ hctl => by cases hctl⟩
    · rw [hraise] at hresults
      exact .inr ⟨rfl, _, congrArg (· ++ _) hresults⟩
  · obtain ⟨m, hexec, hm⟩ := exec_performs_staysInCall hi
    rw [hexec] at h
    exact (perform_ends h).staysInCall_or_answered (hm s)

/-- R64, R100: every opcode has bits. -/
theorem decode_length_pos {parsed : Bool} {bs : Bits} (h : decode Config.general parsed bs = .ok (i, n)) : 0 < n := by
  unfold decode at h
  split at h
  · have hrows : ∀ row ∈ opcodeRows Config.general, 0 < row.1.length := by
      rw [opcodeRows_general]
      decide
    unfold decodeCommand at h
    rcases hfind : (opcodeRows Config.general).find? (fun row => row.1.isPrefixOf bs) with - | row <;> rw [hfind] at h
    · cases h
    · cases h
      exact hrows row (List.mem_of_find?_eq_some hfind)
  · unfold decodeHeader at h
    split at h
    · cases h
      decide
    · cases h

/-- A bound of the steps until the call is answered: one for its end, one for the end of the pass, and one for each unread bit. -/
def State.stepsLeft (s : State) : Nat :=
  match s.control with
  | .idle => 0
  | .finish _ => 1
  | .pass => s.bitLength - s.pos + 2

theorem State.stepsLeft_idle (h : s.control = .idle) : s.stepsLeft = 0 := by rw [State.stepsLeft, h]

theorem State.stepsLeft_finish {o : PassOutcome} (h : s.control = .finish o) : s.stepsLeft = 1 := by rw [State.stepsLeft, h]

theorem State.stepsLeft_pass (h : s.control = .pass) : s.stepsLeft = s.bitLength - s.pos + 2 := by rw [State.stepsLeft, h]

theorem State.stepsLeft_pos (h : s.control ≠ .idle) : 0 < s.stepsLeft := by
  cases hctl : s.control with
  | idle => exact absurd hctl h
  | pass => rw [State.stepsLeft_pass hctl]; exact Nat.succ_pos _
  | finish o => rw [State.stepsLeft_finish hctl]; exact Nat.one_pos

theorem State.stepsLeft_le (s : State) : s.stepsLeft ≤ s.bitLength - s.pos + 2 := by
  cases hctl : s.control with
  | idle => rw [State.stepsLeft_idle hctl]; exact Nat.zero_le _
  | pass => rw [State.stepsLeft_pass hctl]
  | finish o => rw [State.stepsLeft_finish hctl]; omega

/-- R140: an instruction that completes leaves fewer steps than there were before its opcode. -/
theorem exec_issue_stepsLeft_lt (hctl : s.control = .pass) (hd : decode Config.general s.headerParsed s.unread = .ok (i, n))
    (hexec : exec i (s.issue Config.general i n) = .next t) (ht : t.control ≠ .idle) : t.stepsLeft < s.stepsLeft := by
  obtain ⟨u, hu, rfl | ⟨c, rfl⟩⟩ := exec_next hexec
  · rw [State.stepsLeft_pass hctl]
    have hpos := decode_length_pos hd
    have hfits := decode_length hd
    have hforward : s.pos + n ≤ t.pos := hu.pos_le
    have hlen : t.bitLength = s.bitLength := congrArg (8 * ·.length) hu.pending
    rw [State.unread_length] at hfits
    cases hnow : t.control with
    | idle => exact absurd hnow ht
    | pass => rw [State.stepsLeft_pass hnow]; omega
    | finish o => rw [State.stepsLeft_finish hnow]; omega
  · exact absurd rfl ht

/-- R126, R140: a step of a pass answers the call or comes closer to its end. -/
theorem step_pass_progress (hctl : s.control = .pass) (hstep : step s = .next t) :
    Answered s t ∨ t.control ≠ .idle ∧ t.results = s.results ∧ t.stepsLeft < s.stepsLeft := by
  have hrunning : s.control ≠ .idle := fun hidle => by rw [hctl] at hidle; cases hidle
  obtain rfl | ⟨c, rfl⟩ | ⟨i, n, hd, hexec⟩ := step_pass_next hctl hstep
  · refine .inr ⟨(s.endPass_staysInCall _).2 hrunning, rfl, ?_⟩
    rw [State.stepsLeft_pass hctl, State.stepsLeft_finish (State.endPass_control s _)]
    omega
  · exact .inl (s.raise_answered c)
  · obtain ⟨hresults, hcall⟩ | hanswered := exec_staysInCall_or_answered hexec
    · have ht := hcall hrunning
      exact .inr ⟨ht, hresults, exec_issue_stepsLeft_lt hctl hd hexec ht⟩
    · exact .inl hanswered

/-- R127, R128: the end of a pass answers the call. -/
theorem finishPass_answered {o : PassOutcome} (h : s.pos ≤ s.bitLength) : Answered s (finishPass o s) := by
  rw [finishPass_of_le o h]
  exact ⟨rfl, _, rfl⟩

/-- R120: inside a call every step answers it or comes closer to its end. -/
theorem State.Inv.step_progress (h : s.Inv) (hrunning : s.control ≠ .idle) (hstep : step s = .next t) :
    Answered s t ∨ t.control ≠ .idle ∧ t.results = s.results ∧ t.stepsLeft < s.stepsLeft := by
  cases hctl : s.control with
  | idle => exact absurd hctl hrunning
  | pass => exact step_pass_progress hctl hstep
  | finish o =>
    cases (step_finish hctl).symm.trans hstep
    exact .inl (finishPass_answered (h.buffer.pos_le hrunning))

/-! ### Running a call to its end -/

theorem runSteps_succ (hstep : step s = .next t) (k : Nat) : runSteps (k + 1) s = runSteps k t := by
  rw [runSteps, hstep]

/-- R241: a call is answered within any bound of the steps left. -/
theorem State.Inv.runs_until_answered (h : s.Inv) (hrunning : s.control ≠ .idle) (hbound : s.stepsLeft ≤ n) :
    ∃ k ≤ n, ∃ t, runSteps k s = some t ∧ Answered s t := by
  induction n generalizing s with
  | zero =>
    have hpos := State.stepsLeft_pos hrunning
    omega
  | succ n ih =>
    obtain ⟨t, hstep, hinv⟩ := invariantKeptAndNothingStops s h
    obtain hanswered | ⟨hcall, hresults, hless⟩ := h.step_progress hrunning hstep
    · exact ⟨1, Nat.succ_pos n, t, runSteps_succ hstep 0, hanswered⟩
    · obtain ⟨k, hk, u, hrun, hidle, r, hr⟩ := ih hinv hcall (by omega)
      exact ⟨k + 1, Nat.succ_le_succ hk, u, (runSteps_succ hstep k).trans hrun, hidle, r, hresults ▸ hr⟩

end Sys2Proof.Machine

namespace Sys2Proof

open Machine

/-- Settles O58: the steps left are at most the bits left, and two. -/
theorem callsTerminate : Obligations.CallsTerminate := by
  intro s h hrunning
  obtain ⟨k, hk, t, hrun, hidle, r, hr⟩ := h.runs_until_answered hrunning s.stepsLeft_le
  exact ⟨k, t, r, hk, hrun, hidle, hr⟩

end Sys2Proof
end
